-- ==== Sys2Proof/Word.lean ====
section
/-! DEFINITION. The octets and numbers of the links, the three stations, and one value per station. -/

namespace Sys2Proof

/-- One octet on a station link or on the instrument loop (R147, R184). -/
abbrev Byte := BitVec 8

/-- A two-octet number on a link (R195). -/
abbrev Word16 := BitVec 16

/-- A four-octet number on a link (R195). -/
abbrev Word32 := BitVec 32

/-- The three stations. The link identifies the station (R183): A is BARGE, B is SHIP, C is SURVEY. -/
inductive Station where
  | barge
  | ship
  | survey
  deriving DecidableEq, Repr

/-- One value for each station (or each link). -/
structure PerStation (α : Type) where
  barge : α
  ship : α
  survey : α
  deriving DecidableEq, Repr

/-- The value of one station. -/
def PerStation.at {α : Type} (p : PerStation α) : Station → α
  | .barge => p.barge
  | .ship => p.ship
  | .survey => p.survey

/-- Replace the value of one station. -/
def PerStation.put {α : Type} (p : PerStation α) (st : Station) (x : α) : PerStation α :=
  match st with
  | .barge => { p with barge := x }
  | .ship => { p with ship := x }
  | .survey => { p with survey := x }

end Sys2Proof
end

