-- ==== Sys2Proof/Syntax.lean ====
section
/-! DEFINITION. The commands of the block: one constructor for each row of spec/opcode_table.json, with the
operands the row's rules give it. A request's operands have their wire widths (R195, R196); an octet whose
codes are checked by a rule (a class, a source, a role) stays an octet, so that a wrong code can be sent. -/

namespace Sys2Proof

/-- A tank-list entry of PROPOSE and AMEND (R196): tank index and share. -/
structure TankShare where
  tank : Byte
  share : Byte
  deriving DecidableEq, Repr

/-- The step content that PROPOSE and AMEND carry (R13, R196). -/
structure StepContent where
  grade : Byte
  tanks : List TankShare
  quantity : Word32
  rateCap : Word16
  deriving DecidableEq, Repr

/-- One entry of a GAUGE request (R36, R196). -/
structure GaugeEntry where
  tank : Byte
  contents : Word32
  deriving DecidableEq, Repr

/-- The fields of a TANKDEF after its tank index (R32, R196). -/
structure TankContent where
  flag : Byte
  capacity : Word32
  high : Word16
  trip : Word16
  deriving DecidableEq, Repr

/-- The fields of a STAGEDEF after its stage index (R50, R196). -/
structure StageContent where
  enabled : Byte
  input : Byte
  enter : Word16
  leave : Word16
  mode : Byte
  k : Byte
  deriving DecidableEq, Repr

/-- An agent configuration as SET carries it (R144, R196). -/
structure AgentContent where
  enabled : Byte
  role : Byte
  channels : Byte
  use : Byte
  warn : Word16
  trip : Word16
  deriving DecidableEq, Repr

/-- A line configuration as SET carries it (R159, R196). -/
structure LineContent where
  function : Byte
  inversion : Byte
  debounce : Byte
  trigger : Byte
  notify : Byte
  deriving DecidableEq, Repr

/-- The settings SET_RATE_LIMITS writes (R172). -/
inductive RateLimit where
  | rmax
  | rmin
  | cb
  deriving DecidableEq, Repr

/-- The settings SET_STOP_TIMES writes (R173). -/
inductive StopTime where
  | tstop
  | rundown
  | tclose
  deriving DecidableEq, Repr

/-- The settings SET_TIMER_SETTING writes (R175 and R73 for U). -/
inductive TimerSetting where
  | u
  | confirm
  | topen
  | settle
  | poll
  | silence (link : Station)
  deriving DecidableEq, Repr

/-- Why a frame is discarded (R186). -/
inductive DiscardCause where
  | badCheck
  | badLength
  | badEscape
  | startOctet
  | faultyStop
  deriving DecidableEq, Repr

/-- The two limit switches of the delivery valve (R81). -/
inductive LimitSwitch where
  | openLimit
  | closedLimit
  deriving DecidableEq, Repr

/-- The supply in millivolts and the reset line, at the moment of a stop or a start (R179, R182). -/
structure PowerSample where
  supply : Nat
  resetAsserted : Bool
  deriving DecidableEq, Repr

/-- A stop: the power that brings it, and whether the write of the latest event had completed (R177, R179). -/
structure PartStop where
  power : PowerSample
  writeCompleted : Bool
  deriving DecidableEq, Repr

/-- What a start samples (R124, R168, R101, R181): the power, currents in microamperes (R182) and straps made or
open. -/
structure InputSample where
  power : PowerSample
  loopIn : Nat
  lines : Vector Nat 6
  openLimit : Nat
  closedLimit : Nat
  /-- First and second strap of each link, made or open (R181). -/
  straps : PerStation (Bool × Bool)
  deriving DecidableEq, Repr

/-- How retention memory came to be invalid before a cold start (R178). -/
inductive RetentionLoss where
  | markerLost
  | checkIncorrect
  deriving DecidableEq, Repr

/-- The blocks whose raises at a start may be taken in either order (R124). -/
inductive RaisingBlock where
  | watch
  | valve
  | lines
  deriving DecidableEq, Repr

/-- The commands. `link` is the link a frame arrives on, `tag` the request's tag (R184). -/
inductive Instr where
  | openTransfer (link : Station) (tag : Byte) (id : Word16) (grades : List Byte)
  | joinTransfer (link : Station) (tag : Byte)
  | closeTransfer (link : Station) (tag : Byte)
  | propose (link : Station) (tag : Byte) (content : StepContent)
  | amend (link : Station) (tag : Byte) (number : Byte) (content : StepContent)
  | agree (link : Station) (tag : Byte) (number : Byte)
  | revise (link : Station) (tag : Byte) (number : Byte) (operand : Byte)
  | withdraw (link : Station) (tag : Byte) (number : Byte)
  | startStep (link : Station) (tag : Byte)
  | lined (link : Station) (tag : Byte) (number : Byte)
  | stopStep (link : Station) (tag : Byte)
  | hold (link : Station) (tag : Byte) (cls : Byte) (reason : Byte)
  | release (link : Station) (tag : Byte) (source : Byte)
  | clear (link : Station) (tag : Byte) (source : Byte)
  | gauge (link : Station) (tag : Byte) (entries : List GaugeEntry)
  | tankdef (link : Station) (tag : Byte) (index : Byte) (content : TankContent)
  | stagedef (link : Station) (tag : Byte) (index : Byte) (content : StageContent)
  | setRateLimits (link : Station) (tag : Byte) (which : RateLimit) (index : Byte) (value : Word16)
  | setStopTimes (link : Station) (tag : Byte) (which : StopTime) (index : Byte) (value : Word16)
  | setTimerSetting (link : Station) (tag : Byte) (which : TimerSetting) (index : Byte) (value : Word16)
  | setS (link : Station) (tag : Byte) (index : Byte) (value : Word16)
  | setW (link : Station) (tag : Byte) (index : Byte) (value : Word16)
  | setNoFlow (link : Station) (tag : Byte) (index : Byte) (value : Word16)
  | setAgentConfiguration (link : Station) (tag : Byte) (address : Byte) (content : AgentContent)
  | setLineConfiguration (link : Station) (tag : Byte) (line : Byte) (content : LineContent)
  | getSetting (link : Station) (tag : Byte) (code : Byte) (index : Byte)
  | readStep (link : Station) (tag : Byte) (number : Byte)
  | readLists (link : Station) (tag : Byte)
  | readTotals (link : Station) (tag : Byte)
  | readHolds (link : Station) (tag : Byte)
  | readTanks (link : Station) (tag : Byte) (group : Byte)
  | readLines (link : Station) (tag : Byte)
  | readInstruments (link : Station) (tag : Byte)
  | readCounters (link : Station) (tag : Byte)
  | take (link : Station) (tag : Byte)
  | status (link : Station) (tag : Byte)
  | unknownRequest (link : Station) (tag : Byte) (type : Byte)
  | overrun (link : Station)
  | frameDiscard (link : Station) (cause : DiscardCause)
  | halt (link : Station)
  | transmissionEnd (link : Station)
  | silenceExpiry (link : Station)
  | confirmExpiry
  | strokeTimerExpiry
  | rundownExpiry
  | settleExpiry
  | rampSecond
  | rateSecond
  | noFlowExpiry
  | overspeedExpiry
  | pollCycleExpiry
  | transactionEnd (reply : List Byte)
  | tick
  | transferClockSecond
  | reportStale (tank : Fin 8)
  | reportLost (tank : Fin 8)
  | limitSwitchChange (switch : LimitSwitch) (microamps : Nat)
  | meterPulse
  | rawLineChange (line : Fin 6) (microamps : Nat)
  | lineDebounceComplete (line : Fin 6)
  | loopInRawChange (microamps : Nat)
  | loopInDebounceComplete
  | coldStart (loss : RetentionLoss) (sample : InputSample) (schedule : List RaisingBlock)
  | warmStart (sample : InputSample) (schedule : List RaisingBlock)
  | partStops (stop : PartStop)
  | receiverOctet (link : Station) (octet : Byte) (stopBitGood : Bool)
  deriving DecidableEq, Repr

end Sys2Proof
end

