-- ==== Sys2Proof/Decode.lean ====
section
/-! DEFINITION. The commands that a word spells by the opcode table's bits. The table gives no row any bits
(every row's "fields" is empty and none has "fixed"), so no word spells a command. The octet layouts of the
station links are no opcode table: they are read in Machine/Receiver.lean. -/

namespace Sys2Proof

/-- The command an `nbits`-wide word spells: none, for no row of the table has bits (log 30). -/
def decodeTableWord (_nbits _w : Nat) : Option Instr := none

end Sys2Proof
end

