-- ==== Sys2Proof/Config.lean ====
section
/-! DEFINITION. What the manual fixes for the part: capacities and electrical thresholds. The manual leaves no
value of an effect open, so there is no free value here. -/

namespace Sys2Proof.Config

/-- The step pool (R7). -/
def poolSize : Nat := 24

/-- The outbound queue of each link (R190). -/
def queueCapacity : Nat := 16

/-- The top of a litre count, a clock or an estimate (R1, R6, R30, R31). -/
def max32 : Nat := 4294967295

/-- The top of a bin, a rate or an age (R126, R41, R149). -/
def max16 : Nat := 65535

/-- The top of a count octet (R28, R105, R186). -/
def max8 : Nat := 255

/-- Ticks in a second of the 0.1 s Timebase. -/
def ticksPerSecond : Nat := 10

/-- Microamperes at and above which a line input or limit switch is asserted (R182). -/
def assertedAt : Nat := 5000

/-- Microamperes at and below which a line input or limit switch is not asserted (R182). -/
def notAssertedAt : Nat := 2000

/-- Microamperes at and above which loop IN is sensed CLOSED (R182). -/
def loopClosedAt : Nat := 12000

/-- Microamperes at and below which loop IN is sensed OPEN (R182). -/
def loopOpenAt : Nat := 6000

/-- Millivolts of supply below which the part stops (R182). -/
def stopBelow : Nat := 16000

/-- The operating range of the supply in millivolts, in which a start begins (R179, R182). -/
def operatingLow : Nat := 18000

def operatingHigh : Nat := 32000

/-- The microamperes a closed loop OUT sources, 20 mA ± 2 mA (R182). -/
def loopOutLow : Nat := 18000

def loopOutHigh : Nat := 22000

/-- Microamperes below which an open loop OUT stays (R182). -/
def loopOutOpenBelow : Nat := 500

/-- Microamperes below which the rate demand output stays while the part is stopped (R182). -/
def rateLostBelow : Nat := 1000

/-- The overspeed timer in ticks (R138). -/
def overspeedTicks : Nat := 50

/-- The debounce of loop IN in ticks (R111). -/
def loopDebounceTicks : Nat := 2

end Sys2Proof.Config
end

