-- ==== Sys2Proof/Machine/State.lean ====
section
/-! DEFINITION. The state of the FK-326: plain data, holding all the manual gives the part. `Retained` is what
retention memory keeps (R177); the rest is lost at a stop. Quantities the manual derives from held state are
computed where they are used (log 12). A timer is the ticks left to its expiry, `none` when stopped; `some 0`
is a timer whose expiry waits to be taken (log 4). -/

namespace Sys2Proof.Machine

/-! ### The transfer plan (chapter 01) -/

/-- Transfer state (R1). -/
inductive TransferState where
  | vacant
  | opened
  | joined
  | closed
  deriving DecidableEq, Repr

/-- The transfer record (R1). Grade code `g + 1` is held as `g : Fin 4`; `nextStep = none` is EXHAUSTED. -/
structure Transfer where
  state : TransferState
  id : Option Nat
  grades : List (Fin 4)
  nextStep : Option Nat
  clock : Nat
  deriving DecidableEq, Repr

/-- Hold sources (R103). -/
inductive HoldSource where
  | barge
  | ship
  | survey
  | linkBarge
  | linkShip
  | loop
  | line (n : Fin 6)
  | overfill
  | pressure
  | tension
  | valve
  | meter
  | power
  deriving DecidableEq, Repr

/-- End cause of a finished step (R8). -/
inductive EndCause where
  | quantity
  | topped (tank : Fin 8)
  | abandoned
  deriving DecidableEq, Repr

/-- Stop cause of a step being stopped (R78). -/
inductive StopCause where
  | quantity
  | topped (tank : Fin 8)
  | stopped (station : Station)
  | hold (source : HoldSource)
  deriving DecidableEq, Repr

/-- Last stop cause of a step record (R8). -/
inductive LastStop where
  | stopped (station : Station)
  | hold (source : HoldSource)
  | power
  deriving DecidableEq, Repr

/-- One tank-list entry of a step record (R8). -/
structure TankEntry where
  tank : Fin 8
  share : Nat
  credit : Nat
  deriving DecidableEq, Repr

/-- A step record that is not free (R8). Its record state is the place it is in. -/
structure Step where
  number : Nat
  grade : Fin 4
  tanks : List TankEntry
  quantity : Nat
  rateCap : Option Nat
  proposer : Station
  markBarge : Bool
  markShip : Bool
  delivered : Nat
  holdCount : Nat
  endCause : Option EndCause
  lastStop : Option LastStop
  startTime : Option Nat
  endTime : Option Nat
  deriving DecidableEq, Repr

/-- A grade total (R6). -/
structure GradeTotal where
  litres : Nat
  steps : Nat
  deriving DecidableEq, Repr

/-! ### The tanks and stages (chapter 02) -/

/-- Gauge status of a tank (R42). -/
inductive GaugeStatus where
  | none
  | fresh
  | stale
  | lost
  deriving DecidableEq, Repr

/-- The definition fields of a tank (R30). -/
structure TankDef where
  capacity : Nat
  high : Nat
  trip : Nat
  deriving DecidableEq, Repr

/-- A tank record (R30); `engaged` holds one bit for each stage. -/
structure Tank where
  definition : Option TankDef
  contents : Option Nat
  age : Nat
  credited : Nat
  status : GaugeStatus
  highCrossed : Bool
  overTrip : Bool
  engaged : Vector Bool 4
  deriving DecidableEq, Repr

/-- The three instrument roles (R150). -/
inductive Role where
  | hosePressure
  | manifoldPressure
  | tension
  deriving DecidableEq, Repr

/-- Input of a stage (R49). -/
inductive StageInput where
  | tankFill
  | role (r : Role)
  deriving DecidableEq, Repr

/-- Mode of a stage (R49, R61). -/
inductive StageMode where
  | eighths
  | fraction
  deriving DecidableEq, Repr

/-- A stage entry (R49). -/
structure Stage where
  enabled : Bool
  input : StageInput
  enter : Nat
  leave : Nat
  mode : StageMode
  k : Nat
  instrumentEngaged : Bool
  deriving DecidableEq, Repr

/-! ### Settings (chapter 09) -/

/-- The poll cycle setting (R146): 0.25, 0.5, 1, 2 and 4 s. -/
inductive PollCycle where
  | quarter
  | half
  | one
  | two
  | four
  deriving DecidableEq, Repr

/-- Channel use of an agent (R143). -/
inductive ChannelUse where
  | first
  | second
  | higher
  deriving DecidableEq, Repr

/-- Configuration of an instrument agent (R143); role `none` is NONE. -/
structure AgentConfig where
  enabled : Bool
  role : Option Role
  channels : Nat
  use : ChannelUse
  warn : Nat
  trip : Nat
  deriving DecidableEq, Repr

/-- Function of a line (R158). -/
inductive LineFunction where
  | unused
  | esdPush
  | levelSwitch
  | breakaway
  | dripTray
  | permit
  deriving DecidableEq, Repr

/-- Trigger of a line (R158). -/
inductive Trigger where
  | edge
  | level
  deriving DecidableEq, Repr

/-- Configuration of a line (R158). -/
structure LineConfig where
  function : LineFunction
  inverted : Bool
  debounce : Nat
  trigger : Trigger
  notify : PerStation Bool
  deriving DecidableEq, Repr

/-- The settings of R170 but for the tank definitions and stage entries. -/
structure Settings where
  rmax : Nat
  rmin : Nat
  u : Nat
  tstop : Nat
  cb : Nat
  rundown : Nat
  topen : Nat
  tclose : Nat
  confirm : Nat
  settle : Nat
  silence : PerStation Nat
  poll : PollCycle
  agents : Vector AgentConfig 4
  lines : Vector LineConfig 6
  stale : Nat
  weight : Nat
  noFlow : Nat
  deriving DecidableEq, Repr

/-! ### Delivery and holds (chapters 04 and 05) -/

/-- Delivery state (R78, R79). -/
inductive DeliveryState where
  | idle
  | armed
  | opening
  | pumping
  | rundown
  | closing
  | settling
  | held
  deriving DecidableEq, Repr

/-- The state an arming was made from (R78). -/
inductive ArmedFrom where
  | idle
  | held
  deriving DecidableEq, Repr

/-- Hold class (R103). -/
inductive HoldClass where
  | pause
  | trip
  deriving DecidableEq, Repr

/-- Reason of a raise (R106). -/
inductive HoldReason where
  | operator (n : Byte)
  | halt
  | lost
  | opened
  | line (function : LineFunction) (trigger : Trigger)
  | level (tank : Fin 8)
  | gaugeLost (tank : Fin 8)
  | role (r : Role)
  | noOpen
  | noClose
  | bothLimits
  | drift
  | noFlow
  | overspeed
  | cold
  | warm
  deriving DecidableEq, Repr

/-- An entry of the hold list (R103); condition present is computed (R113, log 12). -/
structure HoldEntry where
  source : HoldSource
  cls : HoldClass
  reason : HoldReason
  time : Nat
  repeats : Nat
  deriving DecidableEq, Repr

/-- What retention memory keeps (R177): the retained state of every block, the validity marker and whether the
check over the contents is correct (R178). -/
structure Retained where
  transfer : Transfer
  proposed : List Step
  agreed : List Step
  active : Option Step
  done : List Step
  /-- The records on the free list: they have no content and no order, so their number is all there is (R7). -/
  free : Nat
  totals : Vector GradeTotal 4
  tanks : Vector Tank 8
  stages : Vector Stage 4
  settings : Settings
  delivery : DeliveryState
  /-- Strictly rising step numbers (R78, R90). -/
  lapsed : List Nat
  holds : List HoldEntry
  metered : Nat
  unassigned : Nat
  marker : Bool
  checkCorrect : Bool
  deriving DecidableEq, Repr

/-- The limiting term (R56, R66). -/
inductive LimitTerm where
  | none
  | base
  | quantity
  | projection (tank : Fin 8)
  | stageTank (stage : Fin 4) (tank : Fin 8)
  | stageRole (stage : Fin 4) (role : Role)
  | degrade (tank : Fin 8)
  | blind
  deriving DecidableEq, Repr

/-- The Rate Governor's state (R56). -/
structure Governor where
  permitted : Nat
  term : LimitTerm
  demand : Nat
  noRise : Bool
  ramp : Option Nat
  deriving DecidableEq, Repr

/-- The valve command (R79). -/
inductive ValveCommand where
  | closed
  | opened
  deriving DecidableEq, Repr

/-- The valve state (R81). -/
inductive ValveState where
  | closed
  | opening
  | opened
  | closing
  | jammed
  deriving DecidableEq, Repr

/-- The Delivery Controller's and Valve Drive's unretained state (R78), with the limit switches as sensed. -/
structure Controller where
  armedFrom : Option ArmedFrom
  stopCause : Option StopCause
  confirm : Option Nat
  rundown : Option Nat
  settle : Option Nat
  stroke : Option Nat
  command : ValveCommand
  openLimit : Bool
  closedLimit : Bool
  deriving DecidableEq, Repr

/-- A current loop (R103, R111). -/
inductive LoopState where
  | closed
  | opened
  deriving DecidableEq, Repr

/-- The stop loop (R103): loop OUT as driven, loop IN raw and debounced, the debounce count. -/
structure StopLoop where
  loopOut : LoopState
  rawIn : LoopState
  loopIn : LoopState
  count : Nat
  deriving DecidableEq, Repr

/-- The no-flow detector with its timer (R126, R136). -/
inductive NoFlow where
  | quiet
  | timing (ticks : Nat)
  deriving DecidableEq, Repr

/-- The overspeed detector with its timer (R126, R138). -/
inductive Overspeed where
  | quiet
  | timing (ticks : Nat)
  | latched
  deriving DecidableEq, Repr

/-- The rate measurement and the detectors (R126); `window` is the five completed bins, oldest first. -/
structure Meter where
  bin : Nat
  window : Vector Nat 5
  rate : Nat
  rateTimer : Nat
  noFlow : NoFlow
  overspeed : Overspeed
  deriving DecidableEq, Repr

/-- Outcome of a transaction (R147). -/
inductive PollOutcome where
  | good
  | badCheck
  | noReply
  deriving DecidableEq, Repr

/-- State of an agent (R148). -/
inductive AgentState where
  | unknown
  | present
  | suspect
  | absent
  deriving DecidableEq, Repr

/-- The service fields of an agent (R143); the history is newest first. -/
structure AgentService where
  history : List PollOutcome
  state : AgentState
  value : Option Nat
  age : Nat
  deriving DecidableEq, Repr

/-- What a role holds (R150). -/
structure RoleRecord where
  value : Option Nat
  blind : Bool
  warn : Option Nat
  trip : Option Nat
  warned : Bool
  tripped : Bool
  deriving DecidableEq, Repr

/-- The Instrument Loop Controller's unretained state. `polling` is the agent whose transaction is under way
(R146), `discard` says that its outcome is to be discarded (R145), and `shortNext` that the next 0.25 s cycle
takes 2 ticks instead of 3 (R146). -/
structure Instruments where
  agents : Vector AgentService 4
  hose : RoleRecord
  manifold : RoleRecord
  tension : RoleRecord
  pollTimer : Nat
  shortNext : Bool
  polling : Option (Fin 4)
  discard : Bool
  deriving DecidableEq, Repr

/-- The service fields of a line (R158), with its raw input as sensed. -/
structure LineService where
  raw : Bool
  active : Bool
  count : Nat
  latch : Bool
  deriving DecidableEq, Repr

/-- Receiver state (R183, R185). -/
inductive Receiver where
  | hunt
  | length
  | body
  | checkLow
  | checkHigh
  deriving DecidableEq, Repr

/-- Link state (R188). -/
inductive LinkState where
  | down
  | up
  | lost
  deriving DecidableEq, Repr

/-- A frame by its unescaped octets: type, tag and data (R184). Its length and check follow from these. -/
structure Frame where
  type : Byte
  tag : Byte
  data : List Byte
  deriving DecidableEq, Repr

/-- Data rate of a link (R181): 9600, 19200, 38400 or 57600 baud. -/
inductive DataRate where
  | b9600
  | b19200
  | b38400
  | b57600
  deriving DecidableEq, Repr

/-- A Station Link Unit (R183). The frame in progress is its length, the octets from its type on, and the low
check octet once received. -/
structure Link where
  receiver : Receiver
  escape : Bool
  frameLength : Nat
  frameOctets : List Byte
  checkLow : Byte
  state : LinkState
  silence : Option Nat
  queue : List Frame
  overrun : Bool
  noticesLost : Bool
  errors : Nat
  rate : DataRate
  deriving DecidableEq, Repr

/-- The state of the part, with the queue of waiting commands. -/
structure State where
  /-- Retention memory's contents (R177). -/
  ret : Retained
  /-- Retention memory as it stood before the latest event (R177, log 11). -/
  prior : Retained
  /-- Whether the part runs or is stopped (R179). -/
  running : Bool
  /-- The transfer clock's tick count (R2). -/
  tickCount : Nat
  /-- The starvation counters (R28). -/
  starvation : PerStation Nat
  governor : Governor
  controller : Controller
  loop : StopLoop
  meter : Meter
  instruments : Instruments
  lines : Vector LineService 6
  links : PerStation Link
  /-- The commands that wait, first in first out: the model's own field (log 6). -/
  pending : List Instr
  deriving DecidableEq, Repr

/-- Reasons for the machine to stop. No command of this block stops the model, so there is none: PART_STOPS
(R179) is a next state. -/
inductive Fault where
  deriving DecidableEq, Repr

/-- Refusals of the model. -/
inductive Refusal where
  /-- Answered by `exec` for a command that has no meaning yet. Safe: it stops the run. No command is left so. -/
  | notModelled (mnemonic : String)
  deriving DecidableEq, Repr

/-! ### Values after a cold start -/

/-- The transfer record after a cold start (R1). -/
def coldTransfer : Transfer :=
  { state := .vacant, id := none, grades := [], nextStep := some 1, clock := 0 }

/-- An undefined tank (R30, R54). -/
def coldTank : Tank :=
  { definition := none, contents := none, age := 0, credited := 0, status := .none, highCrossed := false,
    overTrip := false, engaged := #v[false, false, false, false] }

/-- A stage entry after a cold start (R54). -/
def coldStage : Stage :=
  { enabled := false, input := .tankFill, enter := 1000, leave := 999, mode := .eighths, k := 0,
    instrumentEngaged := false }

/-- An agent configuration after a cold start (R157). -/
def coldAgent : AgentConfig :=
  { enabled := false, role := none, channels := 1, use := .first, warn := 1000, trip := 1500 }

/-- A line configuration after a cold start (R169). -/
def coldLine : LineConfig :=
  { function := .unused, inverted := false, debounce := 3, trigger := .level,
    notify := { barge := false, ship := false, survey := false } }

/-- The settings after a cold start (R170). -/
def coldSettings : Settings :=
  { rmax := 800, rmin := 40, u := 20, tstop := 30, cb := 200, rundown := 5, topen := 30, tclose := 20,
    confirm := 120, settle := 10, silence := { barge := 10, ship := 10, survey := 30 }, poll := .one,
    agents := #v[coldAgent, coldAgent, coldAgent, coldAgent],
    lines := #v[coldLine, coldLine, coldLine, coldLine, coldLine, coldLine],
    stale := 60, weight := 1, noFlow := 30 }

/-- Retention memory with every block at its cold-start values (R180), the hold list still empty and the
marker not yet written. -/
def coldRetained : Retained :=
  { transfer := coldTransfer, proposed := [], agreed := [], active := none, done := [], free := 24,
    totals := #v[⟨0, 0⟩, ⟨0, 0⟩, ⟨0, 0⟩, ⟨0, 0⟩],
    tanks := #v[coldTank, coldTank, coldTank, coldTank, coldTank, coldTank, coldTank, coldTank],
    stages := #v[coldStage, coldStage, coldStage, coldStage], settings := coldSettings, delivery := .idle,
    lapsed := [], holds := [], metered := 0, unassigned := 0, marker := false, checkCorrect := false }

/-- The Governor after any start, before P is computed (R77). -/
def startGovernor : Governor :=
  { permitted := 0, term := .none, demand := 0, noRise := false, ramp := none }

/-- The controller after any start, before the valve state is looked at (R101, R102). -/
def startController : Controller :=
  { armedFrom := none, stopCause := none, confirm := none, rundown := none, settle := none, stroke := none,
    command := .closed, openLimit := false, closedLimit := false }

/-- The measurement after any start (R140). -/
def startMeter : Meter :=
  { bin := 0, window := #v[0, 0, 0, 0, 0], rate := 0, rateTimer := 10, noFlow := .quiet, overspeed := .quiet }

/-- An agent's service after any start (R156). -/
def startAgent : AgentService := { history := [], state := .unknown, value := none, age := 0 }

/-- A role after any start (R156). -/
def startRole : RoleRecord :=
  { value := none, blind := true, warn := none, trip := none, warned := false, tripped := false }

/-- The instruments after a start with the default poll cycle (R156, R146). -/
def startInstruments : Instruments :=
  { agents := #v[startAgent, startAgent, startAgent, startAgent], hose := startRole, manifold := startRole,
    tension := startRole, pollTimer := 10, shortNext := false, polling := none, discard := false }

/-- A line after any start, its contact open and not inverted (R168). -/
def startLine : LineService := { raw := false, active := false, count := 0, latch := false }

/-- A link after any start, both straps open (R183, R181). -/
def startLink : Link :=
  { receiver := .hunt, escape := false, frameLength := 0, frameOctets := [], checkLow := 0#8, state := .down,
    silence := none, queue := [], overrun := false, noticesLost := false, errors := 0, rate := .b9600 }

/-- The machine right after reset: a cold start (R180) in which loop IN is sensed CLOSED, the valve's closed
limit is asserted and its open limit is not, no line contact is made and every strap is open. The levels
sampled are the model's choice: DESIGN CHOICE, log 10; every other value is the manual's. -/
def State.reset : State :=
  { ret := { coldRetained with
      holds := [{ source := .power, cls := .trip, reason := .cold, time := 0, repeats := 0 }],
      marker := true, checkCorrect := true },
    prior := coldRetained, running := true, tickCount := 0,
    starvation := { barge := 0, ship := 0, survey := 0 }, governor := startGovernor,
    controller := { startController with closedLimit := true },
    loop := { loopOut := .opened, rawIn := .closed, loopIn := .closed, count := 0 }, meter := startMeter,
    instruments := startInstruments,
    lines := #v[startLine, startLine, startLine, startLine, startLine, startLine],
    links := { barge := startLink, ship := startLink, survey := startLink }, pending := [] }

end Sys2Proof.Machine
end

