-- ==== Sys2Proof/Machine/Wire.lean ====
section
/-! DEFINITION. The octets of the links: number and code layouts (R195), frames on the line (R184), the type and
result codes (R194), and the data of every notice (R199). -/

namespace Sys2Proof.Machine

/-! ### Numbers (R195): low octet first, absent as all ones -/

def oct (n : Nat) : Byte := BitVec.ofNat 8 n

/-- Two octets, low octet first (R195). -/
def le2 (n : Nat) : List Byte := [oct n, oct (n / 256)]

/-- Four octets, low octet first (R195). -/
def le4 (n : Nat) : List Byte := [oct n, oct (n / 256), oct (n / 65536), oct (n / 16777216)]

def flag (b : Bool) : Byte := if b then 1#8 else 0#8

/-- A two-octet field that may be absent (R195). -/
def le2? (n : Option Nat) : List Byte := le2 (n.getD 65535)

/-- A four-octet field that may be absent (R195). -/
def le4? (n : Option Nat) : List Byte := le4 (n.getD 4294967295)

/-- Two octets received, low octet first (R195). -/
def word2 (lo hi : Byte) : Word16 := hi ++ lo

/-- Four octets received, low octet first (R195). -/
def word4 (a b c d : Byte) : Word32 := (d ++ c) ++ (b ++ a)

/-! ### Codes (R194, R195) -/

/-- Result codes (R194). -/
inductive Result where
  | ok | unchanged | clamped | unknown | malformed | notPermitted | notOwner | wrongState | noStep | poolEmpty
  | planFull | held | noGauge | noPermit | noLink | late | busy | persists | recordsPending | empty | range
  deriving DecidableEq, Repr

def Result.code : Result → Byte
  | .ok => 0x00#8
  | .unchanged => 0x01#8
  | .clamped => 0x02#8
  | .unknown => 0x20#8
  | .malformed => 0x21#8
  | .notPermitted => 0x22#8
  | .notOwner => 0x23#8
  | .wrongState => 0x24#8
  | .noStep => 0x25#8
  | .poolEmpty => 0x26#8
  | .planFull => 0x27#8
  | .held => 0x28#8
  | .noGauge => 0x29#8
  | .noPermit => 0x2A#8
  | .noLink => 0x2B#8
  | .late => 0x2C#8
  | .busy => 0x2D#8
  | .persists => 0x2E#8
  | .recordsPending => 0x2F#8
  | .empty => 0x30#8
  | .range => 0x31#8

/-- Request types (R194). -/
inductive RequestType where
  | openTransfer | joinTransfer | closeTransfer | propose | amend | agree | revise | withdraw | startStep
  | lined | stopStep | hold | release | clear | gauge | tankdef | stagedef | set | get | read | take | status
  deriving DecidableEq, Repr

def RequestType.code : RequestType → Byte
  | .openTransfer => 0x01#8
  | .joinTransfer => 0x02#8
  | .closeTransfer => 0x03#8
  | .propose => 0x04#8
  | .amend => 0x05#8
  | .agree => 0x06#8
  | .revise => 0x07#8
  | .withdraw => 0x08#8
  | .startStep => 0x09#8
  | .lined => 0x0A#8
  | .stopStep => 0x0B#8
  | .hold => 0x0C#8
  | .release => 0x0D#8
  | .clear => 0x0E#8
  | .gauge => 0x0F#8
  | .tankdef => 0x10#8
  | .stagedef => 0x11#8
  | .set => 0x12#8
  | .get => 0x13#8
  | .read => 0x14#8
  | .take => 0x15#8
  | .status => 0x16#8

/-- Which stations may send a request type (R193). -/
def RequestType.permits : RequestType → Station → Bool
  | .openTransfer, st | .closeTransfer, st | .startStep, st => decide (st = .barge)
  | .joinTransfer, st | .lined, st | .gauge, st | .tankdef, st | .stagedef, st => decide (st = .ship)
  | .propose, st | .amend, st | .agree, st | .revise, st | .withdraw, st | .stopStep, st | .clear, st =>
    decide (st ≠ .survey)
  | .take, st => decide (st = .survey)
  | .hold, _ | .release, _ | .set, _ | .get, _ | .read, _ | .status, _ => true

def stationCode : Station → Byte
  | .barge => 1#8
  | .ship => 2#8
  | .survey => 3#8

def transferCode : TransferState → Byte
  | .vacant => 0#8
  | .opened => 1#8
  | .joined => 2#8
  | .closed => 3#8

def deliveryCode : DeliveryState → Byte
  | .idle => 0#8
  | .armed => 1#8
  | .opening => 2#8
  | .pumping => 3#8
  | .rundown => 4#8
  | .closing => 5#8
  | .settling => 6#8
  | .held => 7#8

def valveStateCode : ValveState → Byte
  | .closed => 0#8
  | .opening => 1#8
  | .opened => 2#8
  | .closing => 3#8
  | .jammed => 4#8

def commandCode : ValveCommand → Byte
  | .closed => 0#8
  | .opened => 1#8

def loopCode : LoopState → Byte
  | .closed => 0#8
  | .opened => 1#8

def gaugeCode : GaugeStatus → Byte
  | .none => 0#8
  | .fresh => 1#8
  | .stale => 2#8
  | .lost => 3#8

def sourceCode : HoldSource → Byte
  | .barge => 1#8
  | .ship => 2#8
  | .survey => 3#8
  | .linkBarge => 4#8
  | .linkShip => 5#8
  | .loop => 6#8
  | .line n => oct (7 + n.val)
  | .overfill => 13#8
  | .pressure => 14#8
  | .tension => 15#8
  | .valve => 16#8
  | .meter => 17#8
  | .power => 18#8

/-- All 18 hold sources, in the order of their codes (R195). -/
def allSources : List HoldSource :=
  [.barge, .ship, .survey, .linkBarge, .linkShip, .loop, .line 0, .line 1, .line 2, .line 3, .line 4, .line 5,
    .overfill, .pressure, .tension, .valve, .meter, .power]

/-- The source a code names, none outside 1 to 18 (R195, R196). -/
def sourceOfCode (c : Byte) : Option HoldSource := allSources.find? fun src => sourceCode src == c

/-- No first-out source is sent as 0 (R195). -/
def firstOutCode : List HoldEntry → Byte
  | [] => 0#8
  | h :: _ => sourceCode h.source

def classCode : HoldClass → Byte
  | .pause => 0#8
  | .trip => 1#8

def functionCode : LineFunction → Byte
  | .unused => 0#8
  | .esdPush => 1#8
  | .levelSwitch => 2#8
  | .breakaway => 3#8
  | .dripTray => 4#8
  | .permit => 5#8

def triggerCode : Trigger → Byte
  | .edge => 0#8
  | .level => 1#8

def roleCode : Option Role → Byte
  | none => 0#8
  | some .hosePressure => 1#8
  | some .manifoldPressure => 2#8
  | some .tension => 3#8

def useCode : ChannelUse → Byte
  | .first => 0#8
  | .second => 1#8
  | .higher => 2#8

def agentStateCode : AgentState → Byte
  | .unknown => 0#8
  | .present => 1#8
  | .suspect => 2#8
  | .absent => 3#8

def outcomeCode : PollOutcome → Byte
  | .good => 1#8
  | .badCheck => 2#8
  | .noReply => 3#8

def inputCode : StageInput → Byte
  | .tankFill => 0#8
  | .role .hosePressure => 1#8
  | .role .manifoldPressure => 2#8
  | .role .tension => 3#8

def modeCode : StageMode → Byte
  | .eighths => 0#8
  | .fraction => 1#8

def pollCode : PollCycle → Nat
  | .quarter => 0
  | .half => 1
  | .one => 2
  | .two => 3
  | .four => 4

def rateCode : DataRate → Nat
  | .b9600 => 0
  | .b19200 => 1
  | .b38400 => 2
  | .b57600 => 3

/-- A notify set as one octet (R195). -/
def notifyCode (n : PerStation Bool) : Byte :=
  oct ((if n.barge then 1 else 0) + (if n.ship then 2 else 0) + (if n.survey then 4 else 0))

/-- Consent marks as one octet (R195). -/
def marksCode (r : Step) : Byte := oct ((if r.markBarge then 1 else 0) + (if r.markShip then 2 else 0))

/-- Engaged fill stages as one octet (R195). -/
def engagedCode (v : Vector Bool 4) : Byte :=
  oct ((if v[0] then 1 else 0) + (if v[1] then 2 else 0) + (if v[2] then 4 else 0) + (if v[3] then 8 else 0))

/-- A grade code 1 to 4. -/
def gradeCode (g : Fin 4) : Byte := oct (g.val + 1)

/-- Causes as kind and detail octets (R195); a detail that a kind does not use is 0 (log 17). -/
def causeAbsent : List Byte := [0#8, 0#8]

def endCauseOctets : Option EndCause → List Byte
  | none => causeAbsent
  | some .quantity => [1#8, 0#8]
  | some (.topped t) => [2#8, oct t.val]
  | some .abandoned => [3#8, 0#8]

def stopCauseOctets : Option StopCause → List Byte
  | none => causeAbsent
  | some .quantity => [1#8, 0#8]
  | some (.topped t) => [2#8, oct t.val]
  | some (.stopped st) => [4#8, stationCode st]
  | some (.hold src) => [5#8, sourceCode src]

def lastStopOctets : Option LastStop → List Byte
  | none => causeAbsent
  | some (.stopped st) => [4#8, stationCode st]
  | some (.hold src) => [5#8, sourceCode src]
  | some .power => [6#8, 0#8]

/-- How an arming ended (R88, R89, R199). -/
inductive ArmingEnd where
  | expired
  | stopped (station : Station)
  | hold (source : HoldSource)
  deriving DecidableEq, Repr

def armingEndOctets : ArmingEnd → List Byte
  | .expired => [7#8, 0#8]
  | .stopped st => [4#8, stationCode st]
  | .hold src => [5#8, sourceCode src]

/-- A hold reason as two octets (R195). -/
def reasonOctets : HoldReason → List Byte
  | .operator n => [0#8, n]
  | .halt => [1#8, 0#8]
  | .lost | .opened => [0#8, 0#8]
  | .line f t => [functionCode f, triggerCode t]
  | .level t => [0#8, oct t.val]
  | .gaugeLost t => [1#8, oct t.val]
  | .role .tension => [0#8, 0#8]
  | .role r => [roleCode (some r), 0#8]
  | .noOpen => [0#8, 0#8]
  | .noClose => [1#8, 0#8]
  | .bothLimits => [2#8, 0#8]
  | .drift => [3#8, 0#8]
  | .noFlow => [0#8, 0#8]
  | .overspeed => [1#8, 0#8]
  | .cold => [0#8, 0#8]
  | .warm => [1#8, 0#8]

/-- A limiting term as kind and two details (R197). -/
def termOctets : LimitTerm → List Byte
  | .none => [0#8, 0#8, 0#8]
  | .base => [1#8, 0#8, 0#8]
  | .quantity => [2#8, 0#8, 0#8]
  | .projection t => [3#8, oct t.val, 0#8]
  | .stageTank st t => [4#8, oct st.val, oct t.val]
  | .stageRole st r => [4#8, oct st.val, oct (128 + (roleCode (some r)).toNat)]
  | .degrade t => [5#8, oct t.val, 0#8]
  | .blind => [6#8, 0#8, 0#8]

/-- Next step number: EXHAUSTED is sent as 0 (R195). -/
def nextStepCode (n : Option Nat) : Byte := oct (n.getD 0)

/-! ### Frames on the line (R184) -/

/-- The octets the check word covers: length, type, tag and data. -/
def Frame.covered (f : Frame) : List Byte := oct (f.data.length + 2) :: f.type :: f.tag :: f.data

/-- Sum of octets modulo 65536 (R184). -/
def octetSum (l : List Byte) : Nat := (l.foldl (fun n b => n + b.toNat) 0) % 65536

/-- The check word over the covered octets: the 16-bit two's complement of their sum (R184). -/
def checkWord (covered : List Byte) : Nat := (65536 - octetSum covered) % 65536

/-- One octet after the start octet, escaped (R184). -/
def escapeOctet (b : Byte) : List Byte :=
  if b = 0xA5#8 ∨ b = 0x18#8 ∨ b = 0x1B#8 then [0x1B#8, b ^^^ 0x20#8] else [b]

/-- The octets of a frame on the line: start octet, then all others escaped, the check low octet first (R184). -/
def Frame.onLine (f : Frame) : List Byte :=
  0xA5#8 :: (f.covered ++ le2 (checkWord f.covered)).flatMap escapeOctet

/-! ### Replies and notices (R194, R199) -/

/-- A reply: the request's type with 80h added, its tag, the result code and the reply data (R194). -/
def replyFrame (type : RequestType) (tag : Byte) (res : Result) (data : List Byte) : Frame :=
  { type := type.code + 0x80#8, tag := tag, data := res.code :: data }

/-- The reply to an unknown type: type 80h, the result code and the type as received (R194). -/
def unknownReply (tag type : Byte) : Frame :=
  { type := 0x80#8, tag := tag, data := [Result.unknown.code, type] }

/-- A notice with the stations it is addressed to. -/
structure Notice where
  stations : List Station
  frame : Frame
  deriving DecidableEq, Repr

def allStations : List Station := [.barge, .ship, .survey]

/-- A notice carries tag 0 (R194). -/
def notice (stations : List Station) (type : Byte) (data : List Byte) : Notice :=
  { stations := stations, frame := { type := type, tag := 0#8, data := data } }

/-- Transfer ids are sent as 0 when absent (R1, R197). -/
def idOctets (tr : Transfer) : List Byte := le2 (tr.id.getD 0)

/-- Kinds of PLAN notices (R19, R199). -/
inductive PlanKind where
  | transfer (state : TransferState)
  | proposed (number : Nat)
  | amended (number : Nat)
  | agreed (number : Nat)
  | revised (first count : Nat) (operand : Byte)
  | withdrawn (number : Nat)
  | taken (number : Nat)
  deriving DecidableEq, Repr

def PlanKind.octets : PlanKind → List Byte
  | .transfer st => [1#8, transferCode st]
  | .proposed n => [2#8, oct n]
  | .amended n => [3#8, oct n]
  | .agreed n => [4#8, oct n]
  | .revised n c op => [5#8, oct n, oct c, op]
  | .withdrawn n => [6#8, oct n]
  | .taken n => [7#8, oct n]

/-- Where a PLAN notice goes (R19). -/
def PlanKind.stations : PlanKind → List Station
  | .transfer _ => allStations
  | _ => [.barge, .ship]

def planNotice (tr : Transfer) (kind : PlanKind) : Notice :=
  notice kind.stations 0x41#8 (idOctets tr ++ kind.octets)

/-- STEPSTATE (R80, R199). -/
def stepStateNotice (number : Nat) (prev new : DeliveryState) (stop : Option StopCause) (fin : Option EndCause)
    (last : Option LastStop) (delivered : Nat) : Notice :=
  notice allStations 0x42#8
    ([oct number, deliveryCode prev, deliveryCode new] ++ stopCauseOctets stop ++ endCauseOctets fin ++
      lastStopOctets last ++ le4 delivered)

def shareOctets (l : List TankEntry) : List Byte := l.flatMap fun e => [oct e.tank.val, oct e.share]

/-- STARTREQ (R86, R199). -/
def startReqNotice (r : Step) (armedFrom : DeliveryState) (confirm : Nat) : Notice :=
  notice [.ship, .barge] 0x43#8
    ([oct r.number, gradeCode r.grade, deliveryCode armedFrom] ++ le4 r.quantity ++ le4 r.delivered ++
      le2 confirm ++ [oct r.tanks.length] ++ shareOctets r.tanks)

/-- STARTEXPIRED (R88, R199); `held` says where the step now stands. -/
def startExpiredNotice (number : Nat) (how : ArmingEnd) (held : Bool) : Notice :=
  notice [.barge, .ship] 0x44#8 ([oct number] ++ armingEndOctets how ++ [flag held])

/-- Kinds of HOLDRAISED (R121). -/
inductive RaiseKind where
  | new
  | again
  | escalated
  deriving DecidableEq, Repr

def raiseKindCode : RaiseKind → Byte
  | .new => 0#8
  | .again => 1#8
  | .escalated => 2#8

/-- HOLDRAISED (R121, R199). -/
def holdRaisedNotice (entry : HoldEntry) (kind : RaiseKind) (list : List HoldEntry) (loopOut : LoopState) : Notice :=
  notice allStations 0x45#8
    ([sourceCode entry.source, raiseKindCode kind, classCode entry.cls] ++ reasonOctets entry.reason ++
      [oct entry.repeats] ++ le4 entry.time ++ [oct list.length, firstOutCode list, loopCode loopOut])

/-- HOLDCLEARED (R122, R199). -/
def holdClearedNotice (src : HoldSource) (by_ : Station) (list : List HoldEntry) (loopOut : LoopState) : Notice :=
  notice allStations 0x46#8
    [sourceCode src, stationCode by_, oct list.length, firstOutCode list, loopCode loopOut]

/-- Kinds of LEVEL (R48). -/
inductive LevelKind where
  | high
  | trip
  | stale
  | lost
  deriving DecidableEq, Repr

def levelKindCode : LevelKind → Byte
  | .high => 0#8
  | .trip => 1#8
  | .stale => 2#8
  | .lost => 3#8

/-- LEVEL (R48, R199). -/
def levelNotice (tank : Fin 8) (kind : LevelKind) (estimate fill : Nat) (status : GaugeStatus) : Notice :=
  notice [.ship, .barge] 0x47#8
    ([oct tank.val, levelKindCode kind] ++ le4 estimate ++ le2 fill ++ [gaugeCode status])

/-- The stations of a notify set. -/
def notifyStations (n : PerStation Bool) : List Station := allStations.filter fun st => n.at st

/-- LINEEVENT (R166, R199). -/
def lineEventNotice (line : Fin 6) (c : LineConfig) (raised : Bool) (time : Nat) : Notice :=
  notice (notifyStations c.notify) 0x48#8
    ([oct (line.val + 1), functionCode c.function, triggerCode c.trigger, flag raised, 1#8] ++ le4 time)

/-- INSTRUMENT of kind AGENT (R154, R199). Role NONE has no role record: its value, blind, warned and tripped
are absent and sent as all ones (R195, log 18). -/
def agentNotice (address : Fin 4) (prev new : AgentState) (role : Option Role) (rec : Option RoleRecord) : Notice :=
  notice [.barge] 0x49#8
    ([0#8, oct (address.val + 1), agentStateCode prev, agentStateCode new, roleCode role] ++
      match rec with
      | none => [0xFF#8, 0xFF#8, 0xFF#8, 0xFF#8, 0xFF#8]
      | some r => le2? r.value ++ [flag r.blind, flag r.warned, flag r.tripped])

/-- INSTRUMENT of kind LIMIT (R154, R199). -/
def limitNotice (role : Role) (r : RoleRecord) : Notice :=
  notice [.barge] 0x49#8
    ([1#8, 0#8, 0xFF#8, 0xFF#8, roleCode (some role)] ++ le2? r.value ++ [flag r.blind, flag r.warned, flag r.tripped])

/-- CREEP (R131, R199). -/
def creepNotice (unassigned metered : Nat) (tr : TransferState) (d : DeliveryState) (number : Nat) : Notice :=
  notice [.barge, .survey] 0x4A#8
    (le4 unassigned ++ le4 metered ++ [transferCode tr, deliveryCode d, oct number])

end Sys2Proof.Machine
end

