-- ==== Sys2Proof/Machine/Ops.lean ====
section
/-! DEFINITION. The operations every block uses: clamps and tables, records by number, the outbound queues, and
the event: one command's effect with the notices it causes, ended by queueing its reply and notices in the
order of R80, R107, R153, R163 and R190. -/

namespace Sys2Proof.Machine

/-! ### Clamps and fixed-size tables -/

/-- A value brought to the nearer end of a range (00, Arithmetic). -/
def clamp (lo hi n : Nat) : Nat := min (max n lo) hi

/-- A count that stops at 255 (R22, R28, R105, R186). -/
def bump8 (n : Nat) : Nat := min (n + 1) Config.max8

def mapTable {α β : Type} {n : Nat} (f : α → β) (v : Vector α n) : Vector β n :=
  ⟨⟨v.toList.map f⟩, by simp⟩

def zipTable {α β γ : Type} {n : Nat} (f : α → β → γ) (v : Vector α n) (w : Vector β n) : Vector γ n :=
  ⟨⟨List.zipWith f v.toList w.toList⟩, by simp⟩

def at' {α : Type} {n : Nat} (v : Vector α n) (i : Fin n) : α := v[i.val]

def put {α : Type} {n : Nat} (v : Vector α n) (i : Fin n) (x : α) : Vector α n := v.set i.val x

def allTanks : List (Fin 8) := [0, 1, 2, 3, 4, 5, 6, 7]

def allStages : List (Fin 4) := [0, 1, 2, 3]

def allAgents : List (Fin 4) := [0, 1, 2, 3]

def allLines : List (Fin 6) := [0, 1, 2, 3, 4, 5]

def allGrades : List (Fin 4) := [0, 1, 2, 3]

def allRoles : List Role := [.hosePressure, .manifoldPressure, .tension]

/-- An index below `n` from a number, none outside. -/
def index? (n k : Nat) : Option (Fin n) := if h : k < n then some ⟨k, h⟩ else none

/-- An index from a code that counts from 1 (grades, agents, lines), none outside. -/
def code? (n k : Nat) : Option (Fin n) := if k = 0 then none else index? n (k - 1)

/-! ### Records and sets -/

/-- The record that bears a number in a list. -/
def findStep (l : List Step) (n : Nat) : Option Step := l.find? fun r => r.number == n

/-- A list without the record that bears a number (a number names at most one record, R9). -/
def dropStep (l : List Step) (n : Nat) : List Step := l.eraseP fun r => r.number == n

/-- Replace the record that bears the same number, in its place. -/
def replaceStep (l : List Step) (r : Step) : List Step := l.map fun q => if q.number == r.number then r else q

/-- Quantity sum of PROPOSED and AGREED (R10). -/
def sumQuantity (l : List Step) : Nat := (l.map Step.quantity).sum

/-- Quantity sum of DONE (R10). -/
def sumDelivered (l : List Step) : Nat := (l.map Step.delivered).sum

/-- Put a number into a strictly rising list. -/
def insertNumber (n : Nat) : List Nat → List Nat
  | [] => [n]
  | m :: rest => if n < m then n :: m :: rest else if n = m then m :: rest else m :: insertNumber n rest

/-- Whether a consent mark is a station's (SURVEY has none, R8). -/
def Step.marked (r : Step) : Station → Bool
  | .barge => r.markBarge
  | .ship => r.markShip
  | .survey => false

/-- Keep a station's mark and clear the other's (R11). -/
def Step.onlyMark (r : Step) (st : Station) : Step :=
  { r with markBarge := decide (st = .barge), markShip := decide (st = .ship) }

/-- Set a station's mark (R11). -/
def Step.addMark (r : Step) (st : Station) : Step :=
  { r with markBarge := r.markBarge || decide (st = .barge), markShip := r.markShip || decide (st = .ship) }

/-! ### State updates -/

def State.setTank (s : State) (i : Fin 8) (t : Tank) : State := { s with ret.tanks := put s.ret.tanks i t }

def State.tank (s : State) (i : Fin 8) : Tank := at' s.ret.tanks i

def State.stage (s : State) (i : Fin 4) : Stage := at' s.ret.stages i

def State.setLink (s : State) (link : Station) (l : Link) : State := { s with links := s.links.put link l }

def State.link (s : State) (link : Station) : Link := s.links.at link

def State.setLine (s : State) (i : Fin 6) (l : LineService) : State := { s with lines := put s.lines i l }

def State.line (s : State) (i : Fin 6) : LineService := at' s.lines i

def State.lineConfig (s : State) (i : Fin 6) : LineConfig := at' s.ret.settings.lines i

def State.agentConfig (s : State) (i : Fin 4) : AgentConfig := at' s.ret.settings.agents i

def State.agent (s : State) (i : Fin 4) : AgentService := at' s.instruments.agents i

def Instruments.role (m : Instruments) : Role → RoleRecord
  | .hosePressure => m.hose
  | .manifoldPressure => m.manifold
  | .tension => m.tension

/-! ### Links (R183 to R191) -/

/-- The frame in progress and escape-pending are cleared and the receiver goes to a state (R186). -/
def Link.resetReceiver (l : Link) (r : Receiver) : Link :=
  { l with receiver := r, escape := false, frameLength := 0, frameOctets := [], checkLow := 0#8 }

/-- A valid frame ends: the receiver returns to HUNT, the link is UP and its silence timer starts (R185, R188). -/
def State.frameTaken (s : State) (link : Station) : State :=
  s.setLink link
    { (s.link link).resetReceiver .hunt with
      state := .up, silence := some (Config.ticksPerSecond * s.ret.settings.silence.at link) }

/-- Whether the outbound queue holds 16 frames (R190, R191). -/
def Link.full (l : Link) : Bool := decide (Config.queueCapacity ≤ l.queue.length)

/-- A valid frame that finds the queue full is not taken; the overrun flag is set (R191). -/
def State.overrun (s : State) (link : Station) : State := s.setLink link { s.link link with overrun := true }

/-- A reply joins its link's queue (R190). -/
def State.queueReply (s : State) (link : Station) (f : Frame) : State :=
  s.setLink link { s.link link with queue := (s.link link).queue ++ [f] }

/-- A notice joins a link's queue, or is lost there with notices-lost set (R191). -/
def State.queueNotice (s : State) (f : Frame) (link : Station) : State :=
  let l := s.link link
  if l.state = .up ∧ l.full = false then s.setLink link { l with queue := l.queue ++ [f] }
  else s.setLink link { l with noticesLost := true }

/-- A notice is queued on each link it is addressed to. -/
def State.post (s : State) (n : Notice) : State := n.stations.foldl (fun s' link => s'.queueNotice n.frame link) s

def State.postAll (s : State) (l : List Notice) : State := l.foldl State.post s

/-! ### The event -/

/-- One event in the making: the state so far, the delivery state it began in, the record that left the ACTIVE
slot in it, and its notices. `notes` are queued first, in the order raised, then STEPSTATE, then `arming`
(STARTREQ or STARTEXPIRED), then `late` (LINEEVENT, INSTRUMENT). -/
structure Event where
  s : State
  began : DeliveryState
  moved : Option Step
  notes : List Notice
  arming : Option Notice
  late : List Notice

/-- An event begins; retention memory as it stands is what an interrupted write would leave (R177). -/
def State.begin (s : State) : Event :=
  { s := { s with prior := s.ret }, began := s.ret.delivery, moved := none, notes := [], arming := none, late := [] }

def Event.mod (e : Event) (f : State → State) : Event := { e with s := f e.s }

def Event.note (e : Event) (n : Notice) : Event := { e with notes := e.notes ++ [n] }

def Event.lateNote (e : Event) (n : Notice) : Event := { e with late := e.late ++ [n] }

/-- The step a STEPSTATE concerns: the one in the ACTIVE slot, else the one that left it in this event (R80). -/
def Event.concerned (e : Event) : Option Step :=
  match e.s.ret.active with
  | some r => some r
  | none => e.moved

/-- Whether a delivery state carries a stop cause (R80). -/
def DeliveryState.stopping : DeliveryState → Bool
  | .rundown | .closing | .settling => true
  | .idle | .armed | .opening | .pumping | .held => false

/-- The one STEPSTATE of an event, for the change from its first delivery state to its last (R80). -/
def Event.stepState (e : Event) : List Notice :=
  let now := e.s.ret.delivery
  if e.began = now then []
  else
    [stepStateNotice ((e.concerned.map Step.number).getD 0) e.began now
      (if now.stopping then e.s.controller.stopCause else none)
      (if now = .idle then e.concerned.bind Step.endCause else none)
      (if now = .held then e.concerned.bind Step.lastStop else none)
      ((e.concerned.map Step.delivered).getD 0)]

/-- All notices of an event in the order they are queued (R80, R107, R153, R163). -/
def Event.notices (e : Event) : List Notice := e.notes ++ e.stepState ++ e.arming.toList ++ e.late

/-- The event ends: its notices are queued (R190). -/
def Event.finish (e : Event) : State := e.s.postAll e.notices

/-- The event of a request ends: the reply is queued first (R190, R192). -/
def Event.reply (e : Event) (link : Station) (f : Frame) : State := (e.s.queueReply link f).postAll e.notices

/-- What an owner answers to a request: the result code and the reply data. -/
structure Answer where
  result : Result
  data : List Byte

def answer (r : Result) : Answer := { result := r, data := [] }

/-- A refusal by an owner changes nothing (R12, R171). -/
def refuse (e : Event) (r : Result) : Event × Answer := (e, answer r)

/-- The next state of an event that arrives while the part runs; a stopped part takes no event (R179). -/
def event (s : State) (f : Event → Event) : Host.Outcome State Fault Refusal :=
  if s.running then .next (f s.begin).finish else .next s

/-- The next state of an event that causes no notice. -/
def quietEvent (s : State) (f : State → State) : Host.Outcome State Fault Refusal :=
  if s.running then .next (f { s with prior := s.ret }) else .next s

/-- Taking a request (R192): the link comes UP, a full queue loses the request, decoding refuses it, and
otherwise its owner carries it out and the reply is queued before the notices. `formed` says that the frame's
length and counts fit the type (R193). -/
def request (link : Station) (type : RequestType) (tag : Byte) (formed : Bool) (owner : Event → Event × Answer)
    (s : State) : Host.Outcome State Fault Refusal :=
  if s.running then
    let up := { s with prior := s.ret }.frameTaken link
    if (up.link link).full then .next (up.overrun link)
    else if type.permits link = false then .next (up.queueReply link (replyFrame type tag .notPermitted []))
    else if formed = false then .next (up.queueReply link (replyFrame type tag .malformed []))
    else
      let r := owner up.begin
      .next (r.1.reply link (replyFrame type tag r.2.result r.2.data))
  else .next s

end Sys2Proof.Machine
end

