-- ==== Sys2Proof/Machine/Terms.lean ====
section
/-! DEFINITION. What the manual derives from held state: a tank's estimate, volumes, fill and room (R31), the
gauge status of an age (R42), the base rate and the terms of the permitted rate (R58 to R66), the end cause
(R69), the valve state (R81), and the conditions of holds (R47, R113). -/

namespace Sys2Proof.Machine

/-! ### Tanks (R31, R42) -/

/-- Estimate E, absent without a definition or without reported contents (R31). -/
def Tank.estimate (t : Tank) : Option Nat :=
  match t.definition, t.contents with
  | some _, some v => some (min (v + t.credited) Config.max32)
  | _, _ => none

/-- High volume H (R31). -/
def TankDef.highVolume (d : TankDef) : Nat := d.capacity * d.high / 1000

/-- Trip volume T (R31). -/
def TankDef.tripVolume (d : TankDef) : Nat := d.capacity * d.trip / 1000

/-- Fill of an estimate in permille (R31). -/
def TankDef.fillOf (d : TankDef) (e : Nat) : Nat := min (e * 1000 / d.capacity) 1000

/-- Fill f, absent when the estimate is (R31). -/
def Tank.fill (t : Tank) : Option Nat :=
  match t.definition, t.estimate with
  | some d, some e => some (d.fillOf e)
  | _, _ => none

/-- Remaining room Rem, absent when the estimate is (R31). -/
def Tank.room (t : Tank) : Option Nat :=
  match t.definition, t.estimate with
  | some d, some e => some (d.tripVolume - e)
  | _, _ => none

/-- Gauge status of a report age against the stale limit S (R42). -/
def statusOfAge (stale age : Nat) : GaugeStatus :=
  if age ≤ stale * 10 then .fresh else if age ≤ stale * 20 then .stale else .lost

/-- Gauge status a tank's age gives: NONE without reported contents (R42). -/
def Tank.agedStatus (t : Tank) (stale : Nat) : GaugeStatus :=
  match t.contents with
  | none => .none
  | some _ => statusOfAge stale t.age

/-- Whether a report is past the stale limit: STALE, or LOST, which keeps the degrade term in force (R63, log 13). -/
def GaugeStatus.degraded : GaugeStatus → Bool
  | .stale | .lost => true
  | .none | .fresh => false

/-- Whether a step names a tank. -/
def Step.names (r : Step) (i : Fin 8) : Bool := r.tanks.any fun e => decide (e.tank = i)

/-- Whether the step in the ACTIVE slot names a tank. -/
def State.activeNames (s : State) (i : Fin 8) : Bool :=
  match s.ret.active with
  | some r => r.names i
  | none => false

/-! ### The terms of the permitted rate (R58 to R64) -/

/-- Base rate B (R58): the cap clamped to Rmin to Rmax, or Rmax. -/
def baseRate (s : State) (r : Step) : Nat :=
  match r.rateCap with
  | none => s.ret.settings.rmax
  | some cap => clamp s.ret.settings.rmin s.ret.settings.rmax cap

/-- Quantity term Rq (R59), clamped to Rmax. -/
def quantityTerm (s : State) (r : Step) : Nat :=
  if r.delivered < r.quantity then
    min ((r.quantity - r.delivered) * 18 / (5 * s.ret.settings.tstop)) s.ret.settings.rmax
  else 0

/-- Tank rate Ri of a tank-list entry (R60), clamped to Rmax. A named tank always has a room (R31). -/
def tankRate (s : State) (e : TankEntry) : Nat :=
  min ((((s.tank e.tank).room).getD 0) * 360 / (e.share * s.ret.settings.tstop)) s.ret.settings.rmax

/-- Projection term: the lowest tank rate over the step's entries (R60). -/
def projectionTerm (s : State) (r : Step) : Nat :=
  r.tanks.foldl (fun m e => min m (tankRate s e)) s.ret.settings.rmax

/-- Stage rate from a base rate (R61). -/
def stageRate (b : Nat) (st : Stage) : Nat :=
  match st.mode with
  | .eighths => b * (st.k + 1) / 8
  | .fraction => b / (st.k + 1)

/-- The applicable fill stage of a tank: the engaged TANK-FILL stage with the lowest index (R62). -/
def fillStage (s : State) (i : Fin 8) : Option (Fin 4) :=
  allStages.find? fun j => decide ((s.stage j).input = .tankFill) && at' (s.tank i).engaged j

/-- A tank's stage rate, absent when no fill stage is engaged on it (R62). -/
def tankStageRate (s : State) (r : Step) (i : Fin 8) : Option Nat :=
  (fillStage s i).map fun j => stageRate (baseRate s r) (s.stage j)

/-- The role of an instrument input. -/
def StageInput.role? : StageInput → Option Role
  | .tankFill => none
  | .role r => some r

/-- The applicable instrument stage: the engaged one with the lowest index (R62). -/
def instrumentStage (s : State) : Option (Fin 4) :=
  allStages.find? fun j => decide ((s.stage j).input ≠ .tankFill) && (s.stage j).instrumentEngaged

/-- The instrument stage rate, absent when none is engaged (R62). -/
def instrumentStageRate (s : State) (r : Step) : Option Nat :=
  (instrumentStage s).map fun j => stageRate (baseRate s r) (s.stage j)

/-- The lower of a rate and one that may be absent. -/
def lower (m : Nat) : Option Nat → Nat
  | none => m
  | some n => min m n

/-- Stage term (R62). -/
def stageTerm (s : State) (r : Step) : Nat :=
  lower (r.tanks.foldl (fun m e => lower m (tankStageRate s r e.tank)) (baseRate s r)) (instrumentStageRate s r)

/-- The rates of the enabled TANK-FILL stages (R63). -/
def enabledFillRates (s : State) (b : Nat) : List Nat :=
  (allStages.filter fun j => (s.stage j).enabled && decide ((s.stage j).input = .tankFill)).map
    fun j => stageRate b (s.stage j)

/-- The degrade rate of a base rate: the lowest enabled fill stage rate, or half the base rate (R63). -/
def degradeRate (s : State) (b : Nat) : Nat :=
  match enabledFillRates s b with
  | [] => b / 2
  | x :: rest => rest.foldl min x

/-- Degrade term (R63). -/
def degradeTerm (s : State) (r : Step) : Nat :=
  if r.tanks.any fun e => (s.tank e.tank).status.degraded then degradeRate s (baseRate s r) else baseRate s r

/-- Blind term (R64). -/
def blindTerm (s : State) (r : Step) : Nat :=
  if s.instruments.hose.blind then s.ret.settings.cb else baseRate s r

/-- P for the step in the slot: the lowest of the six terms (R65). -/
def stepPermitted (s : State) (r : Step) : Nat :=
  min (baseRate s r) (min (quantityTerm s r) (min (projectionTerm s r) (min (stageTerm s r)
    (min (degradeTerm s r) (blindTerm s r)))))

/-- Permitted rate (R65): 0 while the ACTIVE slot is empty. -/
def permittedRate (s : State) : Nat :=
  match s.ret.active with
  | none => 0
  | some r => stepPermitted s r

/-- The lowest tank index among a step's entries for which a test holds. -/
def lowestTank (r : Step) (test : TankEntry → Bool) : Option (Fin 8) :=
  allTanks.find? fun i => r.tanks.any fun e => decide (e.tank = i) && test e

/-- The stage term's name when it gives P: the fill stage on the lowest tank that gives it, else the instrument
stage (R66). -/
def stageLimit (s : State) (r : Step) (p : Nat) : LimitTerm :=
  match lowestTank r fun e => tankStageRate s r e.tank == some p with
  | some i =>
    match fillStage s i with
    | some j => .stageTank j i
    | none => .none
  | none =>
    match instrumentStage s with
    | some j =>
      match (s.stage j).input with
      | .role rl => .stageRole j rl
      | .tankFill => .none
    | none => .none

/-- The tank a DEGRADE names: the lowest STALE tank of the step, else its lowest LOST one (R66, log 13). -/
def degradeLimit (s : State) (r : Step) : LimitTerm :=
  match lowestTank r fun e => decide ((s.tank e.tank).status = .stale) with
  | some i => .degrade i
  | none =>
    match lowestTank r fun e => decide ((s.tank e.tank).status = .lost) with
    | some i => .degrade i
    | none => .none

/-- The limiting term of the step in the slot: the first term in R66's order that equals P. -/
def stepTerm (s : State) (r : Step) : LimitTerm :=
  let p := stepPermitted s r
  if baseRate s r = p then .base
  else if quantityTerm s r = p then .quantity
  else if projectionTerm s r = p then
    match lowestTank r fun e => tankRate s e == p with
    | some i => .projection i
    | none => .none
  else if stageTerm s r = p then stageLimit s r p
  else if degradeTerm s r = p then degradeLimit s r
  else .blind

/-- Limiting term (R65, R66): NONE while the ACTIVE slot is empty. -/
def limitingTerm (s : State) : LimitTerm :=
  match s.ret.active with
  | none => .none
  | some r => stepTerm s r

/-- Whether a rate that may be absent is below another. -/
def below (m : Option Nat) (n : Nat) : Bool :=
  match m with
  | none => false
  | some k => decide (k < n)

/-- The cause an end decision carries (R69). -/
def endCauseNow (s : State) (r : Step) : StopCause :=
  let rmin := s.ret.settings.rmin
  if quantityTerm s r < rmin then .quantity
  else
    match lowestTank r fun e => decide (tankRate s e < rmin) || below (tankStageRate s r e.tank) rmin with
    | some i => .topped i
    | none =>
      match r.tanks with
      | e :: _ => .topped e.tank
      | [] => .quantity

/-! ### The valve (R81) -/

/-- Valve state of a command and the two limit switches (R81). -/
def valveOf (command : ValveCommand) (closedLimit openLimit : Bool) : ValveState :=
  match closedLimit, openLimit, command with
  | true, true, _ => .jammed
  | true, false, .opened => .opening
  | false, false, .opened => .opening
  | false, true, .opened => .opened
  | false, true, .closed => .closing
  | false, false, .closed => .closing
  | true, false, .closed => .closed

/-- The valve state as it stands (R81). -/
def State.valve (s : State) : ValveState :=
  valveOf s.controller.command s.controller.closedLimit s.controller.openLimit

/-- The state a command names (R82). -/
def ValveCommand.names : ValveCommand → ValveState
  | .closed => .closed
  | .opened => .opened

/-! ### Conditions of holds (R47, R113) -/

/-- The OVERFILL clear condition (R47). -/
def overfillCondition (s : State) : Bool :=
  allTanks.any fun i =>
    ((s.tank i).definition.isSome && (s.tank i).overTrip) ||
      (s.activeNames i && decide ((s.tank i).status = .lost))

/-- Condition present of an entry (R113). -/
def conditionPresent (s : State) (h : HoldEntry) : Bool :=
  match h.source with
  | .barge | .ship | .survey | .meter | .power => false
  | .linkBarge => decide ((s.link .barge).state ≠ .up)
  | .linkShip => decide ((s.link .ship).state ≠ .up)
  | .loop => decide (s.loop.loopIn = .opened)
  | .line n =>
    match h.reason with
    | .line _ .level => (s.line n).active
    | _ => false
  | .overfill => overfillCondition s
  | .pressure => s.instruments.hose.warned || s.instruments.manifold.warned
  | .tension => s.instruments.tension.warned
  | .valve => decide (s.valve ≠ .closed)

/-- The clearers of a function named in a LINE entry's reason (R116). -/
def LineFunction.clearers : LineFunction → List Station
  | .levelSwitch => [.ship]
  | .esdPush | .breakaway | .dripTray | .permit => [.barge]
  | .unused => []

/-- The clearers of an entry (R114, R115, R116). -/
def HoldEntry.clearers (h : HoldEntry) : List Station :=
  match h.source with
  | .barge => [.barge]
  | .ship => [.ship]
  | .survey => [.survey]
  | .linkBarge => [.barge]
  | .linkShip => [.ship]
  | .loop => [.barge, .ship]
  | .line _ =>
    match h.reason with
    | .line f _ => f.clearers
    | _ => []
  | .overfill => [.ship]
  | .pressure | .tension | .valve | .meter | .power => [.barge]

/-! ### The outputs (R179, R182) -/

/-- What R182 says of an output's current: its microamperes, the range they lie in, or the level they stay below. -/
inductive OutputCurrent where
  | exactly (microamps : Nat)
  | between (low high : Nat)
  | below (microamps : Nat)
  deriving DecidableEq, Repr

/-- The rate demand output: 4 mA plus 0.008 mA for each m³/h of demand, below its live range while stopped (R182). -/
def State.rateOutput (s : State) : OutputCurrent :=
  if s.running then .exactly (4000 + 8 * s.governor.demand) else .below Config.rateLostBelow

/-- The current of loop OUT: 20 mA ± 2 mA while closed, below 0.5 mA while open (R182). -/
def State.loopOutOutput (s : State) : OutputCurrent :=
  match s.loop.loopOut with
  | .closed => .between Config.loopOutLow Config.loopOutHigh
  | .opened => .below Config.loopOutOpenBelow

/-- The valve open contact is made while the command is OPEN and the part runs (R79, R179, R182). -/
def State.valveOpenOutput (s : State) : Bool := s.running && decide (s.controller.command = .opened)

end Sys2Proof.Machine
end

