-- ==== Sys2Proof/Machine/Delivery.lean ====
section
/-! DEFINITION. The Delivery Controller's moves (R80, R82, R91 to R98), with what each hands to the Rate Governor
(R68, R71, R72, R74) and to the no-flow detector (R136). STEPSTATE is sent when the event ends (R80). -/

namespace Sys2Proof.Machine

/-- Ticks of a setting in seconds. -/
def ticksOf (seconds : Nat) : Nat := Config.ticksPerSecond * seconds

/-! ### Detectors of the Tally (R136, R138) -/

/-- The no-flow condition (R136). -/
def noFlowCondition (s : State) : Bool :=
  decide (s.ret.delivery = .pumping ∧ s.meter.rate < s.governor.demand / 4)

/-- The no-flow detector is evaluated (R136). -/
def evalNoFlow (s : State) : State :=
  if noFlowCondition s then
    match s.meter.noFlow with
    | .quiet => { s with meter.noFlow := .timing (ticksOf s.ret.settings.noFlow) }
    | .timing _ => s
  else { s with meter.noFlow := .quiet }

/-- The overspeed condition (R138). -/
def overspeedCondition (s : State) : Bool := decide (s.ret.settings.rmax * 5 / 4 < s.meter.rate)

/-- The overspeed detector is evaluated (R138). -/
def evalOverspeed (s : State) : State :=
  if overspeedCondition s then
    match s.meter.overspeed with
    | .quiet => { s with meter.overspeed := .timing Config.overspeedTicks }
    | .timing _ | .latched => s
  else { s with meter.overspeed := .quiet }

/-! ### The valve command (R82) -/

/-- The setting that times a command's stroke (R82). -/
def State.strokeSetting (s : State) : ValveCommand → Nat
  | .opened => s.ret.settings.topen
  | .closed => s.ret.settings.tclose

/-- The valve command takes a value. A change starts the stroke timer, unless the valve already stands at the
end the command names (R82). -/
def setCommand (c : ValveCommand) (s : State) : State :=
  if s.controller.command = c then s
  else
    let s1 := { s with controller.command := c }
    { s1 with controller.stroke := if s1.valve = c.names then none else some (ticksOf (s.strokeSetting c)) }

/-! ### Changes of delivery state (R79, R80) -/

/-- Delivery takes a state other than PUMPING: the demand is 0, the ramp timer stops, and the no-flow detector
is told (R72, R73, R136). -/
def setDelivery (d : DeliveryState) (s : State) : State :=
  evalNoFlow { s with ret.delivery := d, governor.demand := 0, governor.ramp := none }

/-- Delivery enters SETTLING (R98). -/
def enterSettling (s : State) : State :=
  let s1 := setDelivery .settling s
  { s1 with controller.settle := some (ticksOf s.ret.settings.settle) }

/-- Delivery enters CLOSING; a valve already CLOSED has reached its closed end (R97). -/
def enterClosing (s : State) : State :=
  let s1 := setDelivery .closing s
  let s2 := setCommand .closed { s1 with controller.rundown := none }
  if s2.valve = .closed then enterSettling s2 else s2

/-- Delivery enters RUNDOWN, or passes on to CLOSING when RUNDOWN is 0 (R94, R96). -/
def enterRundown (s : State) : State :=
  let s1 := setDelivery .rundown s
  let s2 := { s1 with controller.rundown := some (ticksOf s.ret.settings.rundown) }
  if s.ret.settings.rundown = 0 then enterClosing s2 else s2

/-- The stop cause is fixed (R93). -/
def fixCause (c : StopCause) (s : State) : State := { s with controller.stopCause := some c }

/-! ### The Governor's comparison (R68, R74) -/

/-- The end decision: the stop cause of R69, and RUNDOWN or CLOSING (R68, R94). -/
def endDecision (s : State) : State :=
  enterRundown { s with controller.stopCause := s.ret.active.map (endCauseNow s) }

/-- While PUMPING, P below Rmin ends the step (R68), and a demand above P is lowered to P (R74). -/
def governorAct (s : State) : State :=
  if s.ret.delivery = .pumping then
    if s.governor.permitted < s.ret.settings.rmin then endDecision s
    else if s.governor.permitted < s.governor.demand then
      evalNoFlow { s with governor.demand := s.governor.permitted }
    else s
  else s

/-- P and the limiting term are recomputed, with their effect on the demand and the step (R67). -/
def recompute (s : State) : State :=
  governorAct { s with governor.permitted := permittedRate s, governor.term := limitingTerm s }

/-- Delivery enters PUMPING (R71, R92): the stroke timer stops, the demand is Rmin, the ramp timer starts, and P
is compared with Rmin. -/
def enterPumping (s : State) : State :=
  governorAct (evalNoFlow { s with
    ret.delivery := .pumping, controller.stroke := none, governor.demand := s.ret.settings.rmin,
    governor.ramp := some Config.ticksPerSecond })

/-! ### The ends of an arming (R21, R88, R89) -/

/-- The arming ends without LINED: the number joins the lapsed set, and the step returns to the head of AGREED
or stays in the slot in HELD (R21, R88). -/
def endArming (how : ArmingEnd) (e : Event) : Event :=
  match e.s.ret.active with
  | none => e.mod fun s => setDelivery .idle { s with controller.confirm := none, controller.armedFrom := none }
  | some r =>
    let s1 := { e.s with
      controller.confirm := none, controller.armedFrom := none, ret.lapsed := insertNumber r.number e.s.ret.lapsed }
    if e.s.controller.armedFrom = some .idle then
      let s2 := recompute (setDelivery .idle { s1 with ret.active := none, ret.agreed := r :: e.s.ret.agreed })
      { e with s := s2, moved := some r, arming := some (startExpiredNotice r.number how false) }
    else { e with s := setDelivery .held s1, arming := some (startExpiredNotice r.number how true) }

/-! ### The end of a step (R22, R23, R98) -/

/-- One more finished step in a grade's total (R6). -/
def countFinished (totals : Vector GradeTotal 4) (g : Fin 4) : Vector GradeTotal 4 :=
  put totals g { at' totals g with steps := bump8 (at' totals g).steps }

/-- The step in the slot moves to the tail of DONE with an end cause, and delivery becomes IDLE (R18, R23). -/
def finishStep (cause : EndCause) (r : Step) (e : Event) : Event :=
  let r' := { r with endCause := some cause, endTime := some e.s.ret.transfer.clock }
  let s1 := { e.s with
    ret.active := none, ret.done := e.s.ret.done ++ [r'], ret.totals := countFinished e.s.ret.totals r.grade }
  { e with s := recompute (setDelivery .idle s1), moved := some r' }

/-- The step in the slot enters HELD: its hold count rises and its last stop cause is set (R22). -/
def holdStep (last : LastStop) (r : Step) (s : State) : State :=
  setDelivery .held { s with ret.active := some { r with holdCount := bump8 r.holdCount, lastStop := some last } }

end Sys2Proof.Machine
end

