-- ==== Sys2Proof/Machine/Holds.lean ====
section
/-! DEFINITION. The hold list and the stop loop (chapter 05): a raise with its effects in R107's order, a removal,
and the commands HOLD, RELEASE, CLEAR, READ HOLDS and the changes of loop IN. -/

namespace Sys2Proof.Machine

/-! ### The list and loop OUT -/

/-- The entry of a source, if it has one (R104). -/
def findHold (l : List HoldEntry) (src : HoldSource) : Option HoldEntry := l.find? fun h => decide (h.source = src)

/-- Loop OUT as the list gives it (R119): open while a TRIP entry other than LOOP stands. -/
def loopOutOf (l : List HoldEntry) : LoopState :=
  if l.any fun h => decide (h.cls = .trip ∧ h.source ≠ .loop) then .opened else .closed

/-- The hold list takes a value, and loop OUT is re-derived (R107, R117, R119). -/
def State.setHolds (s : State) (l : List HoldEntry) : State :=
  { s with ret.holds := l, loop.loopOut := loopOutOf l }

/-- The class of an entry after a raise: it escalates and does not fall (R105). -/
def escalate (old raised : HoldClass) : HoldClass :=
  match old with
  | .trip => .trip
  | .pause => raised

/-- An entry after a repeated raise (R105). -/
def HoldEntry.again (h : HoldEntry) (cls : HoldClass) (reason : HoldReason) : HoldEntry :=
  { h with repeats := bump8 h.repeats, reason := reason, cls := escalate h.cls cls }

/-- The entry a raise leaves (R104, R105). -/
def raisedEntry (s : State) (src : HoldSource) (cls : HoldClass) (reason : HoldReason) : HoldEntry :=
  match findHold s.ret.holds src with
  | some h => h.again cls reason
  | none => { source := src, cls := cls, reason := reason, time := s.ret.transfer.clock, repeats := 0 }

/-- The list after a raise: a new entry at the tail, or the entry changed in its place (R104, R105). -/
def raisedList (s : State) (src : HoldSource) (cls : HoldClass) (reason : HoldReason) : List HoldEntry :=
  match findHold s.ret.holds src with
  | some _ => s.ret.holds.map fun h => if h.source = src then h.again cls reason else h
  | none => s.ret.holds ++ [raisedEntry s src cls reason]

/-- The kind a HOLDRAISED reports (R121). -/
def raiseKind (old : Option HoldEntry) (new : HoldEntry) : RaiseKind :=
  match old with
  | none => .new
  | some h => if h.cls = new.cls then .again else .escalated

/-- A raise reaches the Delivery Controller with the entry's class after it (R95). -/
def deliveryTakesRaise (src : HoldSource) (cls : HoldClass) (e : Event) : Event :=
  match e.s.ret.delivery with
  | .armed => endArming (.hold src) e
  | .opening => e.mod fun s => enterClosing (fixCause (.hold src) s)
  | .pumping =>
    match cls with
    | .pause => e.mod fun s => enterRundown (fixCause (.hold src) s)
    | .trip => e.mod fun s => enterClosing (fixCause (.hold src) s)
  | .rundown =>
    match cls with
    | .pause => e
    | .trip => e.mod enterClosing
  | .idle | .held | .closing | .settling => e

/-- A raise, one event's part in the order of R107: the list, loop OUT, the Delivery Controller, HOLDRAISED. -/
def raiseHold (src : HoldSource) (cls : HoldClass) (reason : HoldReason) (e : Event) : Event :=
  let entry := raisedEntry e.s src cls reason
  let s1 := e.s.setHolds (raisedList e.s src cls reason)
  let kind := raiseKind (findHold e.s.ret.holds src) entry
  (deliveryTakesRaise src entry.cls { e with s := s1 }).note
    (holdRaisedNotice entry kind s1.ret.holds s1.loop.loopOut)

/-- An accepted RELEASE or CLEAR removes the entry (R117) and sends HOLDCLEARED (R122). -/
def removeHold (src : HoldSource) (by_ : Station) (e : Event) : Event :=
  let s1 := e.s.setHolds (e.s.ret.holds.filter fun h => decide (h.source ≠ src))
  { e with s := s1 }.note (holdClearedNotice src by_ s1.ret.holds s1.loop.loopOut)

/-! ### Station holds (R108, R109, R114) -/

/-- A station's own source. -/
def stationSource : Station → HoldSource
  | .barge => .barge
  | .ship => .ship
  | .survey => .survey

/-- The station of a station source. -/
def HoldSource.station? : HoldSource → Option Station
  | .barge => some .barge
  | .ship => some .ship
  | .survey => some .survey
  | _ => none

/-- The class a code names (R108, R195). -/
def classOfCode (c : Byte) : Option HoldClass :=
  if c = 0#8 then some .pause else if c = 1#8 then some .trip else none

/-- HOLD as its owner takes it (R108). -/
def takeHold (link : Station) (cls reason : Byte) (e : Event) : Event × Answer :=
  match classOfCode cls with
  | none => refuse e .range
  | some c => (raiseHold (stationSource link) c (.operator reason) e, answer .ok)

/-- HOLD (R108). -/
def execHold (link : Station) (tag cls reason : Byte) (s : State) : Host.Outcome State Fault Refusal :=
  request link .hold tag true (takeHold link cls reason) s

/-- RELEASE as its owner takes it (R114). -/
def takeRelease (link : Station) (source : Byte) (e : Event) : Event × Answer :=
  match (sourceOfCode source).bind HoldSource.station? with
  | none => refuse e .range
  | some st =>
    if st ≠ link then refuse e .notOwner
    else if findHold e.s.ret.holds (stationSource st) = none then refuse e .unchanged
    else (removeHold (stationSource st) link e, answer .ok)

/-- RELEASE (R114). -/
def execRelease (link : Station) (tag source : Byte) (s : State) : Host.Outcome State Fault Refusal :=
  request link .release tag true (takeRelease link source) s

/-- Whether a station is no clearer of a source (R115, R116). A LINE source's clearer is that of its entry's
reason, so without an entry no station is turned away for ownership (log 28). -/
def notClearer (l : List HoldEntry) (src : HoldSource) (link : Station) : Bool :=
  match src, findHold l src with
  | .line _, none => false
  | _, some h => !h.clearers.contains link
  | _, none =>
    !(HoldEntry.clearers { source := src, cls := .pause, reason := .lost, time := 0, repeats := 0 }).contains link

/-- CLEAR as its owner takes it (R115). -/
def takeClear (link : Station) (source : Byte) (e : Event) : Event × Answer :=
  match sourceOfCode source with
  | none => refuse e .range
  | some src =>
    if src.station?.isSome then refuse e .range
    else if notClearer e.s.ret.holds src link then refuse e .notOwner
    else
      match findHold e.s.ret.holds src with
      | none => refuse e .unchanged
      | some h =>
        if conditionPresent e.s h then refuse e .persists
        else (removeHold src link e, answer .ok)

/-- CLEAR (R115, R116). -/
def execClear (link : Station) (tag source : Byte) (s : State) : Host.Outcome State Fault Refusal :=
  request link .clear tag true (takeClear link source) s

/-! ### READ HOLDS (R123, R198) -/

/-- A clearer as READ HOLDS sends it: a station code, or 4 for BARGE or SHIP (R198). -/
def clearerCode : List Station → Byte
  | [] => 0#8
  | [st] => stationCode st
  | _ :: _ :: _ => 4#8

def holdOctets (s : State) (h : HoldEntry) : List Byte :=
  [sourceCode h.source,
    oct ((if h.cls = .trip then 1 else 0) + (if conditionPresent s h then 2 else 0))] ++
    reasonOctets h.reason ++ le4 h.time ++ [oct h.repeats, clearerCode h.clearers]

/-- The reply data of READ HOLDS (R123, R198). -/
def holdsData (s : State) : List Byte :=
  [oct s.ret.holds.length, loopCode s.loop.loopIn, loopCode s.loop.loopOut] ++
    s.ret.holds.flatMap (holdOctets s)

/-- READ HOLDS (R123). -/
def execReadHolds (link : Station) (tag : Byte) (s : State) : Host.Outcome State Fault Refusal :=
  request link .read tag true (fun e => (e, { result := .ok, data := holdsData e.s })) s

/-! ### Loop IN (R111, R112) -/

/-- Raw loop IN of a current; between the thresholds it stays as last sensed (R182). -/
def senseLoop (last : LoopState) (microamps : Nat) : LoopState :=
  if Config.loopClosedAt ≤ microamps then .closed
  else if microamps ≤ Config.loopOpenAt then .opened
  else last

/-- Whether loop IN's debounce is complete (R111). -/
def loopDebounced (s : State) : Bool :=
  decide (s.loop.rawIn ≠ s.loop.loopIn ∧ Config.loopDebounceTicks ≤ s.loop.count)

/-- The debounced state of loop IN takes the raw state; a change to OPEN raises LOOP (R111, R112). -/
def loopFollows (e : Event) : Event :=
  let e1 := e.mod fun s => { s with loop.loopIn := s.loop.rawIn, loop.count := 0 }
  if e1.s.loop.loopIn = .opened then raiseHold .loop .trip .opened e1 else e1

/-- A completed debounce of loop IN is taken as its own event; an incomplete one is left as it is (R111). -/
def settleLoop (s : State) : State := if loopDebounced s then (loopFollows s.begin).finish else s

/-- The debounce of loop IN completes (R111, R112). Not complete: nothing happens (log 3). -/
def execLoopInDebounceComplete (s : State) : Host.Outcome State Fault Refusal :=
  if s.running then .next (settleLoop s) else .next s

/-- A raw state of loop IN is sensed: a return to the debounced state returns the count to 0 (R111). -/
def loopSensed (microamps : Nat) (s : State) : State :=
  let raw := senseLoop s.loop.rawIn microamps
  { s with loop.rawIn := raw, loop.count := if raw = s.loop.loopIn then 0 else s.loop.count }

/-- A raw change of loop IN (R111). A debounce already complete was a change at its tick, so it is taken first. A command
whose current changes nothing sensed is still taken as an event: DESIGN CHOICE, log 25, as for a line's. -/
def execLoopInRawChange (microamps : Nat) (s : State) : Host.Outcome State Fault Refusal :=
  if s.running then quietEvent (settleLoop s) (loopSensed microamps) else .next s

end Sys2Proof.Machine
end

