-- ==== Sys2Proof/Machine/Watch.lean ====
section
/-! DEFINITION. The Overflow Watch (chapter 02): crossings, fill stages, gauge reports, tank and stage definitions,
report aging, the share split of a credit, and READ TANKS. -/

namespace Sys2Proof.Machine

/-! ### Evaluation of a tank (R45, R46, R51) -/

/-- A LEVEL notice of a tank as it stands (R48). -/
def levelOf (s : State) (i : Fin 8) (kind : LevelKind) : Notice :=
  levelNotice i kind ((s.tank i).estimate.getD 0) ((s.tank i).fill.getD 0) (s.tank i).status

/-- The high-crossed flag is evaluated against an estimate and H (R45). -/
def evalHigh (i : Fin 8) (estimate high : Nat) (e : Event) : Event :=
  let t := e.s.tank i
  if high ≤ estimate then
    if t.highCrossed then e
    else (e.mod fun s => s.setTank i { t with highCrossed := true }).note (levelOf e.s i .high)
  else e.mod fun s => s.setTank i { t with highCrossed := false }

/-- The over-trip flag is evaluated against an estimate and T; setting it raises OVERFILL (R46). -/
def evalTrip (i : Fin 8) (estimate trip : Nat) (e : Event) : Event :=
  let t := e.s.tank i
  if trip ≤ estimate then
    if t.overTrip then e
    else
      raiseHold .overfill .trip (.level i)
        ((e.mod fun s => s.setTank i { t with overTrip := true }).note (levelOf e.s i .trip))
  else e.mod fun s => s.setTank i { t with overTrip := false }

/-- A stage's engagement by its value, with hysteresis (R51). -/
def hysteresis (st : Stage) (engaged : Bool) (value : Nat) : Bool :=
  st.enabled && if engaged then decide (st.leave ≤ value) else decide (st.enter ≤ value)

/-- Whether a fill stage is engaged on a tank at a fill (R51). -/
def fillEngaged (s : State) (t : Tank) (fill : Nat) (j : Fin 4) : Bool :=
  decide ((s.stage j).input = .tankFill) && hysteresis (s.stage j) (at' t.engaged j) fill

/-- The fill stages of a tank are evaluated at a fill (R51). -/
def evalFillStages (i : Fin 8) (fill : Nat) (s : State) : State :=
  let t := s.tank i
  s.setTank i { t with
    engaged := #v[fillEngaged s t fill 0, fillEngaged s t fill 1, fillEngaged s t fill 2, fillEngaged s t fill 3] }

/-- A tank is evaluated: high crossing, trip crossing, fill stages (R35, R37, R40). A tank without an estimate
takes part in no crossing (R31). -/
def evalTank (i : Fin 8) (e : Event) : Event :=
  match (e.s.tank i).definition, (e.s.tank i).estimate with
  | some d, some est =>
    (evalTrip i est d.tripVolume (evalHigh i est d.highVolume e)).mod (evalFillStages i (d.fillOf est))
  | _, _ => e

/-- Tanks are evaluated in ascending index order where a test holds (R37, R40). -/
def evalTanks (test : Fin 8 → Bool) (e : Event) : Event :=
  (allTanks.filter test).foldl (fun e' i => evalTank i e') e

/-! ### Credits and the share split (R39, R40) -/

/-- The credit of an entry from the second onward (R39). -/
def shareOf (delivered : Nat) (e : TankEntry) : TankEntry := { e with credit := delivered * e.share / 100 }

/-- The per-tank credits of a delivered quantity; the first entry takes the remainder (R39). -/
def splitCredits (delivered : Nat) : List TankEntry → List TankEntry
  | [] => []
  | e :: rest =>
    let others := rest.map (shareOf delivered)
    { e with credit := delivered - (others.map TankEntry.credit).sum } :: others

/-- The change of an entry's credit is carried to its tank (R40). -/
def Tank.carry (t : Tank) (old new : Nat) : Tank :=
  match t.contents with
  | none => t
  | some _ =>
    { t with credited := if old ≤ new then min (t.credited + (new - old)) Config.max32 else t.credited - (old - new) }

/-- Every entry's change is carried to its tank (R40). -/
def carryCredits : List TankEntry → List TankEntry → State → State
  | old :: olds, new :: news, s =>
    carryCredits olds news (s.setTank new.tank ((s.tank new.tank).carry old.credit new.credit))
  | _, _, s => s

/-- Whether a tank's credit changed between two splits (R40). -/
def creditChanged (old new : List TankEntry) (i : Fin 8) : Bool :=
  (old.zip new).any fun p => decide (p.2.tank = i ∧ p.1.credit ≠ p.2.credit)

/-! ### GAUGE (R36, R37) -/

/-- The tank an entry names, if it is defined (R36). -/
def gaugeTank (s : State) (g : GaugeEntry) : Option (Fin 8 × TankDef) :=
  match index? 8 g.tank.toNat with
  | none => none
  | some i => (s.tank i).definition.map fun d => (i, d)

/-- Whether every entry names a defined tank and no tank is named twice (R36). -/
def gaugeAdmitted (s : State) (entries : List GaugeEntry) : Bool :=
  entries.all (fun g => (gaugeTank s g).isSome) && decide ((entries.map GaugeEntry.tank).Nodup)

/-- A report is applied to its tank (R37). -/
def applyReport (s : State) (g : GaugeEntry) : State :=
  match gaugeTank s g with
  | none => s
  | some (i, d) =>
    s.setTank i { s.tank i with
      contents := some (min g.contents.toNat d.capacity), credited := 0, age := 0, status := .fresh }

/-- Whether a report exceeds its tank's capacity (R37). -/
def reportClamped (s : State) (g : GaugeEntry) : Bool :=
  match gaugeTank s g with
  | none => false
  | some (_, d) => decide (d.capacity < g.contents.toNat)

/-- GAUGE as the Watch takes it (R36, R37). -/
def takeGauge (entries : List GaugeEntry) (e : Event) : Event × Answer :=
  if e.s.ret.transfer.state = .vacant then refuse e .wrongState
  else if gaugeAdmitted e.s entries = false then refuse e .range
  else
    let clamped := entries.any (reportClamped e.s)
    let reported := e.mod fun s => entries.foldl applyReport s
    let evaluated := evalTanks (fun i => entries.any fun g => g.tank == oct i.val) reported
    (evaluated.mod recompute, { result := if clamped then .clamped else .ok, data := [oct entries.length] })

/-- GAUGE (R36, R37). -/
def execGauge (link : Station) (tag : Byte) (entries : List GaugeEntry) (s : State) :
    Host.Outcome State Fault Refusal :=
  request link .gauge tag (decide (1 ≤ entries.length ∧ entries.length ≤ 8)) (takeGauge entries) s

/-! ### TANKDEF (R32 to R35) -/

/-- The clamped definition of a request (R32). -/
def clampTankDef (c : TankContent) : TankDef :=
  let high := clamp 500 980 c.high.toNat
  { capacity := clamp 1000 4000000 c.capacity.toNat, high := high, trip := clamp (high + 5) 995 c.trip.toNat }

/-- The definition a request carries, before clamping. -/
def rawTankDef (c : TankContent) : TankDef :=
  { capacity := c.capacity.toNat, high := c.high.toNat, trip := c.trip.toNat }

/-- Whether a delivery state is OPENING, PUMPING or RUNDOWN (R33, R160, R165). -/
def DeliveryState.flowing : DeliveryState → Bool
  | .opening | .pumping | .rundown => true
  | .idle | .armed | .closing | .settling | .held => false

/-- Whether a tank is in delivery (R33). -/
def inDelivery (s : State) (i : Fin 8) : Bool := s.activeNames i && s.ret.delivery.flowing

/-- Whether R33 refuses a definition for a tank in delivery. -/
def raisesLevels (old new : TankDef) : Bool :=
  decide (new.capacity ≠ old.capacity ∨ old.high < new.high ∨ old.trip < new.trip)

/-- Whether any step record that is not free names a tank (R34). -/
def stepNames (s : State) (i : Fin 8) : Bool :=
  (s.ret.proposed ++ s.ret.agreed ++ s.ret.active.toList ++ s.ret.done).any fun r => r.names i

/-- A tank takes a definition; a reading above the new capacity is lowered to it (R35). -/
def Tank.redefine (t : Tank) (d : TankDef) : Tank :=
  match t.definition with
  | none => { coldTank with definition := some d }
  | some _ => { t with definition := some d, contents := t.contents.map fun v => min v d.capacity }

/-- TANKDEF with the definition flag clear (R34). -/
def undefineTank (i : Fin 8) (e : Event) : Event × Answer :=
  if (e.s.tank i).definition = none then refuse e .unchanged
  else if stepNames e.s i then refuse e .busy
  else (e.mod fun s => recompute (s.setTank i coldTank), answer .ok)

/-- TANKDEF with the definition flag set (R32, R33, R35). -/
def defineTank (i : Fin 8) (c : TankContent) (e : Event) : Event × Answer :=
  let d := clampTankDef c
  let old := (e.s.tank i).definition
  if inDelivery e.s i && old.any (fun o => raisesLevels o d) then refuse e .wrongState
  else if d = rawTankDef c ∧ old = some d then refuse e .unchanged
  else
    let e1 := e.mod fun s => s.setTank i ((s.tank i).redefine d)
    ((evalTank i e1).mod recompute, answer (if d = rawTankDef c then .ok else .clamped))

/-- TANKDEF as the Watch takes it (R32). -/
def takeTankdef (index : Byte) (c : TankContent) (e : Event) : Event × Answer :=
  match index? 8 index.toNat with
  | none => refuse e .range
  | some i => if c.flag = 0#8 then undefineTank i e else defineTank i c e

/-- TANKDEF (R32 to R35). -/
def execTankdef (link : Station) (tag index : Byte) (c : TankContent) (s : State) :
    Host.Outcome State Fault Refusal :=
  request link .tankdef tag true (takeTankdef index c) s

/-! ### STAGEDEF (R50) -/

/-- The input a code names (R195). -/
def inputOfCode (c : Byte) : Option StageInput :=
  [StageInput.tankFill, .role .hosePressure, .role .manifoldPressure, .role .tension].find? fun i => inputCode i == c

/-- The mode a code names (R195). -/
def modeOfCode (c : Byte) : Option StageMode := [StageMode.eighths, .fraction].find? fun m => modeCode m == c

/-- The top of an input's enter level (R49). -/
def StageInput.top : StageInput → Nat
  | .tankFill => 1000
  | .role .hosePressure | .role .manifoldPressure => 4000
  | .role .tension => 2000

/-- The entry a request asks for, brought into range (R50). -/
def clampStage (c : StageContent) (input : StageInput) (mode : StageMode) : Stage :=
  let enter := clamp 1 input.top c.enter.toNat
  { enabled := decide (c.enabled ≠ 0#8), input := input, enter := enter, leave := min c.leave.toNat (enter - 1),
    mode := mode, k := min c.k.toNat 7, instrumentEngaged := false }

/-- Whether a request's values were changed by R50's clamps. -/
def stageClamped (c : StageContent) (st : Stage) : Bool :=
  decide (st.enter ≠ c.enter.toNat ∨ st.leave ≠ c.leave.toNat ∨ st.k ≠ c.k.toNat)

/-- Whether an instrument stage is engaged from rest on its role (R50, R51): a blind role engages it. -/
def instrumentFromRest (st : Stage) (r : RoleRecord) : Bool :=
  st.enabled && (r.blind || r.value.any fun v => decide (st.enter ≤ v))

/-- A stage's engagement on one tank, from rest (R50, R51). -/
def fillFromRest (st : Stage) (t : Tank) : Bool :=
  decide (st.input = .tankFill) && st.enabled && t.fill.any fun f => decide (st.enter ≤ f)

/-- A stage entry is replaced and evaluated afresh (R50). -/
def applyStage (j : Fin 4) (st : Stage) (s : State) : State :=
  let engaged :=
    match st.input with
    | .tankFill => false
    | .role r => instrumentFromRest st (s.instruments.role r)
  { s with
    ret.stages := put s.ret.stages j { st with instrumentEngaged := engaged },
    ret.tanks := mapTable (fun t => { t with engaged := put t.engaged j (fillFromRest st t) }) s.ret.tanks }

/-- STAGEDEF as the Watch takes it (R50). -/
def takeStagedef (index : Byte) (c : StageContent) (e : Event) : Event × Answer :=
  match index? 4 index.toNat, inputOfCode c.input, modeOfCode c.mode with
  | some j, some input, some mode =>
    let st := clampStage c input mode
    let old := e.s.stage j
    let same := decide ({ st with instrumentEngaged := old.instrumentEngaged } = old)
    let e1 := if same then e else e.mod fun s => recompute (applyStage j st s)
    (e1, answer (if stageClamped c st then .clamped else if same then .unchanged else .ok))
  | _, _, _ => refuse e .range

/-- STAGEDEF (R50). -/
def execStagedef (link : Station) (tag index : Byte) (c : StageContent) (s : State) :
    Host.Outcome State Fault Refusal :=
  request link .stagedef tag true (takeStagedef index c) s

/-! ### Report aging (R42, R44) -/

/-- Whether the active step's tanks are watched (R44). -/
def DeliveryState.watching : DeliveryState → Bool
  | .armed | .opening | .pumping | .rundown => true
  | .idle | .closing | .settling | .held => false

/-- Whether a tank is watched: the ACTIVE step names it in a watched delivery state (R44). -/
def State.watches (s : State) (i : Fin 8) : Bool := s.activeNames i && s.ret.delivery.watching

/-- A tank's status takes the value its age gives. A change into STALE or LOST sends LEVEL, and a watched tank
becoming LOST raises OVERFILL (R42, R44). A change from LOST to STALE is read as one into STALE and sends LEVEL (log 35). -/
def restatus (watched : Fin 8 → Bool) (i : Fin 8) (e : Event) : Event :=
  let t := e.s.tank i
  let st := t.agedStatus e.s.ret.settings.stale
  if t.status = st then e
  else
    let e1 := e.mod fun s => s.setTank i { t with status := st }
    match st with
    | .none | .fresh => e1
    | .stale => e1.note (levelOf e1.s i .stale)
    | .lost =>
      let e2 := e1.note (levelOf e1.s i .lost)
      if watched i then raiseHold .overfill .trip (.gaugeLost i) e2 else e2

/-- The statuses of some tanks in ascending index, as one event. Which tanks are watched is judged as the event finds
them, so that each of several tanks that become LOST together makes its raise, though the first raise already stops the
step (R42, R44). Each tank's LEVEL is noted directly before its raise, tank by tank: R42 orders no LEVEL (log 34). -/
def restatusAll (test : Fin 8 → Bool) (e : Event) : Event :=
  (allTanks.filter test).foldl (fun e' i => restatus e.s.watches i e') e

/-- Whether a tank's report has just passed S × 10 ticks (R42). -/
def staleDue (s : State) (i : Fin 8) : Bool :=
  decide ((s.tank i).status = .fresh ∧ (s.tank i).agedStatus s.ret.settings.stale = .stale)

/-- Whether a tank's report has passed S × 20 ticks (R42). -/
def lostDue (s : State) (i : Fin 8) : Bool :=
  decide ((s.tank i).status ≠ .lost ∧ (s.tank i).agedStatus s.ret.settings.stale = .lost)

/-- A tank's status becomes STALE (R42). Not due: nothing happens (log 3). -/
def execReportStale (i : Fin 8) (s : State) : Host.Outcome State Fault Refusal :=
  if staleDue s i then event s fun e => (restatus s.watches i e).mod recompute else .next s

/-- A tank's status becomes LOST, and with it that of every tank whose report has passed S × 20 ticks: tanks LOST at the
same tick are taken together, in ascending index (R42, R44). Not due: nothing happens (log 3). -/
def execReportLost (i : Fin 8) (s : State) : Host.Outcome State Fault Refusal :=
  if lostDue s i then event s fun e => (restatusAll (lostDue s) e).mod recompute else .next s

/-! ### READ TANKS (R53, R198) -/

def tankOctets (t : Tank) : List Byte :=
  let d := t.definition.getD { capacity := 0, high := 0, trip := 0 }
  let derived : Nat × Nat × Nat × Nat × Nat :=
    match t.estimate with
    | some e => (d.highVolume, d.tripVolume, e, d.fillOf e, d.tripVolume - e)
    | none => (0, 0, 0, 0, 0)
  [flag t.definition.isSome] ++ le4 d.capacity ++ le2 d.high ++ le2 d.trip ++ le4 derived.1 ++ le4 derived.2.1 ++
    le4? t.contents ++ le2 t.age ++ le4 t.credited ++ le4 derived.2.2.1 ++ le2 derived.2.2.2.1 ++
    le4 derived.2.2.2.2 ++
    [gaugeCode t.status, oct ((if t.highCrossed then 1 else 0) + (if t.overTrip then 2 else 0)),
      engagedCode t.engaged]

def stageOctets (st : Stage) : List Byte :=
  [flag st.enabled, inputCode st.input] ++ le2 st.enter ++ le2 st.leave ++
    [modeCode st.mode, oct st.k, flag st.instrumentEngaged]

/-- The reply data of READ TANKS for a group (R53, R198); none for a group above 2. -/
def tanksData (s : State) (group : Byte) : Option (List Byte) :=
  if group = 0#8 then some (group :: [s.tank 0, s.tank 1, s.tank 2, s.tank 3].flatMap tankOctets)
  else if group = 1#8 then some (group :: [s.tank 4, s.tank 5, s.tank 6, s.tank 7].flatMap tankOctets)
  else if group = 2#8 then
    some (group :: ([s.stage 0, s.stage 1, s.stage 2, s.stage 3].flatMap stageOctets ++ le2 s.ret.settings.stale))
  else none

/-- READ TANKS (R53). -/
def execReadTanks (link : Station) (tag group : Byte) (s : State) : Host.Outcome State Fault Refusal :=
  request link .read tag true
    (fun e =>
      match tanksData e.s group with
      | some d => (e, { result := .ok, data := d })
      | none => refuse e .range) s

end Sys2Proof.Machine
end

