-- ==== Sys2Proof/Machine/Tally.lean ====
section
/-! DEFINITION. The Meter Counter and Tally (chapter 06): pulses and whose litres they are, the rate second, and
the expiries of the no-flow and overspeed timers. -/

namespace Sys2Proof.Machine

/-! ### Counting a pulse (R129 to R132) -/

/-- Whether a delivery state credits pulses to the step (R79, R130). -/
def DeliveryState.crediting : DeliveryState → Bool
  | .opening | .pumping | .rundown | .closing | .settling => true
  | .idle | .armed | .held => false

/-- The pulse joins the filling bin (R129). -/
def binPulse (s : State) : State := { s with meter.bin := min (s.meter.bin + s.ret.settings.weight) Config.max16 }

/-- More litres in a grade's total (R6). -/
def addLitres (totals : Vector GradeTotal 4) (g : Fin 4) (w : Nat) : Vector GradeTotal 4 :=
  put totals g { at' totals g with litres := (at' totals g).litres + w }

/-- The step's record after a credited pulse (R22, R39). -/
def Step.credited (r : Step) (w : Nat) : Step :=
  { r with delivered := r.delivered + w, tanks := splitCredits (r.delivered + w) r.tanks }

/-- A pulse is credited to the step in the slot (R130): the tally, the record, the grade total, the tanks and
their evaluation, and the Governor's recomputation. -/
def creditPulse (r : Step) (e : Event) : Event :=
  let w := e.s.ret.settings.weight
  let r' := r.credited w
  let e1 := e.mod fun s =>
    carryCredits r.tanks r'.tanks { s with
      ret.metered := s.ret.metered + w, ret.active := some r', ret.totals := addLitres s.ret.totals r.grade w }
  (evalTanks (creditChanged r.tanks r'.tanks) e1).mod recompute

/-- A pulse goes to the unassigned total; reaching a multiple of 100 L sends CREEP (R131). -/
def unassignPulse (e : Event) : Event :=
  let w := e.s.ret.settings.weight
  let before := e.s.ret.unassigned
  let e1 := e.mod fun s => { s with ret.metered := s.ret.metered + w, ret.unassigned := before + w }
  if before / 100 < (before + w) / 100 then
    e1.note (creepNotice e1.s.ret.unassigned e1.s.ret.metered e1.s.ret.transfer.state e1.s.ret.delivery
      ((e1.s.ret.active.map Step.number).getD 0))
  else e1

/-- A pulse counted into the tally (R130, R131). A crediting state always has a step (R130). -/
def tallyPulse (e : Event) : Event :=
  if e.s.ret.delivery.crediting then
    match e.s.ret.active with
    | some r => creditPulse r e
    | none => unassignPulse e
  else unassignPulse e

/-- A meter pulse (R129, R132). -/
def execMeterPulse (s : State) : Host.Outcome State Fault Refusal :=
  event s fun e =>
    let e1 := e.mod binPulse
    if e1.s.ret.transfer.state = .vacant then e1
    else if Config.max32 < e1.s.ret.metered + e1.s.ret.settings.weight then e1
    else tallyPulse e1

/-! ### The rate second (R134) -/

/-- Litres in the window. -/
def windowSum (v : Vector Nat 5) : Nat := v[0] + v[1] + v[2] + v[3] + v[4]

/-- The measured rate of the litres of five seconds (R134). -/
def rateOf (litres : Nat) : Nat := min (litres * 18 / 25) Config.max16

/-- The bins shift and the measured rate is set (R134, steps 1 to 5). -/
def shiftBins (s : State) : State :=
  let v := s.meter.window
  let v' : Vector Nat 5 := #v[v[1], v[2], v[3], v[4], s.meter.bin]
  { s with
    meter.window := v', meter.bin := 0, meter.rate := rateOf (windowSum v'),
    meter.rateTimer := Config.ticksPerSecond }

/-- A measured rate below Rmin ends RUNDOWN (R96). -/
def rateEndsRundown (s : State) : State :=
  if s.ret.delivery = .rundown ∧ s.meter.rate < s.ret.settings.rmin then enterClosing s else s

/-- The rate second (R134). Not due: nothing happens (log 3). -/
def execRateSecond (s : State) : Host.Outcome State Fault Refusal :=
  if s.meter.rateTimer = 0 then
    event s fun e => e.mod fun s => evalOverspeed (evalNoFlow (rateEndsRundown (shiftBins s)))
  else .next s

/-! ### The detectors' expiries (R137, R139) -/

/-- The no-flow timer expires: METER at PAUSE (R137). Not due: nothing happens (log 3). -/
def execNoFlowExpiry (s : State) : Host.Outcome State Fault Refusal :=
  if s.meter.noFlow = .timing 0 then
    event s fun e => raiseHold .meter .pause .noFlow (e.mod fun s => { s with meter.noFlow := .quiet })
  else .next s

/-- The overspeed timer expires: LATCHED, and METER at TRIP (R139). Not due: nothing happens (log 3). -/
def execOverspeedExpiry (s : State) : Host.Outcome State Fault Refusal :=
  if s.meter.overspeed = .timing 0 then
    event s fun e => raiseHold .meter .trip .overspeed (e.mod fun s => { s with meter.overspeed := .latched })
  else .next s

end Sys2Proof.Machine
end

