-- ==== Sys2Proof/Machine/Instruments.lean ====
section
/-! DEFINITION. The Instrument Loop Controller (chapter 07): agents, transactions and their outcomes, roles and what
they hand on, the poll, SET of an agent's configuration and READ INSTRUMENTS. -/

namespace Sys2Proof.Machine

/-! ### Agents (R147 to R149) -/

/-- The agent state of an outcome history (R148). -/
def agentStateOf (h : List PollOutcome) : AgentState :=
  if h.length < 3 then .unknown
  else if h.all fun o => decide (o = .good) then .present
  else if h.all fun o => decide (o = .noReply) then .absent
  else .suspect

/-- The top of a role's range; an agent without a role has the pressure roles' top for its limits (R144). -/
def roleTop : Option Role → Nat
  | some .tension => 2000
  | some .hosePressure | some .manifoldPressure | none => 4000

/-- The value taken from a GOOD reply: a value above the top of the role's range is taken at the top, and an
agent without a role keeps the value as it came (R149). -/
def takenValue (c : AgentConfig) (first second : Nat) : Nat :=
  let v :=
    match c.use with
    | .first => first
    | .second => second
    | .higher => max first second
  match c.role with
  | none => v
  | some r => min v (roleTop (some r))

/-- The octets of a complete reply for a number of channels (R147). -/
def replyLength (channels : Nat) : Nat := 2 + 2 * channels

/-- The values of a complete reply of an agent: its address, as many values as it has channels, and a check octet that
brings the sum to 0 modulo 256 (R147). With one channel the second value repeats the first. -/
def completeValues (address : Fin 4) (c : AgentConfig) (reply : List Byte) : Option (Nat × Nat) :=
  if octetSum reply % 256 ≠ 0 then none
  else
    match reply, c.channels with
    | [a, l, h, _], 1 =>
      if a = oct (address.val + 1) then some ((word2 l h).toNat, (word2 l h).toNat) else none
    | [a, l1, h1, l2, h2, _], 2 =>
      if a = oct (address.val + 1) then some ((word2 l1 h1).toNat, (word2 l2 h2).toNat) else none
    | _, _ => none

/-- The values of the octets an agent sends: a good reply ends its transaction as soon as it is complete, so octets
behind it take no part (R147). -/
def replyValues (address : Fin 4) (c : AgentConfig) (reply : List Byte) : Option (Nat × Nat) :=
  completeValues address c (reply.take (replyLength c.channels))

/-- The outcome of a transaction, from the octets that arrived within the window (R147). -/
def outcomeOf (address : Fin 4) (c : AgentConfig) (reply : List Byte) : PollOutcome :=
  if reply = [] then .noReply
  else if (replyValues address c reply).isSome then .good
  else .badCheck

/-- An agent's service after a transaction (R147 to R149). -/
def AgentService.after (a : AgentService) (address : Fin 4) (c : AgentConfig) (reply : List Byte) : AgentService :=
  let history := ((outcomeOf address c reply) :: a.history).take 3
  match replyValues address c reply with
  | some (v1, v2) =>
    { history := history, state := agentStateOf history, value := some (takenValue c v1 v2), age := 0 }
  | none => { a with history := history, state := agentStateOf history }

/-! ### Roles (R150 to R153) -/

/-- Whether an agent contributes to its role (R150). -/
def contributes (a : AgentService) : Bool :=
  decide ((a.state = .present ∨ a.state = .suspect) ∧ a.value.isSome)

/-- The enabled agents of a role (R150). -/
def roleAgents (s : State) (r : Role) : List (Fin 4) :=
  allAgents.filter fun i => (s.agentConfig i).enabled && decide ((s.agentConfig i).role = some r)

/-- The highest of a list, absent when it is empty. -/
def highest : List Nat → Option Nat
  | [] => none
  | x :: rest => some (rest.foldl max x)

/-- The lowest of a list, absent when it is empty. -/
def lowest : List Nat → Option Nat
  | [] => none
  | x :: rest => some (rest.foldl min x)

/-- Whether a value stands at or above a limit; not without a value (R151). -/
def atLimit : Option Nat → Option Nat → Bool
  | some v, some l => decide (l ≤ v)
  | _, _ => false

/-- A role derived afresh (R150, R151). -/
def deriveRole (s : State) (r : Role) : RoleRecord :=
  let agents := roleAgents s r
  let live := agents.filter fun i => contributes (s.agent i)
  let value := highest (live.map fun i => (s.agent i).value.getD 0)
  let warn := lowest (live.map fun i => (s.agentConfig i).warn)
  let trip := lowest (live.map fun i => (s.agentConfig i).trip)
  { value := value, blind := !agents.any fun i => decide ((s.agent i).state = .present), warn := warn, trip := trip,
    warned := atLimit value warn, tripped := atLimit value trip }

/-- Every role derived afresh; a role whose inputs did not change keeps its record (R150). -/
def deriveRoles (s : State) : State :=
  { s with
    instruments.hose := deriveRole s .hosePressure, instruments.manifold := deriveRole s .manifoldPressure,
    instruments.tension := deriveRole s .tension }

/-- The source a tripped role raises (R152). -/
def roleSource : Role → HoldSource
  | .tension => .tension
  | .hosePressure | .manifoldPressure => .pressure

/-- A tripped flag that crossed from clear to set raises its hold (R152). -/
def tripRole (old : Instruments) (e : Event) (r : Role) : Event :=
  if (e.s.instruments.role r).tripped && !(old.role r).tripped then raiseHold (roleSource r) .trip (.role r) e else e

/-- Whether a role's value or blindness changed (R52, R153). -/
def roleChanged (old : Instruments) (s : State) (r : Role) : Bool :=
  decide ((s.instruments.role r).value ≠ (old.role r).value ∨ (s.instruments.role r).blind ≠ (old.role r).blind)

/-- An instrument stage evaluated against its role: a blind role counts as engaged (R51). -/
def evalInstrumentStage (r : RoleRecord) (st : Stage) : Stage :=
  { st with
    instrumentEngaged := st.enabled && (r.blind || r.value.any fun v => hysteresis st st.instrumentEngaged v) }

/-- The instrument stages on changed roles are evaluated (R52). -/
def evalInstrumentStages (old : Instruments) (s : State) : State :=
  { s with ret.stages := mapTable (fun st =>
      match st.input with
      | .tankFill => st
      | .role r => if roleChanged old s r then evalInstrumentStage (s.instruments.role r) st else st) s.ret.stages }

/-- No-rise follows the pressure roles' warned flags (R75, R151). -/
def deriveNoRise (s : State) : State :=
  { s with governor.noRise := s.instruments.hose.warned || s.instruments.manifold.warned }

/-- LIMIT notices for the warned flags that crossed (R151, R154). -/
def limitNotices (old : Instruments) (s : State) : List Notice :=
  (allRoles.filter fun r => decide ((s.instruments.role r).warned ≠ (old.role r).warned)).map
    fun r => limitNotice r (s.instruments.role r)

/-- The AGENT notice of an agent whose state changed (R148, R154), with the record after the event of the role in which
the state changed. A restart comes before the fields (R145), so where a SET also changes the role, the notice names the role
the agent had, whose blindness R154 lets this notice report (log 33). -/
def agentNotices (i : Fin 4) (prev : AgentState) (role : Option Role) (s : State) : List Notice :=
  if prev = (s.agent i).state then []
  else [agentNotice i prev (s.agent i).state role (role.map s.instruments.role)]

/-- The roles are derived and handed on in R153's order: holds, stages, no-rise and P, notices. `i` is the agent
concerned, `prev` its state and `role` its role before the event. -/
def handOnRoles (i : Fin 4) (prev : AgentState) (role : Option Role) (e : Event) : Event :=
  let old := e.s.instruments
  let raised := allRoles.foldl (tripRole old) (e.mod deriveRoles)
  let e1 := raised.mod fun s => recompute (deriveNoRise (evalInstrumentStages old s))
  { e1 with late := e1.late ++ agentNotices i prev role e1.s ++ limitNotices old e1.s }

/-! ### The poll (R146, R147) -/

/-- Ticks of the next poll cycle, and whether the 0.25 s cycle after it is the short one (R146). -/
def pollTicks (p : PollCycle) (shortNext : Bool) : Nat × Bool :=
  match p with
  | .quarter => if shortNext then (2, false) else (3, true)
  | .half => (5, false)
  | .one => (10, false)
  | .two => (20, false)
  | .four => (40, false)

/-- The poll cycle timer is started (R146). -/
def startPollTimer (s : State) : State :=
  let p := pollTicks s.ret.settings.poll s.instruments.shortNext
  { s with instruments.pollTimer := p.1, instruments.shortNext := p.2 }

/-- The next enabled agent at or above an address, in ascending order (R146). -/
def nextAgent (s : State) (start : Nat) : Option (Fin 4) :=
  allAgents.find? fun i => decide (start ≤ i.val) && (s.agentConfig i).enabled

/-- A poll begins a transaction with the next enabled agent, if any (R146, R147). -/
def pollFrom (start : Nat) (s : State) : State :=
  { s with instruments.polling := nextAgent s start, instruments.discard := false }

/-- The poll cycle timer expires: it is restarted and a round begins (R146). Not due: nothing happens (log 3). -/
def execPollCycleExpiry (s : State) : Host.Outcome State Fault Refusal :=
  if s.instruments.pollTimer = 0 then quietEvent s fun s => pollFrom 0 (startPollTimer s) else .next s

def State.setAgent (s : State) (i : Fin 4) (a : AgentService) : State :=
  { s with instruments.agents := put s.instruments.agents i a }

/-- A transaction ends with the octets that arrived (R147 to R149); an outcome to be discarded changes nothing
(R145), and the round goes on to the next agent (R146). With no transaction under way nothing ends (log 3). -/
def execTransactionEnd (reply : List Byte) (s : State) : Host.Outcome State Fault Refusal :=
  match s.instruments.polling with
  | none => .next s
  | some i =>
    event s fun e =>
      let e1 :=
        if e.s.instruments.discard then e
        else
          let a := e.s.agent i
          handOnRoles i a.state (e.s.agentConfig i).role (e.mod fun s => s.setAgent i (a.after i (s.agentConfig i) reply))
      e1.mod (pollFrom (i.val + 1))

/-! ### SET of an agent's configuration (R144, R145) -/

/-- The role a code names (R195): the outer `none` is a wrong code, the inner one NONE. -/
def roleOfCode (c : Byte) : Option (Option Role) :=
  [none, some Role.hosePressure, some .manifoldPressure, some .tension].find? fun r => roleCode r == c

/-- The channel use a code names (R195). -/
def useOfCode (c : Byte) : Option ChannelUse :=
  [ChannelUse.first, .second, .higher].find? fun u => useCode u == c

/-- The configuration a request asks for, brought into range (R144, steps 2 to 5). -/
def clampAgent (c : AgentContent) (role : Option Role) (use : ChannelUse) : AgentConfig :=
  let channels := clamp 1 2 c.channels.toNat
  let warn := min c.warn.toNat (roleTop role - 1)
  { enabled := decide (c.enabled ≠ 0#8), role := role, channels := channels,
    use := if channels = 1 then .first else use, warn := warn,
    trip := min (max c.trip.toNat (warn + 1)) (roleTop role) }

/-- Whether a request's values were changed by R144's steps 2 to 5. -/
def agentClamped (c : AgentContent) (use : ChannelUse) (d : AgentConfig) : Bool :=
  decide (d.channels ≠ c.channels.toNat ∨ d.use ≠ use ∨ d.warn ≠ c.warn.toNat ∨ d.trip ≠ c.trip.toNat)

/-- Whether a change of configuration restarts the agent (R145). -/
def restarts (old new : AgentConfig) : Bool :=
  decide (old.enabled ≠ new.enabled) ||
    (new.enabled && decide (old.role ≠ new.role ∨ old.channels ≠ new.channels ∨ old.use ≠ new.use))

/-- A restart of an agent; a transaction with it under way loses its outcome (R145). -/
def restartAgent (i : Fin 4) (s : State) : State :=
  let s1 := s.setAgent i startAgent
  if s.instruments.polling = some i then { s1 with instruments.discard := true } else s1

/-- A change of an agent's configuration (R145): restart, fields, roles, notice. -/
def applyAgent (i : Fin 4) (d : AgentConfig) (e : Event) : Event :=
  handOnRoles i (e.s.agent i).state (e.s.agentConfig i).role (e.mod fun s =>
    let s1 := if restarts (s.agentConfig i) d then restartAgent i s else s
    { s1 with ret.settings.agents := put s1.ret.settings.agents i d })

/-- An agent configuration as a setting's value (R196). -/
def agentConfigOctets (c : AgentConfig) : List Byte :=
  [flag c.enabled, roleCode c.role, oct c.channels, useCode c.use] ++ le2 c.warn ++ le2 c.trip

/-- The reply data of an accepted SET: code, index, value, and the dependent changes with their count (R196). -/
def setReply (code index : Byte) (value : List Byte) (changes : List (Byte × Nat)) : List Byte :=
  [code, index] ++ value ++ [oct changes.length] ++ changes.flatMap fun c => c.1 :: le2 c.2

/-- SET of an agent's configuration as its owner takes it (R144, R171). -/
def takeSetAgent (link : Station) (address : Byte) (c : AgentContent) (e : Event) : Event × Answer :=
  if link ≠ .barge then refuse e .notOwner
  else
    match code? 4 address.toNat, roleOfCode c.role, useOfCode c.use with
    | some i, some role, some use =>
      let d := clampAgent c role use
      let same := decide (e.s.agentConfig i = d)
      let e1 := if same then e else applyAgent i d e
      let res : Result := if agentClamped c use d then .clamped else if same then .unchanged else .ok
      (e1, { result := res, data := setReply 0x0F#8 address (agentConfigOctets d) [] })
    | _, _, _ => refuse e .range

/-- SET of an agent's configuration (R144, R145). -/
def execSetAgentConfiguration (link : Station) (tag address : Byte) (c : AgentContent) (s : State) :
    Host.Outcome State Fault Refusal :=
  request link .set tag true (takeSetAgent link address c) s

/-! ### READ INSTRUMENTS (R155, R198) -/

def agentOctets (c : AgentConfig) (a : AgentService) : List Byte :=
  agentConfigOctets c ++ [oct a.history.length] ++
    ((a.history.map outcomeCode ++ [0#8, 0#8, 0#8]).take 3) ++ [agentStateCode a.state] ++ le2? a.value ++ le2 a.age

def roleOctets (r : RoleRecord) : List Byte :=
  le2? r.value ++ [flag r.blind] ++ le2? r.warn ++ le2? r.trip ++ [flag r.warned, flag r.tripped]

/-- The reply data of READ INSTRUMENTS (R155, R198). -/
def instrumentsData (s : State) : List Byte :=
  (allAgents.flatMap fun i => agentOctets (s.agentConfig i) (s.agent i)) ++
    (allRoles.flatMap fun r => roleOctets (s.instruments.role r)) ++ [oct (pollCode s.ret.settings.poll)]

/-- READ INSTRUMENTS (R155). -/
def execReadInstruments (link : Station) (tag : Byte) (s : State) : Host.Outcome State Fault Refusal :=
  request link .read tag true (fun e => (e, { result := .ok, data := instrumentsData e.s })) s

end Sys2Proof.Machine
end

