-- ==== Sys2Proof/Machine/Lines.lean ====
section
/-! DEFINITION. The Line Input Unit (chapter 08): sensing, debounce, what a line does when it becomes active or
inactive, the permit, SET of a line's configuration and READ LINES. -/

namespace Sys2Proof.Machine

/-! ### Sensing (R158, R182) -/

/-- Raw state of a contact current; between the thresholds it stays as last sensed (R182). -/
def senseContact (last : Bool) (microamps : Nat) : Bool :=
  if Config.assertedAt ≤ microamps then true
  else if microamps ≤ Config.notAssertedAt then false
  else last

/-- Effective input of a raw input under an inversion (R158). -/
def effectiveInput (c : LineConfig) (raw : Bool) : Bool := raw != c.inverted

/-- A line's effective input as it stands. -/
def State.effective (s : State) (n : Fin 6) : Bool := effectiveInput (s.lineConfig n) (s.line n).raw

/-! ### Raises (R162, R165) -/

/-- Whether a function's hold is a TRIP, raised also when a sampling finds the line ACTIVE (R162). -/
def LineFunction.trips : LineFunction → Bool
  | .esdPush | .levelSwitch | .breakaway => true
  | .unused | .dripTray | .permit => false

/-- The class of the hold a change to ACTIVE raises, none for a function that raises nothing then (R162). -/
def LineFunction.activeClass : LineFunction → Option HoldClass
  | .esdPush | .levelSwitch | .breakaway => some .trip
  | .dripTray => some .pause
  | .unused | .permit => none

/-- A line raises its hold with its function and trigger as reason (R162). -/
def raiseLine (n : Fin 6) (cls : HoldClass) (e : Event) : Event :=
  let c := e.s.lineConfig n
  raiseHold (.line n) cls (.line c.function c.trigger) e

/-- A PERMIT line raises its hold: PAUSE, with trigger EDGE whatever its own (R165). -/
def raisePermit (n : Fin 6) (e : Event) : Event := raiseHold (.line n) .pause (.line .permit .edge) e

/-- Whether a line is a PERMIT line whose debounced state is INACTIVE (R165). -/
def permitMissing (s : State) (n : Fin 6) : Bool :=
  decide ((s.lineConfig n).function = .permit) && !(s.line n).active

/-- At the entry to OPENING each inactive PERMIT line raises, in ascending line number (R165). -/
def raiseMissingPermits (e : Event) : Event := (allLines.filter (permitMissing e.s)).foldl (fun e' n => raisePermit n e') e

/-! ### Changes of the debounced state (R163, R164) -/

/-- A line becomes ACTIVE: latch, hold, LINEEVENT (R163, R166). At the tick that raises the transfer clock the time is the
new second: DESIGN CHOICE, log 36. -/
def lineActive (n : Fin 6) (e : Event) : Event :=
  let c := e.s.lineConfig n
  let e1 := e.mod fun s => s.setLine n { s.line n with active := true, count := 0, latch := true }
  let e2 :=
    match c.function.activeClass with
    | some cls => raiseLine n cls e1
    | none => e1
  e2.lateNote (lineEventNotice n c c.function.activeClass.isSome e.s.ret.transfer.clock)

/-- A line becomes INACTIVE: a PERMIT line in delivery raises its hold (R164, R165). -/
def lineInactive (n : Fin 6) (e : Event) : Event :=
  let e1 := e.mod fun s => s.setLine n { s.line n with active := false, count := 0 }
  if (e1.s.lineConfig n).function = .permit ∧ e1.s.ret.delivery.flowing = true then raisePermit n e1 else e1

/-- The debounced state takes the effective input (R161). -/
def lineFollows (n : Fin 6) (e : Event) : Event :=
  if e.s.effective n then lineActive n e else lineInactive n e

/-- Whether a line's debounce is complete (R161). -/
def lineDebounced (s : State) (n : Fin 6) : Bool :=
  decide (s.effective n ≠ (s.line n).active ∧ 1 ≤ (s.lineConfig n).debounce ∧
    (s.lineConfig n).debounce ≤ (s.line n).count)

/-- The lines up to `n` whose debounce is complete, in ascending line number. -/
def debouncedUpTo (s : State) (n : Fin 6) : List (Fin 6) := allLines.filter fun m => decide (m ≤ n) && lineDebounced s m

/-- A change of a line's debounced state, an event of its own (R161). -/
def lineEvent (s : State) (n : Fin 6) : State := (lineFollows n s.begin).finish

/-- A line's completed debounce is taken, behind those of lower lines, which R161 takes first, each as its own event.
A line whose debounce is not complete is left as it is. -/
def settleLine (n : Fin 6) (s : State) : State :=
  if lineDebounced s n then (debouncedUpTo s n).foldl lineEvent s else s

/-- A line's debounce completes (R161). Not complete: nothing happens (log 3). -/
def execLineDebounceComplete (n : Fin 6) (s : State) : Host.Outcome State Fault Refusal :=
  if s.running then .next (settleLine n s) else .next s

/-- A raw input is sensed (R161). With debounce time 0 the debounced state follows at once; otherwise a return to the
debounced state returns the count to 0. -/
def senseLine (n : Fin 6) (microamps : Nat) (e : Event) : Event :=
  let e1 := e.mod fun s => s.setLine n { s.line n with raw := senseContact (s.line n).raw microamps }
  if e1.s.effective n = (e1.s.line n).active then
    e1.mod fun s => s.setLine n { s.line n with count := 0 }
  else if (e1.s.lineConfig n).debounce = 0 then lineFollows n e1
  else e1

/-- A raw change of a line (R161, R182). A debounce already complete was a change at its tick, so it is taken first. A
command whose current changes nothing sensed is still taken as an event, though the manual gives it no meaning: DESIGN
CHOICE, log 25. Its one effect of its own is that the present retention memory is noted as before the latest event (R177). -/
def execRawLineChange (n : Fin 6) (microamps : Nat) (s : State) : Host.Outcome State Fault Refusal :=
  if s.running then event (settleLine n s) (senseLine n microamps) else .next s

/-! ### SET of a line's configuration (R159, R160) -/

/-- The function a code names (R195). -/
def functionOfCode (c : Byte) : Option LineFunction :=
  [LineFunction.unused, .esdPush, .levelSwitch, .breakaway, .dripTray, .permit].find? fun f => functionCode f == c

/-- The trigger a code names (R195). -/
def triggerOfCode (c : Byte) : Option Trigger := [Trigger.edge, .level].find? fun t => triggerCode t == c

/-- A notify set from its octet; bits 3 to 7 are ignored (R195, R196). -/
def notifyOfCode (c : Byte) : PerStation Bool :=
  { barge := c.getLsbD 0, ship := c.getLsbD 1, survey := c.getLsbD 2 }

/-- The configuration a request asks for, its debounce time clamped (R159). -/
def clampLine (c : LineContent) (f : LineFunction) (t : Trigger) : LineConfig :=
  { function := f, inverted := decide (c.inversion ≠ 0#8), debounce := min c.debounce.toNat 20, trigger := t,
    notify := notifyOfCode c.notify }

/-- A change of a line's configuration (R160): the fields, the re-sampling, then the raise of a TRIP function
found ACTIVE or of a permit found missing in delivery. -/
def applyLine (n : Fin 6) (c : LineConfig) (e : Event) : Event :=
  let e1 := e.mod fun s =>
    let s1 := { s with ret.settings.lines := put s.ret.settings.lines n c }
    s1.setLine n { s1.line n with count := 0, active := effectiveInput c (s1.line n).raw }
  if c.function.trips && (e1.s.line n).active then raiseLine n .trip e1
  else if permitMissing e1.s n && e1.s.ret.delivery.flowing then raisePermit n e1
  else e1

/-- A line configuration as a setting's value (R196). -/
def lineConfigOctets (c : LineConfig) : List Byte :=
  [functionCode c.function, flag c.inverted, oct c.debounce, triggerCode c.trigger, notifyCode c.notify]

/-- SET of a line's configuration as its owner takes it (R159, R171). -/
def takeSetLine (link : Station) (line : Byte) (c : LineContent) (e : Event) : Event × Answer :=
  if link ≠ .barge then refuse e .notOwner
  else
    match code? 6 line.toNat, functionOfCode c.function, triggerOfCode c.trigger with
    | some n, some f, some t =>
      let d := clampLine c f t
      let same := decide (e.s.lineConfig n = d)
      let e1 := if same then e else applyLine n d e
      let res : Result := if d.debounce ≠ c.debounce.toNat then .clamped else if same then .unchanged else .ok
      (e1, { result := res, data := setReply 0x10#8 line (lineConfigOctets d) [] })
    | _, _, _ => refuse e .range

/-- SET of a line's configuration (R159, R160). Like every request it is taken as it stands in the queue: a completed
debounce whose command still waits behind it is no longer due once the configuration is sampled afresh (log 3). -/
def execSetLineConfiguration (link : Station) (tag line : Byte) (c : LineContent) (s : State) :
    Host.Outcome State Fault Refusal :=
  request link .set tag true (takeSetLine link line c) s

/-! ### READ LINES (R167, R198) -/

def lineOctets (s : State) (n : Fin 6) : List Byte :=
  lineConfigOctets (s.lineConfig n) ++
    [flag (s.effective n), flag (s.line n).active, oct (s.line n).count, flag (s.line n).latch]

/-- The reply data of READ LINES (R167, R198). -/
def linesData (s : State) : List Byte := allLines.flatMap (lineOctets s)

/-- Every event latch is cleared (R167). -/
def clearLatches (s : State) : State := { s with lines := mapTable (fun l => { l with latch := false }) s.lines }

/-- READ LINES as taken: a read from BARGE clears the latches after they are placed in the reply (R167). -/
def takeReadLines (link : Station) (e : Event) : Event × Answer :=
  (if link = .barge then e.mod clearLatches else e, { result := .ok, data := linesData e.s })

/-- READ LINES (R167). -/
def execReadLines (link : Station) (tag : Byte) (s : State) : Host.Outcome State Fault Refusal :=
  request link .read tag true (takeReadLines link) s

end Sys2Proof.Machine
end

