-- ==== Sys2Proof/Machine/Plan.lean ====
section
/-! DEFINITION. The Plan Store (chapter 01): the transfer, the step pool and its lists, the requests that build the
plan, TAKE and the Plan Store's reads. -/

namespace Sys2Proof.Machine

/-! ### The transfer (R1 to R5) -/

/-- The grades an OPEN carries, none when a code is outside 1 to 4 or appears twice (R3). -/
def openGrades (grades : List Byte) : Option (List (Fin 4)) :=
  let codes := grades.map fun g => code? 4 g.toNat
  if codes.all Option.isSome && decide codes.Nodup then some (codes.filterMap id) else none

/-- A tank's reading is cleared (R3): contents, credit, age and status, and with them its flags and stages (R30). -/
def clearReading (t : Tank) : Tank := { coldTank with definition := t.definition }

/-- The effects of an accepted OPEN (R3, R90). -/
def openEffects (id : Nat) (grades : List (Fin 4)) (s : State) : State :=
  recompute { s with
    ret.transfer := { state := .opened, id := some id, grades := grades, nextStep := some 1, clock := 0 },
    ret.totals := mapTable (fun _ => { litres := 0, steps := 0 }) s.ret.totals,
    ret.unassigned := 0, ret.metered := 0, ret.lapsed := [],
    ret.tanks := mapTable clearReading s.ret.tanks, tickCount := 0 }

/-- A PLAN notice of the transfer as it stands (R19). -/
def Event.plan (e : Event) (kind : PlanKind) : Event := e.note (planNotice e.s.ret.transfer kind)

/-- OPEN as its owner takes it (R3). -/
def takeOpen (id : Word16) (grades : List Byte) (e : Event) : Event × Answer :=
  match e.s.ret.transfer.state with
  | .opened | .joined => refuse e .wrongState
  | .vacant | .closed =>
    if e.s.ret.transfer.state = .closed ∧ e.s.ret.done ≠ [] then refuse e .recordsPending
    else
      match openGrades grades with
      | none => refuse e .range
      | some gs =>
        if id.toNat = 0 then refuse e .range
        else ((e.mod (openEffects id.toNat gs)).plan (.transfer .opened), answer .ok)

/-- OPEN (R3). A list of no grades or of more than four is MALFORMED (R193). -/
def execOpen (link : Station) (tag : Byte) (id : Word16) (grades : List Byte) (s : State) :
    Host.Outcome State Fault Refusal :=
  request link .openTransfer tag (decide (1 ≤ grades.length ∧ grades.length ≤ 4)) (takeOpen id grades) s

/-- JOIN as its owner takes it (R4). -/
def takeJoin (e : Event) : Event × Answer :=
  match e.s.ret.transfer.state with
  | .opened =>
    ((e.mod fun s => { s with ret.transfer.state := .joined }).plan (.transfer .joined), answer .ok)
  | .joined => refuse e .unchanged
  | .vacant | .closed => refuse e .wrongState

/-- JOIN (R4). -/
def execJoin (link : Station) (tag : Byte) (s : State) : Host.Outcome State Fault Refusal :=
  request link .joinTransfer tag true takeJoin s

/-- The effects of an accepted CLOSE (R5). -/
def closeEffects (s : State) : State :=
  { s with
    ret.free := s.ret.free + s.ret.proposed.length + s.ret.agreed.length, ret.proposed := [], ret.agreed := [],
    ret.transfer.state := .closed }

/-- CLOSE as its owner takes it (R5). -/
def takeClose (e : Event) : Event × Answer :=
  match e.s.ret.transfer.state with
  | .vacant | .closed => refuse e .wrongState
  | .opened | .joined =>
    if e.s.ret.active.isSome then refuse e .busy
    else ((e.mod closeEffects).plan (.transfer .closed), answer .ok)

/-- CLOSE (R5). -/
def execClose (link : Station) (tag : Byte) (s : State) : Host.Outcome State Fault Refusal :=
  request link .closeTransfer tag true takeClose s

/-! ### Admission and step content (R12, R13) -/

/-- The transfer states in which PROPOSE, AMEND and WITHDRAW are admitted from a station (R12). -/
def admitsBuild (tr : TransferState) : Station → Bool
  | .barge => decide (tr = .opened ∨ tr = .joined)
  | .ship | .survey => decide (tr = .joined)

/-- The tank-list entry a tank index and share give, none for an index that names no defined tank or a share
outside 1 to 100 (R13). -/
def entryOf (s : State) (t : TankShare) : Option TankEntry :=
  match index? 8 t.tank.toNat with
  | none => none
  | some i =>
    if (s.tank i).definition.isSome && decide (1 ≤ t.share.toNat ∧ t.share.toNat ≤ 100) then
      some { tank := i, share := t.share.toNat, credit := 0 }
    else none

/-- The grade and tank list of a content that passes R13's checks, none when one fails. -/
def checkContent (s : State) (c : StepContent) : Option (Fin 4 × List TankEntry) :=
  let entries := c.tanks.map (entryOf s)
  match code? 4 c.grade.toNat with
  | none => none
  | some g =>
    if s.ret.transfer.grades.contains g && entries.all Option.isSome && decide ((c.tanks.map TankShare.tank).Nodup) &&
        decide ((c.tanks.map fun t => t.share.toNat).sum = 100) then
      some (g, entries.filterMap id)
    else none

/-- The target quantity brought into range (R13). -/
def clampQuantity (q : Word32) : Nat := clamp 1000 4000000 q.toNat

/-- The rate cap brought into range; 0 is absent (R13). -/
def clampCap (cap : Word16) : Option Nat := if cap.toNat = 0 then none else some (min cap.toNat 2000)

/-- The reply to an accepted content: CLAMPED if a value was changed, else OK (R13). -/
def contentResult (c : StepContent) : Result :=
  if clampQuantity c.quantity ≠ c.quantity.toNat ∨ 2000 < c.rateCap.toNat then .clamped else .ok

/-- Whether a content's tank count is 1 to 3 (R13, R193). -/
def contentFormed (c : StepContent) : Bool := decide (1 ≤ c.tanks.length ∧ c.tanks.length ≤ 3)

/-! ### PROPOSE and AMEND (R14, R15) -/

/-- The next step number after one is assigned (R9). -/
def nextNumber (n : Nat) : Option Nat := if n = 255 then none else some (n + 1)

/-- The record a PROPOSE makes (R8). -/
def proposedStep (link : Station) (n : Nat) (g : Fin 4) (entries : List TankEntry) (c : StepContent) : Step :=
  { number := n, grade := g, tanks := entries, quantity := clampQuantity c.quantity, rateCap := clampCap c.rateCap,
    proposer := link, markBarge := decide (link = .barge), markShip := decide (link = .ship), delivered := 0,
    holdCount := 0, endCause := none, lastStop := none, startTime := none, endTime := none }

/-- PROPOSE as its owner takes it (R12, R14). -/
def takePropose (link : Station) (c : StepContent) (e : Event) : Event × Answer :=
  if admitsBuild e.s.ret.transfer.state link = false then refuse e .wrongState
  else
    match checkContent e.s c with
    | none => refuse e .range
    | some (g, entries) =>
      match e.s.ret.transfer.nextStep with
      | none => refuse e .planFull
      | some n =>
        if e.s.ret.free = 0 then
          (e.mod fun s => { s with starvation := s.starvation.put link (bump8 (s.starvation.at link)) },
            answer .poolEmpty)
        else
          ((e.mod fun s => { s with
              ret.free := s.ret.free - 1, ret.transfer.nextStep := nextNumber n,
              ret.proposed := s.ret.proposed ++ [proposedStep link n g entries c] }).plan (.proposed n),
            { result := contentResult c, data := [oct n] })

/-- PROPOSE (R14). -/
def execPropose (link : Station) (tag : Byte) (c : StepContent) (s : State) : Host.Outcome State Fault Refusal :=
  request link .propose tag (contentFormed c) (takePropose link c) s

/-- The place of a record that is not free (R7). -/
inductive Place where
  | proposed
  | agreed
  | active
  | done
  deriving DecidableEq, Repr

/-- The record that bears a number, with its place (R9). -/
def locate (s : State) (n : Nat) : Option (Place × Step) :=
  match findStep s.ret.proposed n with
  | some r => some (.proposed, r)
  | none =>
    match findStep s.ret.agreed n with
    | some r => some (.agreed, r)
    | none =>
      match findStep s.ret.active.toList n with
      | some r => some (.active, r)
      | none => (findStep s.ret.done n).map fun r => (.done, r)

/-- The record after an AMEND (R11, R15). -/
def amendedStep (link : Station) (r : Step) (g : Fin 4) (entries : List TankEntry) (c : StepContent) : Step :=
  { r with
    grade := g, tanks := entries, quantity := clampQuantity c.quantity, rateCap := clampCap c.rateCap }.onlyMark link

/-- AMEND as its owner takes it (R12, R15). -/
def takeAmend (link : Station) (number : Byte) (c : StepContent) (e : Event) : Event × Answer :=
  if admitsBuild e.s.ret.transfer.state link = false then refuse e .wrongState
  else
    match locate e.s number.toNat with
    | none => refuse e .noStep
    | some (.agreed, _) | some (.active, _) | some (.done, _) => refuse e .wrongState
    | some (.proposed, r) =>
      match checkContent e.s c with
      | none => refuse e .range
      | some (g, entries) =>
        ((e.mod fun s => { s with ret.proposed := replaceStep s.ret.proposed (amendedStep link r g entries c) }).plan
          (.amended r.number), answer (contentResult c))

/-- AMEND (R15). -/
def execAmend (link : Station) (tag number : Byte) (c : StepContent) (s : State) : Host.Outcome State Fault Refusal :=
  request link .amend tag (contentFormed c) (takeAmend link number c) s

/-! ### AGREE, REVISE, WITHDRAW (R16 to R18) -/

/-- AGREE as its owner takes it (R12, R16). -/
def takeAgree (link : Station) (number : Byte) (e : Event) : Event × Answer :=
  if e.s.ret.transfer.state ≠ .joined then refuse e .wrongState
  else
    match locate e.s number.toNat with
    | none => refuse e .noStep
    | some (.agreed, _) | some (.active, _) | some (.done, _) => refuse e .wrongState
    | some (.proposed, r) =>
      if r.marked link then refuse e .unchanged
      else
        ((e.mod fun s => { s with
            ret.proposed := dropStep s.ret.proposed r.number, ret.agreed := s.ret.agreed ++ [r.addMark link] }).plan
          (.agreed r.number), answer .ok)

/-- AGREE (R16). -/
def execAgree (link : Station) (tag number : Byte) (s : State) : Host.Outcome State Fault Refusal :=
  request link .agree tag true (takeAgree link number) s

/-- The steps before a number on a list, and the run from it on (R17). -/
def splitRun (l : List Step) (n : Nat) : List Step × List Step := l.span fun r => r.number != n

/-- REVISE as its owner takes it (R12, R17); an operand that is neither HEAD nor TAIL is refused RANGE after the
checks on the step (R196). -/
def takeRevise (link : Station) (number operand : Byte) (e : Event) : Event × Answer :=
  if e.s.ret.transfer.state ≠ .joined then refuse e .wrongState
  else
    match locate e.s number.toNat with
    | none => refuse e .noStep
    | some (.proposed, _) | some (.active, _) | some (.done, _) => refuse e .wrongState
    | some (.agreed, r) =>
      if operand ≠ 0#8 ∧ operand ≠ 1#8 then refuse e .range
      else
        let split := splitRun e.s.ret.agreed r.number
        let run := split.2.map fun q => q.onlyMark link
        ((e.mod fun s => { s with
            ret.agreed := split.1,
            ret.proposed := if operand = 0#8 then run ++ s.ret.proposed else s.ret.proposed ++ run }).plan
          (.revised r.number run.length operand), answer .ok)

/-- REVISE (R17). -/
def execRevise (link : Station) (tag number operand : Byte) (s : State) : Host.Outcome State Fault Refusal :=
  request link .revise tag true (takeRevise link number operand) s

/-- A record on PROPOSED returns to the free list (R18). -/
def freeProposed (n : Nat) (s : State) : State :=
  { s with ret.proposed := dropStep s.ret.proposed n, ret.free := s.ret.free + 1 }

/-- A record on AGREED returns to the free list (R18). -/
def freeAgreed (n : Nat) (s : State) : State :=
  { s with ret.agreed := dropStep s.ret.agreed n, ret.free := s.ret.free + 1 }

/-- WITHDRAW as its owner takes it (R12, R18). -/
def takeWithdraw (link : Station) (number : Byte) (e : Event) : Event × Answer :=
  if admitsBuild e.s.ret.transfer.state link = false then refuse e .wrongState
  else
    match locate e.s number.toNat with
    | none => refuse e .noStep
    | some (.proposed, r) => ((e.mod (freeProposed r.number)).plan (.withdrawn r.number), answer .ok)
    | some (.agreed, r) => ((e.mod (freeAgreed r.number)).plan (.withdrawn r.number), answer .ok)
    | some (.active, r) =>
      if e.s.ret.delivery = .held then (finishStep .abandoned r e, answer .ok) else refuse e .busy
    | some (.done, _) => refuse e .wrongState

/-- WITHDRAW (R18). -/
def execWithdraw (link : Station) (tag number : Byte) (s : State) : Host.Outcome State Fault Refusal :=
  request link .withdraw tag true (takeWithdraw link number) s

/-! ### Records on the links (R198) -/

def placeCode : Place → Byte
  | .proposed => 1#8
  | .agreed => 2#8
  | .active => 3#8
  | .done => 4#8

/-- The step record layout (R198). -/
def stepOctets (p : Place) (r : Step) : List Byte :=
  [oct r.number, placeCode p, gradeCode r.grade, stationCode r.proposer, marksCode r] ++ le4 r.quantity ++
    le2 (r.rateCap.getD 0) ++ le4 r.delivered ++ [oct r.holdCount] ++ endCauseOctets r.endCause ++
    lastStopOctets r.lastStop ++ le4? r.startTime ++ le4? r.endTime ++ [oct r.tanks.length] ++
    r.tanks.flatMap fun t => [oct t.tank.val, oct t.share] ++ le4 t.credit

/-! ### TAKE and the reads (R24 to R28) -/

/-- TAKE as its owner takes it (R24). -/
def takeTake (link : Station) (e : Event) : Event × Answer :=
  match e.s.ret.done with
  | [] =>
    (e.mod fun s => { s with starvation := s.starvation.put link (bump8 (s.starvation.at link)) }, answer .empty)
  | r :: rest =>
    ((e.mod fun s => { s with ret.done := rest, ret.free := s.ret.free + 1 }).plan (.taken r.number),
      { result := .ok, data := idOctets e.s.ret.transfer ++ stepOctets .done r })

/-- TAKE (R24). -/
def execTake (link : Station) (tag : Byte) (s : State) : Host.Outcome State Fault Refusal :=
  request link .take tag true (takeTake link) s

/-- READ STEP as taken (R25). -/
def takeReadStep (number : Byte) (e : Event) : Event × Answer :=
  match locate e.s number.toNat with
  | none => refuse e .noStep
  | some (p, r) => (e, { result := .ok, data := stepOctets p r })

/-- READ STEP (R25). -/
def execReadStep (link : Station) (tag number : Byte) (s : State) : Host.Outcome State Fault Refusal :=
  request link .read tag true (takeReadStep number) s

/-- The step in the slot with its Q and D as READ LISTS sends it (R26). An empty slot is step number 0, and its
Q and D are absent fields, all ones (R195, log 29). -/
def activeOctets (a : Option Step) : List Byte :=
  match a with
  | none => [0#8] ++ le4? none ++ le4? none
  | some r => [oct r.number] ++ le4 r.quantity ++ le4 r.delivered

/-- The reply data of READ LISTS (R26, R198). -/
def listsData (s : State) : List Byte :=
  let m := s.ret
  [transferCode m.transfer.state] ++ idOctets m.transfer ++ [nextStepCode m.transfer.nextStep] ++
    [oct m.proposed.length] ++ le4 (sumQuantity m.proposed) ++ [oct m.agreed.length] ++ le4 (sumQuantity m.agreed) ++
    activeOctets m.active ++ [oct m.done.length] ++ le4 (sumDelivered m.done) ++ [oct m.free] ++
    (m.proposed.flatMap fun r => [oct r.number, marksCode r]) ++
    (m.agreed.flatMap fun r => [oct r.number, marksCode r]) ++ m.done.map fun r => oct r.number

/-- READ LISTS (R26). -/
def execReadLists (link : Station) (tag : Byte) (s : State) : Host.Outcome State Fault Refusal :=
  request link .read tag true (fun e => (e, { result := .ok, data := listsData e.s })) s

/-- The reply data of READ TOTALS (R27, R198). -/
def totalsData (s : State) : List Byte :=
  (allGrades.flatMap fun g => le4 (at' s.ret.totals g).litres ++ [oct (at' s.ret.totals g).steps]) ++
    le4 s.ret.unassigned ++ le4 s.ret.metered

/-- READ TOTALS (R27). -/
def execReadTotals (link : Station) (tag : Byte) (s : State) : Host.Outcome State Fault Refusal :=
  request link .read tag true (fun e => (e, { result := .ok, data := totalsData e.s })) s

/-- The reply data of READ COUNTERS (R28, R186, R198). -/
def countersData (s : State) : List Byte :=
  allStations.map (fun st => oct (s.starvation.at st)) ++ allStations.map (fun st => oct (s.link st).errors)

/-- A station's own counters are set to 0 (R28, R186). -/
def clearCounters (link : Station) (s : State) : State :=
  { s with starvation := s.starvation.put link 0 }.setLink link { s.link link with errors := 0 }

/-- READ COUNTERS (R28): the requester's own counters are cleared after they are placed in the reply. -/
def execReadCounters (link : Station) (tag : Byte) (s : State) : Host.Outcome State Fault Refusal :=
  request link .read tag true
    (fun e => (e.mod (clearCounters link), { result := .ok, data := countersData e.s })) s

/-! ### The transfer clock (R2) -/

/-- Whether the transfer clock runs (R2). -/
def TransferState.clockRuns : TransferState → Bool
  | .opened | .joined => true
  | .vacant | .closed => false

end Sys2Proof.Machine
end

