-- ==== Sys2Proof/Machine/Execution.lean ====
section
/-! DEFINITION. Step execution (chapter 04): START, LINED and STOP, the expiries of the delivery timers, the limit
switches, and the ramp second of chapter 03. -/

namespace Sys2Proof.Machine

/-! ### START (R85, R86) -/

/-- The candidate step of a START (R85). -/
def candidate (s : State) : Option Step :=
  match s.ret.delivery with
  | .idle => s.ret.agreed.head?
  | .held => s.ret.active
  | .armed | .opening | .pumping | .rundown | .closing | .settling => none

/-- Whether a gauge status refuses a start (R43). -/
def GaugeStatus.unusable : GaugeStatus → Bool
  | .none | .lost => true
  | .fresh | .stale => false

/-- The first of R85's checks that fails, none when all pass. A HELD state without a step, which no run reaches,
is answered as check 4 (log 19). -/
def startRefusal (s : State) : Option Result :=
  if s.ret.transfer.state ≠ .joined then some .wrongState
  else if s.ret.holds ≠ [] then some .held
  else if s.ret.delivery ≠ .idle ∧ s.ret.delivery ≠ .held then some .busy
  else
    match candidate s with
    | none => some .noStep
    | some r =>
      if r.tanks.any fun t => (s.tank t.tank).status.unusable then some .noGauge
      else if allLines.any (permitMissing s) then some .noPermit
      else if (s.link .ship).state ≠ .up then some .noLink
      else if s.valve ≠ .closed then some .busy
      else none

/-- The delivery state an arming is made from, for STARTREQ. -/
def ArmedFrom.delivery : ArmedFrom → DeliveryState
  | .idle => .idle
  | .held => .held

/-- The arming of a step (R86): the slot, the delivery state, the lapsed set, the confirm timer, P, STARTREQ. -/
def armStep (r : Step) (e : Event) : Event :=
  let origin : ArmedFrom := if e.s.ret.delivery = .held then .held else .idle
  let taken :=
    match origin with
    | .idle => { e.s with ret.agreed := e.s.ret.agreed.tail, ret.active := some r }
    | .held => e.s
  let s1 := setDelivery .armed { taken with
    controller.armedFrom := some origin, controller.confirm := some (ticksOf taken.ret.settings.confirm),
    ret.lapsed := taken.ret.lapsed.filter fun n => n != r.number }
  { e with
    s := recompute s1, arming := some (startReqNotice r origin.delivery s1.ret.settings.confirm) }

/-- START as its owner takes it (R85, R86). -/
def takeStart (e : Event) : Event × Answer :=
  match startRefusal e.s, candidate e.s with
  | some res, _ => refuse e res
  | none, none => refuse e .noStep
  | none, some r => (armStep r e, { result := .ok, data := [oct r.number] })

/-- START (R85, R86). -/
def execStart (link : Station) (tag : Byte) (s : State) : Host.Outcome State Fault Refusal :=
  request link .startStep tag true takeStart s

/-! ### LINED (R87, R91) -/

/-- Delivery enters OPENING (R91): the command, the start time, the PERMIT raises, and PUMPING at once if the valve
already stands OPEN and no raise has stopped the step (log 15). -/
def enterOpening (r : Step) (e : Event) : Event :=
  let started : Step := { r with startTime := some (r.startTime.getD e.s.ret.transfer.clock) }
  let e1 := raiseMissingPermits (e.mod fun s =>
    setCommand .opened (setDelivery .opening { s with
      controller.confirm := none, controller.armedFrom := none, ret.active := some started }))
  if e1.s.ret.delivery = .opening ∧ e1.s.valve = .opened then e1.mod enterPumping else e1

/-- LINED as its owner takes it (R87). -/
def takeLined (number : Byte) (e : Event) : Event × Answer :=
  match (if e.s.ret.delivery = .armed then findStep e.s.ret.active.toList number.toNat else none) with
  | some r => (enterOpening r e, answer .ok)
  | none =>
    if e.s.ret.lapsed.contains number.toNat then refuse e .late else refuse e .wrongState

/-- LINED (R87). -/
def execLined (link : Station) (tag number : Byte) (s : State) : Host.Outcome State Fault Refusal :=
  request link .lined tag true (takeLined number) s

/-! ### STOP (R99) -/

/-- STOP as its owner takes it (R99). -/
def takeStop (link : Station) (e : Event) : Event × Answer :=
  match e.s.ret.delivery with
  | .armed => (endArming (.stopped link) e, answer .ok)
  | .opening => (e.mod fun s => enterClosing (fixCause (.stopped link) s), answer .ok)
  | .pumping => (e.mod fun s => enterRundown (fixCause (.stopped link) s), answer .ok)
  | .idle | .rundown | .closing | .settling | .held => refuse e .unchanged

/-- STOP (R99). -/
def execStop (link : Station) (tag : Byte) (s : State) : Host.Outcome State Fault Refusal :=
  request link .stopStep tag true (takeStop link) s

/-! ### Expiries of the delivery timers -/

/-- The confirm timer expires in ARMED (R88). Not due: nothing happens (log 3). -/
def execConfirmExpiry (s : State) : Host.Outcome State Fault Refusal :=
  if s.ret.delivery = .armed ∧ s.controller.confirm = some 0 then event s (endArming .expired) else .next s

/-- The stroke timer expires: VALVE at TRIP (R82). Not due: nothing happens (log 3). -/
def execStrokeTimerExpiry (s : State) : Host.Outcome State Fault Refusal :=
  if s.controller.stroke = some 0 then
    event s fun e =>
      raiseHold .valve .trip (if e.s.controller.command = .opened then .noOpen else .noClose)
        (e.mod fun s => { s with controller.stroke := none })
  else .next s

/-- The rundown timer expires: CLOSING (R96). Not due: nothing happens (log 3). -/
def execRundownExpiry (s : State) : Host.Outcome State Fault Refusal :=
  if s.ret.delivery = .rundown ∧ s.controller.rundown = some 0 then event s fun e => e.mod enterClosing
  else .next s

/-- The step is settled: it completes or is held by its stop cause, which is then discarded (R98). -/
def settleStep (r : Step) (cause : StopCause) (e : Event) : Event :=
  match cause with
  | .quantity => finishStep .quantity r e
  | .topped t => finishStep (.topped t) r e
  | .stopped st => e.mod (holdStep (.stopped st) r)
  | .hold src => e.mod (holdStep (.hold src) r)

/-- The settle timer expires (R98). Not due: nothing happens (log 3). SETTLING has a step and a stop cause in
every run; a state without them keeps what it has and becomes IDLE or HELD (log 19). -/
def execSettleExpiry (s : State) : Host.Outcome State Fault Refusal :=
  if s.ret.delivery = .settling ∧ s.controller.settle = some 0 then
    event s fun e =>
      let e1 := e.mod fun s => { s with controller.settle := none, controller.stopCause := none }
      match e.s.ret.active, e.s.controller.stopCause with
      | some r, some cause => settleStep r cause e1
      | some _, none => e1.mod (setDelivery .held)
      | none, _ => e1.mod (setDelivery .idle)
  else .next s

/-- The demand at a ramp second (R73). -/
def rampDemand (s : State) : Nat :=
  if s.governor.demand < s.governor.permitted then
    if s.governor.noRise then s.governor.demand
    else min s.governor.permitted (s.governor.demand + s.ret.settings.u)
  else s.governor.permitted

/-- A ramp second (R73). Not due: nothing happens (log 3). -/
def execRampSecond (s : State) : Host.Outcome State Fault Refusal :=
  if s.ret.delivery = .pumping ∧ s.governor.ramp = some 0 then
    quietEvent s fun s => evalNoFlow { s with
      governor.ramp := some Config.ticksPerSecond, governor.demand := rampDemand s }
  else .next s

/-! ### The limit switches (R81 to R84, R92, R97) -/

/-- The sensed state of a limit switch. -/
def Controller.switch (c : Controller) : LimitSwitch → Bool
  | .openLimit => c.openLimit
  | .closedLimit => c.closedLimit

/-- A limit switch takes a sensed state. -/
def setSwitch (w : LimitSwitch) (on : Bool) (s : State) : State :=
  match w with
  | .openLimit => { s with controller.openLimit := on }
  | .closedLimit => { s with controller.closedLimit := on }

/-- The stroke timer at a change of valve state (R82): stopped at the end the command names, started at TCLOSE when
the valve leaves CLOSED with the command CLOSED and the timer stopped. -/
def strokeAfter (before : ValveState) (s : State) : Option Nat :=
  if s.valve = s.controller.command.names then none
  else if before = .closed ∧ s.valve ≠ .closed ∧ s.controller.command = .closed ∧ s.controller.stroke = none then
    some (ticksOf s.ret.settings.tclose)
  else s.controller.stroke

/-- A jam or a drift raises VALVE (R83, R84). -/
def valveFault (before : ValveState) (e : Event) : Event :=
  if e.s.valve = .jammed ∧ before ≠ .jammed then raiseHold .valve .trip .bothLimits e
  else if before = .opened ∧ e.s.controller.command = .opened ∧ e.s.valve = .opening then
    raiseHold .valve .trip .drift e
  else e

/-- The valve reaches its open end in OPENING, or its closed end in CLOSING (R92, R97). -/
def valveEnd (before : ValveState) (s : State) : State :=
  if s.valve = .opened ∧ before ≠ .opened ∧ s.ret.delivery = .opening then enterPumping s
  else if s.valve = .closed ∧ before ≠ .closed ∧ s.ret.delivery = .closing then enterSettling s
  else s

/-- A limit switch changes (R81, R182). A current that does not change the sensed state is no event. -/
def execLimitSwitchChange (w : LimitSwitch) (microamps : Nat) (s : State) : Host.Outcome State Fault Refusal :=
  let on := senseContact (s.controller.switch w) microamps
  if on = s.controller.switch w then .next s
  else
    event s fun e =>
      let before := e.s.valve
      let e1 := e.mod fun s =>
        let s1 := setSwitch w on s
        { s1 with controller.stroke := strokeAfter before s1 }
      (valveFault before e1).mod (valveEnd before)

end Sys2Proof.Machine
end

