-- ==== Sys2Proof/Machine/Settings.lean ====
section
/-! DEFINITION. The Settings Store (chapter 09): SET of the rate limits, the stop times, the timer settings, S, W and
NO-FLOW with their clamps and dependent changes, and GET. -/

namespace Sys2Proof.Machine

/-- The code a SET of a value is answered with (R171). -/
def setResult (asked taken standing : Nat) : Result :=
  if taken ≠ asked then .clamped else if taken = standing then .unchanged else .ok

/-! ### Rmax, Rmin and Cb (R172) -/

def limitCode : RateLimit → Byte
  | .rmax => 0x01#8
  | .rmin => 0x02#8
  | .cb => 0x05#8

def Settings.rateLimit (t : Settings) : RateLimit → Nat
  | .rmax => t.rmax
  | .rmin => t.rmin
  | .cb => t.cb

/-- The named limit clamped to its range as the other settings give it (R171, R172 step 1). -/
def clampLimit (t : Settings) (which : RateLimit) (v : Nat) : Nat :=
  match which with
  | .rmax => clamp 50 2000 v
  | .rmin => clamp 10 t.rmax v
  | .cb => clamp t.rmin t.rmax v

/-- The settings after a SET of a rate limit, with the dependent changes in R172's order. -/
def setLimit (t : Settings) (which : RateLimit) (v : Nat) : Settings :=
  match which with
  | .rmax =>
    let rmin := min t.rmin v
    { t with rmax := v, rmin := rmin, cb := clamp rmin v t.cb }
  | .rmin => { t with rmin := v, cb := clamp v t.rmax t.cb }
  | .cb => { t with cb := v }

/-- The limits other than the named one that a SET changed (R171, R172). -/
def limitChanges (old new : Settings) (which : RateLimit) : List (Byte × Nat) :=
  ([RateLimit.rmin, .cb].filter fun l => decide (l ≠ which ∧ old.rateLimit l ≠ new.rateLimit l)).map
    fun l => (limitCode l, new.rateLimit l)

/-- A raised Rmin lifts the demand in PUMPING (R76). -/
def liftDemand (s : State) : State :=
  if s.ret.delivery = .pumping ∧ s.governor.demand < s.ret.settings.rmin then
    evalNoFlow { s with governor.demand := s.ret.settings.rmin }
  else s

/-- What an accepted change of the rate limits does at once (R174): P first (R67), then the demand (R76), and the
overspeed condition at a change of Rmax (R138). -/
def limitsAct (which : RateLimit) (s : State) : State :=
  let s1 := liftDemand (recompute s)
  if which = .rmax then evalOverspeed s1 else s1

/-- SET of a rate limit as its owner takes it (R171, R172). -/
def takeSetLimit (link : Station) (which : RateLimit) (index : Byte) (value : Word16) (e : Event) : Event × Answer :=
  if link ≠ .barge then refuse e .notOwner
  else
    let old := e.s.ret.settings
    let v := clampLimit old which value.toNat
    let res := setResult value.toNat v (old.rateLimit which)
    let new := setLimit old which v
    let e1 := if res = .unchanged then e else e.mod fun s => limitsAct which { s with ret.settings := new }
    let data := setReply (limitCode which) index (le2 v)
      (if res = .unchanged then [] else limitChanges old new which)
    (e1, { result := res, data := data })

/-- SET of Rmax, Rmin or Cb (R172, R174, R76). -/
def execSetRateLimits (link : Station) (tag : Byte) (which : RateLimit) (index : Byte) (value : Word16) (s : State) :
    Host.Outcome State Fault Refusal :=
  request link .set tag true (takeSetLimit link which index value) s

/-! ### Tstop, RUNDOWN and TCLOSE (R173) -/

def stopTimeCode : StopTime → Byte
  | .tstop => 0x04#8
  | .rundown => 0x06#8
  | .tclose => 0x08#8

def Settings.stopTime (t : Settings) : StopTime → Nat
  | .tstop => t.tstop
  | .rundown => t.rundown
  | .tclose => t.tclose

/-- The named stop time clamped to its range; Tstop is at least RUNDOWN + TCLOSE (R170, R173). -/
def clampStopTime (t : Settings) (which : StopTime) (v : Nat) : Nat :=
  match which with
  | .tstop => clamp (max 5 (t.rundown + t.tclose)) 120 v
  | .rundown => clamp 0 30 v
  | .tclose => clamp 5 60 v

/-- The settings after a SET of a stop time; Tstop is raised to the sum when it falls below it (R173). -/
def setStopTime (t : Settings) (which : StopTime) (v : Nat) : Settings :=
  match which with
  | .tstop => { t with tstop := v }
  | .rundown => { t with rundown := v, tstop := max t.tstop (v + t.tclose) }
  | .tclose => { t with tclose := v, tstop := max t.tstop (t.rundown + v) }

/-- SET of a stop time as its owner takes it (R171, R173); a change of Tstop recomputes P (R67, R174). -/
def takeSetStopTime (link : Station) (which : StopTime) (index : Byte) (value : Word16) (e : Event) :
    Event × Answer :=
  if link ≠ .barge then refuse e .notOwner
  else
    let old := e.s.ret.settings
    let v := clampStopTime old which value.toNat
    let res := setResult value.toNat v (old.stopTime which)
    let new := setStopTime old which v
    let e1 := if res = .unchanged then e else e.mod fun s => recompute { s with ret.settings := new }
    let raised := res ≠ .unchanged ∧ which ≠ .tstop ∧ new.tstop ≠ old.tstop
    let data := setReply (stopTimeCode which) index (le2 v)
      (if raised then [(stopTimeCode .tstop, new.tstop)] else [])
    (e1, { result := res, data := data })

/-- SET of Tstop, RUNDOWN or TCLOSE (R173). -/
def execSetStopTimes (link : Station) (tag : Byte) (which : StopTime) (index : Byte) (value : Word16) (s : State) :
    Host.Outcome State Fault Refusal :=
  request link .set tag true (takeSetStopTime link which index value) s

/-! ### U, CONFIRM, TOPEN, SETTLE, POLL and the silence limits (R175) -/

def timerCode : TimerSetting → Byte
  | .u => 0x03#8
  | .topen => 0x07#8
  | .confirm => 0x09#8
  | .settle => 0x0A#8
  | .silence .barge => 0x0B#8
  | .silence .ship => 0x0C#8
  | .silence .survey => 0x0D#8
  | .poll => 0x0E#8

def Settings.timer (t : Settings) : TimerSetting → Nat
  | .u => t.u
  | .topen => t.topen
  | .confirm => t.confirm
  | .settle => t.settle
  | .silence st => t.silence.at st
  | .poll => pollCode t.poll

/-- The poll cycle of a code (R171). -/
def pollOfCode (v : Nat) : Option PollCycle :=
  [PollCycle.quarter, .half, .one, .two, .four].find? fun p => pollCode p == v

/-- The value a SET of a timer setting takes, none for a POLL code above 4 (R170, R171). -/
def clampTimer (which : TimerSetting) (v : Nat) : Option Nat :=
  match which with
  | .u => some (clamp 1 100 v)
  | .topen => some (clamp 5 120 v)
  | .confirm => some (clamp 10 600 v)
  | .settle => some (clamp 2 60 v)
  | .silence _ => some (clamp 2 60 v)
  | .poll => (pollOfCode v).map pollCode

/-- The settings with a timer setting replaced. -/
def setTimer (t : Settings) (which : TimerSetting) (v : Nat) : Settings :=
  match which with
  | .u => { t with u := v }
  | .topen => { t with topen := v }
  | .confirm => { t with confirm := v }
  | .settle => { t with settle := v }
  | .silence st => { t with silence := t.silence.put st v }
  | .poll => { t with poll := (pollOfCode v).getD t.poll }

/-- An accepted change of a timer setting: running timers keep their values (R175); a change of POLL begins the
0.25 s alternation anew (R146). -/
def applyTimer (which : TimerSetting) (v : Nat) (s : State) : State :=
  let s1 := { s with ret.settings := setTimer s.ret.settings which v }
  if which = .poll then { s1 with instruments.shortNext := false } else s1

/-- SET of a timer setting as its owner takes it (R171). -/
def takeSetTimer (link : Station) (which : TimerSetting) (index : Byte) (value : Word16) (e : Event) :
    Event × Answer :=
  if link ≠ .barge then refuse e .notOwner
  else
    match clampTimer which value.toNat with
    | none => refuse e .range
    | some v =>
      let res := setResult value.toNat v (e.s.ret.settings.timer which)
      (if res = .unchanged then e else e.mod (applyTimer which v),
        { result := res, data := setReply (timerCode which) index (le2 v) [] })

/-- SET of U, CONFIRM, TOPEN, SETTLE, POLL or a silence limit (R175). -/
def execSetTimerSetting (link : Station) (tag : Byte) (which : TimerSetting) (index : Byte) (value : Word16)
    (s : State) : Host.Outcome State Fault Refusal :=
  request link .set tag true (takeSetTimer link which index value) s

/-! ### S, W and NO-FLOW (R42, R127, R128) -/

/-- A new stale limit: every tank's status is re-derived, then P (R42, R174). The LEVEL notices go out in ascending tank
index, each with its tank's raise (log 34), also for a tank that returns from LOST to STALE (log 35). -/
def applyStale (v : Nat) (e : Event) : Event :=
  (restatusAll (fun _ => true) (e.mod fun s => { s with ret.settings.stale := v })).mod recompute

/-- SET of S as its owner takes it (R42, R171). -/
def takeSetS (link : Station) (index : Byte) (value : Word16) (e : Event) : Event × Answer :=
  if link ≠ .ship then refuse e .notOwner
  else
    let v := clamp 10 600 value.toNat
    let res := setResult value.toNat v e.s.ret.settings.stale
    (if res = .unchanged then e else applyStale v e, { result := res, data := setReply 0x11#8 index (le2 v) [] })

/-- SET of S (R42). -/
def execSetS (link : Station) (tag index : Byte) (value : Word16) (s : State) : Host.Outcome State Fault Refusal :=
  request link .set tag true (takeSetS link index value) s

/-- SET of W as its owner takes it (R127): owner, then transfer state, then value. -/
def takeSetW (link : Station) (index : Byte) (value : Word16) (e : Event) : Event × Answer :=
  if link ≠ .survey then refuse e .notOwner
  else if e.s.ret.transfer.state = .opened ∨ e.s.ret.transfer.state = .joined then refuse e .wrongState
  else
    let v := clamp 1 10 value.toNat
    let res := setResult value.toNat v e.s.ret.settings.weight
    (if res = .unchanged then e else e.mod fun s => { s with ret.settings.weight := v },
      { result := res, data := setReply 0x12#8 index (le2 v) [] })

/-- SET of W (R127). -/
def execSetW (link : Station) (tag index : Byte) (value : Word16) (s : State) : Host.Outcome State Fault Refusal :=
  request link .set tag true (takeSetW link index value) s

/-- SET of the NO-FLOW time as its owner takes it (R128). -/
def takeSetNoFlow (link : Station) (index : Byte) (value : Word16) (e : Event) : Event × Answer :=
  if link ≠ .survey then refuse e .notOwner
  else
    let v := clamp 5 120 value.toNat
    let res := setResult value.toNat v e.s.ret.settings.noFlow
    (if res = .unchanged then e else e.mod fun s => { s with ret.settings.noFlow := v },
      { result := res, data := setReply 0x13#8 index (le2 v) [] })

/-- SET of the NO-FLOW time (R128). -/
def execSetNoFlow (link : Station) (tag index : Byte) (value : Word16) (s : State) :
    Host.Outcome State Fault Refusal :=
  request link .set tag true (takeSetNoFlow link index value) s

/-! ### GET (R176) -/

/-- A setting or read-only item named by its code and index, with its owner (none for a read-only item) and its
value at the size SET uses (R176, R196); none for a code or index that names nothing. -/
def settingOf (s : State) (code index : Byte) : Option (Option Station × List Byte) :=
  let t := s.ret.settings
  match code.toNat with
  | 0x01 => some (some .barge, le2 t.rmax)
  | 0x02 => some (some .barge, le2 t.rmin)
  | 0x03 => some (some .barge, le2 t.u)
  | 0x04 => some (some .barge, le2 t.tstop)
  | 0x05 => some (some .barge, le2 t.cb)
  | 0x06 => some (some .barge, le2 t.rundown)
  | 0x07 => some (some .barge, le2 t.topen)
  | 0x08 => some (some .barge, le2 t.tclose)
  | 0x09 => some (some .barge, le2 t.confirm)
  | 0x0A => some (some .barge, le2 t.settle)
  | 0x0B => some (some .barge, le2 t.silence.barge)
  | 0x0C => some (some .barge, le2 t.silence.ship)
  | 0x0D => some (some .barge, le2 t.silence.survey)
  | 0x0E => some (some .barge, le2 (pollCode t.poll))
  | 0x0F => (code? 4 index.toNat).map fun i => (some .barge, agentConfigOctets (s.agentConfig i))
  | 0x10 => (code? 6 index.toNat).map fun n => (some .barge, lineConfigOctets (s.lineConfig n))
  | 0x11 => some (some .ship, le2 t.stale)
  | 0x12 => some (some .survey, le2 t.weight)
  | 0x13 => some (some .survey, le2 t.noFlow)
  | 0x14 => some (none, le2 (rateCode (s.link .barge).rate))
  | 0x15 => some (none, le2 (rateCode (s.link .ship).rate))
  | 0x16 => some (none, le2 (rateCode (s.link .survey).rate))
  | _ => none

/-- An owner's station code, 0 for a read-only item (R196). -/
def ownerCode : Option Station → Byte
  | none => 0#8
  | some st => stationCode st

/-- GET as taken (R176). -/
def takeGet (code index : Byte) (e : Event) : Event × Answer :=
  match settingOf e.s code index with
  | none => refuse e .range
  | some (owner, value) => (e, { result := .ok, data := [code, index, ownerCode owner] ++ value })

/-- GET (R176). -/
def execGet (link : Station) (tag code index : Byte) (s : State) : Host.Outcome State Fault Refusal :=
  request link .get tag true (takeGet code index) s

/-! ### SETs that no setting takes (R171) -/

/-- A SET of a code that names no setting, a tank definition or a stage entry is refused RANGE; a SET of a
read-only item is refused NOT-OWNER (R171). -/
def takeSetOther (code : Byte) (e : Event) : Event × Answer :=
  if code = 0x14#8 ∨ code = 0x15#8 ∨ code = 0x16#8 then refuse e .notOwner else refuse e .range

end Sys2Proof.Machine
end

