-- ==== Sys2Proof/Machine/Timebase.lean ====
section
/-! DEFINITION. The Timebase tick: it ages reports and values, advances the debounce counts and the transfer clock's
tick count, and counts every running timer. What comes due at a tick is taken by its own command (log 3). -/

namespace Sys2Proof.Machine

/-- A running timer loses a tick; at 0 its expiry waits to be taken (log 4). -/
def countDown (t : Option Nat) : Option Nat := t.map fun n => n - 1

/-- A report ages (R41). -/
def ageTank (t : Tank) : Tank :=
  if t.definition.isSome && t.contents.isSome then { t with age := min (t.age + 1) Config.max16 } else t

/-- An agent's value ages (R149). -/
def ageAgent (a : AgentService) : AgentService :=
  if a.value.isSome then { a with age := min (a.age + 1) Config.max16 } else a

/-- A line's debounce count rises while its effective input differs from its debounced state (R161); at the
debounce time its completion waits to be taken (log 3). -/
def countLine (c : LineConfig) (l : LineService) : LineService :=
  if effectiveInput c l.raw ≠ l.active then { l with count := min (l.count + 1) c.debounce } else l

/-- Loop IN's debounce count rises while its raw state differs from its debounced state (R111). -/
def countLoop (l : StopLoop) : StopLoop :=
  if l.rawIn ≠ l.loopIn then { l with count := min (l.count + 1) Config.loopDebounceTicks } else l

/-- The detectors' timers lose a tick (R136, R138). -/
def countMeter (m : Meter) : Meter :=
  { m with
    rateTimer := m.rateTimer - 1,
    noFlow := match m.noFlow with
      | .quiet => .quiet
      | .timing n => .timing (n - 1),
    overspeed := match m.overspeed with
      | .quiet => .quiet
      | .timing n => .timing (n - 1)
      | .latched => .latched }

def countLink (l : Link) : Link := { l with silence := countDown l.silence }

/-- The transfer clock at a tick (R2): while it runs, the tick count rises by 1, and the tick that would carry it past 9
sets it to 0 and raises the clock, up to its top. What comes due at that tick finds the clock raised (log 36). -/
def clockTick (s : State) : State :=
  if s.ret.transfer.state.clockRuns = false then s
  else if s.tickCount < 9 then { s with tickCount := s.tickCount + 1 }
  else { s with tickCount := 0, ret.transfer.clock := min (s.ret.transfer.clock + 1) Config.max32 }

/-- One tick of the Timebase (R2, R41, R73, R82, R88, R96, R98, R111, R134, R146, R149, R161, R188). The clock and every count
are carried before anything that the tick makes due is taken: the manual orders neither, DESIGN CHOICE, log 36. So a debounce
or an expiry of the tick that raises the clock reports the new second (R103, R121, R166), and a timer that such an event starts
is not counted by this tick. -/
def tickState (s : State) : State :=
  { clockTick s with
    ret.tanks := mapTable ageTank s.ret.tanks,
    governor.ramp := countDown s.governor.ramp,
    controller.confirm := countDown s.controller.confirm,
    controller.rundown := countDown s.controller.rundown,
    controller.settle := countDown s.controller.settle,
    controller.stroke := countDown s.controller.stroke,
    loop := countLoop s.loop,
    meter := countMeter s.meter,
    instruments.agents := mapTable ageAgent s.instruments.agents,
    instruments.pollTimer := s.instruments.pollTimer - 1,
    lines := zipTable countLine s.ret.settings.lines s.lines,
    links := { barge := countLink s.links.barge, ship := countLink s.links.ship, survey := countLink s.links.survey } }

/-- A tick (R2, R41). -/
def execTick (s : State) : Host.Outcome State Fault Refusal := quietEvent s tickState

/-- The tick that carries the tick count past 9 and raises the transfer clock (R2, log 5). Not due: nothing happens
(log 3). -/
def execTransferClockSecond (s : State) : Host.Outcome State Fault Refusal :=
  if s.ret.transfer.state.clockRuns ∧ 9 ≤ s.tickCount then quietEvent s tickState else .next s

end Sys2Proof.Machine
end

