-- ==== Sys2Proof/WellFormed.lean ====
section
/-! DEFINITION. Which commands can occur at the block's connections. A command that is not well formed names
something the connections cannot carry; `Machine.exec` is total and gives every command a next state. -/

namespace Sys2Proof

/-- The largest value of a frame's length field (R184). -/
def maxFrameLength : Nat := 200

/-- The request types 01h to 16h (R193, R194). -/
def isRequestType (t : Byte) : Bool := decide (1 ≤ t.toNat ∧ t.toNat ≤ 22)

/-- The most octets that can arrive in one transaction: a reply of two channels has 6, and the transaction
ends when the first excess octet arrives (R147). -/
def maxReplyOctets : Nat := 7

/-- A command the connections can carry: counted lists fit in one frame at the lengths of R196, an unknown
request has no request type, and a transaction ends at the latest with its first excess octet. -/
def WellFormed : Instr → Bool
  | .openTransfer _ _ _ grades => decide (5 + grades.length ≤ maxFrameLength)
  | .propose _ _ content => decide (10 + 2 * content.tanks.length ≤ maxFrameLength)
  | .amend _ _ _ content => decide (11 + 2 * content.tanks.length ≤ maxFrameLength)
  | .gauge _ _ entries => decide (3 + 5 * entries.length ≤ maxFrameLength)
  | .unknownRequest _ _ type => !isRequestType type
  | .transactionEnd reply => decide (reply.length ≤ maxReplyOctets)
  | .joinTransfer _ _ | .closeTransfer _ _ | .agree _ _ _ | .revise _ _ _ _ | .withdraw _ _ _
  | .startStep _ _ | .lined _ _ _ | .stopStep _ _ | .hold _ _ _ _ | .release _ _ _ | .clear _ _ _
  | .tankdef _ _ _ _ | .stagedef _ _ _ _ | .setRateLimits _ _ _ _ _ | .setStopTimes _ _ _ _ _
  | .setTimerSetting _ _ _ _ _ | .setS _ _ _ _ | .setW _ _ _ _ | .setNoFlow _ _ _ _
  | .setAgentConfiguration _ _ _ _ | .setLineConfiguration _ _ _ _ | .getSetting _ _ _ _
  | .readStep _ _ _ | .readLists _ _ | .readTotals _ _ | .readHolds _ _ | .readTanks _ _ _
  | .readLines _ _ | .readInstruments _ _ | .readCounters _ _ | .take _ _ | .status _ _
  | .overrun _ | .frameDiscard _ _ | .halt _ | .transmissionEnd _ | .silenceExpiry _
  | .confirmExpiry | .strokeTimerExpiry | .rundownExpiry | .settleExpiry | .rampSecond | .rateSecond
  | .noFlowExpiry | .overspeedExpiry | .pollCycleExpiry | .tick | .transferClockSecond
  | .reportStale _ | .reportLost _ | .limitSwitchChange _ _ | .meterPulse | .rawLineChange _ _
  | .lineDebounceComplete _ | .loopInRawChange _ | .loopInDebounceComplete | .coldStart _ _ _
  | .warmStart _ _ | .partStops _ | .receiverOctet _ _ _ => true

end Sys2Proof
end

