-- ==== Sys2Proof/Machine/Links.lean ====
section
/-! DEFINITION. The Station Link Units (chapter 10): STATUS, the reply to an unknown type, the overrun, a discarded
frame, the halt, the end of a transmission and the silence expiry. -/

namespace Sys2Proof.Machine

/-! ### STATUS (R197) -/

/-- The two flags of a link as one octet (R197). -/
def linkFlags (l : Link) : Byte := oct ((if l.overrun then 1 else 0) + (if l.noticesLost then 2 else 0))

/-- The data of a STATUS reply after its result code (R197). -/
def statusData (s : State) (link : Station) : List Byte :=
  let m := s.ret
  [transferCode m.transfer.state] ++ idOctets m.transfer ++ [deliveryCode m.delivery] ++
    [oct ((m.active.map Step.number).getD 0)] ++ le2 s.governor.demand ++ le2 s.governor.permitted ++
    termOctets s.governor.term ++ le2 s.meter.rate ++
    [valveStateCode s.valve, commandCode s.controller.command, loopCode s.loop.loopIn, loopCode s.loop.loopOut] ++
    [oct m.holds.length, firstOutCode m.holds] ++
    [oct m.proposed.length] ++ le4 (sumQuantity m.proposed) ++ [oct m.agreed.length] ++ le4 (sumQuantity m.agreed) ++
    [oct m.done.length] ++ le4 (sumDelivered m.done) ++ [oct m.free] ++ [linkFlags (s.link link)]

/-- Both flags of a link are cleared (R191). -/
def clearFlags (link : Station) (s : State) : State :=
  s.setLink link { s.link link with overrun := false, noticesLost := false }

/-- STATUS as taken: the flags are cleared after they have been placed in the reply (R197). -/
def takeStatus (link : Station) (e : Event) : Event × Answer :=
  (e.mod (clearFlags link), { result := .ok, data := statusData e.s link })

/-- STATUS (R197). -/
def execStatus (link : Station) (tag : Byte) (s : State) : Host.Outcome State Fault Refusal :=
  request link .status tag true (takeStatus link) s

/-! ### Frames that are no request, or are not taken -/

/-- A valid frame whose type is no request type (R193, R194): the link comes UP, and the reply is UNKNOWN if the
queue has room. A request type is no such event (log 23). -/
def execUnknownRequest (link : Station) (tag type : Byte) (s : State) : Host.Outcome State Fault Refusal :=
  if isRequestType type then .next s
  else
    quietEvent s fun s =>
      let up := s.frameTaken link
      if (up.link link).full then up.overrun link else up.queueReply link (unknownReply tag type)

/-- A valid frame is completed while the queue holds 16 frames (R191). A queue with room is no such event (log 23). -/
def execOverrun (link : Station) (s : State) : Host.Outcome State Fault Refusal :=
  if (s.link link).full then quietEvent s fun s => (s.frameTaken link).overrun link else .next s

/-- The receiver state after a discard (R186). -/
def discardLeaves : DiscardCause → Receiver
  | .startOctet => .length
  | .badCheck | .badLength | .badEscape | .faultyStop => .hunt

/-- A frame in progress is discarded and counted (R186). -/
def discardFrame (link : Station) (cause : DiscardCause) (s : State) : State :=
  let l := (s.link link).resetReceiver (discardLeaves cause)
  s.setLink link { l with errors := bump8 l.errors }

/-- A frame is discarded (R186), whatever the receiver state (log 24). -/
def execFrameDiscard (link : Station) (cause : DiscardCause) (s : State) : Host.Outcome State Fault Refusal :=
  quietEvent s (discardFrame link cause)

/-! ### The halt octet (R187, R109) -/

/-- The halt's effect: the receiver returns to HUNT without a count, and the station hold is raised. -/
def haltEffect (link : Station) (e : Event) : Event :=
  raiseHold (stationSource link) .trip .halt (e.mod fun s => s.setLink link ((s.link link).resetReceiver .hunt))

/-- The halt octet (R187). -/
def execHalt (link : Station) (s : State) : Host.Outcome State Fault Refusal := event s (haltEffect link)

/-! ### The transmitter and the silence timer -/

/-- The end of a transmission: the head frame leaves the queue (R190). With nothing being sent, nothing ends
(log 3). -/
def execTransmissionEnd (link : Station) (s : State) : Host.Outcome State Fault Refusal :=
  if (s.link link).state = .up ∧ (s.link link).queue ≠ [] then
    quietEvent s fun s => s.setLink link { s.link link with queue := (s.link link).queue.tail }
  else .next s

/-- A link becomes LOST: its queue is emptied, and notices-lost is set if a frame was removed (R188, R189). -/
def loseLink (link : Station) (s : State) : State :=
  let l := s.link link
  s.setLink link { l with
    state := .lost, silence := none, queue := [], noticesLost := l.noticesLost || decide (l.queue ≠ []) }

/-- The hold a lost link raises in delivery (R110). -/
def lostHold (link : Station) (e : Event) : Event :=
  if e.s.ret.delivery.watching then
    match link with
    | .barge => raiseHold .linkBarge .pause .lost e
    | .ship => raiseHold .linkShip .trip .lost e
    | .survey => e
  else e

/-- The silence timer expires: the link becomes LOST (R188, R189). Not due: nothing happens (log 3). -/
def execSilenceExpiry (link : Station) (s : State) : Host.Outcome State Fault Refusal :=
  if (s.link link).state = .up ∧ (s.link link).silence = some 0 then
    event s fun e => lostHold link (e.mod (loseLink link))
  else .next s

end Sys2Proof.Machine
end

