-- ==== Sys2Proof/Machine/Receiver.lean ====
section
/-! DEFINITION. The receiver of a link (R185 to R187), octet by octet, and the request a valid frame spells
(R193, R196). -/

namespace Sys2Proof.Machine

/-! ### The request of a frame (R193, R196) -/

/-- All request types (R194). -/
def allTypes : List RequestType :=
  [.openTransfer, .joinTransfer, .closeTransfer, .propose, .amend, .agree, .revise, .withdraw, .startStep, .lined,
    .stopStep, .hold, .release, .clear, .gauge, .tankdef, .stagedef, .set, .get, .read, .take, .status]

/-- The request type a type octet names (R194). -/
def typeOfCode (c : Byte) : Option RequestType := allTypes.find? fun t => t.code == c

/-- A frame whose length does not fit its type, after the permission check (R193). -/
def malformed (link : Station) (type : RequestType) (tag : Byte) (s : State) : Host.Outcome State Fault Refusal :=
  request link type tag false (fun e => refuse e .malformed) s

/-- Octet pairs as tank-list entries (R196). -/
def pairsOf : List Byte → List TankShare
  | t :: sh :: rest => { tank := t, share := sh } :: pairsOf rest
  | _ => []

/-- Groups of five octets as gauge entries (R196). -/
def gaugesOf : List Byte → List GaugeEntry
  | t :: a :: b :: c :: d :: rest => { tank := t, contents := word4 a b c d } :: gaugesOf rest
  | _ => []

/-- The step content of PROPOSE and AMEND, none for a length the tank count does not give (R196). -/
def contentOf : List Byte → Option StepContent
  | grade :: n :: rest =>
    if rest.length = 2 * n.toNat + 6 then
      match rest.drop (2 * n.toNat) with
      | [a, b, c, d, l, h] =>
        some { grade := grade, tanks := pairsOf (rest.take (2 * n.toNat)), quantity := word4 a b c d,
               rateCap := word2 l h }
      | _ => none
    else none
  | _ => none

/-- SET of one of the settings that carry one number (R196). -/
def takeSetNumber (link : Station) (tag code index : Byte) (v : Word16) (s : State) :
    Host.Outcome State Fault Refusal :=
  match code.toNat with
  | 0x01 => execSetRateLimits link tag .rmax index v s
  | 0x02 => execSetRateLimits link tag .rmin index v s
  | 0x03 => execSetTimerSetting link tag .u index v s
  | 0x04 => execSetStopTimes link tag .tstop index v s
  | 0x05 => execSetRateLimits link tag .cb index v s
  | 0x06 => execSetStopTimes link tag .rundown index v s
  | 0x07 => execSetTimerSetting link tag .topen index v s
  | 0x08 => execSetStopTimes link tag .tclose index v s
  | 0x09 => execSetTimerSetting link tag .confirm index v s
  | 0x0A => execSetTimerSetting link tag .settle index v s
  | 0x0B => execSetTimerSetting link tag (.silence .barge) index v s
  | 0x0C => execSetTimerSetting link tag (.silence .ship) index v s
  | 0x0D => execSetTimerSetting link tag (.silence .survey) index v s
  | 0x0E => execSetTimerSetting link tag .poll index v s
  | 0x11 => execSetS link tag index v s
  | 0x12 => execSetW link tag index v s
  | 0x13 => execSetNoFlow link tag index v s
  | _ => request link .set tag true (takeSetOther code) s

/-- Whether a code is not in R196's table of setting codes. -/
def unlistedCode (code : Byte) : Bool :=
  decide (code.toNat = 0 ∨ (0x16 < code.toNat ∧ code.toNat ≠ 0x20 ∧ code.toNat ≠ 0x21))

/-- SET by its code and length (R196): an unlisted code passes decoding at any of the three lengths. -/
def takeSetFrame (link : Station) (tag : Byte) (data : List Byte) (s : State) : Host.Outcome State Fault Refusal :=
  match data with
  | code :: index :: value =>
    if unlistedCode code then
      if value.length = 2 ∨ value.length = 5 ∨ value.length = 8 then request link .set tag true (takeSetOther code) s
      else malformed link .set tag s
    else if code = 0x0F#8 then
      match value with
      | [en, role, ch, use, wl, wh, tl, th] =>
        execSetAgentConfiguration link tag index
          { enabled := en, role := role, channels := ch, use := use, warn := word2 wl wh, trip := word2 tl th } s
      | _ => malformed link .set tag s
    else if code = 0x10#8 then
      match value with
      | [f, inv, d, t, n] =>
        execSetLineConfiguration link tag index { function := f, inversion := inv, debounce := d, trigger := t, notify := n } s
      | _ => malformed link .set tag s
    else
      match value with
      | [l, h] => takeSetNumber link tag code index (word2 l h) s
      | _ => malformed link .set tag s
  | _ => malformed link .set tag s

/-- READ by its selector and length (R196, R198). -/
def takeReadFrame (link : Station) (tag : Byte) (data : List Byte) (s : State) : Host.Outcome State Fault Refusal :=
  match data with
  | [sel] =>
    match sel.toNat with
    | 2 => execReadLists link tag s
    | 3 => execReadTotals link tag s
    | 4 => execReadHolds link tag s
    | 6 => execReadLines link tag s
    | 7 => execReadInstruments link tag s
    | 8 => execReadCounters link tag s
    | _ => malformed link .read tag s
  | [sel, x] =>
    match sel.toNat with
    | 1 => execReadStep link tag x s
    | 5 => execReadTanks link tag x s
    | _ => malformed link .read tag s
  | _ => malformed link .read tag s

/-- A request of a known type, by its data (R196). -/
def takeTypedFrame (link : Station) (tag : Byte) (type : RequestType) (data : List Byte) (s : State) :
    Host.Outcome State Fault Refusal :=
  match type, data with
  | .openTransfer, a :: b :: n :: grades =>
    if grades.length = n.toNat then execOpen link tag (word2 a b) grades s else malformed link .openTransfer tag s
  | .joinTransfer, [] => execJoin link tag s
  | .closeTransfer, [] => execClose link tag s
  | .propose, data =>
    match contentOf data with
    | some c => execPropose link tag c s
    | none => malformed link .propose tag s
  | .amend, n :: data =>
    match contentOf data with
    | some c => execAmend link tag n c s
    | none => malformed link .amend tag s
  | .agree, [n] => execAgree link tag n s
  | .revise, [n, op] => execRevise link tag n op s
  | .withdraw, [n] => execWithdraw link tag n s
  | .startStep, [] => execStart link tag s
  | .lined, [n] => execLined link tag n s
  | .stopStep, [] => execStop link tag s
  | .hold, [c, r] => execHold link tag c r s
  | .release, [src] => execRelease link tag src s
  | .clear, [src] => execClear link tag src s
  | .gauge, n :: rest =>
    if rest.length = 5 * n.toNat then execGauge link tag (gaugesOf rest) s else malformed link .gauge tag s
  | .tankdef, [i, f, a, b, c, d, hl, hh, tl, th] =>
    execTankdef link tag i { flag := f, capacity := word4 a b c d, high := word2 hl hh, trip := word2 tl th } s
  | .stagedef, [i, en, inp, el, eh, ll, lh, m, k] =>
    execStagedef link tag i
      { enabled := en, input := inp, enter := word2 el eh, leave := word2 ll lh, mode := m, k := k } s
  | .set, data => takeSetFrame link tag data s
  | .get, [c, i] => execGet link tag c i s
  | .read, data => takeReadFrame link tag data s
  | .take, [] => execTake link tag s
  | .status, [] => execStatus link tag s
  | t, _ => malformed link t tag s

/-- A valid frame is taken (R192, R193). -/
def takeFrame (link : Station) (type tag : Byte) (data : List Byte) (s : State) : Host.Outcome State Fault Refusal :=
  match typeOfCode type with
  | some t => takeTypedFrame link tag t data s
  | none => execUnknownRequest link tag type s

/-! ### Octets (R185) -/

/-- The value an escaped octet stands for, none for a wrong escape (R184, R185). -/
def unescape (b : Byte) : Option Byte :=
  if b = 0x85#8 then some 0xA5#8 else if b = 0x38#8 then some 0x18#8 else if b = 0x3B#8 then some 0x1B#8 else none

/-- The check of a frame: the covered octets and the check word sum to 0 modulo 65536 (R184). -/
def frameCorrect (l : Link) (high : Byte) : Bool :=
  decide ((octetSum (oct l.frameLength :: l.frameOctets) + l.checkLow.toNat + 256 * high.toNat) % 65536 = 0)

/-- A frame's octets as type, tag and data; a frame has at least the first two (R184). -/
def takeCorrect (link : Station) (octets : List Byte) (s : State) : Host.Outcome State Fault Refusal :=
  match octets with
  | type :: tag :: data => takeFrame link type tag data s
  | _ => quietEvent s fun s => s.setLink link ((s.link link).resetReceiver .hunt)

/-- An octet of the frame is taken according to the receiver state (R185). -/
def takeOctet (link : Station) (v : Byte) (s : State) : Host.Outcome State Fault Refusal :=
  let l := { s.link link with escape := false }
  match l.receiver with
  | .hunt => quietEvent s id
  | .length =>
    if 2 ≤ v.toNat ∧ v.toNat ≤ maxFrameLength then
      quietEvent s fun s => s.setLink link { l with frameLength := v.toNat, frameOctets := [], receiver := .body }
    else quietEvent s (discardFrame link .badLength)
  | .body =>
    let octets := l.frameOctets ++ [v]
    quietEvent s fun s =>
      s.setLink link { l with
        frameOctets := octets, receiver := if l.frameLength ≤ octets.length then .checkLow else .body }
  | .checkLow => quietEvent s fun s => s.setLink link { l with checkLow := v, receiver := .checkHigh }
  | .checkHigh =>
    if frameCorrect l v then takeCorrect link l.frameOctets s else quietEvent s (discardFrame link .badCheck)

/-- An octet other than 18h, with a good stop bit (R185). An octet ignored in HUNT is an event that changes nothing. -/
def takeGoodOctet (link : Station) (octet : Byte) (s : State) : Host.Outcome State Fault Refusal :=
  let l := s.link link
  if l.receiver = .hunt then
    if octet = 0xA5#8 then quietEvent s fun s => s.setLink link (l.resetReceiver .length)
    else quietEvent s id
  else if l.escape then
    match unescape octet with
    | some v => takeOctet link v s
    | none => quietEvent s (discardFrame link .badEscape)
  else if octet = 0xA5#8 then quietEvent s (discardFrame link .startOctet)
  else if octet = 0x1B#8 then quietEvent s fun s => s.setLink link { l with escape := true }
  else takeOctet link octet s

/-- An octet completes at a link's input (R185, R187). A faulty octet is no halt and no start octet. -/
def execReceiverOctet (link : Station) (octet : Byte) (stopBitGood : Bool) (s : State) :
    Host.Outcome State Fault Refusal :=
  if s.running = false then .next s
  else if stopBitGood = false then
    if (s.link link).receiver = .hunt then quietEvent s id else quietEvent s (discardFrame link .faultyStop)
  else if octet = 0x18#8 then event s (haltEffect link)
  else takeGoodOctet link octet s

end Sys2Proof.Machine
end

