-- ==== Sys2Proof/Machine/Starts.lean ====
section
/-! DEFINITION. Stops and starts (R177 to R181): the stop, which start follows, and what every block forms at a start
(R29, R54, R55, R77, R101, R102, R124, R140, R156, R168, R183). -/

namespace Sys2Proof.Machine

/-! ### The stop (R177, R179) -/

/-- The state that is not retained is lost; the outputs are held (R179): loop OUT open, the valve open command not
asserted, the rate output below its live range, transmitters and instrument loop idle. -/
def stopped (memory : Retained) (s : State) : State :=
  { ret := memory, prior := memory, running := false, tickCount := 0,
    starvation := { barge := 0, ship := 0, survey := 0 }, governor := startGovernor, controller := startController,
    loop := { loopOut := .opened, rawIn := .opened, loopIn := .opened, count := 0 }, meter := startMeter,
    instruments := startInstruments, lines := #v[startLine, startLine, startLine, startLine, startLine, startLine],
    links := { barge := startLink, ship := startLink, survey := startLink }, pending := s.pending }

/-- Whether a supply and a reset line stop the part: the supply below its stop level, or reset asserted (R179, R182). -/
def stopsPart (p : PowerSample) : Bool := decide (p.supply < Config.stopBelow) || p.resetAsserted

/-- Whether a start begins: the supply within its operating range and reset released (R179, R182). -/
def startsPart (p : PowerSample) : Bool :=
  decide (Config.operatingLow ≤ p.supply ∧ p.supply ≤ Config.operatingHigh) && !p.resetAsserted

/-- The part stops (R179). If the write of the latest event had not completed, retention memory stands as it did
before that event (R177). A supply and a reset line that do not stop it leave it running, and a stopped part stays
stopped. -/
def execPartStops (stop : PartStop) (s : State) : Host.Outcome State Fault Refusal :=
  if s.running && stopsPart stop.power then .next (stopped (if stop.writeCompleted then s.ret else s.prior) s)
  else .next s

/-! ### Sampling (R181, R182) -/

/-- The data rate of a link's straps, first and second, made or open (R181). -/
def strappedRate (straps : Bool × Bool) : DataRate :=
  match straps.1, straps.2 with
  | false, false => .b9600
  | true, false => .b19200
  | false, true => .b38400
  | true, true => .b57600

/-- A link after a start (R183, R181). -/
def linkAtStart (straps : Bool × Bool) : Link := { startLink with rate := strappedRate straps }

/-- A line after a start: its debounced state is its effective input as sampled (R168). -/
def lineAtStart (c : LineConfig) (microamps : Nat) : LineService :=
  let raw := senseContact false microamps
  { raw := raw, active := effectiveInput c raw, count := 0, latch := false }

/-- The loops after a start, before loop OUT is derived: debounced loop IN as sampled (R124). -/
def loopAtStart (sample : InputSample) : StopLoop :=
  let raw := senseLoop .opened sample.loopIn
  { loopOut := .opened, rawIn := raw, loopIn := raw, count := 0 }

/-- The valve's command and switches after a start, with the stroke timer of R101. -/
def controllerAtStart (settings : Settings) (sample : InputSample) : Controller :=
  let opn := senseContact false sample.openLimit
  let cls := senseContact false sample.closedLimit
  { startController with
    openLimit := opn, closedLimit := cls,
    stroke := if valveOf .closed cls opn = .closed then none else some (ticksOf settings.tclose) }

/-- Every block's unretained state after a start, over a retention memory (R29, R77, R101, R140, R156, R168, R183). -/
def sampled (memory prior : Retained) (sample : InputSample) (s : State) : State :=
  startPollTimer
    { ret := memory, prior := prior, running := true, tickCount := 0,
      starvation := { barge := 0, ship := 0, survey := 0 }, governor := startGovernor,
      controller := controllerAtStart memory.settings sample, loop := loopAtStart sample, meter := startMeter,
      instruments := startInstruments, lines := zipTable lineAtStart memory.settings.lines sample.lines,
      links :=
        { barge := linkAtStart sample.straps.barge, ship := linkAtStart sample.straps.ship,
          survey := linkAtStart sample.straps.survey },
      pending := s.pending }

/-! ### The step found in the slot (R102, R22) -/

/-- The step in the slot after a start: last stop cause POWER, and the hold count one more unless the step was
already HELD (R102). -/
def powerStep (was : DeliveryState) (r : Step) : Step :=
  { r with
    lastStop := some .power,
    holdCount := if was = .held then r.holdCount else bump8 r.holdCount }

/-- Delivery after a start (R102): IDLE, or HELD with the step in the slot. -/
def placeStep (s : State) : State :=
  match s.ret.active with
  | none => { s with ret.delivery := .idle }
  | some r =>
    { s with
      ret.active := some (powerStep s.ret.delivery r), ret.delivery := .held,
      ret.lapsed := if s.ret.delivery = .armed then insertNumber r.number s.ret.lapsed else s.ret.lapsed }

/-! ### The Watch (R55) -/

/-- A tank's report at a start: one at most S × 10 ticks old is no longer fresh (R55, part 1). -/
def agedAtStart (stale : Nat) (t : Tank) : Tank :=
  let t1 :=
    if t.contents.isSome then { t with age := if t.age ≤ stale * 10 then stale * 10 + 1 else t.age } else t
  { t1 with status := t1.agedStatus stale }

/-- A tank's two flags re-evaluated (R55, part 3; R45, R46); a tank without an estimate keeps its flags. -/
def flagsAtStart (t : Tank) : Tank :=
  match t.definition, t.estimate with
  | some d, some e =>
    { t with highCrossed := decide (d.highVolume ≤ e), overTrip := decide (d.tripVolume ≤ e) }
  | _, _ => t

/-- Enabled instrument stages are engaged, for every role is blind (R55, part 2). -/
def stageAtStart (st : Stage) : Stage :=
  match st.input with
  | .tankFill => st
  | .role _ => { st with instrumentEngaged := st.enabled }

/-- The Watch's changes at a start (R55). -/
def watchStarts (s : State) : State :=
  { s with
    ret.tanks := mapTable (fun t => flagsAtStart (agedAtStart s.ret.settings.stale t)) s.ret.tanks,
    ret.stages := mapTable stageAtStart s.ret.stages }

/-! ### Raises at a start (R124) -/

/-- A raise by source, class and reason. -/
structure Raise where
  source : HoldSource
  cls : HoldClass
  reason : HoldReason

/-- A raise at a start: the list and loop OUT; delivery is IDLE or HELD and takes no effect, and no HOLDRAISED is
sent (R124). -/
def startRaise (s : State) (r : Raise) : State := s.setHolds (raisedList s r.source r.cls r.reason)

/-- The tanks whose over-trip flag the start set (R55, R46). -/
def newlyOver (old new : Vector Tank 8) : List (Fin 8) :=
  allTanks.filter fun i => (at' new i).overTrip && !(at' old i).overTrip

/-- The Watch's raises at a start, in ascending tank index (R46, R55). -/
def watchRaises (old new : Vector Tank 8) : List Raise :=
  (newlyOver old new).map fun i => { source := .overfill, cls := .trip, reason := .level i }

/-- The Valve Drive's raise at a start (R101, R83). -/
def valveRaises (s : State) : List Raise :=
  if s.valve = .jammed then [{ source := .valve, cls := .trip, reason := .bothLimits }] else []

/-- The lines' raises at a start, in ascending line number (R168). -/
def lineRaises (s : State) : List Raise :=
  (allLines.filter fun n => (s.lineConfig n).function.trips && (s.line n).active).map
    fun n => { source := .line n, cls := .trip, reason := .line (s.lineConfig n).function (s.lineConfig n).trigger }

/-- The raises of the three blocks in an order a schedule picks; each block's own order stands, and what the
schedule does not name follows (R124, log 9). -/
def interleave : List RaisingBlock → List Raise → List Raise → List Raise → List Raise
  | .watch :: rest, w :: ws, vs, ls => w :: interleave rest ws vs ls
  | .valve :: rest, ws, v :: vs, ls => v :: interleave rest ws vs ls
  | .lines :: rest, ws, vs, l :: ls => l :: interleave rest ws vs ls
  | .watch :: rest, [], vs, ls => interleave rest [] vs ls
  | .valve :: rest, ws, [], ls => interleave rest ws [] ls
  | .lines :: rest, ws, vs, [] => interleave rest ws vs []
  | [], ws, vs, ls => ws ++ vs ++ ls

/-- POWER, and LOOP behind it if loop IN is sampled OPEN (R124). -/
def ownRaises (reason : HoldReason) (s : State) : List Raise :=
  { source := .power, cls := .trip, reason := reason } ::
    (if s.loop.loopIn = .opened then [{ source := .loop, cls := .trip, reason := .opened }] else [])

/-! ### The start (R178, R180) -/

/-- A start over a retention memory, one event (R180). -/
def startFrom (memory prior : Retained) (reason : HoldReason) (sample : InputSample) (schedule : List RaisingBlock)
    (s : State) : State :=
  let s1 := placeStep (sampled memory prior sample s)
  let s2 := (ownRaises reason s1).foldl startRaise s1
  let s3 := recompute (watchStarts s2)
  (interleave schedule (watchRaises s2.ret.tanks s3.ret.tanks) (valveRaises s3) (lineRaises s3)).foldl startRaise s3

/-- Whether retention memory is valid: marker present and check correct (R178). -/
def Retained.valid (m : Retained) : Bool := m.marker && m.checkCorrect

/-- The part starts with a retention memory: warm if it is valid, else cold (R178). At a cold start every block
takes its cold-start values and the marker is written (R180). -/
def startPart (memory : Retained) (sample : InputSample) (schedule : List RaisingBlock) (s : State) : State :=
  if memory.valid then startFrom memory memory .warm sample schedule s
  else startFrom { coldRetained with marker := true, checkCorrect := true } memory .cold sample schedule s

/-- Retention memory as a loss leaves it (R178): the contents are lost with the marker, or the check is wrong. -/
def lostMemory (loss : RetentionLoss) (m : Retained) : Retained :=
  match loss with
  | .markerLost => coldRetained
  | .checkIncorrect => { m with checkCorrect := false }

/-- A start that finds retention memory lost (R178, R180). It begins only with the supply in its operating range and
reset released (R179). -/
def execColdStart (loss : RetentionLoss) (sample : InputSample) (schedule : List RaisingBlock) (s : State) :
    Host.Outcome State Fault Refusal :=
  if startsPart sample.power then .next (startPart (lostMemory loss s.ret) sample schedule s) else .next s

/-- A start with retention memory as it stands (R178, R180), begun as R179 says. -/
def execWarmStart (sample : InputSample) (schedule : List RaisingBlock) (s : State) :
    Host.Outcome State Fault Refusal :=
  if startsPart sample.power then .next (startPart s.ret sample schedule s) else .next s

end Sys2Proof.Machine
end

