-- ==== Sys2Proof/Machine/Dispatch.lean ====
section
/-! DEFINITION. One arm per command, each one call of its meaning. -/

namespace Sys2Proof.Machine

def exec (i : Instr) (s : State) : Host.Outcome State Fault Refusal :=
  match i with
  | .openTransfer link tag id grades => Sys2Proof.Machine.execOpen link tag id grades s
  | .joinTransfer link tag => Sys2Proof.Machine.execJoin link tag s
  | .closeTransfer link tag => Sys2Proof.Machine.execClose link tag s
  | .propose link tag content => Sys2Proof.Machine.execPropose link tag content s
  | .amend link tag number content => Sys2Proof.Machine.execAmend link tag number content s
  | .agree link tag number => Sys2Proof.Machine.execAgree link tag number s
  | .revise link tag number operand => Sys2Proof.Machine.execRevise link tag number operand s
  | .withdraw link tag number => Sys2Proof.Machine.execWithdraw link tag number s
  | .startStep link tag => Sys2Proof.Machine.execStart link tag s
  | .lined link tag number => Sys2Proof.Machine.execLined link tag number s
  | .stopStep link tag => Sys2Proof.Machine.execStop link tag s
  | .hold link tag cls reason => Sys2Proof.Machine.execHold link tag cls reason s
  | .release link tag source => Sys2Proof.Machine.execRelease link tag source s
  | .clear link tag source => Sys2Proof.Machine.execClear link tag source s
  | .gauge link tag entries => Sys2Proof.Machine.execGauge link tag entries s
  | .tankdef link tag index content => Sys2Proof.Machine.execTankdef link tag index content s
  | .stagedef link tag index content => Sys2Proof.Machine.execStagedef link tag index content s
  | .setRateLimits link tag which index value => Sys2Proof.Machine.execSetRateLimits link tag which index value s
  | .setStopTimes link tag which index value => Sys2Proof.Machine.execSetStopTimes link tag which index value s
  | .setTimerSetting link tag which index value => Sys2Proof.Machine.execSetTimerSetting link tag which index value s
  | .setS link tag index value => Sys2Proof.Machine.execSetS link tag index value s
  | .setW link tag index value => Sys2Proof.Machine.execSetW link tag index value s
  | .setNoFlow link tag index value => Sys2Proof.Machine.execSetNoFlow link tag index value s
  | .setAgentConfiguration link tag address content => Sys2Proof.Machine.execSetAgentConfiguration link tag address content s
  | .setLineConfiguration link tag line content => Sys2Proof.Machine.execSetLineConfiguration link tag line content s
  | .getSetting link tag code index => Sys2Proof.Machine.execGet link tag code index s
  | .readStep link tag number => Sys2Proof.Machine.execReadStep link tag number s
  | .readLists link tag => Sys2Proof.Machine.execReadLists link tag s
  | .readTotals link tag => Sys2Proof.Machine.execReadTotals link tag s
  | .readHolds link tag => Sys2Proof.Machine.execReadHolds link tag s
  | .readTanks link tag group => Sys2Proof.Machine.execReadTanks link tag group s
  | .readLines link tag => Sys2Proof.Machine.execReadLines link tag s
  | .readInstruments link tag => Sys2Proof.Machine.execReadInstruments link tag s
  | .readCounters link tag => Sys2Proof.Machine.execReadCounters link tag s
  | .take link tag => Sys2Proof.Machine.execTake link tag s
  | .status link tag => Sys2Proof.Machine.execStatus link tag s
  | .unknownRequest link tag type => Sys2Proof.Machine.execUnknownRequest link tag type s
  | .overrun link => Sys2Proof.Machine.execOverrun link s
  | .frameDiscard link cause => Sys2Proof.Machine.execFrameDiscard link cause s
  | .halt link => Sys2Proof.Machine.execHalt link s
  | .transmissionEnd link => Sys2Proof.Machine.execTransmissionEnd link s
  | .silenceExpiry link => Sys2Proof.Machine.execSilenceExpiry link s
  | .confirmExpiry => Sys2Proof.Machine.execConfirmExpiry s
  | .strokeTimerExpiry => Sys2Proof.Machine.execStrokeTimerExpiry s
  | .rundownExpiry => Sys2Proof.Machine.execRundownExpiry s
  | .settleExpiry => Sys2Proof.Machine.execSettleExpiry s
  | .rampSecond => Sys2Proof.Machine.execRampSecond s
  | .rateSecond => Sys2Proof.Machine.execRateSecond s
  | .noFlowExpiry => Sys2Proof.Machine.execNoFlowExpiry s
  | .overspeedExpiry => Sys2Proof.Machine.execOverspeedExpiry s
  | .pollCycleExpiry => Sys2Proof.Machine.execPollCycleExpiry s
  | .transactionEnd reply => Sys2Proof.Machine.execTransactionEnd reply s
  | .tick => Sys2Proof.Machine.execTick s
  | .transferClockSecond => Sys2Proof.Machine.execTransferClockSecond s
  | .reportStale tank => Sys2Proof.Machine.execReportStale tank s
  | .reportLost tank => Sys2Proof.Machine.execReportLost tank s
  | .limitSwitchChange switch microamps => Sys2Proof.Machine.execLimitSwitchChange switch microamps s
  | .meterPulse => Sys2Proof.Machine.execMeterPulse s
  | .rawLineChange line microamps => Sys2Proof.Machine.execRawLineChange line microamps s
  | .lineDebounceComplete line => Sys2Proof.Machine.execLineDebounceComplete line s
  | .loopInRawChange microamps => Sys2Proof.Machine.execLoopInRawChange microamps s
  | .loopInDebounceComplete => Sys2Proof.Machine.execLoopInDebounceComplete s
  | .coldStart loss sample schedule => Sys2Proof.Machine.execColdStart loss sample schedule s
  | .warmStart sample schedule => Sys2Proof.Machine.execWarmStart sample schedule s
  | .partStops stop => Sys2Proof.Machine.execPartStops stop s
  | .receiverOctet link octet stopBitGood => Sys2Proof.Machine.execReceiverOctet link octet stopBitGood s

end Sys2Proof.Machine
end

