-- ==== Sys2Proof/Safety.lean ====
section
/-! DEFINITION. The terms in which statements speak: a request that its link can take, the state in which its owner
finds the part, an answered request, a step as the two parties see it, and the invariants of a safe run. -/

namespace Sys2Proof.Machine

/-! ### A request on its link -/

/-- The part runs, the link's outbound queue has room and its station may send the type (R191, R192, R193). -/
def State.canTake (s : State) (link : Station) (type : RequestType) : Prop :=
  s.running = true ∧ (s.link link).queue.length < Config.queueCapacity ∧ type.permits link = true

/-- The state in which a request's owner finds the part: retention memory is noted as the state an interrupted write
would leave (R177), the link is UP, its silence timer runs from its limit and its receiver is in HUNT (R188, R192). -/
def State.opened (s : State) (link : Station) : State := { s with prior := s.ret }.frameTaken link

/-- The reply is queued, then the notices of the event (R190, R192). -/
def State.answered (s : State) (link : Station) (type : RequestType) (tag : Byte) (res : Result) (data : List Byte)
    (notices : List Notice) : State :=
  (s.queueReply link (replyFrame type tag res data)).postAll notices

/-- A request refused by its owner: it changes nothing but its link, and is answered (R12, R171, R192). -/
def State.refused (s : State) (link : Station) (type : RequestType) (tag : Byte) (res : Result) : State :=
  (s.opened link).answered link type tag res [] []

/-- The state an event that is no request begins from (R177). -/
def State.noted (s : State) : State := { s with prior := s.ret }

/-- P and the limiting term take their computed values, and nothing else changes (R65, R67). -/
def State.rated (s : State) : State :=
  { s with governor.permitted := permittedRate s, governor.term := limitingTerm s }

/-- The HOLDRAISED of a raise (R121). -/
def State.raisedNotice (s : State) (src : HoldSource) (cls : HoldClass) (reason : HoldReason) : Notice :=
  holdRaisedNotice (raisedEntry s src cls reason) (raiseKind (findHold s.ret.holds src) (raisedEntry s src cls reason))
    (raisedList s src cls reason) (loopOutOf (raisedList s src cls reason))

/-! ### The commands that are requests of a known type -/

/-- A request command's link, type, tag, and whether its counts fit its type (R193, R196). -/
def requestOf : Instr → Option (Station × RequestType × Byte × Bool)
  | .openTransfer l t _ g => some (l, .openTransfer, t, decide (1 ≤ g.length ∧ g.length ≤ 4))
  | .joinTransfer l t => some (l, .joinTransfer, t, true)
  | .closeTransfer l t => some (l, .closeTransfer, t, true)
  | .propose l t c => some (l, .propose, t, decide (1 ≤ c.tanks.length ∧ c.tanks.length ≤ 3))
  | .amend l t _ c => some (l, .amend, t, decide (1 ≤ c.tanks.length ∧ c.tanks.length ≤ 3))
  | .agree l t _ => some (l, .agree, t, true)
  | .revise l t _ _ => some (l, .revise, t, true)
  | .withdraw l t _ => some (l, .withdraw, t, true)
  | .startStep l t => some (l, .startStep, t, true)
  | .lined l t _ => some (l, .lined, t, true)
  | .stopStep l t => some (l, .stopStep, t, true)
  | .hold l t _ _ => some (l, .hold, t, true)
  | .release l t _ => some (l, .release, t, true)
  | .clear l t _ => some (l, .clear, t, true)
  | .gauge l t es => some (l, .gauge, t, decide (1 ≤ es.length ∧ es.length ≤ 8))
  | .tankdef l t _ _ => some (l, .tankdef, t, true)
  | .stagedef l t _ _ => some (l, .stagedef, t, true)
  | .setRateLimits l t _ _ _ | .setStopTimes l t _ _ _ | .setTimerSetting l t _ _ _ | .setS l t _ _
  | .setW l t _ _ | .setNoFlow l t _ _ | .setAgentConfiguration l t _ _ | .setLineConfiguration l t _ _ =>
    some (l, .set, t, true)
  | .getSetting l t _ _ => some (l, .get, t, true)
  | .readStep l t _ | .readLists l t | .readTotals l t | .readHolds l t | .readTanks l t _ | .readLines l t
  | .readInstruments l t | .readCounters l t => some (l, .read, t, true)
  | .take l t => some (l, .take, t, true)
  | .status l t => some (l, .status, t, true)
  | .unknownRequest _ _ _ | .overrun _ | .frameDiscard _ _ | .halt _ | .transmissionEnd _ | .silenceExpiry _
  | .confirmExpiry | .strokeTimerExpiry | .rundownExpiry | .settleExpiry | .rampSecond | .rateSecond
  | .noFlowExpiry | .overspeedExpiry | .pollCycleExpiry | .transactionEnd _ | .tick | .transferClockSecond
  | .reportStale _ | .reportLost _ | .limitSwitchChange _ _ | .meterPulse | .rawLineChange _ _
  | .lineDebounceComplete _ | .loopInRawChange _ | .loopInDebounceComplete | .coldStart _ _ _ | .warmStart _ _
  | .partStops _ | .receiverOctet _ _ _ => none

/-- A start, the one kind of event a stopped part takes (R179, R180). -/
def isStart : Instr → Bool
  | .coldStart _ _ _ | .warmStart _ _ => true
  | .openTransfer _ _ _ _ | .joinTransfer _ _ | .closeTransfer _ _ | .propose _ _ _ | .amend _ _ _ _ | .agree _ _ _
  | .revise _ _ _ _ | .withdraw _ _ _ | .startStep _ _ | .lined _ _ _ | .stopStep _ _ | .hold _ _ _ _
  | .release _ _ _ | .clear _ _ _ | .gauge _ _ _ | .tankdef _ _ _ _ | .stagedef _ _ _ _ | .setRateLimits _ _ _ _ _
  | .setStopTimes _ _ _ _ _ | .setTimerSetting _ _ _ _ _ | .setS _ _ _ _ | .setW _ _ _ _ | .setNoFlow _ _ _ _
  | .setAgentConfiguration _ _ _ _ | .setLineConfiguration _ _ _ _ | .getSetting _ _ _ _ | .readStep _ _ _
  | .readLists _ _ | .readTotals _ _ | .readHolds _ _ | .readTanks _ _ _ | .readLines _ _ | .readInstruments _ _
  | .readCounters _ _ | .take _ _ | .status _ _ | .unknownRequest _ _ _ | .overrun _ | .frameDiscard _ _ | .halt _
  | .transmissionEnd _ | .silenceExpiry _ | .confirmExpiry | .strokeTimerExpiry | .rundownExpiry | .settleExpiry
  | .rampSecond | .rateSecond | .noFlowExpiry | .overspeedExpiry | .pollCycleExpiry | .transactionEnd _ | .tick
  | .transferClockSecond | .reportStale _ | .reportLost _ | .limitSwitchChange _ _ | .meterPulse | .rawLineChange _ _
  | .lineDebounceComplete _ | .loopInRawChange _ | .loopInDebounceComplete | .partStops _ | .receiverOctet _ _ _ => false

/-! ### The octets of a request -/

/-- The octets of a step content (R196). -/
def contentOctets (c : StepContent) : List Byte :=
  [c.grade, oct c.tanks.length] ++ (c.tanks.flatMap fun t => [t.tank, t.share]) ++ le4 c.quantity.toNat ++
    le2 c.rateCap.toNat

/-- The type and the data with which a station sends a request command (R194, R196); none for a command that is no
request. -/
def requestData : Instr → Option (RequestType × List Byte)
  | .openTransfer _ _ id g => some (.openTransfer, le2 id.toNat ++ [oct g.length] ++ g)
  | .joinTransfer _ _ => some (.joinTransfer, [])
  | .closeTransfer _ _ => some (.closeTransfer, [])
  | .propose _ _ c => some (.propose, contentOctets c)
  | .amend _ _ n c => some (.amend, n :: contentOctets c)
  | .agree _ _ n => some (.agree, [n])
  | .revise _ _ n op => some (.revise, [n, op])
  | .withdraw _ _ n => some (.withdraw, [n])
  | .startStep _ _ => some (.startStep, [])
  | .lined _ _ n => some (.lined, [n])
  | .stopStep _ _ => some (.stopStep, [])
  | .hold _ _ c r => some (.hold, [c, r])
  | .release _ _ src => some (.release, [src])
  | .clear _ _ src => some (.clear, [src])
  | .gauge _ _ es => some (.gauge, oct es.length :: es.flatMap fun e => e.tank :: le4 e.contents.toNat)
  | .tankdef _ _ i c =>
    some (.tankdef, [i, c.flag] ++ le4 c.capacity.toNat ++ le2 c.high.toNat ++ le2 c.trip.toNat)
  | .stagedef _ _ i c =>
    some (.stagedef, [i, c.enabled, c.input] ++ le2 c.enter.toNat ++ le2 c.leave.toNat ++ [c.mode, c.k])
  | .setRateLimits _ _ w i v => some (.set, [limitCode w, i] ++ le2 v.toNat)
  | .setStopTimes _ _ w i v => some (.set, [stopTimeCode w, i] ++ le2 v.toNat)
  | .setTimerSetting _ _ w i v => some (.set, [timerCode w, i] ++ le2 v.toNat)
  | .setS _ _ i v => some (.set, [0x11#8, i] ++ le2 v.toNat)
  | .setW _ _ i v => some (.set, [0x12#8, i] ++ le2 v.toNat)
  | .setNoFlow _ _ i v => some (.set, [0x13#8, i] ++ le2 v.toNat)
  | .setAgentConfiguration _ _ a c =>
    some (.set, [0x0F#8, a, c.enabled, c.role, c.channels, c.use] ++ le2 c.warn.toNat ++ le2 c.trip.toNat)
  | .setLineConfiguration _ _ n c => some (.set, [0x10#8, n, c.function, c.inversion, c.debounce, c.trigger, c.notify])
  | .getSetting _ _ c i => some (.get, [c, i])
  | .readStep _ _ n => some (.read, [1#8, n])
  | .readLists _ _ => some (.read, [2#8])
  | .readTotals _ _ => some (.read, [3#8])
  | .readHolds _ _ => some (.read, [4#8])
  | .readTanks _ _ g => some (.read, [5#8, g])
  | .readLines _ _ => some (.read, [6#8])
  | .readInstruments _ _ => some (.read, [7#8])
  | .readCounters _ _ => some (.read, [8#8])
  | .take _ _ => some (.take, [])
  | .status _ _ => some (.status, [])
  | .unknownRequest _ _ _ | .overrun _ | .frameDiscard _ _ | .halt _ | .transmissionEnd _ | .silenceExpiry _
  | .confirmExpiry | .strokeTimerExpiry | .rundownExpiry | .settleExpiry | .rampSecond | .rateSecond
  | .noFlowExpiry | .overspeedExpiry | .pollCycleExpiry | .transactionEnd _ | .tick | .transferClockSecond
  | .reportStale _ | .reportLost _ | .limitSwitchChange _ _ | .meterPulse | .rawLineChange _ _
  | .lineDebounceComplete _ | .loopInRawChange _ | .loopInDebounceComplete | .coldStart _ _ _ | .warmStart _ _
  | .partStops _ | .receiverOctet _ _ _ => none

/-- Octets arrive at a link one after another, each with a good stop bit (R185). -/
def receive (link : Station) : List Byte → State → Host.Outcome State Fault Refusal
  | [], s => .next s
  | octet :: rest, s =>
    match exec (.receiverOctet link octet true) s with
    | .next t => receive link rest t
    | stop => stop

/-! ### What holds in every safe run -/

/-- The 24 records of the pool are all somewhere (R7), and delivery is IDLE exactly when no step is ACTIVE (R20). -/
def Retained.poolWhole (m : Retained) : Prop :=
  m.free + m.proposed.length + m.agreed.length + m.active.toList.length + m.done.length = Config.poolSize ∧
    (m.delivery = .idle ↔ m.active = none)

/-- The pool stands whole in the state and in retention memory as before the latest event (R7, R177). -/
def State.poolWhole (s : State) : Prop := s.ret.poolWhole ∧ s.prior.poolWhole

/-- All records that are not free. -/
def Retained.records (m : Retained) : List Step := m.proposed ++ m.agreed ++ m.active.toList ++ m.done

/-- Step numbers are distinct and were assigned in this transfer (R9), a VACANT transfer has no record, and a CLOSED
one has none but those on DONE (R3, R5, R20). -/
def Retained.planSound (m : Retained) : Prop :=
  (m.records.map Step.number).Nodup ∧
    (∀ r ∈ m.records, 1 ≤ r.number ∧ r.number ≤ 255 ∧ ∀ n, m.transfer.nextStep = some n → r.number < n) ∧
    (∀ n, m.transfer.nextStep = some n → 1 ≤ n ∧ n ≤ 255) ∧
    (m.transfer.state = .vacant → m.records = []) ∧
    (m.transfer.state = .closed → m.proposed = [] ∧ m.agreed = [] ∧ m.active = none)

def State.planSound (s : State) : Prop := s.ret.planSound ∧ s.prior.planSound

/-- The tank list of a record: 1 to 3 tanks, none twice, shares of 1 to 100 that sum to 100 (R13), and credits that
sum to D (R22, R39). -/
def Step.split (r : Step) : Prop :=
  1 ≤ r.tanks.length ∧ r.tanks.length ≤ 3 ∧ (r.tanks.map TankEntry.tank).Nodup ∧
    (∀ e ∈ r.tanks, 1 ≤ e.share ∧ e.share ≤ 100) ∧ (r.tanks.map TankEntry.share).sum = 100 ∧
    (r.tanks.map TankEntry.credit).sum = r.delivered

/-- Every record accounts for its litres; those on PROPOSED bear one mark and those beyond it both (R11); those on
PROPOSED and AGREED have delivered nothing (R8, R21). -/
def Retained.recordsSound (m : Retained) : Prop :=
  (∀ r ∈ m.records, r.split) ∧
    (∀ r ∈ m.proposed, r.markBarge = !r.markShip) ∧
    (∀ r ∈ m.agreed ++ m.active.toList ++ m.done, r.markBarge = true ∧ r.markShip = true) ∧
    ∀ r ∈ m.proposed ++ m.agreed, r.delivered = 0

/-- Every record accounts for its litres, and a step armed from IDLE has delivered nothing (R21). -/
def State.recordsSound (s : State) : Prop :=
  s.ret.recordsSound ∧ s.prior.recordsSound ∧
    (s.controller.armedFrom = some .idle → ∀ r ∈ s.ret.active, r.delivered = 0) ∧
    (s.controller.armedFrom ≠ none → s.ret.delivery = .armed)

/-- Metered litres equal the grade totals and the unassigned total, and stay within four octets (R27, R132). -/
def Retained.tallySound (m : Retained) : Prop :=
  m.metered = m.totals[0].litres + m.totals[1].litres + m.totals[2].litres + m.totals[3].litres + m.unassigned ∧
    m.metered ≤ Config.max32

def State.tallySound (s : State) : Prop := s.ret.tallySound ∧ s.prior.tallySound

/-- The rate and stop settings keep their ranges and their order (R170, R172, R173). -/
def Settings.ordered (t : Settings) : Prop :=
  50 ≤ t.rmax ∧ t.rmax ≤ 2000 ∧ 10 ≤ t.rmin ∧ t.rmin ≤ t.cb ∧ t.cb ≤ t.rmax ∧
    t.rundown ≤ 30 ∧ 5 ≤ t.tclose ∧ t.tclose ≤ 60 ∧ t.rundown + t.tclose ≤ t.tstop ∧ t.tstop ≤ 120

def State.settingsOrdered (s : State) : Prop := s.ret.settings.ordered ∧ s.prior.settings.ordered

/-- The hold list has at most one entry per source (R104), and loop OUT follows it: open while a TRIP entry other
than LOOP stands (R119), and open while the part is stopped (R120); no hold stands in ARMED, OPENING and PUMPING
(R86, R95). -/
def State.holdsSound (s : State) : Prop :=
  (s.ret.holds.map HoldEntry.source).Nodup ∧ (s.prior.holds.map HoldEntry.source).Nodup ∧
    (s.running = true →
      (s.loop.loopOut = .opened ↔ ∃ h ∈ s.ret.holds, h.cls = .trip ∧ h.source ≠ .loop)) ∧
    (s.running = false → s.loop.loopOut = .opened) ∧
    (s.running = true → s.ret.delivery = .armed ∨ s.ret.delivery = .opening ∨ s.ret.delivery = .pumping →
      s.ret.holds = [])

/-- The valve command is OPEN in OPENING, PUMPING and RUNDOWN and CLOSED otherwise (R79), and while stopped (R179);
the demand is 0 outside PUMPING, and between Rmin and P in it (R72); the ramp timer runs in PUMPING alone (R73). -/
def State.deliverySound (s : State) : Prop :=
  (s.controller.command = .opened ↔ s.running = true ∧
      (s.ret.delivery = .opening ∨ s.ret.delivery = .pumping ∨ s.ret.delivery = .rundown)) ∧
    (¬(s.running = true ∧ s.ret.delivery = .pumping) → s.governor.demand = 0 ∧ s.governor.ramp = none) ∧
    (s.running = true → s.ret.delivery = .pumping →
      s.ret.settings.rmin ≤ s.governor.demand ∧ s.governor.demand ≤ s.governor.permitted ∧ s.governor.ramp ≠ none)

/-- While the part runs, each of R78's items is present, and each of its timers runs, in its own delivery states alone:
the stop cause in RUNDOWN, CLOSING and SETTLING, armed from and the confirm timer in ARMED, the rundown timer in RUNDOWN and
the settle timer in SETTLING (R78, R93). A stopped part holds none of them (R179, log 7). -/
def State.timersSound (s : State) : Prop :=
  (s.running = true →
    (s.controller.stopCause ≠ none ↔
        s.ret.delivery = .rundown ∨ s.ret.delivery = .closing ∨ s.ret.delivery = .settling) ∧
      (s.controller.armedFrom ≠ none ↔ s.ret.delivery = .armed) ∧
      (s.controller.confirm ≠ none ↔ s.ret.delivery = .armed) ∧
      (s.controller.rundown ≠ none ↔ s.ret.delivery = .rundown) ∧
      (s.controller.settle ≠ none ↔ s.ret.delivery = .settling)) ∧
    (s.running = false →
      s.controller.stopCause = none ∧ s.controller.armedFrom = none ∧ s.controller.confirm = none ∧
        s.controller.rundown = none ∧ s.controller.settle = none)

/-- P and the limiting term are always those the terms give (R65, R67). -/
def State.rateCurrent (s : State) : Prop :=
  s.running = true → s.governor.permitted = permittedRate s ∧ s.governor.term = limitingTerm s

/-- A link's queue holds at most 16 frames and only while the link is UP (R190); its silence timer runs exactly while
it is UP (R188). -/
def Link.sound (l : Link) : Prop :=
  l.queue.length ≤ Config.queueCapacity ∧ (l.state ≠ .up → l.queue = []) ∧ (l.state = .up ↔ l.silence ≠ none)

def State.linksSound (s : State) : Prop := ∀ link, (s.link link).sound

/-- What the part is for: while PUMPING, the litres a stop of Tstop seconds would still pass at the demand fit within
the step's remaining quantity and within every one of its tanks' remaining room at the tank's share (R59, R60, R72). -/
def State.stopFits (s : State) : Prop :=
  s.running = true → s.ret.delivery = .pumping →
    ∀ r ∈ s.ret.active,
      s.governor.demand * (5 * s.ret.settings.tstop) ≤ (r.quantity - r.delivered) * 18 ∧
        ∀ e ∈ r.tanks, s.governor.demand * (e.share * s.ret.settings.tstop) ≤ ((s.tank e.tank).room.getD 0) * 360

end Sys2Proof.Machine
end

