-- ==== Sys2Proof/Certificates/Slice0/Obligations.lean ====
section
/-! DEFINITION. The statements for the provers, by chapter of the manual. `s.opened link` is the state in which a
request's owner finds the part and `answered` queues the reply and the notices; a conclusion `exec c s = .next t` with
`t` a record update of `s` says the whole of what the command changes and, by what it does not name, its frame. -/

section Statements

open Sys2Proof Sys2Proof.Machine

/-! ### The queue of commands, the stopped part, the links -/

/-- A step runs the command at the front of the queue on the state with the queue's rest; with no command waiting the
block idles. The queue and the idling are the model's own (log 6). -/
def Obligations.StepRunsFrontCommand : Prop :=
  (∀ (c : Instr) (rest : List Instr) (s : State), s.pending = c :: rest → step s = exec c { s with pending := rest }) ∧
  (∀ s : State, s.pending = [] → step s = .next s)

/-- Every command completes in every state and leaves the queue of waiting commands alone: the block has no fault and no
refusal, and a request is refused by a reply (R171, R192). The queue is the model's own (log 6); a command whose event is not
due (log 3), and one that a stopped part does not take (log 7), completes by changing nothing. -/
def Obligations.EveryCommandCompletes : Prop :=
  ∀ (c : Instr) (s : State), ∃ t, exec c s = .next t ∧ t.pending = s.pending

/-- R179, R182 and R177: a supply below 16 V or the reset line stops the part. Retention memory stands as the latest write
that completed left it, loop OUT is open, the valve open command is not asserted, the rate output is below its live range,
the transmitters have nothing to send and the instrument loop polls nobody; another supply leaves the part running (log 8),
and a stopped part takes no event but a start. The outputs while it runs: 4 mA and 0.008 mA for each m³/h of demand, the valve
open contact made while the command is OPEN; and loop OUT carries 18 to 22 mA while closed and less than 0.5 mA while open. -/
def Obligations.PartStopsAndStaysStopped : Prop :=
  (∀ (power : PowerSample) (done : Bool) (s : State), s.running = true →
      (power.supply < 16000 ∨ power.resetAsserted = true →
        ∃ t, exec (.partStops ⟨power, done⟩) s = .next t ∧ t.running = false ∧
          t.ret = (if done then s.ret else s.prior) ∧ t.loop.loopOut = .opened ∧ t.valveOpenOutput = false ∧
          t.rateOutput = .below 1000 ∧ t.loopOutOutput = .below 500 ∧ (∀ link, (t.link link).queue = []) ∧
          t.instruments.polling = none ∧ t.pending = s.pending) ∧
      (16000 ≤ power.supply → power.resetAsserted = false → exec (.partStops ⟨power, done⟩) s = .next s)) ∧
    (∀ (c : Instr) (s : State), s.running = false → isStart c = false → exec c s = .next s) ∧
    ∀ s : State,
      (s.running = true → s.rateOutput = .exactly (4000 + 8 * s.governor.demand) ∧
        (s.valveOpenOutput = true ↔ s.controller.command = .opened)) ∧
      s.loopOutOutput = (if s.loop.loopOut = .closed then .between 18000 22000 else .below 500)

/-- R191 to R193, R196, what a link refuses: a frame that finds the queue full is lost and sets the overrun flag; a type that
is no request type is answered UNKNOWN with the type, one the station may not send by R193's table NOT-PERMITTED, one whose
counts or length do not fit MALFORMED; each brings the link UP (its silence timer from its limit, its receiver in HUNT, R188),
and has no other effect. A frame
whose length fits its type is the request that its octets spell; only a SET of a code that names no setting, a tank definition
or a stage entry (RANGE) and one of a read-only item (NOT-OWNER) is no command of its own (R171). -/
def Obligations.LinkRefusesRequest : Prop :=
  (∀ (link : Station) (s : State), s.running = true → Config.queueCapacity ≤ (s.link link).queue.length →
      exec (.overrun link) s = .next ((s.opened link).overrun link) ∧
      (∀ tag type, isRequestType type = false →
        exec (.unknownRequest link tag type) s = .next ((s.opened link).overrun link)) ∧
      ∀ c type tag formed, requestOf c = some (link, type, tag, formed) →
        exec c s = .next ((s.opened link).overrun link)) ∧
    (∀ (link : Station) (s : State), s.running = true → (s.link link).queue.length < Config.queueCapacity →
      (∀ tag type, isRequestType type = false → exec (.unknownRequest link tag type) s =
        .next ((s.opened link).queueReply link { type := 0x80#8, tag := tag, data := [0x20#8, type] })) ∧
      ∀ c type tag formed, requestOf c = some (link, type, tag, formed) →
        (type.permits link = false → exec c s = .next (s.refused link type tag .notPermitted)) ∧
        (type.permits link = true → formed = false → exec c s = .next (s.refused link type tag .malformed))) ∧
    (∀ (type : RequestType) (link : Station), type.permits link =
      match type with
      | .openTransfer | .closeTransfer | .startStep => decide (link = .barge)
      | .joinTransfer | .lined | .gauge | .tankdef | .stagedef => decide (link = .ship)
      | .propose | .amend | .agree | .revise | .withdraw | .stopStep | .clear => decide (link ≠ .survey)
      | .take => decide (link = .survey)
      | .hold | .release | .set | .get | .read | .status => true) ∧
    (∀ (link : Station) (type : RequestType) (tag : Byte) (data : List Byte) (s : State), s.canTake link type →
      let octet (k : Nat) : Nat := (data[k]?.map BitVec.toNat).getD 0
      let counted (k most fixed each : Nat) : Prop := 1 ≤ octet k ∧ octet k ≤ most ∧ data.length = fixed + each * octet k
      let listed : Prop := 1 ≤ octet 0 ∧ octet 0 ≤ 0x16 ∨ octet 0 = 0x20 ∨ octet 0 = 0x21
      let fits : Prop := match type with
        | .openTransfer => counted 2 4 3 1
        | .propose => counted 1 3 8 2
        | .amend => counted 2 3 9 2
        | .gauge => counted 0 8 1 5
        | .joinTransfer | .closeTransfer | .startStep | .stopStep | .take | .status => data.length = 0
        | .agree | .withdraw | .lined | .release | .clear => data.length = 1
        | .revise | .hold | .get => data.length = 2
        | .tankdef => data.length = 10
        | .stagedef => data.length = 9
        | .set =>
          if octet 0 = 0x0F then data.length = 10
          else if octet 0 = 0x10 then data.length = 7
          else if listed then data.length = 4
          else data.length = 4 ∨ data.length = 7 ∨ data.length = 10
        | .read =>
          (octet 0 = 1 ∨ octet 0 = 5) ∧ data.length = 2 ∨
            (octet 0 = 2 ∨ octet 0 = 3 ∨ octet 0 = 4 ∨ octet 0 = 6 ∨ octet 0 = 7 ∨ octet 0 = 8) ∧ data.length = 1
      let settable : Prop := 1 ≤ octet 0 ∧ octet 0 ≤ 0x13
      (¬fits → takeFrame link type.code tag data s = .next (s.refused link type tag .malformed)) ∧
      (fits → type = .set → ¬settable → takeFrame link type.code tag data s = .next (s.refused link .set tag
        (if 0x14 ≤ octet 0 ∧ octet 0 ≤ 0x16 then .notOwner else .range))) ∧
      (fits → (type = .set → settable) → ∃ c : Instr, requestOf c = some (link, type, tag, true) ∧
        requestData c = some (type, data) ∧ takeFrame link type.code tag data s = exec c s)) ∧
    ∀ (link : Station) (s : State),
      s.opened link = { s with prior := s.ret, links := s.links.put link { s.link link with
        receiver := .hunt, escape := false, frameLength := 0, frameOctets := [], checkLow := 0#8, state := .up,
        silence := some (10 * s.ret.settings.silence.at link) } } ∧
      s.overrun link = { s with links := s.links.put link { s.link link with overrun := true } }

/-- R190 and R191, the notices of an event: on an UP link they join the queue in order while it holds fewer than 16
frames; one that finds it full, or the link not UP, is lost there and sets notices-lost; nothing else changes. A notice
names a link at most once. R80, R107, R153, R163, R190, R192, the end of an event: the reply is queued first, then the notices
as raised, then the one STEPSTATE where delivery ends in another state than it began in (the step in the slot, else the one that
left it, with the stop cause in RUNDOWN, CLOSING and SETTLING, the end cause in IDLE and the last stop cause in HELD), then
STARTREQ or STARTEXPIRED, then LINEEVENT or INSTRUMENT; this order is deduced from those rules (log 14). R194: the form of a
reply, the request types and the result codes. R199: each notice's links, type, tag 0 and octets in order, with the codes that
ReadsAnswerItems states; the role's fields of an AGENT notice without a role are all ones (log 18), unused details 0 (log 17). -/
def Obligations.NoticesJoinOrAreLost : Prop :=
  (∀ (s : State) (ns : List Notice), (∀ n ∈ ns, n.stations.Nodup) →
    ∃ ls : PerStation Link, s.postAll ns = { s with links := ls } ∧
      ∀ link : Station,
        let frames := (ns.filter fun n => n.stations.contains link).map Notice.frame
        let old := s.link link
        let room := if old.state = .up then Config.queueCapacity - old.queue.length else 0
        ls.at link = { old with
          queue := old.queue ++ frames.take room,
          noticesLost := old.noticesLost || decide (room < frames.length) }) ∧
  (∀ e : Event,
    let now := e.s.ret.delivery
    let step : Option Step := if e.s.ret.active = none then e.moved else e.s.ret.active
    let stepState : List Notice :=
      if now = e.began then []
      else
        [stepStateNotice ((step.map Step.number).getD 0) e.began now
          (if now = .rundown ∨ now = .closing ∨ now = .settling then e.s.controller.stopCause else none)
          (if now = .idle then step.bind Step.endCause else none)
          (if now = .held then step.bind Step.lastStop else none) ((step.map Step.delivered).getD 0)]
    let notices := e.notes ++ stepState ++ e.arming.toList ++ e.late
    e.finish = e.s.postAll notices ∧
      ∀ (link : Station) (f : Frame), e.reply link f = (e.s.setLink link
        { e.s.link link with queue := (e.s.link link).queue ++ [f] }).postAll notices) ∧
  (∀ (type : RequestType) (tag : Byte) (res : Result) (data : List Byte),
    replyFrame type tag res data = { type := oct (type.code.toNat + 0x80), tag := tag, data := res.code :: data }) ∧
  [RequestType.openTransfer, .joinTransfer, .closeTransfer, .propose, .amend, .agree, .revise, .withdraw, .startStep,
    .lined, .stopStep, .hold, .release, .clear, .gauge, .tankdef, .stagedef, .set, .get, .read, .take, .status].map
      RequestType.code = (List.range 0x16).map (fun k => oct (k + 1)) ∧
  [Result.ok, .unchanged, .clamped, .unknown, .malformed, .notPermitted, .notOwner, .wrongState, .noStep, .poolEmpty,
    .planFull, .held, .noGauge, .noPermit, .noLink, .late, .busy, .persists, .recordsPending, .empty, .range].map
      Result.code = [0x00, 0x01, 0x02, 0x20, 0x21, 0x22, 0x23, 0x24, 0x25, 0x26, 0x27, 0x28, 0x29, 0x2A, 0x2B, 0x2C, 0x2D,
        0x2E, 0x2F, 0x30, 0x31] ∧
  let both : List Station := [.barge, .ship]
  let all : List Station := [.barge, .ship, .survey]
  let sent (stations : List Station) (type : Byte) (data : List Byte) : Notice :=
    { stations := stations, frame := { type := type, tag := 0#8, data := data } }
  let firstOut (list : List HoldEntry) : Byte := (list.head?.map fun h => sourceCode h.source).getD 0#8
  (∀ (tr : Transfer) (kind : PlanKind), planNotice tr kind =
    match kind with
    | .transfer st => sent all 0x41#8 (le2 (tr.id.getD 0) ++ [1#8, transferCode st])
    | .proposed n => sent both 0x41#8 (le2 (tr.id.getD 0) ++ [2#8, oct n])
    | .amended n => sent both 0x41#8 (le2 (tr.id.getD 0) ++ [3#8, oct n])
    | .agreed n => sent both 0x41#8 (le2 (tr.id.getD 0) ++ [4#8, oct n])
    | .revised first count operand => sent both 0x41#8 (le2 (tr.id.getD 0) ++ [5#8, oct first, oct count, operand])
    | .withdrawn n => sent both 0x41#8 (le2 (tr.id.getD 0) ++ [6#8, oct n])
    | .taken n => sent both 0x41#8 (le2 (tr.id.getD 0) ++ [7#8, oct n])) ∧
  (∀ (n d : Nat) (prev new : DeliveryState) (stop : Option StopCause) (fin : Option EndCause) (last : Option LastStop),
    stepStateNotice n prev new stop fin last d = sent all 0x42#8 ([oct n, deliveryCode prev, deliveryCode new] ++
      stopCauseOctets stop ++ endCauseOctets fin ++ lastStopOctets last ++ le4 d)) ∧
  (∀ (r : Step) (was : DeliveryState) (confirm : Nat),
    startReqNotice r was confirm = sent [.ship, .barge] 0x43#8 ([oct r.number, oct (r.grade.val + 1), deliveryCode was] ++
      le4 r.quantity ++ le4 r.delivered ++ le2 confirm ++ [oct r.tanks.length] ++
      r.tanks.flatMap fun e => [oct e.tank.val, oct e.share])) ∧
  (∀ (n : Nat) (how : ArmingEnd) (held : Bool), startExpiredNotice n how held = sent both 0x44#8
    (match how with
    | .expired => [oct n, 7#8, 0#8, flag held]
    | .stopped st => [oct n, 4#8, stationCode st, flag held]
    | .hold src => [oct n, 5#8, sourceCode src, flag held])) ∧
  (∀ (h : HoldEntry) (kind : RaiseKind) (list : List HoldEntry) (out : LoopState),
    holdRaisedNotice h kind list out = sent all 0x45#8 ([sourceCode h.source,
      match kind with
      | .new => 0#8
      | .again => 1#8
      | .escalated => 2#8, classCode h.cls] ++ reasonOctets h.reason ++ [oct h.repeats] ++ le4 h.time ++
      [oct list.length, firstOut list, loopCode out])) ∧
  (∀ (src : HoldSource) (st : Station) (list : List HoldEntry) (out : LoopState), holdClearedNotice src st list out =
    sent all 0x46#8 [sourceCode src, stationCode st, oct list.length, firstOut list, loopCode out]) ∧
  (∀ (i : Fin 8) (kind : LevelKind) (est fill : Nat) (status : GaugeStatus),
    levelNotice i kind est fill status = sent [.ship, .barge] 0x47#8 ([oct i.val,
      match kind with
      | .high => 0#8
      | .trip => 1#8
      | .stale => 2#8
      | .lost => 3#8] ++ le4 est ++ le2 fill ++ [gaugeCode status])) ∧
  (∀ (n : Fin 6) (c : LineConfig) (raised : Bool) (time : Nat), lineEventNotice n c raised time =
    sent (all.filter fun st => c.notify.at st) 0x48#8
      ([oct (n.val + 1), functionCode c.function, triggerCode c.trigger, flag raised, 1#8] ++ le4 time)) ∧
  (∀ (i : Fin 4) (prev new : AgentState) (role : Option Role) (record : Option RoleRecord),
    agentNotice i prev new role record = sent [.barge] 0x49#8
      ([0#8, oct (i.val + 1), agentStateCode prev, agentStateCode new, roleCode role] ++
        match record with
        | some r => le2? r.value ++ [flag r.blind, flag r.warned, flag r.tripped]
        | none => List.replicate 5 0xFF#8)) ∧
  (∀ (role : Role) (r : RoleRecord), limitNotice role r = sent [.barge] 0x49#8
    ([1#8, 0#8, 0xFF#8, 0xFF#8, roleCode (some role)] ++ le2? r.value ++
      [flag r.blind, flag r.warned, flag r.tripped])) ∧
  ∀ (unassigned metered n : Nat) (tr : TransferState) (d : DeliveryState), creepNotice unassigned metered tr d n =
    sent [.barge, .survey] 0x4A#8 (le4 unassigned ++ le4 metered ++ [transferCode tr, deliveryCode d, oct n])

/-- R12, R171, R192: a request that its link takes and its station may send is answered with one result; a result other
than OK and CLAMPED means that the owner changed nothing and sent no notice, but for the starvation counter that an
EMPTY or a POOL-EMPTY raises (R14, R24), and a refusal carries no data. -/
def Obligations.RefusalChangesNothing : Prop :=
  ∀ (c : Instr) (s : State) (link : Station) (type : RequestType) (tag : Byte),
    requestOf c = some (link, type, tag, true) → s.canTake link type →
    ∃ (u : State) (res : Result) (data : List Byte) (notices : List Notice),
      exec c s = .next (u.answered link type tag res data notices) ∧
      (res ≠ .ok → res ≠ .clamped → notices = [] ∧ (res ≠ .unchanged → data = []) ∧
        u = if res = .empty ∨ res = .poolEmpty then
            { s.opened link with starvation := s.starvation.put link (min (s.starvation.at link + 1) 255) }
          else s.opened link)

/-! ### Chapter 01: the plan -/

/-- R3, OPEN: in VACANT, or in CLOSED with DONE empty, a non-zero id and 1 to 4 distinct grades open the transfer: the
record, the totals, the tally, the lapsed set and every tank's reading start afresh, P is recomputed, and PLAN TRANSFER
OPENED goes to all; the checks of R3 refuse WRONG-STATE, RECORDS-PENDING and RANGE. Delivery is not PUMPING, as no step
is ACTIVE then (R5). -/
def Obligations.OpenStartsTransfer : Prop :=
  (∀ (s : State) (link : Station) (tag : Byte) (id : Word16) (gs : List (Fin 4)),
      s.canTake link .openTransfer → s.ret.delivery ≠ .pumping →
      s.ret.transfer.state = .vacant ∨ s.ret.transfer.state = .closed ∧ s.ret.done = [] →
      id.toNat ≠ 0 → gs.Nodup → 1 ≤ gs.length → gs.length ≤ 4 →
      let tr : Transfer := { state := .opened, id := some id.toNat, grades := gs, nextStep := some 1, clock := 0 }
      exec (.openTransfer link tag id (gs.map gradeCode)) s =
        .next (({ s.opened link with
            ret.transfer := tr, ret.totals := #v[⟨0, 0⟩, ⟨0, 0⟩, ⟨0, 0⟩, ⟨0, 0⟩], ret.unassigned := 0, ret.metered := 0,
            ret.lapsed := [], ret.tanks := mapTable (fun t => { coldTank with definition := t.definition }) s.ret.tanks,
            tickCount := 0 } : State).rated.answered link .openTransfer tag .ok []
          [planNotice tr (.transfer .opened)])) ∧
    ∀ (s : State) (link : Station) (tag : Byte) (id : Word16) (codes : List Byte),
      s.canTake link .openTransfer → 1 ≤ codes.length → codes.length ≤ 4 →
      (s.ret.transfer.state = .opened ∨ s.ret.transfer.state = .joined →
        exec (.openTransfer link tag id codes) s = .next (s.refused link .openTransfer tag .wrongState)) ∧
      (s.ret.transfer.state = .closed → s.ret.done ≠ [] →
        exec (.openTransfer link tag id codes) s = .next (s.refused link .openTransfer tag .recordsPending)) ∧
      (s.ret.transfer.state = .vacant ∨ s.ret.transfer.state = .closed ∧ s.ret.done = [] →
        id.toNat = 0 ∨ ¬codes.Nodup ∨ (∃ c ∈ codes, c.toNat = 0 ∨ 4 < c.toNat) →
        exec (.openTransfer link tag id codes) s = .next (s.refused link .openTransfer tag .range))

/-- R4, JOIN: OPENED becomes JOINED with PLAN TRANSFER JOINED to all; JOINED is UNCHANGED; VACANT and CLOSED refuse
WRONG-STATE. R5, CLOSE: with the slot empty OPENED and JOINED become CLOSED, PROPOSED and AGREED return to the free list
and PLAN TRANSFER CLOSED goes to all; a step in the slot refuses BUSY, VACANT and CLOSED refuse WRONG-STATE. -/
def Obligations.JoinAndCloseMoveTransfer : Prop :=
  ∀ (s : State) (tag : Byte),
    (s.canTake .ship .joinTransfer →
      exec (.joinTransfer .ship tag) s = .next
        (match s.ret.transfer.state with
        | .opened =>
          ({ s.opened .ship with ret.transfer.state := .joined } : State).answered .ship .joinTransfer tag .ok []
            [planNotice { s.ret.transfer with state := .joined } (.transfer .joined)]
        | .joined => s.refused .ship .joinTransfer tag .unchanged
        | .vacant | .closed => s.refused .ship .joinTransfer tag .wrongState)) ∧
    (s.canTake .barge .closeTransfer →
      exec (.closeTransfer .barge tag) s = .next
        (match s.ret.transfer.state with
        | .vacant | .closed => s.refused .barge .closeTransfer tag .wrongState
        | .opened | .joined =>
          if s.ret.active = none then
            ({ s.opened .barge with
                ret.proposed := [], ret.agreed := [], ret.transfer.state := .closed,
                ret.free := s.ret.free + s.ret.proposed.length + s.ret.agreed.length } : State).answered
              .barge .closeTransfer tag .ok [] [planNotice { s.ret.transfer with state := .closed } (.transfer .closed)]
          else s.refused .barge .closeTransfer tag .busy))

/-- R13, the checks of a step content: it passes with a grade and a tank list exactly when the grade is in use, every
index names a defined tank, none twice, and the shares lie in 1 to 100 and sum to 100; the entries keep the request's
order with credits of 0. -/
def Obligations.ContentIsChecked : Prop :=
  ∀ (s : State) (c : StepContent) (g : Fin 4) (entries : List TankEntry),
    checkContent s c = some (g, entries) ↔
      c.grade = gradeCode g ∧ g ∈ s.ret.transfer.grades ∧
      c.tanks = entries.map (fun e => { tank := oct e.tank.val, share := oct e.share }) ∧
      (entries.map TankEntry.tank).Nodup ∧ (entries.map TankEntry.share).sum = 100 ∧
      ∀ e ∈ entries, (s.tank e.tank).definition ≠ none ∧ 1 ≤ e.share ∧ e.share ≤ 100 ∧ e.credit = 0

/-- R12, R14, R9, PROPOSE from BARGE or SHIP: content that passes R13 takes a free record and the next number to the tail
of PROPOSED with the proposer's mark, its values in range, and PLAN PROPOSED to BARGE and SHIP; otherwise WRONG-STATE,
RANGE, PLAN-FULL and POOL-EMPTY in this order, the last counted for the station. R15, R11, AMEND of a record on PROPOSED:
its content is replaced in its place, the amender's mark is set and the other's cleared, and PLAN AMENDED goes to BARGE and
SHIP; a content that fails R13 is refused RANGE, a record elsewhere WRONG-STATE, an unknown number NO-STEP, a state in
which R12 does not admit the station WRONG-STATE. R12 admits BARGE in OPENED and JOINED and SHIP in JOINED. R9, R10: a number
finds the record that bears it in its place, and NO-STEP means that none does. -/
def Obligations.ProposeAndAmendSetContent : Prop :=
  (∀ (s : State) (link : Station) (tag : Byte) (c : StepContent), s.canTake link .propose → contentFormed c = true →
     exec (.propose link tag c) s = .next
       (if admitsBuild s.ret.transfer.state link = false then s.refused link .propose tag .wrongState
       else
         match checkContent s c, s.ret.transfer.nextStep with
         | none, _ => s.refused link .propose tag .range
         | some _, none => s.refused link .propose tag .planFull
         | some (g, entries), some n =>
           if s.ret.free = 0 then
             ({ s.opened link with
               starvation := s.starvation.put link (min (s.starvation.at link + 1) 255) } : State).answered
               link .propose tag .poolEmpty [] []
           else
             let next := if n = 255 then none else some (n + 1)
             ({ s.opened link with
                 ret.free := s.ret.free - 1, ret.transfer.nextStep := next,
                 ret.proposed := s.ret.proposed ++ [{
                   number := n, grade := g, tanks := entries, quantity := min (max c.quantity.toNat 1000) 4000000,
                   rateCap := if c.rateCap.toNat = 0 then none else some (min c.rateCap.toNat 2000), proposer := link,
                   markBarge := decide (link = .barge), markShip := decide (link = .ship), delivered := 0, holdCount := 0,
                   endCause := none, lastStop := none, startTime := none, endTime := none }] } : State).answered
               link .propose tag
               (if c.quantity.toNat < 1000 ∨ 4000000 < c.quantity.toNat ∨ 2000 < c.rateCap.toNat then .clamped else .ok)
               [oct n] [planNotice { s.ret.transfer with nextStep := next } (.proposed n)])) ∧
  (∀ (s : State) (link : Station) (tag number : Byte) (c : StepContent), s.canTake link .amend → contentFormed c = true →
     exec (.amend link tag number c) s = .next
       (if admitsBuild s.ret.transfer.state link = false then s.refused link .amend tag .wrongState
       else
         match locate s number.toNat with
         | none => s.refused link .amend tag .noStep
         | some (.agreed, _) | some (.active, _) | some (.done, _) => s.refused link .amend tag .wrongState
         | some (.proposed, r) =>
           match checkContent s c with
           | none => s.refused link .amend tag .range
           | some (g, entries) =>
             ({ s.opened link with
                 ret.proposed := s.ret.proposed.map fun q =>
                   if q.number = number.toNat then
                     { r with
                       grade := g, tanks := entries, quantity := min (max c.quantity.toNat 1000) 4000000,
                       rateCap := if c.rateCap.toNat = 0 then none else some (min c.rateCap.toNat 2000),
                       markBarge := decide (link = .barge), markShip := decide (link = .ship) }
                   else q } : State).answered link .amend tag
               (if c.quantity.toNat < 1000 ∨ 4000000 < c.quantity.toNat ∨ 2000 < c.rateCap.toNat then .clamped else .ok)
               [] [planNotice s.ret.transfer (.amended number.toNat)])) ∧
  (∀ tr : TransferState, (admitsBuild tr .barge = true ↔ tr = .opened ∨ tr = .joined) ∧
    (admitsBuild tr .ship = true ↔ tr = .joined)) ∧
  ∀ (s : State) (n : Nat),
    let stands (p : Place) (r : Step) : Prop := match p with
      | .proposed => r ∈ s.ret.proposed
      | .agreed => r ∈ s.ret.agreed
      | .active => s.ret.active = some r
      | .done => r ∈ s.ret.done
    (∀ p r, locate s n = some (p, r) → r.number = n ∧ stands p r) ∧
    (locate s n = none ↔ ∀ p r, stands p r → r.number ≠ n) ∧
    (((s.ret.proposed ++ s.ret.agreed ++ s.ret.active.toList ++ s.ret.done).map Step.number).Nodup →
      ∀ p r, stands p r → r.number = n → locate s n = some (p, r))

/-- R16, AGREE: a record on PROPOSED that lacks the requester's mark takes it and moves to the tail of AGREED, with PLAN
AGREED to BARGE and SHIP; with the mark present it is UNCHANGED; outside JOINED, or with the record elsewhere, it is
refused WRONG-STATE, an unknown number NO-STEP. R17, REVISE of a step on AGREED: it and every step behind it leave AGREED
and go, in their order, to the head (operand 0) or the tail (operand 1) of PROPOSED, each with the requester's mark alone,
and PLAN REVISED goes to BARGE and SHIP; another operand is RANGE, the other checks as for AGREE. -/
def Obligations.AgreeAndReviseMoveSteps : Prop :=
  (∀ (s : State) (link : Station) (tag number : Byte), s.canTake link .agree →
     exec (.agree link tag number) s = .next
       (if s.ret.transfer.state ≠ .joined then s.refused link .agree tag .wrongState
       else
         match locate s number.toNat with
         | none => s.refused link .agree tag .noStep
         | some (.agreed, _) | some (.active, _) | some (.done, _) => s.refused link .agree tag .wrongState
         | some (.proposed, r) =>
           if (if link = .barge then r.markBarge else r.markShip) = true then s.refused link .agree tag .unchanged
           else
             ({ s.opened link with
                 ret.proposed := s.ret.proposed.eraseP fun q => q.number == number.toNat,
                 ret.agreed := s.ret.agreed ++ [{ r with
                   markBarge := r.markBarge || decide (link = .barge),
                   markShip := r.markShip || decide (link = .ship) }] } : State).answered link .agree tag .ok []
               [planNotice s.ret.transfer (.agreed number.toNat)])) ∧
  (∀ (s : State) (link : Station) (tag number operand : Byte), s.canTake link .revise →
     exec (.revise link tag number operand) s = .next
       (if s.ret.transfer.state ≠ .joined then s.refused link .revise tag .wrongState
       else
         match locate s number.toNat with
         | none => s.refused link .revise tag .noStep
         | some (.proposed, _) | some (.active, _) | some (.done, _) => s.refused link .revise tag .wrongState
         | some (.agreed, _) =>
           if operand ≠ 0#8 ∧ operand ≠ 1#8 then s.refused link .revise tag .range
           else
             let kept := s.ret.agreed.takeWhile fun q => q.number != number.toNat
             let run := (s.ret.agreed.dropWhile fun q => q.number != number.toNat).map fun q =>
               { q with markBarge := decide (link = .barge), markShip := decide (link = .ship) }
             ({ s.opened link with
                 ret.agreed := kept,
                 ret.proposed := if operand = 0#8 then run ++ s.ret.proposed else s.ret.proposed ++ run } : State).answered
               link .revise tag .ok [] [planNotice s.ret.transfer (.revised number.toNat run.length operand)]))

/-- R18, WITHDRAW: a step on PROPOSED or AGREED returns to the free list, with PLAN WITHDRAWN to BARGE and SHIP; a HELD
step moves to the tail of DONE, ABANDONED at the clock's time, its grade's count of finished steps one higher and
delivery IDLE, with STEPSTATE to all; a step in another delivery state is BUSY, one on DONE WRONG-STATE, an unknown
number NO-STEP, and a state in which R12 does not admit the station WRONG-STATE. R24, TAKE: the record at the head of DONE
is sent with the transfer's id, leaves DONE and returns to the free list, with PLAN TAKEN to BARGE and SHIP; an empty DONE
is answered EMPTY and counted for SURVEY up to 255. -/
def Obligations.WithdrawAndTakeFreeRecords : Prop :=
  (∀ (s : State) (link : Station) (tag number : Byte), s.canTake link .withdraw →
     exec (.withdraw link tag number) s = .next
       (if admitsBuild s.ret.transfer.state link = false then s.refused link .withdraw tag .wrongState
       else
         match locate s number.toNat with
         | none => s.refused link .withdraw tag .noStep
         | some (.done, _) => s.refused link .withdraw tag .wrongState
         | some (.proposed, _) =>
           ({ s.opened link with
               ret.proposed := s.ret.proposed.eraseP fun q => q.number == number.toNat,
               ret.free := s.ret.free + 1 } : State).answered link .withdraw tag .ok []
             [planNotice s.ret.transfer (.withdrawn number.toNat)]
         | some (.agreed, _) =>
           ({ s.opened link with
               ret.agreed := s.ret.agreed.eraseP fun q => q.number == number.toNat,
               ret.free := s.ret.free + 1 } : State).answered link .withdraw tag .ok []
             [planNotice s.ret.transfer (.withdrawn number.toNat)]
         | some (.active, r) =>
           if s.ret.delivery = .held then
             ({ s.opened link with
                 ret.active := none, ret.delivery := .idle,
                 ret.done := s.ret.done ++ [{ r with endCause := some .abandoned, endTime := some s.ret.transfer.clock }],
                 ret.totals := s.ret.totals.set r.grade { s.ret.totals[r.grade] with
                   steps := min (s.ret.totals[r.grade].steps + 1) 255 },
                 governor.permitted := 0, governor.term := .none, governor.demand := 0, governor.ramp := none,
                 meter.noFlow := .quiet } : State).answered link .withdraw tag .ok []
               [stepStateNotice number.toNat .held .idle none (some .abandoned) none r.delivered]
           else s.refused link .withdraw tag .busy)) ∧
  (∀ (s : State) (tag : Byte), s.canTake .survey .take →
     exec (.take .survey tag) s = .next
       (match s.ret.done with
       | [] =>
         ({ s.opened .survey with starvation.survey := min (s.starvation.survey + 1) 255 } : State).answered
           .survey .take tag .empty [] []
       | r :: rest =>
         ({ s.opened .survey with ret.done := rest, ret.free := s.ret.free + 1 } : State).answered .survey .take tag .ok
           (le2 (s.ret.transfer.id.getD 0) ++ stepOctets .done r) [planNotice s.ret.transfer (.taken r.number)]))

/-- R25 to R27, R53, R123, R155, R176, the reads that change nothing: STEP, LISTS, TOTALS, HOLDS, TANKS, INSTRUMENTS and
GET are answered with the items their rules name as they stand, or NO-STEP or RANGE where nothing is named. R28, R186,
R167, R197, the reads that clear: READ COUNTERS clears the requester's own two counters, READ LINES from BARGE every event
latch, STATUS the requester's two link flags, each after its value was placed in the reply; nothing else changes. R195, R197,
R198, every reply octet by octet: numbers low octet first, absent as all ones, sets as bits, the codes, the causes, reasons and
limiting terms; the step record (29 + 6n octets), LISTS, TOTALS, HOLDS (184 octets with its result code at 18 entries), TANKS by
group, LINES, INSTRUMENTS, STATUS (38 with its result code), and the setting, owner and value of every code of GET. GET echoes
the index octet as sent (log 16) and LISTS sends an empty slot as 0 and all ones (log 29), both deduced, unused details are 0
(log 17), and a number too big for its field is sent modulo its size (log 32). -/
def Obligations.ReadsAnswerItems : Prop :=
  (∀ (s : State) (link : Station) (tag : Byte),
     (s.canTake link .read →
       (∀ number, exec (.readStep link tag number) s = .next
         (match locate s number.toNat with
         | none => s.refused link .read tag .noStep
         | some (p, r) => (s.opened link).answered link .read tag .ok (stepOctets p r) [])) ∧
       exec (.readLists link tag) s = .next ((s.opened link).answered link .read tag .ok (listsData s) []) ∧
       exec (.readTotals link tag) s = .next ((s.opened link).answered link .read tag .ok (totalsData s) []) ∧
       exec (.readHolds link tag) s =
         .next ((s.opened link).answered link .read tag .ok (holdsData (s.opened link)) []) ∧
       (∀ group, exec (.readTanks link tag group) s = .next
         (match tanksData s group with
         | none => s.refused link .read tag .range
         | some data => (s.opened link).answered link .read tag .ok data [])) ∧
       exec (.readInstruments link tag) s =
         .next ((s.opened link).answered link .read tag .ok (instrumentsData s) [])) ∧
     (s.canTake link .get → ∀ code index, exec (.getSetting link tag code index) s = .next
       (match settingOf s code index with
       | none => s.refused link .get tag .range
       | some (owner, value) =>
         (s.opened link).answered link .get tag .ok ([code, index, ownerCode owner] ++ value) []))) ∧
  (∀ (s : State) (link : Station) (tag : Byte),
     (s.canTake link .read →
       exec (.readCounters link tag) s = .next
         ((({ s.opened link with starvation := s.starvation.put link 0 } : State).setLink link
           { (s.opened link).link link with errors := 0 }).answered link .read tag .ok
           ([Station.barge, .ship, .survey].map (fun st => oct (s.starvation.at st)) ++
             [Station.barge, .ship, .survey].map fun st => oct (s.link st).errors) []) ∧
       exec (.readLines link tag) s = .next
         ((if link = .barge then
             { s.opened link with lines := mapTable (fun l => { l with latch := false }) s.lines }
           else s.opened link).answered link .read tag .ok (linesData s) [])) ∧
     (s.canTake link .status →
       exec (.status link tag) s = .next
         (((s.opened link).setLink link
           { (s.opened link).link link with overrun := false, noticesLost := false }).answered link .status tag .ok
           (statusData (s.opened link) link) []))) ∧
  -- R195: numbers, sets and codes
  ((∀ n : Nat, oct n = BitVec.ofNat 8 n ∧ le2 n = [oct n, oct (n / 256)] ∧
      le4 n = [oct n, oct (n / 256), oct (n / 65536), oct (n / 16777216)] ∧ le2? (some n) = le2 n ∧
      le4? (some n) = le4 n) ∧
    le2? none = List.replicate 2 0xFF#8 ∧ le4? none = List.replicate 4 0xFF#8 ∧ flag false = 0#8 ∧ flag true = 1#8 ∧
    (let members (octet : Byte) (set : List Bool) : Prop := ∀ k : Fin 8, octet.getLsbD k.val = set.getD k.val false
     (∀ r : Step, members (marksCode r) [r.markBarge, r.markShip]) ∧
       (∀ n : PerStation Bool, members (notifyCode n) [n.barge, n.ship, n.survey]) ∧
       (∀ v : Vector Bool 4, members (engagedCode v) v.toList) ∧
       ∀ l : Link, members (linkFlags l) [l.overrun, l.noticesLost]) ∧
    [Station.barge, .ship, .survey].map stationCode = [1, 2, 3] ∧
    [TransferState.vacant, .opened, .joined, .closed].map transferCode = [0, 1, 2, 3] ∧
    [DeliveryState.idle, .armed, .opening, .pumping, .rundown, .closing, .settling, .held].map deliveryCode =
      [0, 1, 2, 3, 4, 5, 6, 7] ∧
    [ValveState.closed, .opening, .opened, .closing, .jammed].map valveStateCode = [0, 1, 2, 3, 4] ∧
    [ValveCommand.closed, .opened].map commandCode = [0, 1] ∧ [LoopState.closed, .opened].map loopCode = [0, 1] ∧
    [Place.proposed, .agreed, .active, .done].map placeCode = [1, 2, 3, 4] ∧
    [GaugeStatus.none, .fresh, .stale, .lost].map gaugeCode = [0, 1, 2, 3] ∧
    [HoldSource.barge, .ship, .survey, .linkBarge, .linkShip, .loop, .line 0, .line 1, .line 2, .line 3, .line 4, .line 5,
      .overfill, .pressure, .tension, .valve, .meter, .power].map sourceCode =
      [1, 2, 3, 4, 5, 6, 7, 8, 9, 10, 11, 12, 13, 14, 15, 16, 17, 18] ∧
    [HoldClass.pause, .trip].map classCode = [0, 1] ∧
    [LineFunction.unused, .esdPush, .levelSwitch, .breakaway, .dripTray, .permit].map functionCode = [0, 1, 2, 3, 4, 5] ∧
    [Trigger.edge, .level].map triggerCode = [0, 1] ∧
    [none, some Role.hosePressure, some .manifoldPressure, some .tension].map roleCode = [0, 1, 2, 3] ∧
    [ChannelUse.first, .second, .higher].map useCode = [0, 1, 2] ∧
    [AgentState.unknown, .present, .suspect, .absent].map agentStateCode = [0, 1, 2, 3] ∧
    [PollOutcome.good, .badCheck, .noReply].map outcomeCode = [1, 2, 3] ∧
    [StageInput.tankFill, .role .hosePressure, .role .manifoldPressure, .role .tension].map inputCode = [0, 1, 2, 3] ∧
    [StageMode.eighths, .fraction].map modeCode = [0, 1] ∧
    [PollCycle.quarter, .half, .one, .two, .four].map pollCode = [0, 1, 2, 3, 4] ∧
    [DataRate.b9600, .b19200, .b38400, .b57600].map rateCode = [0, 1, 2, 3]) ∧
  -- R195: causes and reasons; R197: limiting terms
  ((∀ (t : Fin 8) (st : Station) (src : HoldSource),
      [none, some EndCause.quantity, some (.topped t), some .abandoned].map endCauseOctets =
        [[0, 0], [1, 0], [2, oct t.val], [3, 0]] ∧
      [none, some StopCause.quantity, some (.topped t), some (.stopped st), some (.hold src)].map stopCauseOctets =
        [[0, 0], [1, 0], [2, oct t.val], [4, stationCode st], [5, sourceCode src]] ∧
      [none, some (LastStop.stopped st), some (.hold src), some .power].map lastStopOctets =
        [[0, 0], [4, stationCode st], [5, sourceCode src], [6, 0]]) ∧
    (∀ (n : Byte) (f : LineFunction) (tr : Trigger) (t : Fin 8),
      [HoldReason.operator n, .halt, .lost, .opened, .line f tr, .level t, .gaugeLost t, .role .hosePressure,
        .role .manifoldPressure, .role .tension, .noOpen, .noClose, .bothLimits, .drift, .noFlow, .overspeed, .cold,
        .warm].map reasonOctets =
        [[0, n], [1, 0], [0, 0], [0, 0], [functionCode f, triggerCode tr], [0, oct t.val], [1, oct t.val], [1, 0],
          [2, 0], [0, 0], [0, 0], [1, 0], [2, 0], [3, 0], [0, 0], [1, 0], [0, 0], [1, 0]]) ∧
    ∀ (t : Fin 8) (j : Fin 4),
      [LimitTerm.none, .base, .quantity, .projection t, .stageTank j t, .stageRole j .hosePressure,
        .stageRole j .manifoldPressure, .stageRole j .tension, .degrade t, .blind].map termOctets =
        [[0, 0, 0], [1, 0, 0], [2, 0, 0], [3, oct t.val, 0], [4, oct j.val, oct t.val], [4, oct j.val, 0x81],
          [4, oct j.val, 0x82], [4, oct j.val, 0x83], [5, oct t.val, 0], [6, 0, 0]]) ∧
  -- R198: the step record
  (∀ (p : Place) (r : Step),
    stepOctets p r = [oct r.number, placeCode p, oct (r.grade.val + 1), stationCode r.proposer, marksCode r] ++
        le4 r.quantity ++ le2 (r.rateCap.getD 0) ++ le4 r.delivered ++ [oct r.holdCount] ++ endCauseOctets r.endCause ++
        lastStopOctets r.lastStop ++ le4? r.startTime ++ le4? r.endTime ++ [oct r.tanks.length] ++
        r.tanks.flatMap (fun e => [oct e.tank.val, oct e.share] ++ le4 e.credit) ∧
      (stepOctets p r).length = 29 + 6 * r.tanks.length) ∧
  -- R197 and R198: STATUS and the reads
  (∀ (s : State) (link : Station),
    let m := s.ret
    let id := le2 (m.transfer.id.getD 0)
    let marked (l : List Step) : List Byte := l.flatMap fun r => [oct r.number, marksCode r]
    let sums (l : List Step) (of : Step → Nat) : List Byte := [oct l.length] ++ le4 ((l.map of).sum)
    let clearer (h : HoldEntry) : Byte :=
      match h.source, h.reason with
      | .loop, _ => 4#8
      | .survey, _ => 3#8
      | .ship, _ | .linkShip, _ | .overfill, _ | .line _, .line .levelSwitch _ => 2#8
      | .line _, .line .unused _ => 0#8
      | .line _, .line _ _ => 1#8
      | .line _, _ => 0#8
      | _, _ => 1#8
    let tank (i : Fin 8) : List Byte :=
      let t := s.tank i
      let d := t.definition.getD { capacity := 0, high := 0, trip := 0 }
      [flag t.definition.isSome] ++ le4 d.capacity ++ le2 d.high ++ le2 d.trip ++
        (if t.estimate = none then le4 0 ++ le4 0
        else le4 (d.capacity * d.high / 1000) ++ le4 (d.capacity * d.trip / 1000)) ++
        le4? t.contents ++ le2 t.age ++ le4 t.credited ++
        le4 (t.estimate.getD 0) ++ le2 (t.fill.getD 0) ++ le4 (t.room.getD 0) ++
        [gaugeCode t.status, oct ((if t.highCrossed then 1 else 0) + (if t.overTrip then 2 else 0)), engagedCode t.engaged]
    let stage (j : Fin 4) : List Byte :=
      let st := s.stage j
      [flag st.enabled, inputCode st.input] ++ le2 st.enter ++ le2 st.leave ++
        [modeCode st.mode, oct st.k, flag st.instrumentEngaged]
    let lineConfig (n : Fin 6) : List Byte :=
      let c := s.lineConfig n
      [functionCode c.function, flag c.inverted, oct c.debounce, triggerCode c.trigger, notifyCode c.notify]
    let agentConfig (i : Fin 4) : List Byte :=
      let c := s.agentConfig i
      [flag c.enabled, roleCode c.role, oct c.channels, useCode c.use] ++ le2 c.warn ++ le2 c.trip
    statusData s link = [transferCode m.transfer.state] ++ id ++ [deliveryCode m.delivery,
        oct ((m.active.map Step.number).getD 0)] ++ le2 s.governor.demand ++ le2 s.governor.permitted ++
        termOctets s.governor.term ++ le2 s.meter.rate ++ [valveStateCode s.valve, commandCode s.controller.command,
        loopCode s.loop.loopIn, loopCode s.loop.loopOut, oct m.holds.length,
        (m.holds.head?.map fun h => sourceCode h.source).getD 0#8] ++ sums m.proposed Step.quantity ++
        sums m.agreed Step.quantity ++ sums m.done Step.delivered ++ [oct m.free, linkFlags (s.link link)] ∧
      (statusData s link).length + 1 = 38 ∧
    listsData s = [transferCode m.transfer.state] ++ id ++ [oct (m.transfer.nextStep.getD 0)] ++
        sums m.proposed Step.quantity ++ sums m.agreed Step.quantity ++
        (match m.active with
        | some r => [oct r.number] ++ le4 r.quantity ++ le4 r.delivered
        | none => [0#8] ++ List.replicate 8 0xFF#8) ++
        sums m.done Step.delivered ++ [oct m.free] ++ marked m.proposed ++ marked m.agreed ++
        m.done.map (fun r => oct r.number) ∧
    totalsData s = ([0, 1, 2, 3] : List (Fin 4)).flatMap (fun g => le4 m.totals[g].litres ++ [oct m.totals[g].steps]) ++
        le4 m.unassigned ++ le4 m.metered ∧
    holdsData s = [oct m.holds.length, loopCode s.loop.loopIn, loopCode s.loop.loopOut] ++
        m.holds.flatMap (fun h => [sourceCode h.source,
          oct ((if h.cls = .trip then 1 else 0) + (if conditionPresent s h then 2 else 0))] ++ reasonOctets h.reason ++
          le4 h.time ++ [oct h.repeats, clearer h]) ∧
      (m.holds.length = 18 → (holdsData s).length + 1 = 184) ∧
    (∀ group : Byte, tanksData s group =
      match group.toNat with
      | 0 => some (group :: ([0, 1, 2, 3] : List (Fin 8)).flatMap tank)
      | 1 => some (group :: ([4, 5, 6, 7] : List (Fin 8)).flatMap tank)
      | 2 => some (group :: (([0, 1, 2, 3] : List (Fin 4)).flatMap stage ++ le2 m.settings.stale))
      | _ => none) ∧
    linesData s = ([0, 1, 2, 3, 4, 5] : List (Fin 6)).flatMap (fun n => lineConfig n ++
        [flag ((s.line n).raw != (s.lineConfig n).inverted), flag (s.line n).active, oct (s.line n).count,
          flag (s.line n).latch]) ∧
    instrumentsData s = ([0, 1, 2, 3] : List (Fin 4)).flatMap (fun i => agentConfig i ++ [oct (s.agent i).history.length] ++
          [0, 1, 2].map (fun k => ((s.agent i).history[k]?.map outcomeCode).getD 0#8) ++
          [agentStateCode (s.agent i).state] ++ le2? (s.agent i).value ++ le2 (s.agent i).age) ++
        [s.instruments.hose, s.instruments.manifold, s.instruments.tension].flatMap (fun r => le2? r.value ++
          [flag r.blind] ++ le2? r.warn ++ le2? r.trip ++ [flag r.warned, flag r.tripped]) ++
        [oct (pollCode m.settings.poll)] ∧
    -- R176, R196: the settings by code
    ownerCode none = 0#8 ∧ (∀ st, ownerCode (some st) = stationCode st) ∧
    ∀ code index : Byte,
      let t := m.settings
      let low : List Nat := [t.rmax, t.rmin, t.u, t.tstop, t.cb, t.rundown, t.topen, t.tclose, t.confirm, t.settle,
        t.silence.barge, t.silence.ship, t.silence.survey, pollCode t.poll]
      let high : List (Option Station × Nat) := [(some .ship, t.stale), (some .survey, t.weight), (some .survey, t.noFlow),
        (none, rateCode (s.link .barge).rate), (none, rateCode (s.link .ship).rate), (none, rateCode (s.link .survey).rate)]
      settingOf s code index =
        if 0x01 ≤ code.toNat ∧ code.toNat ≤ 0x0E then low[code.toNat - 0x01]?.map fun v => (some .barge, le2 v)
        else if code.toNat = 0x0F then
          (([0, 1, 2, 3] : List (Fin 4)).find? fun i => i.val + 1 = index.toNat).map fun i => (some .barge, agentConfig i)
        else if code.toNat = 0x10 then
          (([0, 1, 2, 3, 4, 5] : List (Fin 6)).find? fun n => n.val + 1 = index.toNat).map fun n =>
            (some .barge, lineConfig n)
        else if 0x11 ≤ code.toNat ∧ code.toNat ≤ 0x16 then high[code.toNat - 0x11]?.map fun v => (v.1, le2 v.2)
        else none)

/-! ### Chapter 02: the Overflow Watch -/

/-- R45, R46, R48, R51, the evaluation of a tank with an estimate, the whole of the event: both flags follow the estimate
against H and T, a flag that sets sends LEVEL, an over-trip that sets raises OVERFILL at TRIP (a raise as RaiseReachesDelivery
gives it) directly behind its LEVEL, and each fill stage follows the fill with its hysteresis; no other tank changes. A tank
without an estimate is left as it is. R31: the estimate, the fill and the room, absent without a definition or reported
contents. R37, R40: several tanks are evaluated one after another in ascending index. -/
def Obligations.TankEvaluationFollowsLevels : Prop :=
  (∀ t : Tank,
    (t.definition = none ∨ t.contents = none → t.estimate = none ∧ t.fill = none ∧ t.room = none) ∧
    ∀ (d : TankDef) (v : Nat), t.definition = some d → t.contents = some v →
      let est := min (v + t.credited) 4294967295
      t.estimate = some est ∧ t.fill = some (min (est * 1000 / d.capacity) 1000) ∧
        t.room = some (d.capacity * d.trip / 1000 - est)) ∧
  (∀ (test : Fin 8 → Bool) (e : Event), evalTanks test e =
    (([0, 1, 2, 3, 4, 5, 6, 7] : List (Fin 8)).filter test).foldl (fun u i => evalTank i u) e) ∧
  ∀ (i : Fin 8) (e : Event),
    ((e.s.tank i).estimate = none → evalTank i e = e) ∧
    ∀ (d : TankDef) (v : Nat), (e.s.tank i).definition = some d → (e.s.tank i).contents = some v →
      let est := min (v + (e.s.tank i).credited) 4294967295
      let fill := min (est * 1000 / d.capacity) 1000
      let sets := decide (d.capacity * d.trip / 1000 ≤ est) && !(e.s.tank i).overTrip
      let level (kind : LevelKind) := levelNotice i kind est fill (e.s.tank i).status
      let flagged : Tank := { e.s.tank i with
        highCrossed := decide (d.capacity * d.high / 1000 ≤ est), overTrip := decide (d.capacity * d.trip / 1000 ≤ est) }
      let staged : Tank := { flagged with
        engaged := Vector.ofFn fun j =>
          decide ((e.s.stage j).input = .tankFill) && (e.s.stage j).enabled &&
            if (e.s.tank i).engaged[j] then decide ((e.s.stage j).leave ≤ fill)
            else decide ((e.s.stage j).enter ≤ fill) }
      let noted : Event := { e with
        s := e.s.setTank i flagged,
        notes := e.notes ++
          (if decide (d.capacity * d.high / 1000 ≤ est) && !(e.s.tank i).highCrossed then [level .high] else []) ++
          (if sets then [level .trip] else []) }
      let raised : Event := if sets then raiseHold .overfill .trip (.level i) noted else noted
      let t := (evalTank i e).s
      evalTank i e = { raised with s := raised.s.setTank i staged } ∧
        t.tank i = staged ∧
        (∀ j, j ≠ i → t.tank j = e.s.tank j) ∧
        t.ret.holds = (if sets then raisedList e.s .overfill .trip (.level i) else e.s.ret.holds) ∧
        (evalTank i e).notes = e.notes ++
          (if decide (d.capacity * d.high / 1000 ≤ est) && !(e.s.tank i).highCrossed then [level .high] else []) ++
          (if sets then [level .trip, e.s.raisedNotice .overfill .trip (.level i)] else [])

/-- R36, R37, GAUGE from SHIP: in VACANT it is refused WRONG-STATE; an entry that names no defined tank, or two that name
one tank, refuse it RANGE; otherwise every entry is applied to its tank (contents up to its capacity, credit and age 0,
FRESH), then the reported tanks are evaluated in ascending order and P is recomputed, and the reply carries the number of
entries. -/
def Obligations.GaugeReportsTanks : Prop :=
  (∀ (s : State) (tag : Byte) (entries : List GaugeEntry), s.canTake .ship .gauge →
      1 ≤ entries.length → entries.length ≤ 8 →
      (s.ret.transfer.state = .vacant → exec (.gauge .ship tag entries) s = .next (s.refused .ship .gauge tag .wrongState)) ∧
      (s.ret.transfer.state ≠ .vacant →
        ¬(entries.map GaugeEntry.tank).Nodup ∨
          (∃ g ∈ entries, ∀ i : Fin 8, i.val = g.tank.toNat → (s.tank i).definition = none) →
        exec (.gauge .ship tag entries) s = .next (s.refused .ship .gauge tag .range))) ∧
    ∀ (s : State) (tag : Byte) (reports : List (Fin 8 × Word32)), s.canTake .ship .gauge →
      1 ≤ reports.length → reports.length ≤ 8 → s.ret.transfer.state ≠ .vacant → (reports.map Prod.fst).Nodup →
      (∀ p ∈ reports, (s.tank p.1).definition ≠ none) →
      ∃ tanks : Vector Tank 8,
        (∀ i : Fin 8, tanks[i] =
          match reports.find? (fun p => decide (p.1 = i)), (s.tank i).definition with
          | some p, some d =>
            { s.tank i with contents := some (min p.2.toNat d.capacity), credited := 0, age := 0, status := .fresh }
          | _, _ => s.tank i) ∧
        exec (.gauge .ship tag (reports.map fun p => { tank := oct p.1.val, contents := p.2 })) s =
          .next (((evalTanks (fun i => reports.any fun p => decide (p.1 = i))
              ((s.opened .ship).begin.mod fun u => { u with ret.tanks := tanks })).mod recompute).reply .ship
            (replyFrame .gauge tag
              (if reports.any fun p => (s.tank p.1).definition.any fun d => decide (d.capacity < p.2.toNat) then .clamped
              else .ok) [oct reports.length]))

/-- R32 to R35, TANKDEF from SHIP: an index above 7 is RANGE. With the flag clear an undefined tank is UNCHANGED, one that
a record on PROPOSED, AGREED, ACTIVE or DONE names is BUSY, another loses definition, reading, flags and stages. With it set, the clamped definition is
refused WRONG-STATE where R33 guards a tank in delivery (the ACTIVE step names it in OPENING, PUMPING or RUNDOWN) against a
new capacity or a raised high or trip, is UNCHANGED where it already stands, and otherwise defines the
tank, lowers a reading above the new capacity to it, and has the tank evaluated and P recomputed. -/
def Obligations.TankdefDefinesTank : Prop :=
  ∀ (s : State) (tag index : Byte) (c : TankContent), s.canTake .ship .tankdef →
    let names (i : Fin 8) (r : Step) : Bool := r.tanks.any fun e => decide (e.tank = i)
    (8 ≤ index.toNat → exec (.tankdef .ship tag index c) s = .next (s.refused .ship .tankdef tag .range)) ∧
    ∀ i : Fin 8, index = oct i.val →
      (c.flag = 0#8 →
        exec (.tankdef .ship tag index c) s = .next
          (if (s.tank i).definition = none then s.refused .ship .tankdef tag .unchanged
          else if (s.ret.proposed ++ s.ret.agreed ++ s.ret.active.toList ++ s.ret.done).any (names i) then
            s.refused .ship .tankdef tag .busy
          else
            ((s.opened .ship).begin.mod fun u => recompute (u.setTank i coldTank)).reply .ship
              (replyFrame .tankdef tag .ok []))) ∧
      (c.flag ≠ 0#8 →
        let high := min (max c.high.toNat 500) 980
        let d : TankDef := { capacity := min (max c.capacity.toNat 1000) 4000000, high := high,
                             trip := min (max c.trip.toNat (high + 5)) 995 }
        let asked := decide (d.capacity = c.capacity.toNat ∧ d.high = c.high.toNat ∧ d.trip = c.trip.toNat)
        exec (.tankdef .ship tag index c) s = .next
          (if s.ret.active.any (names i) && (s.ret.delivery matches .opening | .pumping | .rundown) &&
              (s.tank i).definition.any (fun o =>
              decide (d.capacity ≠ o.capacity ∨ o.high < d.high ∨ o.trip < d.trip)) then
            s.refused .ship .tankdef tag .wrongState
          else if asked && decide ((s.tank i).definition = some d) then s.refused .ship .tankdef tag .unchanged
          else
            let tank :=
              if (s.tank i).definition = none then { coldTank with definition := some d }
              else { s.tank i with
                      definition := some d, contents := (s.tank i).contents.map fun v => min v d.capacity }
            ((evalTank i ((s.opened .ship).begin.mod fun u => u.setTank i tank)).mod recompute).reply .ship
              (replyFrame .tankdef tag (if asked then .ok else .clamped) [])))

/-- R50, R51, STAGEDEF from SHIP: an index above 3, a wrong input or a wrong mode is RANGE; otherwise the clamped entry
replaces the stage, which is engaged from rest on every tank (or on its role, a blind role counting as engaged), and P is
recomputed; an entry that already stands changes nothing. -/
def Obligations.StagedefSetsStage : Prop :=
  ∀ (s : State) (tag index : Byte) (c : StageContent), s.canTake .ship .stagedef →
    (4 ≤ index.toNat ∨ 3 < c.input.toNat ∨ 1 < c.mode.toNat →
      exec (.stagedef .ship tag index c) s = .next (s.refused .ship .stagedef tag .range)) ∧
    ∀ (j : Fin 4) (input : StageInput) (mode : StageMode), index = oct j.val → c.input = inputCode input →
      c.mode = modeCode mode →
      let enter := min (max c.enter.toNat 1)
        (match input with
        | .tankFill => 1000
        | .role .hosePressure | .role .manifoldPressure => 4000
        | .role .tension => 2000)
      let leave := min c.leave.toNat (enter - 1)
      let k := min c.k.toNat 7
      let clamped := decide (enter ≠ c.enter.toNat ∨ leave ≠ c.leave.toNat ∨ k ≠ c.k.toNat)
      let st : Stage := { enabled := decide (c.enabled ≠ 0#8), input := input, enter := enter, leave := leave,
                          mode := mode, k := k, instrumentEngaged := (s.stage j).instrumentEngaged }
      exec (.stagedef .ship tag index c) s = .next
        (if st = s.stage j then s.refused .ship .stagedef tag (if clamped then .clamped else .unchanged)
        else
          ((s.opened .ship).begin.mod fun u => recompute { u with
            ret.stages := u.ret.stages.set j { st with
              instrumentEngaged :=
                match input with
                | .tankFill => false
                | .role r => st.enabled && ((u.instruments.role r).blind ||
                    (u.instruments.role r).value.any fun v => decide (enter ≤ v)) },
            ret.tanks := mapTable (fun t => { t with
              engaged := t.engaged.set j (decide (input = .tankFill) && st.enabled &&
                t.fill.any fun f => decide (enter ≤ f)) }) u.ret.tanks }).reply .ship
            (replyFrame .stagedef tag (if clamped then .clamped else .ok) []))

/-- R42, R44, R48, a report passes S × 10 ticks (STALE) or S × 20 ticks (LOST): the status follows, LEVEL goes out, and P is
recomputed. The tanks that are LOST together are taken together in ascending index (log 3), each tank's LEVEL before its raise (log 34): each one that the step names while
delivery is ARMED, OPENING, PUMPING or RUNDOWN as the event begins raises OVERFILL at TRIP, though the first of these raises
stops the step. A report that has not passed its limit is no event (log 3). -/
def Obligations.ReportAgesPastLimit : Prop :=
  ∀ (s : State) (i : Fin 8) (v : Nat), s.running = true → (s.tank i).contents = some v →
    let limit := s.ret.settings.stale
    let level (j : Fin 8) (kind : LevelKind) (status : GaugeStatus) :=
      levelNotice j kind ((s.tank j).estimate.getD 0) ((s.tank j).fill.getD 0) status
    let due (j : Fin 8) : Bool := (s.tank j).contents.isSome && decide ((s.tank j).status ≠ .lost) &&
      decide (limit * 10 < (s.tank j).age) && decide (limit * 20 < (s.tank j).age)
    let lose (e : Event) (j : Fin 8) : Event :=
      let lost := (e.mod fun u => u.setTank j { u.tank j with status := .lost }).note (level j .lost .lost)
      if (s.ret.active.any fun r => r.tanks.any fun e => decide (e.tank = j)) &&
          (s.ret.delivery matches .armed | .opening | .pumping | .rundown) then
        raiseHold .overfill .trip (.gaugeLost j) lost
      else lost
    (exec (.reportStale i) s = .next
      (if (s.tank i).status = .fresh ∧ limit * 10 < (s.tank i).age ∧ (s.tank i).age ≤ limit * 20 then
        ((s.begin.mod fun u => u.setTank i { u.tank i with status := .stale }).note (level i .stale .stale)
          |>.mod recompute).finish
      else s)) ∧
    (exec (.reportLost i) s = .next
      (if due i then
        (((([0, 1, 2, 3, 4, 5, 6, 7] : List (Fin 8)).filter due).foldl lose s.begin).mod recompute).finish
      else s))

/-! ### Chapter 03: the Rate Governor -/

/-- R65 and R66, the permitted rate of a step: none of the six terms is below it, it is one of them, it does not exceed
Rmax, and the limiting term is the first in R66's order that equals it, named with its tank, stage or role; without a step it
is 0 and NONE. A DEGRADE names the lowest STALE tank of the step, else its lowest LOST one (log 13). R58 to R64, the terms: the base rate from the cap,
the quantity term, the projection term as the lowest tank rate of the step, the stage term as the lowest of the base rate, its
tanks' fill stage rates and the instrument stage rate, each from the engaged stage of lowest index, the degrade term while a
tank of the step is STALE or LOST (log 13), and the blind term. -/
def Obligations.PermittedRateIsLowestTerm : Prop :=
  ∀ s : State,
    (s.ret.active = none → permittedRate s = 0 ∧ limitingTerm s = .none) ∧
    ∀ r : Step, s.ret.active = some r →
      let p := permittedRate s
      let terms := [baseRate s r, quantityTerm s r, projectionTerm s r, stageTerm s r, degradeTerm s r, blindTerm s r]
      let t := s.ret.settings
      let rateOf (st : Stage) : Nat := match st.mode with
        | .eighths => baseRate s r * (st.k + 1) / 8
        | .fraction => baseRate s r / (st.k + 1)
      let fills (st : Stage) : Prop := st.enabled = true ∧ st.input = .tankFill
      (p ∈ terms ∧ (∀ x ∈ terms, p ≤ x) ∧ p ≤ s.ret.settings.rmax ∧
        (limitingTerm s = .base ↔ baseRate s r = p) ∧
        (limitingTerm s = .quantity ↔ p < baseRate s r ∧ quantityTerm s r = p) ∧
        (∀ i, limitingTerm s = .projection i ↔
          p < baseRate s r ∧ p < quantityTerm s r ∧ (∃ e ∈ r.tanks, e.tank = i ∧ tankRate s e = p) ∧
            ∀ e ∈ r.tanks, tankRate s e = p → i ≤ e.tank) ∧
        (∀ j i, limitingTerm s = .stageTank j i ↔
          p < baseRate s r ∧ p < quantityTerm s r ∧ p < projectionTerm s r ∧ fillStage s i = some j ∧
            (∃ e ∈ r.tanks, e.tank = i) ∧ tankStageRate s r i = some p ∧
            ∀ e ∈ r.tanks, tankStageRate s r e.tank = some p → i ≤ e.tank) ∧
        (∀ j role, limitingTerm s = .stageRole j role ↔
          p < baseRate s r ∧ p < quantityTerm s r ∧ p < projectionTerm s r ∧
            (∀ e ∈ r.tanks, tankStageRate s r e.tank ≠ some p) ∧ instrumentStage s = some j ∧
            (s.stage j).input = .role role ∧ instrumentStageRate s r = some p) ∧
        (∀ i, limitingTerm s = .degrade i ↔
          p < baseRate s r ∧ p < quantityTerm s r ∧ p < projectionTerm s r ∧ p < stageTerm s r ∧ degradeTerm s r = p ∧
            (∃ e ∈ r.tanks, e.tank = i) ∧
            ((s.tank i).status = .stale ∧ (∀ e ∈ r.tanks, (s.tank e.tank).status = .stale → i ≤ e.tank) ∨
              (s.tank i).status = .lost ∧ (∀ e ∈ r.tanks, (s.tank e.tank).status ≠ .stale) ∧
                ∀ e ∈ r.tanks, (s.tank e.tank).status = .lost → i ≤ e.tank)) ∧
        (limitingTerm s = .blind ↔
          p < baseRate s r ∧ p < quantityTerm s r ∧ p < projectionTerm s r ∧ p < stageTerm s r ∧ p < degradeTerm s r)) ∧
      baseRate s r = (match r.rateCap with
        | none => t.rmax
        | some cap => min (max cap t.rmin) t.rmax) ∧
      quantityTerm s r = (if r.quantity ≤ r.delivered then 0
        else min ((r.quantity - r.delivered) * 18 / (5 * t.tstop)) t.rmax) ∧
      (∀ e d v, (s.tank e.tank).definition = some d → (s.tank e.tank).contents = some v →
        tankRate s e = min ((d.capacity * d.trip / 1000 - min (v + (s.tank e.tank).credited) 4294967295) * 360 /
          (e.share * t.tstop)) t.rmax) ∧
      (∀ e ∈ r.tanks, projectionTerm s r ≤ tankRate s e) ∧
      (r.tanks ≠ [] → ∃ e ∈ r.tanks, projectionTerm s r = tankRate s e) ∧
      (∀ i j, fillStage s i = some j ↔ (s.stage j).input = .tankFill ∧ (s.tank i).engaged[j] = true ∧
        ∀ k, (s.stage k).input = .tankFill → (s.tank i).engaged[k] = true → j ≤ k) ∧
      (∀ i n, tankStageRate s r i = some n ↔ ∃ j, fillStage s i = some j ∧ rateOf (s.stage j) = n) ∧
      (∀ j, instrumentStage s = some j ↔ (s.stage j).input ≠ .tankFill ∧ (s.stage j).instrumentEngaged = true ∧
        ∀ k, (s.stage k).input ≠ .tankFill → (s.stage k).instrumentEngaged = true → j ≤ k) ∧
      (∀ n, instrumentStageRate s r = some n ↔ ∃ j, instrumentStage s = some j ∧ rateOf (s.stage j) = n) ∧
      stageTerm s r ≤ baseRate s r ∧ (∀ e ∈ r.tanks, ∀ n, tankStageRate s r e.tank = some n → stageTerm s r ≤ n) ∧
      (∀ n, instrumentStageRate s r = some n → stageTerm s r ≤ n) ∧
      (stageTerm s r = baseRate s r ∨ instrumentStageRate s r = some (stageTerm s r) ∨
        ∃ e ∈ r.tanks, tankStageRate s r e.tank = some (stageTerm s r)) ∧
      ((∀ e ∈ r.tanks, (s.tank e.tank).status ≠ .stale ∧ (s.tank e.tank).status ≠ .lost) →
        degradeTerm s r = baseRate s r) ∧
      ((∃ e ∈ r.tanks, (s.tank e.tank).status = .stale ∨ (s.tank e.tank).status = .lost) →
        ((∀ j, ¬fills (s.stage j)) → degradeTerm s r = baseRate s r / 2) ∧
        (∀ j, fills (s.stage j) → degradeTerm s r ≤ rateOf (s.stage j)) ∧
        ((∃ j, fills (s.stage j)) → ∃ j, fills (s.stage j) ∧ degradeTerm s r = rateOf (s.stage j))) ∧
      blindTerm s r = (if s.instruments.hose.blind then t.cb else baseRate s r)

/-- R67, R68, R72, R74, a recomputation: P and the limiting term take their computed values; outside PUMPING nothing
else changes; in PUMPING a P below Rmin ends the step (the end decision of R69 with demand 0, delivery leaving PUMPING),
a P of at least Rmin below the demand lowers the demand to P, and otherwise nothing else changes. -/
def Obligations.RecomputationActsOnDemand : Prop :=
  ∀ s : State,
    (recompute s).governor.permitted = permittedRate s ∧ (recompute s).governor.term = limitingTerm s ∧
      (s.ret.delivery ≠ .pumping → recompute s = s.rated) ∧
      (s.ret.delivery = .pumping → permittedRate s < s.ret.settings.rmin →
        recompute s = enterRundown { s.rated with controller.stopCause := s.ret.active.map (endCauseNow s) } ∧
          (recompute s).ret.delivery ≠ .pumping ∧ (recompute s).governor.demand = 0) ∧
      (s.ret.delivery = .pumping → s.ret.settings.rmin ≤ permittedRate s → permittedRate s < s.governor.demand →
        (recompute s).governor.demand = permittedRate s ∧ (recompute s).ret = s.ret) ∧
      (s.ret.delivery = .pumping → s.ret.settings.rmin ≤ permittedRate s → s.governor.demand ≤ permittedRate s →
        recompute s = s.rated)

/-- R69, the end cause: QUANTITY when Rq is below Rmin; otherwise TOPPED with the lowest tank of the step whose tank rate
or fill stage rate is below Rmin; otherwise TOPPED with the tank of the first entry. -/
def Obligations.EndCauseNamesTank : Prop :=
  ∀ (s : State) (r : Step),
    let low (e : TankEntry) : Prop :=
      tankRate s e < s.ret.settings.rmin ∨ ∃ n, tankStageRate s r e.tank = some n ∧ n < s.ret.settings.rmin
    (quantityTerm s r < s.ret.settings.rmin → endCauseNow s r = .quantity) ∧
    (s.ret.settings.rmin ≤ quantityTerm s r → (∃ e ∈ r.tanks, low e) →
      ∃ e ∈ r.tanks, low e ∧ endCauseNow s r = .topped e.tank ∧ ∀ e' ∈ r.tanks, low e' → e.tank ≤ e'.tank) ∧
    ∀ (e : TankEntry) (rest : List TankEntry), r.tanks = e :: rest → s.ret.settings.rmin ≤ quantityTerm s r →
      (∀ e' ∈ r.tanks, ¬low e') → endCauseNow s r = .topped e.tank

/-- R73, a ramp second in PUMPING: the timer restarts at 10 ticks and the demand rises by U up to P, stays while no-rise
is set, and becomes P where P is not above it; the no-flow detector sees the new demand (R136). A timer that has not
expired is no event (log 3). -/
def Obligations.RampSecondMovesDemand : Prop :=
  ∀ s : State, s.running = true →
    (s.ret.delivery = .pumping → s.governor.ramp = some 0 →
      let demand :=
        if s.governor.permitted ≤ s.governor.demand then s.governor.permitted
        else if s.governor.noRise then s.governor.demand
        else min s.governor.permitted (s.governor.demand + s.ret.settings.u)
      exec .rampSecond s = .next { s.noted with
        governor.ramp := some 10, governor.demand := demand,
        meter.noFlow :=
          if s.meter.rate < demand / 4 then
            match s.meter.noFlow with
            | .quiet => .timing (10 * s.ret.settings.noFlow)
            | .timing n => .timing n
          else .quiet }) ∧
    (s.ret.delivery ≠ .pumping ∨ s.governor.ramp ≠ some 0 → exec .rampSecond s = .next s)

/-! ### Chapter 04: step execution -/

/-- R85, START from BARGE, its checks in their order: the first that fails gives the code, and nothing changes. R86, R20:
with none failing, the candidate (the head of AGREED from IDLE, the step in the slot from HELD) is ARMED: from IDLE it
enters the slot, its number leaves the lapsed set, the confirm timer starts, P is computed, STEPSTATE and then STARTREQ
go out, and the reply carries its number. -/
def Obligations.StartArmsStep : Prop :=
  (∀ (s : State) (tag : Byte), s.canTake .barge .startStep →
      let refuses (res : Result) : Prop := exec (.startStep .barge tag) s = .next (s.refused .barge .startStep tag res)
      let idle := s.ret.delivery = .idle
      let named : Option Step := if s.ret.delivery = .idle then s.ret.agreed.head? else s.ret.active
      (s.ret.transfer.state ≠ .joined → refuses .wrongState) ∧
      (s.ret.transfer.state = .joined → s.ret.holds ≠ [] → refuses .held) ∧
      (s.ret.transfer.state = .joined → s.ret.holds = [] → ¬idle → s.ret.delivery ≠ .held → refuses .busy) ∧
      (s.ret.transfer.state = .joined → s.ret.holds = [] → idle → s.ret.agreed = [] → refuses .noStep) ∧
      ∀ r, s.ret.transfer.state = .joined → s.ret.holds = [] → idle ∨ s.ret.delivery = .held → named = some r →
        let gauged : Prop := ∀ e ∈ r.tanks, (s.tank e.tank).status = .fresh ∨ (s.tank e.tank).status = .stale
        let permits : Prop := ∀ n : Fin 6, (s.lineConfig n).function = .permit → (s.line n).active = true
        (¬gauged → refuses .noGauge) ∧ (gauged → ¬permits → refuses .noPermit) ∧
        (gauged → permits → (s.link .ship).state ≠ .up → refuses .noLink) ∧
        (gauged → permits → (s.link .ship).state = .up → s.valve ≠ .closed → refuses .busy)) ∧
    ∀ (s : State) (tag : Byte) (r : Step), s.canTake .barge .startStep → s.ret.transfer.state = .joined →
      s.ret.holds = [] → (s.link .ship).state = .up → s.valve = .closed →
      (∀ n : Fin 6, (s.lineConfig n).function = .permit → (s.line n).active = true) →
      (∀ e ∈ r.tanks, (s.tank e.tank).status = .fresh ∨ (s.tank e.tank).status = .stale) →
      let confirm := s.ret.settings.confirm
      let armed (u : State) (origin : ArmedFrom) : State := { u with
        ret.delivery := .armed, ret.lapsed := s.ret.lapsed.filter fun n => n != r.number,
        controller.armedFrom := some origin, controller.confirm := some (10 * confirm), governor.demand := 0,
        governor.ramp := none, meter.noFlow := .quiet }
      let notices (origin : DeliveryState) : List Notice :=
        [stepStateNotice r.number origin .armed none none none r.delivered, startReqNotice r origin confirm]
      (∀ rest, s.ret.delivery = .idle → s.ret.agreed = r :: rest →
        exec (.startStep .barge tag) s =
          .next ((armed { s.opened .barge with ret.agreed := rest, ret.active := some r } .idle).rated.answered
            .barge .startStep tag .ok [oct r.number] (notices .idle))) ∧
      (s.ret.delivery = .held → s.ret.active = some r →
        exec (.startStep .barge tag) s =
          .next ((armed (s.opened .barge) .held).rated.answered .barge .startStep tag .ok [oct r.number] (notices .held)))

/-- R87, R91, R22, LINED from SHIP: for the armed step it is OK, the confirm timer and armed-from are gone, the start time
is set if it was absent, delivery becomes OPENING and the valve is commanded open with the stroke timer at TOPEN; a number
in the lapsed set is LATE, any other case WRONG-STATE, and neither changes anything. R165, each PERMIT line that is not active
then raises its hold at PAUSE, in ascending line number, in the same event. R91, with every PERMIT line active and the valve
already standing OPEN, no stroke is timed and PUMPING is entered in the same event; that the raises come before this check is
deduced (log 15). The entry is stated first where nothing follows it, then whole. -/
def Obligations.LinedOpensValve : Prop :=
  (∀ (s : State) (tag number : Byte) (r : Step), s.canTake .ship .lined → s.ret.delivery = .armed →
      s.ret.active = some r → r.number = number.toNat → s.controller.command = .closed →
      (s.controller.openLimit = false ∨ s.controller.closedLimit = true) →
      (∀ n : Fin 6, (s.lineConfig n).function = .permit → (s.line n).active = true) →
      exec (.lined .ship tag number) s =
        .next (({ s.opened .ship with
            ret.delivery := .opening,
            ret.active := some { r with startTime := some (r.startTime.getD s.ret.transfer.clock) },
            controller.confirm := none, controller.armedFrom := none, controller.command := .opened,
            controller.stroke := some (10 * s.ret.settings.topen), governor.demand := 0, governor.ramp := none,
            meter.noFlow := .quiet } : State).answered .ship .lined tag .ok []
          [stepStateNotice r.number .armed .opening none none none r.delivered])) ∧
    (∀ (s : State) (tag number : Byte), s.canTake .ship .lined →
      (∀ r, s.ret.delivery = .armed → s.ret.active = some r → r.number ≠ number.toNat) →
      exec (.lined .ship tag number) s = .next (s.refused .ship .lined tag
        (if number.toNat ∈ s.ret.lapsed then .late else .wrongState))) ∧
    ∀ (s : State) (tag number : Byte) (r : Step), s.canTake .ship .lined → s.ret.delivery = .armed →
      s.ret.active = some r → r.number = number.toNat → s.controller.command = .closed →
      let standsOpen := s.controller.openLimit && !s.controller.closedLimit
      let missing : List (Fin 6) := [0, 1, 2, 3, 4, 5].filter fun n =>
        decide ((s.lineConfig n).function = .permit) && !(s.line n).active
      let opening : Event := (s.opened .ship).begin.mod fun u => { u with
        ret.delivery := .opening,
        ret.active := some { r with startTime := some (r.startTime.getD s.ret.transfer.clock) },
        controller.confirm := none, controller.armedFrom := none, controller.command := .opened,
        controller.stroke := if standsOpen then none else some (10 * s.ret.settings.topen),
        governor.demand := 0, governor.ramp := none, meter.noFlow := .quiet }
      exec (.lined .ship tag number) s = .next
        ((if missing = [] then (if standsOpen then opening.mod enterPumping else opening)
          else missing.foldl (fun e n => raiseHold (.line n) .pause (.line .permit .edge) e) opening).reply .ship
          (replyFrame .lined tag .ok []))

/-- R99, R93, R94, STOP from BARGE or SHIP: ARMED cancels the arming, OPENING goes to CLOSING and PUMPING to RUNDOWN (to
CLOSING when RUNDOWN is 0) with stop cause STOPPED and the station; elsewhere it is UNCHANGED. -/
def Obligations.StopStopsDelivery : Prop :=
  ∀ (s : State) (link : Station) (tag : Byte), s.canTake link .stopStep →
    let began := (s.opened link).begin
    let ok := replyFrame .stopStep tag .ok []
    let fixed (u : State) : State := { u with controller.stopCause := some (.stopped link) }
    exec (.stopStep link tag) s = .next
      (match s.ret.delivery with
      | .armed => (endArming (.stopped link) began).reply link ok
      | .opening => (began.mod fun u => enterClosing (fixed u)).reply link ok
      | .pumping => (began.mod fun u => enterRundown (fixed u)).reply link ok
      | .idle | .rundown | .closing | .settling | .held => s.refused link .stopStep tag .unchanged)

/-- R21, R88 to R90, the end of an arming, whoever ends it: the confirm timer and armed-from are gone and the step's
number is in the lapsed set; a step armed from IDLE returns to the head of AGREED with delivery IDLE and P 0, one armed
from HELD stays in the slot, its record unchanged, with delivery HELD; STARTEXPIRED says which. R82, R94, R96, R97, R72,
the entries of a stop. CLOSING: the rundown timer stops, the valve is commanded closed with the stroke timer at TCLOSE, the
demand is 0; a valve already CLOSED passes on to SETTLING with the settle timer at SETTLE. RUNDOWN: the command stands, the
rundown timer runs from RUNDOWN, the demand is 0; a RUNDOWN of 0 passes on to CLOSING. R98: SETTLING starts its timer from
SETTLE. R71, R92, the entry to PUMPING: the stroke timer stops, the demand is Rmin, the ramp timer runs from 10 ticks, the
no-flow detector sees the new demand (R136), and a P below Rmin ends the step at once. -/
def Obligations.ArmingAndStopEnterStates : Prop :=
  (∀ (e : Event) (how : ArmingEnd) (r : Step), e.s.ret.active = some r →
     let lapsed := (endArming how e).s.ret.lapsed
     (∀ n, n ∈ lapsed ↔ n = r.number ∨ n ∈ e.s.ret.lapsed) ∧
     (e.s.controller.armedFrom = some .idle →
       endArming how e = { e with
         s := { e.s with
           ret.active := none, ret.agreed := r :: e.s.ret.agreed, ret.delivery := .idle, ret.lapsed := lapsed,
           controller.confirm := none, controller.armedFrom := none, meter.noFlow := .quiet,
           governor := { permitted := 0, term := .none, demand := 0, noRise := e.s.governor.noRise, ramp := none } },
         moved := some r, arming := some (startExpiredNotice r.number how false) }) ∧
     (e.s.controller.armedFrom = some .held →
       endArming how e = { e with
         s := { e.s with
           ret.delivery := .held, ret.lapsed := lapsed, controller.confirm := none, controller.armedFrom := none,
           meter.noFlow := .quiet, governor.demand := 0, governor.ramp := none },
         arming := some (startExpiredNotice r.number how true) })) ∧
  (∀ s : State,
     let quiet (d : DeliveryState) (u : State) : State :=
       { u with ret.delivery := d, governor.demand := 0, governor.ramp := none, meter.noFlow := .quiet }
     let shut : State := { s with controller.rundown := none, controller.command := .closed }
     let stroke := if s.controller.command = .opened then some (10 * s.ret.settings.tclose) else s.controller.stroke
     let pump : State := { s with
       ret.delivery := .pumping, controller.stroke := none, governor.demand := s.ret.settings.rmin,
       governor.ramp := some 10,
       meter.noFlow :=
         if s.meter.rate < s.ret.settings.rmin / 4 then
           match s.meter.noFlow with
           | .quiet => .timing (10 * s.ret.settings.noFlow)
           | .timing n => .timing n
         else .quiet }
     (shut.valve ≠ .closed → enterClosing s = quiet .closing { shut with controller.stroke := stroke }) ∧
     (shut.valve = .closed →
       enterClosing s = quiet .settling { shut with
         controller.stroke := if s.controller.command = .opened then none else s.controller.stroke,
         controller.settle := some (10 * s.ret.settings.settle) }) ∧
     (s.ret.settings.rundown ≠ 0 →
       enterRundown s = quiet .rundown { s with controller.rundown := some (10 * s.ret.settings.rundown) }) ∧
     (s.ret.settings.rundown = 0 → enterRundown s = enterClosing s) ∧
     enterSettling s = quiet .settling { s with controller.settle := some (10 * s.ret.settings.settle) } ∧
     (s.ret.settings.rmin ≤ s.governor.permitted → enterPumping s = pump) ∧
     (s.governor.permitted < s.ret.settings.rmin → enterPumping s =
       enterRundown { pump with controller.stopCause := s.ret.active.map (endCauseNow s) }))

/-- R88, R96, R98, R23, R22, the delivery timers' expiries: in ARMED the confirm timer ends the arming as EXPIRED; in
RUNDOWN the rundown timer takes delivery to CLOSING; in SETTLING the settle timer completes a QUANTITY or TOPPED step (to
the tail of DONE, one more finished step in its grade, IDLE) and holds a STOPPED or HOLD step (hold count one more, last
stop cause set, HELD), and the stop cause is discarded. A timer that has not expired is no event (log 3). -/
def Obligations.DeliveryTimersExpire : Prop :=
  (∀ s : State, s.running = true →
      (s.ret.delivery = .armed → s.controller.confirm = some 0 →
        exec .confirmExpiry s = .next (endArming .expired s.begin).finish) ∧
      (s.ret.delivery = .rundown → s.controller.rundown = some 0 →
        exec .rundownExpiry s = .next (s.begin.mod enterClosing).finish) ∧
      (s.ret.delivery ≠ .armed ∨ s.controller.confirm ≠ some 0 → exec .confirmExpiry s = .next s) ∧
      (s.ret.delivery ≠ .rundown ∨ s.controller.rundown ≠ some 0 → exec .rundownExpiry s = .next s) ∧
      (s.ret.delivery ≠ .settling ∨ s.controller.settle ≠ some 0 → exec .settleExpiry s = .next s)) ∧
    ∀ (s : State) (r : Step) (cause : StopCause), s.running = true → s.ret.delivery = .settling →
      s.controller.settle = some 0 → s.ret.active = some r → s.controller.stopCause = some cause →
      let still : State := { s.noted with
        controller.settle := none, controller.stopCause := none, governor.demand := 0, governor.ramp := none,
        meter.noFlow := .quiet }
      let done (end_ : EndCause) : State :=
        ({ still with
          ret.active := none, ret.delivery := .idle,
          ret.done := s.ret.done ++ [{ r with endCause := some end_, endTime := some s.ret.transfer.clock }],
          ret.totals := s.ret.totals.set r.grade { s.ret.totals[r.grade] with
            steps := min (s.ret.totals[r.grade].steps + 1) 255 },
          governor.permitted := 0, governor.term := .none } : State).postAll
          [stepStateNotice r.number .settling .idle none (some end_) none r.delivered]
      let held (last : LastStop) : State :=
        ({ still with
          ret.delivery := .held,
          ret.active := some { r with holdCount := min (r.holdCount + 1) 255, lastStop := some last } } : State).postAll
          [stepStateNotice r.number .settling .held none none (some last) r.delivered]
      exec .settleExpiry s = .next
        (match cause with
        | .quantity => done .quantity
        | .topped tank => done (.topped tank)
        | .stopped station => held (.stopped station)
        | .hold source => held (.hold source))

/-- R81 to R84, R92, R97, R182, a limit switch changes: 5 mA and above asserts it, 2 mA and below does not, a current
between leaves it as sensed. The valve state follows R81 and the stroke timer R82; becoming JAMMED and losing the open
limit with the command OPEN raise VALVE at TRIP; the open end in OPENING enters PUMPING, the closed end in CLOSING
SETTLING. That a current which does not change the sensed switch is no event is the model's choice (log 25). -/
def Obligations.LimitSwitchMovesValve : Prop :=
  (∀ s : State, s.valve =
    match s.controller.closedLimit, s.controller.openLimit, s.controller.command with
    | true, true, _ => .jammed
    | true, false, .opened => .opening
    | false, false, .opened => .opening
    | false, true, .opened => .opened
    | false, true, .closed => .closing
    | false, false, .closed => .closing
    | true, false, .closed => .closed) ∧
  ∀ (s : State) (w : LimitSwitch) (current : Nat), s.running = true →
    let was := match w with
      | .openLimit => s.controller.openLimit
      | .closedLimit => s.controller.closedLimit
    let on := if 5000 ≤ current then true else if current ≤ 2000 then false else was
    let moved : State := match w with
      | .openLimit => { s with controller.openLimit := on }
      | .closedLimit => { s with controller.closedLimit := on }
    let old := s.valve
    let new := moved.valve
    let stroke : Option Nat :=
      if new = .opened ∧ s.controller.command = .opened ∨ new = .closed ∧ s.controller.command = .closed then none
      else if old = .closed ∧ s.controller.stroke = none ∧ s.controller.command = .closed ∧ new ≠ .closed then
        some (10 * s.ret.settings.tclose)
      else s.controller.stroke
    let began := s.begin.mod fun u => { u with controller := { moved.controller with stroke := stroke } }
    (on = was → exec (.limitSwitchChange w current) s = .next s) ∧
    (on ≠ was →
      (new = .jammed → exec (.limitSwitchChange w current) s =
        .next (raiseHold .valve .trip .bothLimits began).finish) ∧
      (old = .opened → s.controller.command = .opened → new = .opening → exec (.limitSwitchChange w current) s =
        .next (raiseHold .valve .trip .drift began).finish) ∧
      (new = .opened → old ≠ .opened → s.ret.delivery = .opening → exec (.limitSwitchChange w current) s =
        .next (began.mod enterPumping).finish) ∧
      (new = .closed → old ≠ .closed → s.ret.delivery = .closing → exec (.limitSwitchChange w current) s =
        .next (began.mod enterSettling).finish) ∧
      (new ≠ .jammed → ¬(old = .opened ∧ s.controller.command = .opened) →
        ¬(new = .opened ∧ s.ret.delivery = .opening) → ¬(new = .closed ∧ s.ret.delivery = .closing) →
        exec (.limitSwitchChange w current) s = .next began.finish))

/-- R82, R137, R139, the timers whose expiry raises: the stroke timer stops and raises VALVE at TRIP, NO-OPEN under the
command OPEN and NO-CLOSE under CLOSED; the no-flow timer returns its detector to QUIET and raises METER at PAUSE, NO-FLOW;
the overspeed timer leaves its detector LATCHED and raises METER at TRIP, OVERSPEED. A timer that has not expired is no
event (log 3). -/
def Obligations.TimersRaiseHolds : Prop :=
  ∀ s : State, s.running = true →
    (s.controller.stroke = some 0 → exec .strokeTimerExpiry s =
      .next (raiseHold .valve .trip (match s.controller.command with | .opened => .noOpen | .closed => .noClose)
        (s.begin.mod fun u => { u with controller.stroke := none })).finish) ∧
    (s.meter.noFlow = .timing 0 → exec .noFlowExpiry s =
      .next (raiseHold .meter .pause .noFlow (s.begin.mod fun u => { u with meter.noFlow := .quiet })).finish) ∧
    (s.meter.overspeed = .timing 0 → exec .overspeedExpiry s =
      .next (raiseHold .meter .trip .overspeed (s.begin.mod fun u => { u with meter.overspeed := .latched })).finish) ∧
    (s.controller.stroke ≠ some 0 → exec .strokeTimerExpiry s = .next s) ∧
    (s.meter.noFlow ≠ .timing 0 → exec .noFlowExpiry s = .next s) ∧
    (s.meter.overspeed ≠ .timing 0 → exec .overspeedExpiry s = .next s)

/-! ### Chapter 05: holds and the stop loop -/

/-- R103 to R105, R107, R119, R121, what a raise does to the list: a source without an entry appends one at the tail with
its class and reason, the clock and repeat count 0; one with an entry counts a repeat, takes the reason, and escalates a
PAUSE entry by TRIP, in its place; the other entries keep theirs; loop OUT is open exactly while a TRIP entry other than
LOOP stands; and HOLDRAISED of the right kind follows the notices already raised. -/
def Obligations.RaiseChangesList : Prop :=
  ∀ (src : HoldSource) (cls : HoldClass) (reason : HoldReason) (e : Event),
    let new := (raiseHold src cls reason e).s
    let raised (entry : HoldEntry) (kind : RaiseKind) : Prop :=
      (raiseHold src cls reason e).notes = e.notes ++ [holdRaisedNotice entry kind new.ret.holds new.loop.loopOut]
    (new.loop.loopOut = .opened ↔ ∃ h ∈ new.ret.holds, h.cls = .trip ∧ h.source ≠ .loop) ∧
    ((∀ h ∈ e.s.ret.holds, h.source ≠ src) →
      let entry : HoldEntry :=
        { source := src, cls := cls, reason := reason, time := e.s.ret.transfer.clock, repeats := 0 }
      new.ret.holds = e.s.ret.holds ++ [entry] ∧ raised entry .new) ∧
    ∀ (before after : List HoldEntry) (h : HoldEntry), e.s.ret.holds = before ++ h :: after → h.source = src →
      (∀ k ∈ before ++ after, k.source ≠ src) →
      let entry : HoldEntry := { h with
        repeats := min (h.repeats + 1) 255, reason := reason, cls := if h.cls = .trip then .trip else cls }
      new.ret.holds = before ++ entry :: after ∧ raised entry (if h.cls = entry.cls then .again else .escalated)

/-- R95, R93, R89, R107, what a raise does to delivery, by the delivery state and the entry's class after the raise, and with it
the whole of the event: the list and loop OUT first, then delivery, then HOLDRAISED behind the notices already raised. Nothing
in IDLE, HELD, CLOSING and SETTLING; ARMED ends the arming, with STARTEXPIRED of cause HOLD for later in the event and, from
IDLE, the record that left the slot for the STEPSTATE; OPENING goes to CLOSING and PUMPING to RUNDOWN (PAUSE) or CLOSING
(TRIP) with stop cause HOLD and the source; in RUNDOWN a PAUSE does nothing and a TRIP goes to CLOSING with the cause as
it was. -/
def Obligations.RaiseReachesDelivery : Prop :=
  ∀ (src : HoldSource) (cls : HoldClass) (reason : HoldReason) (e : Event),
    let listed : Event := { e with s := { e.s with
      ret.holds := raisedList e.s src cls reason, loop.loopOut := loopOutOf (raisedList e.s src cls reason) } }
    let fixed : State := { listed.s with controller.stopCause := some (.hold src) }
    let becomes : HoldClass := (raisedEntry e.s src cls reason).cls
    let reached : Event :=
      match e.s.ret.delivery, becomes with
      | .idle, _ | .held, _ | .closing, _ | .settling, _ | .rundown, .pause => listed
      | .armed, _ => endArming (.hold src) listed
      | .opening, _ | .pumping, .trip => { listed with s := enterClosing fixed }
      | .pumping, .pause => { listed with s := enterRundown fixed }
      | .rundown, .trip => { listed with s := enterClosing listed.s }
    raiseHold src cls reason e = { reached with notes := e.notes ++ [e.s.raisedNotice src cls reason] } ∧
      (becomes = .trip ↔ cls = .trip ∨ ∃ h, e.s.ret.holds.find? (fun k => decide (k.source = src)) = some h ∧
        h.cls = .trip) ∧
      ∀ r : Step, e.s.ret.delivery = .armed → e.s.ret.active = some r →
        (e.s.controller.armedFrom = some .idle →
          (raiseHold src cls reason e).arming = some (startExpiredNotice r.number (.hold src) false) ∧
            (raiseHold src cls reason e).moved = some r) ∧
        (e.s.controller.armedFrom = some .held →
          (raiseHold src cls reason e).arming = some (startExpiredNotice r.number (.hold src) true) ∧
            (raiseHold src cls reason e).moved = e.moved)

/-- R108, R109, R187, the station holds: HOLD raises the requester's own source with its class and operator reason and is
answered OK, and a class that is neither PAUSE nor TRIP is RANGE; the halt octet raises the link's station hold at TRIP
with reason HALT, without a reply, and returns the receiver to HUNT with any frame in progress forgotten and not
counted. -/
def Obligations.StationHoldsRaise : Prop :=
  ∀ (link : Station) (s : State),
    (∀ tag reason cls, s.canTake link .hold →
      exec (.hold link tag (classCode cls) reason) s =
        .next ((raiseHold (stationSource link) cls (.operator reason) (s.opened link).begin).reply link
          (replyFrame .hold tag .ok []))) ∧
    (∀ tag cls reason, s.canTake link .hold → cls ≠ 0#8 → cls ≠ 1#8 →
      exec (.hold link tag cls reason) s = .next (s.refused link .hold tag .range)) ∧
    (s.running = true → exec (.halt link) s =
      .next (raiseHold (stationSource link) .trip .halt (s.begin.mod fun u => u.setLink link
        { u.link link with
          receiver := .hunt, escape := false, frameLength := 0, frameOctets := [], checkLow := 0#8 })).finish)

/-- R114, R115, R117, R122, RELEASE and CLEAR in the order of their checks: a source that is no station hold (for RELEASE)
or is one (for CLEAR) is RANGE, another station's hold or one the sender is no clearer of NOT-OWNER, a source without an
entry UNCHANGED, and a CLEAR while the condition is present PERSISTS; accepted, the entry leaves the list, loop OUT is
re-derived, HOLDCLEARED goes to all, and delivery is not touched. The clearers by R115 and R116, a LINE source's by the function
in its entry's reason; a LINE source without an entry turns no station away, so that its CLEAR is UNCHANGED (log 28). The
conditions by R113 and R47: a link not UP, loop IN OPEN, a LEVEL line ACTIVE, a tank over its trip volume or a LOST tank of the
step, a warned pressure or tension role, a valve not CLOSED; a station hold, METER and POWER have none. -/
def Obligations.ReleaseAndClearRemoveEntry : Prop :=
  (∀ (s : State) (link : Station) (tag : Byte) (src : HoldSource),
    let rest := s.ret.holds.filter fun h => decide (h.source ≠ src)
    let removed (type : RequestType) : State :=
      ({ s.opened link with ret.holds := rest, loop.loopOut := loopOutOf rest } : State).answered link type tag .ok []
        [holdClearedNotice src link rest (loopOutOf rest)]
    (s.canTake link .release →
      exec (.release link tag (sourceCode src)) s = .next
        (match src with
        | .barge | .ship | .survey =>
          if src ≠ stationSource link then s.refused link .release tag .notOwner
          else if ∀ h ∈ s.ret.holds, h.source ≠ src then s.refused link .release tag .unchanged
          else removed .release
        | _ => s.refused link .release tag .range)) ∧
    (s.canTake link .clear →
      exec (.clear link tag (sourceCode src)) s = .next
        (match src with
        | .barge | .ship | .survey => s.refused link .clear tag .range
        | _ =>
          if notClearer s.ret.holds src link then s.refused link .clear tag .notOwner
          else
            match findHold s.ret.holds src with
            | none => s.refused link .clear tag .unchanged
            | some h =>
              if conditionPresent (s.opened link) h then s.refused link .clear tag .persists else removed .clear)) ∧
    ∀ code : Byte, code.toNat = 0 ∨ 18 < code.toNat →
      (s.canTake link .release → exec (.release link tag code) s = .next (s.refused link .release tag .range)) ∧
      (s.canTake link .clear → exec (.clear link tag code) s = .next (s.refused link .clear tag .range))) ∧
  (∀ (l : List HoldEntry) (link : Station),
    (∀ n h f trigger, findHold l (.line n) = some h → h.reason = .line f trigger →
      (notClearer l (.line n) link = false ↔
        f = .levelSwitch ∧ link = .ship ∨ (f ≠ .levelSwitch ∧ f ≠ .unused) ∧ link = .barge)) ∧
    (∀ n, findHold l (.line n) = none → notClearer l (.line n) link = false) ∧
    ∀ src, (∀ n, src ≠ .line n) → (notClearer l src link = false ↔
      match src with
      | .ship | .linkShip | .overfill => link = .ship
      | .survey => link = .survey
      | .loop => link = .barge ∨ link = .ship
      | _ => link = .barge)) ∧
  ∀ (s : State) (h : HoldEntry), conditionPresent s h = true ↔
    match h.source with
    | .barge | .ship | .survey | .meter | .power => False
    | .linkBarge => s.links.barge.state ≠ .up
    | .linkShip => s.links.ship.state ≠ .up
    | .loop => s.loop.loopIn = .opened
    | .line n => (∃ f, h.reason = .line f .level) ∧ (s.line n).active = true
    | .overfill => ∃ i : Fin 8, (s.tank i).definition ≠ none ∧ (s.tank i).overTrip = true ∨
        (s.tank i).status = .lost ∧ ∃ r, s.ret.active = some r ∧ ∃ e ∈ r.tanks, e.tank = i
    | .pressure => s.instruments.hose.warned = true ∨ s.instruments.manifold.warned = true
    | .tension => s.instruments.tension.warned = true
    | .valve => s.valve ≠ .closed

/-- R111, R112, R182, loop IN: 12 mA and above is sensed CLOSED, 6 mA and below OPEN, a current between leaves it as last
sensed; a raw state equal to the debounced one returns the count to 0; a debounce complete at 2 ticks lets the debounced
state follow, and a change to OPEN raises LOOP at TRIP; an incomplete debounce is no event (log 3). A debounce that is
complete and whose command has not been taken is taken before a raw change, as a change at its tick (log 3). That a raw change
whose current changes nothing sensed is still an event is the model's choice (log 25). -/
def Obligations.LoopInIsDebounced : Prop :=
  ∀ s : State, s.running = true →
    let due : Prop := s.loop.rawIn ≠ s.loop.loopIn ∧ 2 ≤ s.loop.count
    let followed := s.begin.mod fun u => { u with loop.loopIn := s.loop.rawIn, loop.count := 0 }
    let settled : State :=
      if s.loop.rawIn = .opened then (raiseHold .loop .trip .opened followed).finish else followed.finish
    (∀ current : Nat,
      let raw : LoopState := if 12000 ≤ current then .closed else if current ≤ 6000 then .opened else s.loop.rawIn
      (¬due → exec (.loopInRawChange current) s = .next { s.noted with
        loop.rawIn := raw, loop.count := if raw = s.loop.loopIn then 0 else s.loop.count }) ∧
      (due → exec (.loopInRawChange current) s = exec (.loopInRawChange current) settled)) ∧
    (due → exec .loopInDebounceComplete s = .next settled) ∧
    (¬due → exec .loopInDebounceComplete s = .next s)

/-- R188 to R191, R110, the silence timer of an UP link expires: the link is LOST, its timer stops, its queue is emptied
and notices-lost is set if a frame was removed; while delivery is ARMED, OPENING, PUMPING or RUNDOWN link A raises
LINK-BARGE at PAUSE and link B LINK-SHIP at TRIP. A timer that has not expired is no event (log 3). -/
def Obligations.SilenceLosesLink : Prop :=
  ∀ (s : State) (link : Station), s.running = true →
    let lost := s.begin.mod fun u => u.setLink link
      { s.link link with
        state := .lost, silence := none, queue := [],
        noticesLost := (s.link link).noticesLost || !(s.link link).queue.isEmpty }
    ((s.link link).state = .up → (s.link link).silence = some 0 →
      exec (.silenceExpiry link) s = .next
        (if s.ret.delivery matches .armed | .opening | .pumping | .rundown then
          match link with
          | .barge => (raiseHold .linkBarge .pause .lost lost).finish
          | .ship => (raiseHold .linkShip .trip .lost lost).finish
          | .survey => lost.finish
        else lost.finish)) ∧
    ((s.link link).state ≠ .up ∨ (s.link link).silence ≠ some 0 → exec (.silenceExpiry link) s = .next s)

/-! ### Chapter 06: the meter and the tally -/

/-- R129 to R132, R39, R40, a meter pulse of W litres: the filling bin takes it in every state, up to 65,535. In VACANT, or
where metered litres would pass four octets, nothing else happens. In IDLE, ARMED and HELD it goes to the unassigned total,
with CREEP to BARGE and SURVEY at each multiple of 100 reached. In the crediting states it goes to the step, its grade's
total, its tank credits and from these to the tanks; the tanks whose credit changed are evaluated and P is recomputed. That a
tank's credit since its report stops at 4,294,967,295 is deduced from its range (log 20). -/
def Obligations.MeterPulseIsCounted : Prop :=
  ∀ s : State, s.running = true →
    let w := s.ret.settings.weight
    let m := s.ret
    let binned : State := { s.noted with meter.bin := min (s.meter.bin + w) 65535 }
    (m.transfer.state = .vacant ∨ 4294967295 < m.metered + w → exec .meterPulse s = .next binned) ∧
    (m.transfer.state ≠ .vacant → m.metered + w ≤ 4294967295 →
      (m.delivery = .idle ∨ m.delivery = .armed ∨ m.delivery = .held →
        exec .meterPulse s = .next
          (({ binned with ret.metered := m.metered + w, ret.unassigned := m.unassigned + w } : State).postAll
            (if m.unassigned / 100 < (m.unassigned + w) / 100 then
              [creepNotice (m.unassigned + w) (m.metered + w) m.transfer.state m.delivery
                ((m.active.map Step.number).getD 0)]
            else []))) ∧
      ∀ r : Step, m.active = some r → (r.tanks.map TankEntry.tank).Nodup →
        m.delivery = .opening ∨ m.delivery = .pumping ∨ m.delivery = .rundown ∨ m.delivery = .closing ∨
          m.delivery = .settling →
        let credits := splitCredits (r.delivered + w) r.tanks
        ∃ tanks : Vector Tank 8,
          (∀ i : Fin 8, tanks[i] =
            match (r.tanks.zip credits).find? fun p => decide (p.1.tank = i) with
            | none => s.tank i
            | some p =>
              if (s.tank i).contents = none then s.tank i
              else { s.tank i with
                      credited :=
                        if p.1.credit ≤ p.2.credit then min ((s.tank i).credited + (p.2.credit - p.1.credit)) 4294967295
                        else (s.tank i).credited - (p.1.credit - p.2.credit) }) ∧
          exec .meterPulse s = .next
            ((evalTanks (fun i => (r.tanks.zip credits).any fun p => decide (p.1.tank = i ∧ p.1.credit ≠ p.2.credit))
                { s.begin with
                  s := { binned with
                    ret.metered := m.metered + w,
                    ret.active := some { r with delivered := r.delivered + w, tanks := credits },
                    ret.totals := m.totals.set r.grade { m.totals[r.grade] with
                      litres := m.totals[r.grade].litres + w },
                    ret.tanks := tanks } }).mod recompute).finish)

/-- R39, the share split: from the second entry on each credit is the floor of D times its share over 100, the first entry
takes the rest, and so the credits of a list whose shares sum to 100 sum to D. -/
def Obligations.SharesAccountForDelivered : Prop :=
  ∀ (delivered : Nat) (first : TankEntry) (rest : List TankEntry),
    let others := rest.map fun e => { e with credit := delivered * e.share / 100 }
    splitCredits delivered (first :: rest) =
        { first with credit := delivered - (others.map TankEntry.credit).sum } :: others ∧
      (((first :: rest).map TankEntry.share).sum = 100 →
        ((splitCredits delivered (first :: rest)).map TankEntry.credit).sum = delivered)

/-- R134, R96, R136, R138, a rate second: the filling bin joins the window, a new bin begins, the measured rate is the
floor of the window's litres times 18 over 25, up to 65,535, and the timer restarts at 10 ticks; a rate below Rmin ends
RUNDOWN, and both detectors are evaluated. A timer that has not expired is no event (log 3). -/
def Obligations.RateSecondMeasures : Prop :=
  ∀ s : State, s.running = true →
    let w := s.meter.window
    let rate := min ((w[1] + w[2] + w[3] + w[4] + s.meter.bin) * 18 / 25) 65535
    let measured (u : State) : State := { u with
      meter.window := #v[w[1], w[2], w[3], w[4], s.meter.bin], meter.bin := 0, meter.rate := rate, meter.rateTimer := 10 }
    let moved (u : State) : State :=
      if s.ret.delivery = .rundown ∧ rate < s.ret.settings.rmin then enterClosing (measured u) else measured u
    (s.meter.rateTimer = 0 →
      exec .rateSecond s = .next (s.begin.mod fun u => { moved u with
        meter.noFlow :=
          if s.ret.delivery = .pumping ∧ rate < s.governor.demand / 4 then
            match s.meter.noFlow with
            | .quiet => .timing (10 * s.ret.settings.noFlow)
            | .timing n => .timing n
          else .quiet,
        meter.overspeed :=
          if s.ret.settings.rmax * 5 / 4 < rate then
            match s.meter.overspeed with
            | .quiet => .timing 50
            | .timing n => .timing n
            | .latched => .latched
          else .quiet }).finish) ∧
    (s.meter.rateTimer ≠ 0 → exec .rateSecond s = .next s)

/-! ### Chapter 07: the hose instruments -/

/-- R146 to R149, the poll. An expiry of the poll cycle timer restarts it at the setting's ticks (3 and 2 in turn for 0.25 s)
and begins with the first enabled agent, also where a transaction is still under way (log 21). The end of a transaction adds
its outcome to the agent's history, derives its state from the last three, hands the roles on, and goes on to the next enabled
agent. No octet is NOREPLY. A reply of the agent's address, as many values as it has channels, low octet first, and a check
octet that brings the sum to 0 modulo 256 is GOOD, whatever octets follow it: it ends the transaction, and the agent takes the
value its channel use names, up to the top of its role's range, with age 0. Any other octets are BADCHECK and leave the value.
An outcome that a restart discards changes nothing. Nothing due is no event (log 3). -/
def Obligations.PollTakesTransactions : Prop :=
  ∀ s : State, s.running = true →
    let next (start : Nat) : Option (Fin 4) :=
      [(0 : Fin 4), 1, 2, 3].find? fun i => decide (start ≤ i.val) && (s.agentConfig i).enabled
    (s.instruments.pollTimer ≠ 0 → exec .pollCycleExpiry s = .next s) ∧
    (s.instruments.pollTimer = 0 →
      exec .pollCycleExpiry s = .next { s.noted with
        instruments.polling := next 0, instruments.discard := false,
        instruments.pollTimer :=
          match s.ret.settings.poll with
          | .quarter => if s.instruments.shortNext then 2 else 3
          | .half => 5
          | .one => 10
          | .two => 20
          | .four => 40,
        instruments.shortNext := decide (s.ret.settings.poll = .quarter) && !s.instruments.shortNext }) ∧
    (s.instruments.polling = none → ∀ reply, exec (.transactionEnd reply) s = .next s) ∧
    ∀ i : Fin 4, s.instruments.polling = some i →
      (s.instruments.discard = true → ∀ reply, exec (.transactionEnd reply) s = .next { s.noted with
        instruments.polling := next (i.val + 1), instruments.discard := false }) ∧
      (s.instruments.discard = false →
        let a := s.agent i
        let c := s.agentConfig i
        let ends (outcome : PollOutcome) (value : Option Nat) (age : Nat) : Host.Outcome State Fault Refusal :=
          let history := (outcome :: a.history).take 3
          let taken : AgentService :=
            { history := history,
              state :=
                if history.length < 3 then .unknown
                else if ∀ o ∈ history, o = .good then .present
                else if ∀ o ∈ history, o = .noReply then .absent
                else .suspect,
              value := value, age := age }
          .next ((handOnRoles i a.state c.role (s.begin.mod fun u => { u with
            instruments.agents := u.instruments.agents.set i taken })).mod fun u => { u with
            instruments.polling := next (i.val + 1), instruments.discard := false }).finish
        let good (value : Nat) : Host.Outcome State Fault Refusal := ends .good
          (some (match c.role with
            | none => value
            | some .tension => min value 2000
            | some .hosePressure | some .manifoldPressure => min value 4000)) 0
        let address := oct (i.val + 1)
        let sums (octets : List Byte) : Prop := (octets.foldl (fun n b => n + b.toNat) 0) % 256 = 0
        let one (reply : List Byte) : Prop := c.channels = 1 ∧ ∃ lo hi check rest,
          reply = address :: lo :: hi :: check :: rest ∧ sums [address, lo, hi, check]
        let two (reply : List Byte) : Prop := c.channels = 2 ∧ ∃ lo hi lo' hi' check rest,
          reply = address :: lo :: hi :: lo' :: hi' :: check :: rest ∧ sums [address, lo, hi, lo', hi', check]
        exec (.transactionEnd []) s = ends .noReply a.value a.age ∧
        (c.channels = 1 → ∀ (lo hi check : Byte) (rest : List Byte), sums [address, lo, hi, check] →
          exec (.transactionEnd (address :: lo :: hi :: check :: rest)) s = good (lo.toNat + 256 * hi.toNat)) ∧
        (c.channels = 2 → ∀ (lo hi lo' hi' check : Byte) (rest : List Byte), sums [address, lo, hi, lo', hi', check] →
          exec (.transactionEnd (address :: lo :: hi :: lo' :: hi' :: check :: rest)) s = good
            (match c.use with
            | .first => lo.toNat + 256 * hi.toNat
            | .second => lo'.toNat + 256 * hi'.toNat
            | .higher => max (lo.toNat + 256 * hi.toNat) (lo'.toNat + 256 * hi'.toNat))) ∧
        ∀ reply : List Byte, reply ≠ [] → ¬one reply → ¬two reply →
          exec (.transactionEnd reply) s = ends .badCheck a.value a.age)

/-- R150 to R154, R75, R51, R52, the roles derived afresh: a role's value is the highest among its enabled agents that are
PRESENT or SUSPECT with a value, its limits the lowest among these, it is blind while none of its enabled agents is PRESENT, and
its flags compare the value with the limits. Handed on in R153's order: each tripped flag that sets raises PRESSURE or TENSION at
TRIP with the role as reason, several in the order HOSE-PRESSURE, MANIFOLD-PRESSURE, TENSION (log 27); the stages on a role whose
value or blindness changed are evaluated, a blind role counting as engaged; no-rise follows the pressure roles' warned flags and P
is recomputed; then INSTRUMENT of kind AGENT where the agent's state changed, naming the role it had before (log 33), and of
kind LIMIT for each warned flag that crossed. -/
def Obligations.RolesFollowAgents : Prop :=
  ∀ (i : Fin 4) (prev : AgentState) (was : Option Role) (e : Event),
    let after := handOnRoles i prev was e
    let t := after.s
    let assigned (role : Role) (a : Fin 4) : Prop := (e.s.agentConfig a).enabled = true ∧ (e.s.agentConfig a).role = some role
    let live (role : Role) (a : Fin 4) (v : Nat) : Prop := assigned role a ∧
      ((e.s.agent a).state = .present ∨ (e.s.agent a).state = .suspect) ∧ (e.s.agent a).value = some v
    let roles : List Role := [.hosePressure, .manifoldPressure, .tension]
    let source : Role → HoldSource
      | .tension => .tension
      | .hosePressure | .manifoldPressure => .pressure
    let trips := roles.filter fun r => (t.instruments.role r).tripped && !(e.s.instruments.role r).tripped
    let turn := trips.foldl (fun (p : State × List Notice) r =>
      ({ p.1 with ret.holds := raisedList p.1 (source r) .trip (.role r) },
        p.2 ++ [p.1.raisedNotice (source r) .trip (.role r)])) (e.s, e.notes)
    let raised := trips.foldl (fun e' r => raiseHold (source r) .trip (.role r) e') (e.mod fun u => { u with
      instruments.hose := t.instruments.hose, instruments.manifold := t.instruments.manifold,
      instruments.tension := t.instruments.tension })
    (∀ role : Role, let rec_ := t.instruments.role role
      (rec_.blind = true ↔ ∀ a, assigned role a → (e.s.agent a).state ≠ .present) ∧
      (∀ v, rec_.value = some v ↔ (∃ a, live role a v) ∧ ∀ a u, live role a u → u ≤ v) ∧
      (∀ w, rec_.warn = some w ↔ (∃ a v, live role a v ∧ (e.s.agentConfig a).warn = w) ∧
        ∀ a v, live role a v → w ≤ (e.s.agentConfig a).warn) ∧
      (∀ w, rec_.trip = some w ↔ (∃ a v, live role a v ∧ (e.s.agentConfig a).trip = w) ∧
        ∀ a v, live role a v → w ≤ (e.s.agentConfig a).trip) ∧
      (rec_.warned = true ↔ ∃ v w, rec_.value = some v ∧ rec_.warn = some w ∧ w ≤ v) ∧
      (rec_.tripped = true ↔ ∃ v w, rec_.value = some v ∧ rec_.trip = some w ∧ w ≤ v)) ∧
    t.ret.holds = turn.1.ret.holds ∧ after.notes = turn.2 ∧
    (∀ j : Fin 4, t.stage j = match (e.s.stage j).input with
      | .tankFill => e.s.stage j
      | .role r =>
        let new := t.instruments.role r
        if new.value = (e.s.instruments.role r).value ∧ new.blind = (e.s.instruments.role r).blind then e.s.stage j
        else { e.s.stage j with
          instrumentEngaged := (e.s.stage j).enabled && (new.blind ||
            match new.value with
            | none => false
            | some v =>
              if (e.s.stage j).instrumentEngaged then decide ((e.s.stage j).leave ≤ v)
              else decide ((e.s.stage j).enter ≤ v)) }) ∧
    t.governor.permitted = permittedRate t ∧ t.governor.term = limitingTerm t ∧
    after = { raised with
      s := recompute { raised.s with
        ret.stages := t.ret.stages, governor.noRise := t.instruments.hose.warned || t.instruments.manifold.warned },
      late := e.late ++
        (if prev = (e.s.agent i).state then []
        else [agentNotice i prev (e.s.agent i).state was (was.map t.instruments.role)]) ++
        (roles.filter fun r => decide ((t.instruments.role r).warned ≠ (e.s.instruments.role r).warned)).map fun r =>
          limitNotice r (t.instruments.role r) }

/-- R144, R145, R171, SET of an agent's configuration: from another station it is NOT-OWNER; a wrong address, role or use
is RANGE; otherwise the clamped configuration stands, answered CLAMPED, UNCHANGED or OK with its value. A change restarts
the agent where R145 says (a transaction under way with it is discarded), takes the fields and hands the roles on. Its AGENT
notice names the role the agent had (log 33), so that every role whose blindness the SET changes is reported by it, as R154
says. -/
def Obligations.SetAgentConfigures : Prop :=
  (∀ (s : State) (link : Station) (tag address : Byte) (c : AgentContent), s.canTake link .set →
      (link ≠ .barge →
        exec (.setAgentConfiguration link tag address c) s = .next (s.refused link .set tag .notOwner)) ∧
      (link = .barge →
        address.toNat = 0 ∨ 4 < address.toNat ∨ 3 < c.role.toNat ∨ 2 < c.use.toNat →
        exec (.setAgentConfiguration link tag address c) s = .next (s.refused link .set tag .range))) ∧
    ∀ (s : State) (tag : Byte) (i : Fin 4) (role : Option Role) (use : ChannelUse) (enabled channels : Byte)
      (warn trip : Word16), s.canTake .barge .set →
      let top := match role with
        | some .tension => 2000
        | some .hosePressure | some .manifoldPressure | none => 4000
      let channels' := min (max channels.toNat 1) 2
      let warn' := min warn.toNat (top - 1)
      let d : AgentConfig :=
        { enabled := decide (enabled ≠ 0#8), role := role, channels := channels',
          use := if channels' = 1 then .first else use, warn := warn', trip := min (max trip.toNat (warn' + 1)) top }
      let old := s.agentConfig i
      let clamped := decide (d.channels ≠ channels.toNat ∨ d.use ≠ use ∨ d.warn ≠ warn.toNat ∨ d.trip ≠ trip.toNat)
      let restart := decide (old.enabled ≠ d.enabled ∨
        d.enabled = true ∧ (old.role ≠ d.role ∨ old.channels ≠ d.channels ∨ old.use ≠ d.use))
      let reply (res : Result) : Frame := replyFrame .set tag res
        ([0x0F#8, oct (i.val + 1), flag d.enabled, roleCode d.role, oct d.channels, useCode d.use] ++ le2 d.warn ++
          le2 d.trip ++ [0#8])
      let handed : Event := handOnRoles i (s.agent i).state old.role ((s.opened .barge).begin.mod fun u => { u with
        ret.settings.agents := u.ret.settings.agents.set i d,
        instruments.agents :=
          if restart then u.instruments.agents.set i { history := [], state := .unknown, value := none, age := 0 }
          else u.instruments.agents,
        instruments.discard := (restart && decide (u.instruments.polling = some i)) || u.instruments.discard })
      exec (.setAgentConfiguration .barge tag (oct (i.val + 1))
          { enabled := enabled, role := roleCode role, channels := channels, use := useCode use, warn := warn,
            trip := trip }) s = .next
        (if old = d then (s.opened .barge).queueReply .barge (reply (if clamped then .clamped else .unchanged))
        else
          handed.reply .barge (reply (if clamped then .clamped else .ok))) ∧
      ((∀ r, (s.instruments.role r).blind = true ↔ ∀ a,
          (s.agentConfig a).enabled = true → (s.agentConfig a).role = some r → (s.agent a).state ≠ .present) →
        ∀ r, (handed.s.instruments.role r).blind ≠ (s.instruments.role r).blind →
          old.role = some r ∧
            agentNotice i (s.agent i).state .unknown (some r) (some (handed.s.instruments.role r)) ∈ handed.late)

/-! ### Chapter 08: the line inputs -/

/-- R161 to R166, R182, a line's raw input and its debounce: 5 mA and above is sensed made, 2 mA and below not; an effective
input equal to the debounced state returns the count to 0; with debounce time 0 the state follows at once, else when the
debounce completes. A change to ACTIVE sets the latch, raises the hold of a TRIP or DRIP-TRAY function with its function
and trigger, and sends LINEEVENT to the notify set behind the other notices; a change to INACTIVE raises the hold of a
PERMIT line at PAUSE in OPENING, PUMPING and RUNDOWN. Debounces complete together are taken in ascending line number, each as its
own event: a line's behind those of lower lines, and before a raw change of the line (log 3). An incomplete debounce is no
event (log 3). That a raw change whose current changes nothing sensed is still an event is the model's choice (log 25), and so
is that a debounce complete at the tick that raises the clock reports the new second (log 36). -/
def Obligations.LineFollowsItsInput : Prop :=
  ∀ (s : State) (n : Fin 6), s.running = true →
    let c := s.lineConfig n
    let l := s.line n
    let follow (u : State) (m : Fin 6) (raw : Bool) : State :=
      let k := u.lineConfig m
      if (raw != k.inverted) = true then
        let set := u.begin.mod fun w => w.setLine m { raw := raw, active := true, count := 0, latch := true }
        let raised : Event :=
          match k.function with
          | .esdPush | .levelSwitch | .breakaway => raiseHold (.line m) .trip (.line k.function k.trigger) set
          | .dripTray => raiseHold (.line m) .pause (.line k.function k.trigger) set
          | .unused | .permit => set
        (raised.lateNote (lineEventNotice m k
          (k.function matches .esdPush | .levelSwitch | .breakaway | .dripTray) u.ret.transfer.clock)).finish
      else
        let cleared := u.begin.mod fun w => w.setLine m { u.line m with raw := raw, active := false, count := 0 }
        if k.function = .permit ∧ (u.ret.delivery = .opening ∨ u.ret.delivery = .pumping ∨ u.ret.delivery = .rundown) then
          (raiseHold (.line m) .pause (.line .permit .edge) cleared).finish
        else cleared.finish
    let due (m : Fin 6) : Bool := decide (((s.line m).raw != (s.lineConfig m).inverted) ≠ (s.line m).active) &&
      decide (1 ≤ (s.lineConfig m).debounce ∧ (s.lineConfig m).debounce ≤ (s.line m).count)
    let settled : State := (([0, 1, 2, 3, 4, 5] : List (Fin 6)).filter fun m => decide (m ≤ n) && due m).foldl
      (fun u m => follow u m (s.line m).raw) s
    (∀ current : Nat,
      let raw := if 5000 ≤ current then true else if current ≤ 2000 then false else l.raw
      (due n = false → exec (.rawLineChange n current) s = .next
        (if (raw != c.inverted) = l.active then s.noted.setLine n { l with raw := raw, count := 0 }
        else if c.debounce = 0 then follow s n raw
        else s.noted.setLine n { l with raw := raw })) ∧
      (due n = true → exec (.rawLineChange n current) s = exec (.rawLineChange n current) settled)) ∧
    (due n = true → exec (.lineDebounceComplete n) s = .next settled) ∧
    (due n = false → exec (.lineDebounceComplete n) s = .next s)

/-- R159, R160, R171, SET of a line's configuration: from another station it is NOT-OWNER; a wrong line, function or
trigger is RANGE; otherwise the configuration stands with its debounce time up to 20, answered CLAMPED, UNCHANGED or OK
with its value. A change sets the debounced state to the effective input afresh, keeps the latch, and raises a TRIP
function found ACTIVE, or a PERMIT found INACTIVE in delivery at PAUSE; no LINEEVENT is sent. -/
def Obligations.SetLineConfigures : Prop :=
  (∀ (s : State) (link : Station) (tag line : Byte) (c : LineContent), s.canTake link .set →
      (link ≠ .barge → exec (.setLineConfiguration link tag line c) s = .next (s.refused link .set tag .notOwner)) ∧
      (link = .barge → line.toNat = 0 ∨ 6 < line.toNat ∨ 5 < c.function.toNat ∨ 1 < c.trigger.toNat →
        exec (.setLineConfiguration link tag line c) s = .next (s.refused link .set tag .range))) ∧
    ∀ (s : State) (tag : Byte) (n : Fin 6) (f : LineFunction) (tr : Trigger) (inversion debounce notify : Byte),
      s.canTake .barge .set →
      let d : LineConfig :=
        { function := f, inverted := decide (inversion ≠ 0#8), debounce := min debounce.toNat 20, trigger := tr,
          notify := { barge := notify.getLsbD 0, ship := notify.getLsbD 1, survey := notify.getLsbD 2 } }
      let clamped := decide (20 < debounce.toNat)
      let reply (res : Result) : Frame := replyFrame .set tag res
        [0x10#8, oct (n.val + 1), functionCode f, flag d.inverted, oct d.debounce, triggerCode tr, notifyCode d.notify, 0#8]
      let active := (s.line n).raw != d.inverted
      let sampled := (s.opened .barge).begin.mod fun u =>
        { u with ret.settings.lines := u.ret.settings.lines.set n d }.setLine n
          { u.line n with count := 0, active := active }
      let delivering := s.ret.delivery matches .opening | .pumping | .rundown
      exec (.setLineConfiguration .barge tag (oct (n.val + 1))
          { function := functionCode f, inversion := inversion, debounce := debounce, trigger := triggerCode tr,
            notify := notify }) s = .next
        (if s.lineConfig n = d then (s.opened .barge).queueReply .barge (reply (if clamped then .clamped else .unchanged))
        else
          ((if (f matches .esdPush | .levelSwitch | .breakaway) && active then
              raiseHold (.line n) .trip (.line f tr) sampled
            else if decide (f = .permit) && !active && delivering then
              raiseHold (.line n) .pause (.line .permit .edge) sampled
            else sampled).reply .barge (reply (if clamped then .clamped else .ok))))

/-! ### Chapter 09: settings, starts and stops -/

/-- R171, R172, R174, R76, R138, SET of Rmax, Rmin or Cb: from another station it is NOT-OWNER; otherwise the value is
clamped to the range the other limits give, a lowered Rmax lowers Rmin, Cb is brought back between them, the reply lists
the changes, and P is recomputed, a raised Rmin lifts a lower demand in PUMPING (and the no-flow condition is evaluated
against it, R136), and a SET of Rmax re-evaluates the overspeed detector. A value that already stands is UNCHANGED. That the reply echoes the index octet as sent is deduced
(log 16). -/
def Obligations.SetRateLimitsKeepsOrder : Prop :=
  ∀ (s : State) (link : Station) (tag : Byte) (which : RateLimit) (index : Byte) (value : Word16), s.canTake link .set →
    (link ≠ .barge →
      exec (.setRateLimits link tag which index value) s = .next (s.refused link .set tag .notOwner)) ∧
    (link = .barge →
      let t := s.ret.settings
      let v : Nat := match which with
        | .rmax => min (max value.toNat 50) 2000
        | .rmin => min (max value.toNat 10) t.rmax
        | .cb => min (max value.toNat t.rmin) t.rmax
      let rmax := match which with
        | .rmax => v
        | .rmin | .cb => t.rmax
      let rmin := match which with
        | .rmax => min t.rmin v
        | .rmin => v
        | .cb => t.rmin
      let cb := match which with
        | .cb => v
        | .rmax | .rmin => min (max t.cb rmin) rmax
      let code : Byte := match which with
        | .rmax => 0x01#8
        | .rmin => 0x02#8
        | .cb => 0x05#8
      let standing := match which with
        | .rmax => t.rmax
        | .rmin => t.rmin
        | .cb => t.cb
      let others : List (Byte × Nat) :=
        (if rmin ≠ t.rmin ∧ which ≠ .rmin then [(0x02#8, rmin)] else []) ++
          (if cb ≠ t.cb ∧ which ≠ .cb then [(0x05#8, cb)] else [])
      let reply (res : Result) (changes : List (Byte × Nat)) : Frame := replyFrame .set tag res
        ([code, index] ++ le2 v ++ [oct changes.length] ++ changes.flatMap fun c => c.1 :: le2 c.2)
      let lifted (u : State) : State :=
        if u.ret.delivery = .pumping ∧ u.governor.demand < u.ret.settings.rmin then
          { u with
            governor.demand := u.ret.settings.rmin,
            meter.noFlow :=
              if u.meter.rate < u.ret.settings.rmin / 4 then
                match u.meter.noFlow with
                | .quiet => .timing (10 * u.ret.settings.noFlow)
                | .timing n => .timing n
              else .quiet }
        else u
      let speed (u : State) : State := { u with
        meter.overspeed :=
          if u.ret.settings.rmax * 5 / 4 < u.meter.rate then
            match u.meter.overspeed with
            | .quiet => .timing 50
            | .timing n => .timing n
            | .latched => .latched
          else .quiet }
      let acted (u : State) : State := match which with
        | .rmax => speed (lifted (recompute u))
        | .rmin | .cb => lifted (recompute u)
      exec (.setRateLimits link tag which index value) s = .next
        (if v = value.toNat ∧ v = standing then (s.opened .barge).queueReply .barge (reply .unchanged [])
        else
          ((s.opened .barge).begin.mod fun u => acted { u with
            ret.settings.rmax := rmax, ret.settings.rmin := rmin, ret.settings.cb := cb }).reply .barge
            (reply (if v = value.toNat then .ok else .clamped) others)))

/-- R171, R173, R174, SET of Tstop, RUNDOWN or TCLOSE: from another station it is NOT-OWNER; otherwise the value is clamped,
Tstop to no less than RUNDOWN + TCLOSE, a RUNDOWN or TCLOSE that brings the sum above Tstop raises Tstop to it and lists it,
and P is recomputed. A value that already stands is UNCHANGED. Stated where Tstop is at least RUNDOWN + TCLOSE, as R173
keeps it. That the reply echoes the index octet as sent is deduced (log 16). -/
def Obligations.SetStopTimesKeepsSum : Prop :=
  ∀ (s : State) (link : Station) (tag : Byte) (which : StopTime) (index : Byte) (value : Word16), s.canTake link .set →
    s.ret.settings.rundown + s.ret.settings.tclose ≤ s.ret.settings.tstop →
    (link ≠ .barge →
      exec (.setStopTimes link tag which index value) s = .next (s.refused link .set tag .notOwner)) ∧
    (link = .barge →
      let t := s.ret.settings
      let v : Nat := match which with
        | .tstop => min (max value.toNat (max 5 (t.rundown + t.tclose))) 120
        | .rundown => min value.toNat 30
        | .tclose => min (max value.toNat 5) 60
      let rundown := match which with
        | .rundown => v
        | .tstop | .tclose => t.rundown
      let tclose := match which with
        | .tclose => v
        | .tstop | .rundown => t.tclose
      let tstop := match which with
        | .tstop => v
        | .rundown | .tclose => max t.tstop (rundown + tclose)
      let code : Byte := match which with
        | .tstop => 0x04#8
        | .rundown => 0x06#8
        | .tclose => 0x08#8
      let standing := match which with
        | .tstop => t.tstop
        | .rundown => t.rundown
        | .tclose => t.tclose
      let raised := decide (which ≠ .tstop ∧ t.tstop < rundown + tclose)
      let reply (res : Result) : Frame := replyFrame .set tag res
        ([code, index] ++ le2 v ++ if raised then [1#8, 0x04#8] ++ le2 tstop else [0#8])
      exec (.setStopTimes link tag which index value) s = .next
        (if v = value.toNat ∧ v = standing then (s.opened .barge).queueReply .barge (reply .unchanged)
        else
          ((s.opened .barge).begin.mod fun u => recompute { u with
            ret.settings.tstop := tstop, ret.settings.rundown := rundown, ret.settings.tclose := tclose }).reply .barge
            (reply (if v = value.toNat then .ok else .clamped))))

/-- R170, R171, R127, R128, R175, SET of U, CONFIRM, TOPEN, SETTLE, POLL or a silence limit (owner BARGE), of W (owner
SURVEY, refused WRONG-STATE in OPENED and JOINED) and of NO-FLOW (owner SURVEY): another station is refused NOT-OWNER, a
POLL code above 4 RANGE; otherwise the value is clamped to its range and stands, and no running timer changes. R42, R44,
R174, SET of S (owner SHIP): the value is clamped to 10 to 600 and stands, every tank's gauge status is re-derived from its
age, with LEVEL for one that becomes STALE or LOST (in ascending index, log 34, from LOST to STALE, too, log 35) and OVERFILL at TRIP for each tank LOST that the step names
while delivery is ARMED, OPENING, PUMPING or RUNDOWN as the event begins, and P is recomputed. The statuses are given for every
tank, the equation first where no tank becomes STALE or LOST, then whole. A value that already stands is UNCHANGED. That the reply
echoes the index octet as sent is deduced (log 16). -/
def Obligations.SetTimesWeightAndStaleLimit : Prop :=
  (∀ (s : State) (link : Station) (tag index : Byte) (value : Word16), s.canTake link .set →
     let t := s.ret.settings
     let reply (code : Byte) (v : Nat) (res : Result) : Frame :=
       replyFrame .set tag res ([code, index] ++ le2 v ++ [0#8])
     let answers (code : Byte) (v standing : Nat) (new : State) : Host.Outcome State Fault Refusal := .next
       (if v = value.toNat ∧ v = standing then (s.opened link).queueReply link (reply code v .unchanged)
       else new.queueReply link (reply code v (if v = value.toNat then .ok else .clamped)))
     let within (lo hi : Nat) : Nat := min (max value.toNat lo) hi
     let o := s.opened link
     (link ≠ .barge → ∀ which,
       exec (.setTimerSetting link tag which index value) s = .next (s.refused link .set tag .notOwner)) ∧
     (link = .barge →
       exec (.setTimerSetting link tag .u index value) s =
         answers 0x03#8 (within 1 100) t.u { o with ret.settings.u := within 1 100 } ∧
       exec (.setTimerSetting link tag .topen index value) s =
         answers 0x07#8 (within 5 120) t.topen { o with ret.settings.topen := within 5 120 } ∧
       exec (.setTimerSetting link tag .confirm index value) s =
         answers 0x09#8 (within 10 600) t.confirm { o with ret.settings.confirm := within 10 600 } ∧
       exec (.setTimerSetting link tag .settle index value) s =
         answers 0x0A#8 (within 2 60) t.settle { o with ret.settings.settle := within 2 60 } ∧
       exec (.setTimerSetting link tag (.silence .barge) index value) s =
         answers 0x0B#8 (within 2 60) t.silence.barge { o with ret.settings.silence.barge := within 2 60 } ∧
       exec (.setTimerSetting link tag (.silence .ship) index value) s =
         answers 0x0C#8 (within 2 60) t.silence.ship { o with ret.settings.silence.ship := within 2 60 } ∧
       exec (.setTimerSetting link tag (.silence .survey) index value) s =
         answers 0x0D#8 (within 2 60) t.silence.survey { o with ret.settings.silence.survey := within 2 60 } ∧
       (4 < value.toNat →
         exec (.setTimerSetting link tag .poll index value) s = .next (s.refused link .set tag .range)) ∧
       ∀ p : PollCycle, value.toNat = pollCode p →
         exec (.setTimerSetting link tag .poll index value) s =
           answers 0x0E#8 (pollCode p) (pollCode t.poll)
             { o with ret.settings.poll := p, instruments.shortNext := false }) ∧
     (link ≠ .survey →
       exec (.setW link tag index value) s = .next (s.refused link .set tag .notOwner) ∧
       exec (.setNoFlow link tag index value) s = .next (s.refused link .set tag .notOwner)) ∧
     (link = .survey →
       (s.ret.transfer.state = .opened ∨ s.ret.transfer.state = .joined →
         exec (.setW link tag index value) s = .next (s.refused link .set tag .wrongState)) ∧
       (s.ret.transfer.state = .vacant ∨ s.ret.transfer.state = .closed →
         exec (.setW link tag index value) s =
           answers 0x12#8 (within 1 10) t.weight { o with ret.settings.weight := within 1 10 }) ∧
       exec (.setNoFlow link tag index value) s =
         answers 0x13#8 (within 5 120) t.noFlow { o with ret.settings.noFlow := within 5 120 })) ∧
  (∀ (s : State) (link : Station) (tag index : Byte) (value : Word16), s.canTake link .set →
     (link ≠ .ship → exec (.setS link tag index value) s = .next (s.refused link .set tag .notOwner)) ∧
     (link = .ship →
       let v := min (max value.toNat 10) 600
       let status (tank : Tank) : GaugeStatus :=
         if tank.contents = none then .none
         else if tank.age ≤ v * 10 then .fresh
         else if tank.age ≤ v * 20 then .stale
         else .lost
       let reply (res : Result) : Frame := replyFrame .set tag res ([0x11#8, index] ++ le2 v ++ [0#8])
       (v = value.toNat → v = s.ret.settings.stale →
         exec (.setS link tag index value) s = .next ((s.opened .ship).queueReply .ship (reply .unchanged))) ∧
       (v ≠ value.toNat ∨ v ≠ s.ret.settings.stale →
         (∃ t, exec (.setS link tag index value) s = .next t ∧ t.ret.settings = { s.ret.settings with stale := v } ∧
           ∀ i, t.tank i = { s.tank i with status := status (s.tank i) }) ∧
         ((∀ i, status (s.tank i) = (s.tank i).status ∨ status (s.tank i) = .fresh ∨ status (s.tank i) = .none) →
           exec (.setS link tag index value) s = .next
             (((s.opened .ship).begin.mod fun u => recompute { u with
               ret.settings.stale := v, ret.tanks := mapTable (fun tank => { tank with status := status tank }) s.ret.tanks
               }).reply .ship (reply (if v = value.toNat then .ok else .clamped)))) ∧
         let pass (e : Event) (i : Fin 8) : Event :=
           let tank := s.tank i
           let level (kind : LevelKind) : Notice :=
             levelNotice i kind (tank.estimate.getD 0) (tank.fill.getD 0) (status tank)
           let passed := e.mod fun u => u.setTank i { u.tank i with status := status tank }
           if tank.status = status tank then e
           else
             match status tank with
             | .none | .fresh => passed
             | .stale => passed.note (level .stale)
             | .lost =>
               if (s.ret.active.any fun r => r.tanks.any fun e => decide (e.tank = i)) &&
                   (s.ret.delivery matches .armed | .opening | .pumping | .rundown) then
                 raiseHold .overfill .trip (.gaugeLost i) (passed.note (level .lost))
               else passed.note (level .lost)
         exec (.setS link tag index value) s = .next
           (((([0, 1, 2, 3, 4, 5, 6, 7] : List (Fin 8)).foldl pass
               ((s.opened .ship).begin.mod fun u => { u with ret.settings.stale := v })).mod recompute).reply .ship
             (reply (if v = value.toNat then .ok else .clamped))))))

/-- R2, R41, R73, R82, R88, R96, R98, R111, R134, R136, R138, R146, R149, R161, R188, a tick: reports and values age up to
65,535, debounce counts advance up to their debounce, every running timer loses a tick, and while the transfer is OPENED or
JOINED the tick count rises, or, at 9, goes to 0 and raises the transfer clock, up to four octets. The command of the transfer
clock's second is that carrying tick, and no event while the tick does not carry (log 5). What comes due waits for its command
(log 3); that it finds the clock and the counts as this tick leaves them is the model's choice (log 36). -/
def Obligations.TickAdvancesTimers : Prop :=
  ∀ s : State, s.running = true →
    let runs := s.ret.transfer.state matches .opened | .joined
    let less (timer : Option Nat) : Option Nat := timer.map (· - 1)
    let older (age : Nat) : Nat := min (age + 1) 65535
    let quieter (l : Link) : Link := { l with silence := less l.silence }
    (∃ t : State, exec .tick s = .next t ∧
      (∀ i : Fin 8, t.tank i = if (s.tank i).definition.isSome && (s.tank i).contents.isSome then
        { s.tank i with age := older (s.tank i).age } else s.tank i) ∧
      (∀ i : Fin 4, t.agent i = if (s.agent i).value.isSome then { s.agent i with age := older (s.agent i).age }
        else s.agent i) ∧
      (∀ n : Fin 6, t.line n = if ((s.line n).raw != (s.lineConfig n).inverted) = (s.line n).active then s.line n
        else { s.line n with count := min ((s.line n).count + 1) (s.lineConfig n).debounce }) ∧
      t = { s.noted with
        tickCount := if runs then (if s.tickCount < 9 then s.tickCount + 1 else 0) else s.tickCount,
        ret.transfer.clock :=
          if runs && decide (9 ≤ s.tickCount) then min (s.ret.transfer.clock + 1) 4294967295 else s.ret.transfer.clock,
        ret.tanks := t.ret.tanks, instruments.agents := t.instruments.agents, lines := t.lines,
        governor.ramp := less s.governor.ramp,
        controller := { s.controller with
          confirm := less s.controller.confirm, rundown := less s.controller.rundown,
          settle := less s.controller.settle, stroke := less s.controller.stroke },
        loop.count := if s.loop.rawIn = s.loop.loopIn then s.loop.count else min (s.loop.count + 1) 2,
        meter.rateTimer := s.meter.rateTimer - 1,
        meter.noFlow := match s.meter.noFlow with
          | .quiet => .quiet
          | .timing n => .timing (n - 1),
        meter.overspeed := match s.meter.overspeed with
          | .quiet => .quiet
          | .timing n => .timing (n - 1)
          | .latched => .latched,
        instruments.pollTimer := s.instruments.pollTimer - 1,
        links := { barge := quieter s.links.barge, ship := quieter s.links.ship, survey := quieter s.links.survey } }) ∧
    exec .transferClockSecond s = (if runs && decide (9 ≤ s.tickCount) then exec .tick s else .next s)

/-! ### Chapter 10: the links -/

/-- R186, R190, a discarded frame: frame in progress and escape are cleared, the error counter rises up to 255, and the
receiver returns to HUNT, or to LENGTH where an unescaped start octet began the next frame. The end of a transmission takes
the head frame off an UP link's queue; with nothing being sent it is no event (log 3). R185, the receiver, octet by octet:
18h is the halt in every state; in HUNT only A5h counts; inside a frame an unescaped A5h and a wrong escape discard it, 1Bh
escapes, and an octet is taken by its place: a length of 2 to 200, the octets of the frame up to that length, the two check
octets, of which the last discards a frame whose octets and check word do not sum to 0 modulo 65,536; an octet with a
faulty stop bit discards a frame. An octet ignored in HUNT is an event that changes nothing but what an interrupted write would
leave (R177). That the command of a discard acts in HUNT, too, is the model's choice (log 24). -/
def Obligations.LinkReceivesAndSends : Prop :=
  (∀ (s : State) (link : Station), s.running = true →
     (∀ cause : DiscardCause, exec (.frameDiscard link cause) s = .next (s.noted.setLink link
       { s.link link with
         receiver := if cause = .startOctet then .length else .hunt, escape := false, frameLength := 0,
         frameOctets := [], checkLow := 0#8, errors := min ((s.link link).errors + 1) 255 })) ∧
     (∀ head rest, (s.link link).state = .up → (s.link link).queue = head :: rest →
       exec (.transmissionEnd link) s = .next (s.noted.setLink link { s.link link with queue := rest })) ∧
     ((s.link link).state ≠ .up ∨ (s.link link).queue = [] → exec (.transmissionEnd link) s = .next s)) ∧
  (∀ (s : State) (link : Station) (octet : Byte), s.running = true →
     let l := s.link link
     let takes (new : Link) : Prop := exec (.receiverOctet link octet true) s = .next (s.noted.setLink link new)
     let discards (good : Bool) (cause : DiscardCause) : Prop :=
       exec (.receiverOctet link octet good) s = exec (.frameDiscard link cause) s
     let inside : Prop := l.receiver ≠ .hunt
     let takenAs (v : Byte) : Prop := octet ≠ 0x18#8 ∧ inside ∧
       (l.escape = false ∧ octet = v ∧ v ≠ 0xA5#8 ∧ v ≠ 0x1B#8 ∨
         l.escape = true ∧ (octet = 0x85#8 ∧ v = 0xA5#8 ∨ octet = 0x38#8 ∧ v = 0x18#8 ∨ octet = 0x3B#8 ∧ v = 0x1B#8))
     (octet = 0x18#8 → exec (.receiverOctet link octet true) s = exec (.halt link) s) ∧
     (¬inside → exec (.receiverOctet link octet false) s = .next s.noted) ∧
     (inside → discards false .faultyStop) ∧
     (¬inside → octet ≠ 0x18#8 → octet ≠ 0xA5#8 → exec (.receiverOctet link octet true) s = .next s.noted) ∧
     (¬inside → octet = 0xA5#8 →
       takes { l with receiver := .length, escape := false, frameLength := 0, frameOctets := [], checkLow := 0#8 }) ∧
     (inside → l.escape = false → octet = 0xA5#8 → discards true .startOctet) ∧
     (inside → l.escape = false → octet = 0x1B#8 → takes { l with escape := true }) ∧
     (inside → l.escape = true → octet ≠ 0x18#8 → octet ≠ 0x85#8 → octet ≠ 0x38#8 → octet ≠ 0x3B#8 →
       discards true .badEscape) ∧
     ∀ v : Byte, takenAs v →
       (l.receiver = .length → 2 ≤ v.toNat → v.toNat ≤ 200 →
         takes { l with escape := false, frameLength := v.toNat, frameOctets := [], receiver := .body }) ∧
       (l.receiver = .length → v.toNat < 2 ∨ 200 < v.toNat → discards true .badLength) ∧
       (l.receiver = .body →
         takes { l with
           escape := false, frameOctets := l.frameOctets ++ [v],
           receiver := if l.frameLength ≤ l.frameOctets.length + 1 then .checkLow else .body }) ∧
       (l.receiver = .checkLow → takes { l with escape := false, checkLow := v, receiver := .checkHigh }) ∧
       (l.receiver = .checkHigh →
         ¬(octetSum (oct l.frameLength :: l.frameOctets) + l.checkLow.toNat + 256 * v.toNat) % 65536 = 0 →
         discards true .badCheck))

/-- R184, R185, R192, decode and encode agree on the line: the octets of any frame of up to 200 octets, escaped and checked
as R184 gives, sent one by one at a link in HUNT, are taken as that frame's type, tag and data, whatever the state. -/
def Obligations.LineOctetsSpellFrame : Prop :=
  ∀ (s : State) (link : Station) (f : Frame), s.running = true → (s.link link).receiver = .hunt → f.data.length ≤ 198 →
    receive link f.onLine s = takeFrame link f.type f.tag f.data s

/-- R193 to R196, decode and encode agree on requests: the type and data octets with which a station sends a well-formed
request command, taken as a frame, are that command, with every operand at every value. -/
def Obligations.RequestFrameIsItsCommand : Prop :=
  ∀ (c : Instr) (s : State) (link : Station) (type : RequestType) (tag : Byte) (formed : Bool) (data : List Byte),
    WellFormed c = true → requestOf c = some (link, type, tag, formed) → requestData c = some (type, data) →
    takeFrame link type.code tag data s = exec c s

/-! ### Starts (chapters 05 and 09) -/

/-- R180, R178, R170, R179, R29, R54, R77, R101, R124, R125, R140, R141, R156, R157, R168, R169, R181, R183, a start that finds
retention memory lost or invalid is cold, whatever stood before: every block at its cold-start values, every setting at R170's,
POWER (COLD) on the hold list with LOOP behind it where loop IN is sampled OPEN and VALVE where both limits are, loop OUT open,
the valve commanded closed and timed at TCLOSE unless it stands CLOSED, the lines as sampled, the data rates by R181's table, and
the marker written. Retention memory as before the start is what the loss left: no marker, or its contents with a wrong check
(log 11); a stop before the start's write has completed leaves it so, and the next start is cold again. A start begins only with the supply
at 18 to 32 V and the reset line released (R182); otherwise nothing happens (log 8). -/
def Obligations.ColdStartRestoresDefaults : Prop :=
  ∀ (loss : RetentionLoss) (sample : InputSample) (schedule : List RaisingBlock) (s : State),
    let begins : Prop :=
      18000 ≤ sample.power.supply ∧ sample.power.supply ≤ 32000 ∧ sample.power.resetAsserted = false
    let loopIn : LoopState := if 12000 ≤ sample.loopIn then .closed else .opened
    let openLimit := decide (5000 ≤ sample.openLimit)
    let closedLimit := decide (5000 ≤ sample.closedLimit)
    let hold (source : HoldSource) (reason : HoldReason) : HoldEntry :=
      { source := source, cls := .trip, reason := reason, time := 0, repeats := 0 }
    let agent : AgentConfig :=
      { enabled := false, role := none, channels := 1, use := .first, warn := 1000, trip := 1500 }
    let line : LineConfig :=
      { function := .unused, inverted := false, debounce := 3, trigger := .level,
        notify := { barge := false, ship := false, survey := false } }
    let role : RoleRecord :=
      { value := none, blind := true, warn := none, trip := none, warned := false, tripped := false }
    let link (straps : Bool × Bool) : Link :=
      { receiver := .hunt, escape := false, frameLength := 0, frameOctets := [], checkLow := 0#8, state := .down,
        silence := none, queue := [], overrun := false, noticesLost := false, errors := 0,
        rate := match straps with
          | (false, false) => .b9600
          | (true, false) => .b19200
          | (false, true) => .b38400
          | (true, true) => .b57600 }
    let cold (memory : Retained) : State :=
      { ret := {
          transfer := { state := .vacant, id := none, grades := [], nextStep := some 1, clock := 0 },
          proposed := [], agreed := [], active := none, done := [], free := 24,
          totals := .replicate 4 { litres := 0, steps := 0 },
          tanks := .replicate 8
            { definition := none, contents := none, age := 0, credited := 0, status := .none, highCrossed := false,
              overTrip := false, engaged := .replicate 4 false },
          stages := .replicate 4
            { enabled := false, input := .tankFill, enter := 1000, leave := 999, mode := .eighths, k := 0,
              instrumentEngaged := false },
          settings :=
            { rmax := 800, rmin := 40, u := 20, tstop := 30, cb := 200, rundown := 5, topen := 30, tclose := 20,
              confirm := 120, settle := 10, silence := { barge := 10, ship := 10, survey := 30 }, poll := .one,
              agents := .replicate 4 agent, lines := .replicate 6 line, stale := 60, weight := 1, noFlow := 30 },
          delivery := .idle, lapsed := [], metered := 0, unassigned := 0, marker := true, checkCorrect := true,
          holds := hold .power .cold :: ((if loopIn = .opened then [hold .loop .opened] else []) ++
            if openLimit && closedLimit then [hold .valve .bothLimits] else []) },
        prior := memory, running := true, tickCount := 0, starvation := { barge := 0, ship := 0, survey := 0 },
        governor := { permitted := 0, term := .none, demand := 0, noRise := false, ramp := none },
        controller := {
          armedFrom := none, stopCause := none, confirm := none, rundown := none, settle := none,
          stroke := if closedLimit && !openLimit then none else some 200,
          command := .closed, openLimit := openLimit, closedLimit := closedLimit },
        loop := { loopOut := .opened, rawIn := loopIn, loopIn := loopIn, count := 0 },
        meter := {
          bin := 0, window := #v[0, 0, 0, 0, 0], rate := 0, rateTimer := 10, noFlow := .quiet, overspeed := .quiet },
        instruments := {
          agents := .replicate 4 { history := [], state := .unknown, value := none, age := 0 }, hose := role,
          manifold := role, tension := role, pollTimer := 10, shortNext := false, polling := none, discard := false },
        lines := mapTable (fun current =>
          { raw := decide (5000 ≤ current), active := decide (5000 ≤ current), count := 0, latch := false }) sample.lines,
        links := {
          barge := link sample.straps.barge, ship := link sample.straps.ship, survey := link sample.straps.survey },
        pending := s.pending }
    (begins → exec (.coldStart loss sample schedule) s = .next (cold (lostMemory loss s.ret))) ∧
    ((lostMemory .markerLost s.ret).marker = false ∧
      lostMemory .checkIncorrect s.ret = { s.ret with checkCorrect := false }) ∧
    (∀ (memory : Retained) (power : PowerSample), power.supply < 16000 ∨ power.resetAsserted = true →
      ∃ t, exec (.partStops ⟨power, false⟩) (cold memory) = .next t ∧ t.running = false ∧ t.ret = memory) ∧
    (begins → (s.ret.marker = false ∨ s.ret.checkCorrect = false) →
      exec (.warmStart sample schedule) s = .next (cold s.ret)) ∧
    (¬begins → exec (.coldStart loss sample schedule) s = .next s ∧ exec (.warmStart sample schedule) s = .next s)

/-- R178, R22, R29, R55, R77, R90, R102, R119, R124, R140, R142, R156, R157, R168, R169, R170, R183, a start on valid retention
memory is warm: plan, totals, tally, settings, tank definitions, contents and credits stand; delivery is IDLE, or HELD with the
step in the slot, its last stop cause POWER and its hold count one more unless it was HELD already, an arming's number in the
lapsed set; a report at most S × 10 ticks old is one tick past it, and every flag is evaluated anew against its estimate. POWER
(WARM) is raised behind the retained entries, then LOOP where loop IN is sampled OPEN, then OVERFILL for every flag over trip
that sets, VALVE where both limits are sampled and LINE for every TRIP function sampled ACTIVE, these three blocks in either order
(R124, log 9). Loop OUT is open, the demand is 0 and P current, the valve is commanded closed and timed at TCLOSE unless it stands
CLOSED; loop IN, lines, limit switches and data rates are as sampled, the links DOWN, and agents, roles, measurement and the
starvation counters afresh; if the start's own write is cut off, memory stands as before it. -/
def Obligations.WarmStartResumes : Prop :=
  ∀ (sample : InputSample) (schedule : List RaisingBlock) (s : State), s.ret.marker = true → s.ret.checkCorrect = true →
    18000 ≤ sample.power.supply → sample.power.supply ≤ 32000 → sample.power.resetAsserted = false →
    let loopIn : LoopState := if 12000 ≤ sample.loopIn then .closed else .opened
    let openLimit := decide (5000 ≤ sample.openLimit)
    let closedLimit := decide (5000 ≤ sample.closedLimit)
    let made (n : Fin 6) : Bool := decide (5000 ≤ sample.lines[n])
    let active (n : Fin 6) : Bool := made n != (s.lineConfig n).inverted
    let link (straps : Bool × Bool) : Link :=
      { receiver := .hunt, escape := false, frameLength := 0, frameOctets := [], checkLow := 0#8, state := .down,
        silence := none, queue := [], overrun := false, noticesLost := false, errors := 0,
        rate := match straps with
          | (false, false) => .b9600
          | (true, false) => .b19200
          | (false, true) => .b38400
          | (true, true) => .b57600 }
    let role : RoleRecord :=
      { value := none, blind := true, warn := none, trip := none, warned := false, tripped := false }
    ∃ t : State, exec (.warmStart sample schedule) s = .next t ∧ t.running = true ∧ t.pending = s.pending ∧
      t.prior = s.ret ∧
      t.ret = { s.ret with
        active := s.ret.active.map fun r => { r with
          lastStop := some .power,
          holdCount := if s.ret.delivery = .held then r.holdCount else min (r.holdCount + 1) 255 },
        delivery := if s.ret.active = none then .idle else .held, lapsed := t.ret.lapsed, tanks := t.ret.tanks,
        stages := t.ret.stages, holds := t.ret.holds } ∧
      (∀ n, n ∈ t.ret.lapsed ↔ n ∈ s.ret.lapsed ∨ s.ret.delivery = .armed ∧ ∃ r, s.ret.active = some r ∧ r.number = n) ∧
      (∀ i : Fin 8, (t.tank i).definition = (s.tank i).definition ∧ (t.tank i).contents = (s.tank i).contents ∧
        (t.tank i).credited = (s.tank i).credited ∧ (t.tank i).engaged = (s.tank i).engaged ∧
        ((s.tank i).contents ≠ none →
          (t.tank i).age = max (s.tank i).age (s.ret.settings.stale * 10 + 1)) ∧ (t.tank i).status ≠ .fresh ∧
        ((s.tank i).contents = none → (t.tank i).age = (s.tank i).age ∧ (t.tank i).status = .none) ∧
        ((s.tank i).contents ≠ none → (t.tank i).status =
          if max (s.tank i).age (s.ret.settings.stale * 10 + 1) ≤ s.ret.settings.stale * 20 then .stale else .lost) ∧
        ((s.tank i).estimate = none →
          (t.tank i).highCrossed = (s.tank i).highCrossed ∧ (t.tank i).overTrip = (s.tank i).overTrip) ∧
        ∀ d est, (s.tank i).definition = some d → (s.tank i).estimate = some est →
          (t.tank i).highCrossed = decide (d.capacity * d.high / 1000 ≤ est) ∧
          (t.tank i).overTrip = decide (d.capacity * d.trip / 1000 ≤ est)) ∧
      (∀ j : Fin 4, t.stage j = if (s.stage j).input = .tankFill then s.stage j
        else { s.stage j with instrumentEngaged := (s.stage j).enabled }) ∧
      (∃ h ∈ t.ret.holds, h.source = .power ∧ h.cls = .trip ∧ h.reason = .warm) ∧
      (∀ h ∈ s.ret.holds, ∃ k ∈ t.ret.holds, k.source = h.source ∧ k.time = h.time) ∧
      (let overfull : List (HoldSource × HoldReason) := (([0, 1, 2, 3, 4, 5, 6, 7] : List (Fin 8)).filter fun i =>
        (t.tank i).overTrip && !(s.tank i).overTrip).map fun i => (.overfill, .level i)
       let jam : List (HoldSource × HoldReason) := if openLimit && closedLimit then [(.valve, .bothLimits)] else []
       let lines : List (HoldSource × HoldReason) := (([0, 1, 2, 3, 4, 5] : List (Fin 6)).filter fun n =>
        ((s.lineConfig n).function matches .esdPush | .levelSwitch | .breakaway) && active n).map fun n =>
          (.line n, .line (s.lineConfig n).function (s.lineConfig n).trigger)
       ∃ order : List (HoldSource × HoldReason), order.Perm (overfull ++ jam ++ lines) ∧ overfull.Sublist order ∧
        jam.Sublist order ∧ lines.Sublist order ∧
        t.ret.holds = (((.power, .warm) :: ((if loopIn = .opened then [(.loop, .opened)] else []) ++ order)).foldl
          (fun (u : State) p => { u with ret.holds := raisedList u p.1 .trip p.2 }) s).ret.holds) ∧
      t.loop = { loopOut := .opened, rawIn := loopIn, loopIn := loopIn, count := 0 } ∧
      t.governor.demand = 0 ∧ t.governor.ramp = none ∧ t.governor.noRise = false ∧
      t.governor.permitted = permittedRate t ∧ t.governor.term = limitingTerm t ∧
      t.controller = {
        armedFrom := none, stopCause := none, confirm := none, rundown := none, settle := none,
        stroke := if closedLimit && !openLimit then none else some (10 * s.ret.settings.tclose),
        command := .closed, openLimit := openLimit, closedLimit := closedLimit } ∧
      t.meter = {
        bin := 0, window := #v[0, 0, 0, 0, 0], rate := 0, rateTimer := 10, noFlow := .quiet, overspeed := .quiet } ∧
      t.instruments = {
        agents := .replicate 4 { history := [], state := .unknown, value := none, age := 0 }, hose := role,
        manifold := role, tension := role,
        pollTimer := (match s.ret.settings.poll with
          | .quarter => 3
          | .half => 5
          | .one => 10
          | .two => 20
          | .four => 40),
        shortNext := decide (s.ret.settings.poll = .quarter), polling := none, discard := false } ∧
      (∀ n : Fin 6, t.line n = { raw := made n, active := active n, count := 0, latch := false }) ∧
      t.links = {
        barge := link sample.straps.barge, ship := link sample.straps.ship, survey := link sample.straps.survey } ∧
      t.starvation = { barge := 0, ship := 0, survey := 0 } ∧ t.tickCount = 0

/-! ### What every step keeps -/

/-- The state after reset meets every invariant below. The levels sampled at reset are the model's choice (log 10). -/
def Obligations.ResetMeetsInvariants : Prop :=
  State.reset.poolWhole ∧ State.reset.planSound ∧ State.reset.recordsSound ∧ State.reset.tallySound ∧
    State.reset.settingsOrdered ∧ State.reset.holdsSound ∧ State.reset.deliverySound ∧ State.reset.timersSound ∧
    State.reset.rateCurrent ∧ State.reset.linksSound

/-- R7, R20, R9, R3, R5: every step keeps the 24 records of the pool and delivery IDLE exactly while the slot is empty;
and every step keeps step numbers distinct and below the next one, a VACANT transfer without records and a CLOSED one
without any but those on DONE. -/
def Obligations.StepKeepsPlanSound : Prop :=
  (∀ s t : State, s.poolWhole → step s = .next t → t.poolWhole) ∧
  (∀ s t : State, s.planSound → step s = .next t → t.planSound)

/-- R11, R13, R21, R22, R39: every step keeps each record's shares summing to 100 and its credits to D, one mark on
PROPOSED and both beyond, and nothing delivered before the valve has opened. -/
def Obligations.StepKeepsRecordsSound : Prop := ∀ s t : State, s.recordsSound → step s = .next t → t.recordsSound

/-- R27, R132: every step keeps metered litres equal to the grade totals and the unassigned total, within four octets.
R170, R172, R173: every step keeps the rate limits in their order and ranges and Tstop at or above RUNDOWN + TCLOSE. -/
def Obligations.StepKeepsTallyAndSettings : Prop :=
  (∀ s t : State, s.tallySound → step s = .next t → t.tallySound) ∧
  (∀ s t : State, s.settingsOrdered → step s = .next t → t.settingsOrdered)

/-- R104, R119, R120, R86, R95: every step keeps one entry a source on the hold list, loop OUT as the list gives it, and the
list empty in ARMED, OPENING and PUMPING. R188, R190: every step keeps each link's queue within 16 frames and empty unless
UP, and its silence timer running exactly while UP. -/
def Obligations.StepKeepsHoldsAndLinksSound : Prop :=
  (∀ s t : State, s.holdsSound → step s = .next t → t.holdsSound) ∧
  (∀ s t : State, s.linksSound → step s = .next t → t.linksSound)

/-- R72, R73, R79: every step keeps the valve command with the delivery state, and the demand at 0 outside PUMPING and
between Rmin and P in it. R78, R93, R179: while the part runs, every step keeps the stop cause present exactly in RUNDOWN,
CLOSING and SETTLING, armed from present and the confirm timer running exactly in ARMED, the rundown timer exactly in RUNDOWN
and the settle timer exactly in SETTLING, and none of them in a stopped part (log 7). The second needs the step that the pool's
invariant gives delivery (StepKeepsPlanSound), from which an end decision takes its stop cause. -/
def Obligations.StepKeepsDeliverySound : Prop :=
  (∀ s t : State, s.deliverySound → step s = .next t → t.deliverySound) ∧
  (∀ s t : State, s.poolWhole → s.timersSound → step s = .next t → t.timersSound)

/-- R65, R67: after every step P and the limiting term are those the terms give. -/
def Obligations.StepKeepsRateCurrent : Prop := ∀ s t : State, s.rateCurrent → step s = .next t → t.rateCurrent

/-- R59, R60, R72, what the part is for: after every step, while PUMPING, the litres a stop of Tstop seconds still passes at
the demand fit within what the step has to deliver and, at its share, within the room below the trip volume of every one
of its tanks. -/
def Obligations.StopAlwaysFits : Prop :=
  ∀ s t : State, s.deliverySound → s.rateCurrent → step s = .next t → t.stopFits

end Statements
end

