-- ==== Sys2Proof/Laws/State.lean ====
section
/-! SUPPORT. One lemma per field per update of the state, all true by unfolding. -/

namespace Sys2Proof.Machine

/-! ### setTank -/

@[simp] theorem State.setTank_ret (s : State) (i : Fin 8) (t : Tank) : (s.setTank i t).ret = { s.ret with tanks := put s.ret.tanks i t } := rfl
@[simp] theorem State.setTank_prior (s : State) (i : Fin 8) (t : Tank) : (s.setTank i t).prior = s.prior := rfl
@[simp] theorem State.setTank_running (s : State) (i : Fin 8) (t : Tank) : (s.setTank i t).running = s.running := rfl
@[simp] theorem State.setTank_tickCount (s : State) (i : Fin 8) (t : Tank) : (s.setTank i t).tickCount = s.tickCount := rfl
@[simp] theorem State.setTank_starvation (s : State) (i : Fin 8) (t : Tank) : (s.setTank i t).starvation = s.starvation := rfl
@[simp] theorem State.setTank_governor (s : State) (i : Fin 8) (t : Tank) : (s.setTank i t).governor = s.governor := rfl
@[simp] theorem State.setTank_controller (s : State) (i : Fin 8) (t : Tank) : (s.setTank i t).controller = s.controller := rfl
@[simp] theorem State.setTank_loop (s : State) (i : Fin 8) (t : Tank) : (s.setTank i t).loop = s.loop := rfl
@[simp] theorem State.setTank_meter (s : State) (i : Fin 8) (t : Tank) : (s.setTank i t).meter = s.meter := rfl
@[simp] theorem State.setTank_instruments (s : State) (i : Fin 8) (t : Tank) : (s.setTank i t).instruments = s.instruments := rfl
@[simp] theorem State.setTank_lines (s : State) (i : Fin 8) (t : Tank) : (s.setTank i t).lines = s.lines := rfl
@[simp] theorem State.setTank_links (s : State) (i : Fin 8) (t : Tank) : (s.setTank i t).links = s.links := rfl
@[simp] theorem State.setTank_pending (s : State) (i : Fin 8) (t : Tank) : (s.setTank i t).pending = s.pending := rfl

/-! ### setLink -/

@[simp] theorem State.setLink_ret (s : State) (link : Station) (l : Link) : (s.setLink link l).ret = s.ret := rfl
@[simp] theorem State.setLink_prior (s : State) (link : Station) (l : Link) : (s.setLink link l).prior = s.prior := rfl
@[simp] theorem State.setLink_running (s : State) (link : Station) (l : Link) : (s.setLink link l).running = s.running := rfl
@[simp] theorem State.setLink_tickCount (s : State) (link : Station) (l : Link) : (s.setLink link l).tickCount = s.tickCount := rfl
@[simp] theorem State.setLink_starvation (s : State) (link : Station) (l : Link) : (s.setLink link l).starvation = s.starvation := rfl
@[simp] theorem State.setLink_governor (s : State) (link : Station) (l : Link) : (s.setLink link l).governor = s.governor := rfl
@[simp] theorem State.setLink_controller (s : State) (link : Station) (l : Link) : (s.setLink link l).controller = s.controller := rfl
@[simp] theorem State.setLink_loop (s : State) (link : Station) (l : Link) : (s.setLink link l).loop = s.loop := rfl
@[simp] theorem State.setLink_meter (s : State) (link : Station) (l : Link) : (s.setLink link l).meter = s.meter := rfl
@[simp] theorem State.setLink_instruments (s : State) (link : Station) (l : Link) : (s.setLink link l).instruments = s.instruments := rfl
@[simp] theorem State.setLink_lines (s : State) (link : Station) (l : Link) : (s.setLink link l).lines = s.lines := rfl
@[simp] theorem State.setLink_links (s : State) (link : Station) (l : Link) : (s.setLink link l).links = s.links.put link l := rfl
@[simp] theorem State.setLink_pending (s : State) (link : Station) (l : Link) : (s.setLink link l).pending = s.pending := rfl

/-! ### setLine -/

@[simp] theorem State.setLine_ret (s : State) (i : Fin 6) (l : LineService) : (s.setLine i l).ret = s.ret := rfl
@[simp] theorem State.setLine_prior (s : State) (i : Fin 6) (l : LineService) : (s.setLine i l).prior = s.prior := rfl
@[simp] theorem State.setLine_running (s : State) (i : Fin 6) (l : LineService) : (s.setLine i l).running = s.running := rfl
@[simp] theorem State.setLine_tickCount (s : State) (i : Fin 6) (l : LineService) : (s.setLine i l).tickCount = s.tickCount := rfl
@[simp] theorem State.setLine_starvation (s : State) (i : Fin 6) (l : LineService) : (s.setLine i l).starvation = s.starvation := rfl
@[simp] theorem State.setLine_governor (s : State) (i : Fin 6) (l : LineService) : (s.setLine i l).governor = s.governor := rfl
@[simp] theorem State.setLine_controller (s : State) (i : Fin 6) (l : LineService) : (s.setLine i l).controller = s.controller := rfl
@[simp] theorem State.setLine_loop (s : State) (i : Fin 6) (l : LineService) : (s.setLine i l).loop = s.loop := rfl
@[simp] theorem State.setLine_meter (s : State) (i : Fin 6) (l : LineService) : (s.setLine i l).meter = s.meter := rfl
@[simp] theorem State.setLine_instruments (s : State) (i : Fin 6) (l : LineService) : (s.setLine i l).instruments = s.instruments := rfl
@[simp] theorem State.setLine_lines (s : State) (i : Fin 6) (l : LineService) : (s.setLine i l).lines = put s.lines i l := rfl
@[simp] theorem State.setLine_links (s : State) (i : Fin 6) (l : LineService) : (s.setLine i l).links = s.links := rfl
@[simp] theorem State.setLine_pending (s : State) (i : Fin 6) (l : LineService) : (s.setLine i l).pending = s.pending := rfl

/-! ### setAgent -/

@[simp] theorem State.setAgent_ret (s : State) (i : Fin 4) (a : AgentService) : (s.setAgent i a).ret = s.ret := rfl
@[simp] theorem State.setAgent_prior (s : State) (i : Fin 4) (a : AgentService) : (s.setAgent i a).prior = s.prior := rfl
@[simp] theorem State.setAgent_running (s : State) (i : Fin 4) (a : AgentService) : (s.setAgent i a).running = s.running := rfl
@[simp] theorem State.setAgent_tickCount (s : State) (i : Fin 4) (a : AgentService) : (s.setAgent i a).tickCount = s.tickCount := rfl
@[simp] theorem State.setAgent_starvation (s : State) (i : Fin 4) (a : AgentService) : (s.setAgent i a).starvation = s.starvation := rfl
@[simp] theorem State.setAgent_governor (s : State) (i : Fin 4) (a : AgentService) : (s.setAgent i a).governor = s.governor := rfl
@[simp] theorem State.setAgent_controller (s : State) (i : Fin 4) (a : AgentService) : (s.setAgent i a).controller = s.controller := rfl
@[simp] theorem State.setAgent_loop (s : State) (i : Fin 4) (a : AgentService) : (s.setAgent i a).loop = s.loop := rfl
@[simp] theorem State.setAgent_meter (s : State) (i : Fin 4) (a : AgentService) : (s.setAgent i a).meter = s.meter := rfl
@[simp] theorem State.setAgent_instruments (s : State) (i : Fin 4) (a : AgentService) : (s.setAgent i a).instruments = { s.instruments with agents := put s.instruments.agents i a } := rfl
@[simp] theorem State.setAgent_lines (s : State) (i : Fin 4) (a : AgentService) : (s.setAgent i a).lines = s.lines := rfl
@[simp] theorem State.setAgent_links (s : State) (i : Fin 4) (a : AgentService) : (s.setAgent i a).links = s.links := rfl
@[simp] theorem State.setAgent_pending (s : State) (i : Fin 4) (a : AgentService) : (s.setAgent i a).pending = s.pending := rfl

/-! ### setHolds -/

@[simp] theorem State.setHolds_ret (s : State) (l : List HoldEntry) : (s.setHolds l).ret = { s.ret with holds := l } := rfl
@[simp] theorem State.setHolds_prior (s : State) (l : List HoldEntry) : (s.setHolds l).prior = s.prior := rfl
@[simp] theorem State.setHolds_running (s : State) (l : List HoldEntry) : (s.setHolds l).running = s.running := rfl
@[simp] theorem State.setHolds_tickCount (s : State) (l : List HoldEntry) : (s.setHolds l).tickCount = s.tickCount := rfl
@[simp] theorem State.setHolds_starvation (s : State) (l : List HoldEntry) : (s.setHolds l).starvation = s.starvation := rfl
@[simp] theorem State.setHolds_governor (s : State) (l : List HoldEntry) : (s.setHolds l).governor = s.governor := rfl
@[simp] theorem State.setHolds_controller (s : State) (l : List HoldEntry) : (s.setHolds l).controller = s.controller := rfl
@[simp] theorem State.setHolds_loop (s : State) (l : List HoldEntry) : (s.setHolds l).loop = { s.loop with loopOut := loopOutOf l } := rfl
@[simp] theorem State.setHolds_meter (s : State) (l : List HoldEntry) : (s.setHolds l).meter = s.meter := rfl
@[simp] theorem State.setHolds_instruments (s : State) (l : List HoldEntry) : (s.setHolds l).instruments = s.instruments := rfl
@[simp] theorem State.setHolds_lines (s : State) (l : List HoldEntry) : (s.setHolds l).lines = s.lines := rfl
@[simp] theorem State.setHolds_links (s : State) (l : List HoldEntry) : (s.setHolds l).links = s.links := rfl
@[simp] theorem State.setHolds_pending (s : State) (l : List HoldEntry) : (s.setHolds l).pending = s.pending := rfl

/-! ### queueReply -/

@[simp] theorem State.queueReply_ret (s : State) (link : Station) (f : Frame) : (s.queueReply link f).ret = s.ret := rfl
@[simp] theorem State.queueReply_prior (s : State) (link : Station) (f : Frame) : (s.queueReply link f).prior = s.prior := rfl
@[simp] theorem State.queueReply_running (s : State) (link : Station) (f : Frame) : (s.queueReply link f).running = s.running := rfl
@[simp] theorem State.queueReply_tickCount (s : State) (link : Station) (f : Frame) : (s.queueReply link f).tickCount = s.tickCount := rfl
@[simp] theorem State.queueReply_starvation (s : State) (link : Station) (f : Frame) : (s.queueReply link f).starvation = s.starvation := rfl
@[simp] theorem State.queueReply_governor (s : State) (link : Station) (f : Frame) : (s.queueReply link f).governor = s.governor := rfl
@[simp] theorem State.queueReply_controller (s : State) (link : Station) (f : Frame) : (s.queueReply link f).controller = s.controller := rfl
@[simp] theorem State.queueReply_loop (s : State) (link : Station) (f : Frame) : (s.queueReply link f).loop = s.loop := rfl
@[simp] theorem State.queueReply_meter (s : State) (link : Station) (f : Frame) : (s.queueReply link f).meter = s.meter := rfl
@[simp] theorem State.queueReply_instruments (s : State) (link : Station) (f : Frame) : (s.queueReply link f).instruments = s.instruments := rfl
@[simp] theorem State.queueReply_lines (s : State) (link : Station) (f : Frame) : (s.queueReply link f).lines = s.lines := rfl
@[simp] theorem State.queueReply_links (s : State) (link : Station) (f : Frame) : (s.queueReply link f).links = s.links.put link { s.link link with queue := (s.link link).queue ++ [f] } := rfl
@[simp] theorem State.queueReply_pending (s : State) (link : Station) (f : Frame) : (s.queueReply link f).pending = s.pending := rfl

/-! ### overrun -/

@[simp] theorem State.overrun_ret (s : State) (link : Station) : (s.overrun link).ret = s.ret := rfl
@[simp] theorem State.overrun_prior (s : State) (link : Station) : (s.overrun link).prior = s.prior := rfl
@[simp] theorem State.overrun_running (s : State) (link : Station) : (s.overrun link).running = s.running := rfl
@[simp] theorem State.overrun_tickCount (s : State) (link : Station) : (s.overrun link).tickCount = s.tickCount := rfl
@[simp] theorem State.overrun_starvation (s : State) (link : Station) : (s.overrun link).starvation = s.starvation := rfl
@[simp] theorem State.overrun_governor (s : State) (link : Station) : (s.overrun link).governor = s.governor := rfl
@[simp] theorem State.overrun_controller (s : State) (link : Station) : (s.overrun link).controller = s.controller := rfl
@[simp] theorem State.overrun_loop (s : State) (link : Station) : (s.overrun link).loop = s.loop := rfl
@[simp] theorem State.overrun_meter (s : State) (link : Station) : (s.overrun link).meter = s.meter := rfl
@[simp] theorem State.overrun_instruments (s : State) (link : Station) : (s.overrun link).instruments = s.instruments := rfl
@[simp] theorem State.overrun_lines (s : State) (link : Station) : (s.overrun link).lines = s.lines := rfl
@[simp] theorem State.overrun_links (s : State) (link : Station) : (s.overrun link).links = s.links.put link { s.link link with overrun := true } := rfl
@[simp] theorem State.overrun_pending (s : State) (link : Station) : (s.overrun link).pending = s.pending := rfl

/-! ### frameTaken -/

@[simp] theorem State.frameTaken_ret (s : State) (link : Station) : (s.frameTaken link).ret = s.ret := rfl
@[simp] theorem State.frameTaken_prior (s : State) (link : Station) : (s.frameTaken link).prior = s.prior := rfl
@[simp] theorem State.frameTaken_running (s : State) (link : Station) : (s.frameTaken link).running = s.running := rfl
@[simp] theorem State.frameTaken_tickCount (s : State) (link : Station) : (s.frameTaken link).tickCount = s.tickCount := rfl
@[simp] theorem State.frameTaken_starvation (s : State) (link : Station) : (s.frameTaken link).starvation = s.starvation := rfl
@[simp] theorem State.frameTaken_governor (s : State) (link : Station) : (s.frameTaken link).governor = s.governor := rfl
@[simp] theorem State.frameTaken_controller (s : State) (link : Station) : (s.frameTaken link).controller = s.controller := rfl
@[simp] theorem State.frameTaken_loop (s : State) (link : Station) : (s.frameTaken link).loop = s.loop := rfl
@[simp] theorem State.frameTaken_meter (s : State) (link : Station) : (s.frameTaken link).meter = s.meter := rfl
@[simp] theorem State.frameTaken_instruments (s : State) (link : Station) : (s.frameTaken link).instruments = s.instruments := rfl
@[simp] theorem State.frameTaken_lines (s : State) (link : Station) : (s.frameTaken link).lines = s.lines := rfl
@[simp] theorem State.frameTaken_links (s : State) (link : Station) : (s.frameTaken link).links = s.links.put link
      { (s.link link).resetReceiver .hunt with
        state := .up, silence := some (Config.ticksPerSecond * s.ret.settings.silence.at link) } := rfl
@[simp] theorem State.frameTaken_pending (s : State) (link : Station) : (s.frameTaken link).pending = s.pending := rfl

/-! ### opened -/

@[simp] theorem State.opened_ret (s : State) (link : Station) : (s.opened link).ret = s.ret := rfl
@[simp] theorem State.opened_prior (s : State) (link : Station) : (s.opened link).prior = s.ret := rfl
@[simp] theorem State.opened_running (s : State) (link : Station) : (s.opened link).running = s.running := rfl
@[simp] theorem State.opened_tickCount (s : State) (link : Station) : (s.opened link).tickCount = s.tickCount := rfl
@[simp] theorem State.opened_starvation (s : State) (link : Station) : (s.opened link).starvation = s.starvation := rfl
@[simp] theorem State.opened_governor (s : State) (link : Station) : (s.opened link).governor = s.governor := rfl
@[simp] theorem State.opened_controller (s : State) (link : Station) : (s.opened link).controller = s.controller := rfl
@[simp] theorem State.opened_loop (s : State) (link : Station) : (s.opened link).loop = s.loop := rfl
@[simp] theorem State.opened_meter (s : State) (link : Station) : (s.opened link).meter = s.meter := rfl
@[simp] theorem State.opened_instruments (s : State) (link : Station) : (s.opened link).instruments = s.instruments := rfl
@[simp] theorem State.opened_lines (s : State) (link : Station) : (s.opened link).lines = s.lines := rfl
@[simp] theorem State.opened_links (s : State) (link : Station) : (s.opened link).links = s.links.put link
      { (s.link link).resetReceiver .hunt with
        state := .up, silence := some (Config.ticksPerSecond * s.ret.settings.silence.at link) } := rfl
@[simp] theorem State.opened_pending (s : State) (link : Station) : (s.opened link).pending = s.pending := rfl

/-! ### noted -/

@[simp] theorem State.noted_ret (s : State) : (s.noted).ret = s.ret := rfl
@[simp] theorem State.noted_prior (s : State) : (s.noted).prior = s.ret := rfl
@[simp] theorem State.noted_running (s : State) : (s.noted).running = s.running := rfl
@[simp] theorem State.noted_tickCount (s : State) : (s.noted).tickCount = s.tickCount := rfl
@[simp] theorem State.noted_starvation (s : State) : (s.noted).starvation = s.starvation := rfl
@[simp] theorem State.noted_governor (s : State) : (s.noted).governor = s.governor := rfl
@[simp] theorem State.noted_controller (s : State) : (s.noted).controller = s.controller := rfl
@[simp] theorem State.noted_loop (s : State) : (s.noted).loop = s.loop := rfl
@[simp] theorem State.noted_meter (s : State) : (s.noted).meter = s.meter := rfl
@[simp] theorem State.noted_instruments (s : State) : (s.noted).instruments = s.instruments := rfl
@[simp] theorem State.noted_lines (s : State) : (s.noted).lines = s.lines := rfl
@[simp] theorem State.noted_links (s : State) : (s.noted).links = s.links := rfl
@[simp] theorem State.noted_pending (s : State) : (s.noted).pending = s.pending := rfl

/-! ### rated -/

@[simp] theorem State.rated_ret (s : State) : (s.rated).ret = s.ret := rfl
@[simp] theorem State.rated_prior (s : State) : (s.rated).prior = s.prior := rfl
@[simp] theorem State.rated_running (s : State) : (s.rated).running = s.running := rfl
@[simp] theorem State.rated_tickCount (s : State) : (s.rated).tickCount = s.tickCount := rfl
@[simp] theorem State.rated_starvation (s : State) : (s.rated).starvation = s.starvation := rfl
@[simp] theorem State.rated_governor (s : State) : (s.rated).governor = { s.governor with permitted := permittedRate s, term := limitingTerm s } := rfl
@[simp] theorem State.rated_controller (s : State) : (s.rated).controller = s.controller := rfl
@[simp] theorem State.rated_loop (s : State) : (s.rated).loop = s.loop := rfl
@[simp] theorem State.rated_meter (s : State) : (s.rated).meter = s.meter := rfl
@[simp] theorem State.rated_instruments (s : State) : (s.rated).instruments = s.instruments := rfl
@[simp] theorem State.rated_lines (s : State) : (s.rated).lines = s.lines := rfl
@[simp] theorem State.rated_links (s : State) : (s.rated).links = s.links := rfl
@[simp] theorem State.rated_pending (s : State) : (s.rated).pending = s.pending := rfl

/-! ### Values per station and tables -/

@[simp] theorem PerStation_at_put_same {α : Type} (p : PerStation α) (st : Station) (x : α) : (p.put st x).at st = x := by
  cases st <;> rfl

theorem PerStation_at_put_other {α : Type} (p : PerStation α) {st st' : Station} (x : α) (h : st' ≠ st) :
    (p.put st x).at st' = p.at st' := by
  cases st <;> cases st' <;> first | rfl | exact absurd rfl h

theorem PerStation_at_put {α : Type} (p : PerStation α) (st st' : Station) (x : α) :
    (p.put st x).at st' = if st' = st then x else p.at st' := by
  cases st <;> cases st' <;> rfl

@[simp] theorem at'_put_same {α : Type} {n : Nat} (v : Vector α n) (i : Fin n) (x : α) : at' (put v i x) i = x := by
  simp [at', put]

theorem at'_put {α : Type} {n : Nat} (v : Vector α n) (i j : Fin n) (x : α) :
    at' (put v i x) j = if j = i then x else at' v j := by
  simp only [at', put, Vector.getElem_set, Fin.ext_iff]
  split <;> split <;> first | rfl | omega

theorem at'_mapTable {α β : Type} {n : Nat} (f : α → β) (v : Vector α n) (i : Fin n) :
    at' (mapTable f v) i = f (at' v i) := by
  simp [at', mapTable]

theorem at'_zipTable {α β γ : Type} {n : Nat} (f : α → β → γ) (v : Vector α n) (w : Vector β n) (i : Fin n) :
    at' (zipTable f v w) i = f (at' v i) (at' w i) := by
  simp [at', zipTable]

/-! ### Reading one tank, line or link after an update -/

@[simp] theorem State.setTank_tank_same (s : State) (i : Fin 8) (t : Tank) : (s.setTank i t).tank i = t := by
  simp [State.tank]

theorem State.setTank_tank (s : State) (i j : Fin 8) (t : Tank) :
    (s.setTank i t).tank j = if j = i then t else s.tank j := by
  simp [State.tank, at'_put]

@[simp] theorem State.setLink_link_same (s : State) (link : Station) (l : Link) : (s.setLink link l).link link = l := by
  simp [State.link]

theorem State.setLink_link (s : State) (link other : Station) (l : Link) :
    (s.setLink link l).link other = if other = link then l else s.link other := by
  simp [State.link, PerStation_at_put]

@[simp] theorem State.setLine_line_same (s : State) (i : Fin 6) (l : LineService) : (s.setLine i l).line i = l := by
  simp [State.line]

theorem State.opened_link (s : State) (link other : Station) :
    (s.opened link).link other =
      if other = link then
        { (s.link link).resetReceiver .hunt with
          state := .up, silence := some (Config.ticksPerSecond * s.ret.settings.silence.at link) }
      else s.link other := by
  simp only [State.link, State.opened_links, PerStation_at_put]

end Sys2Proof.Machine
end

