-- ==== Sys2Proof/Laws/Delivery.lean ====
section
/-! SUPPORT. What each operation of the Delivery Controller and the Rate Governor can do, said once: the fields it
leaves alone are written into the equation, and the rest is described. -/

namespace Sys2Proof.Machine

/-- A state with another delivery state, governor, controller and no-flow detector: all that the moves of chapter 04
and 03 can change. -/
def State.redirect (s : State) (d : DeliveryState) (g : Governor) (c : Controller) (nf : NoFlow) : State :=
  { s with ret.delivery := d, governor := g, controller := c, meter.noFlow := nf }

/-- Controllers that differ in the stop cause, the timers and the command alone. -/
def Controller.sameSwitches (c c' : Controller) : Prop :=
  c'.openLimit = c.openLimit ∧ c'.closedLimit = c.closedLimit

theorem evalNoFlow_spec (s : State) : ∃ nf, evalNoFlow s = { s with meter.noFlow := nf } := by
  unfold evalNoFlow
  split
  · split
    · exact ⟨_, rfl⟩
    · exact ⟨s.meter.noFlow, rfl⟩
  · exact ⟨_, rfl⟩

/-- Outside PUMPING the no-flow detector is QUIET after an evaluation (R136). -/
theorem evalNoFlow_quiet (s : State) (h : s.ret.delivery ≠ .pumping) :
    evalNoFlow s = { s with meter.noFlow := .quiet } := by
  simp [evalNoFlow, noFlowCondition, h]

theorem evalOverspeed_spec (s : State) : ∃ ov, evalOverspeed s = { s with meter.overspeed := ov } := by
  unfold evalOverspeed
  split
  · split
    · exact ⟨_, rfl⟩
    · exact ⟨s.meter.overspeed, rfl⟩
    · exact ⟨s.meter.overspeed, rfl⟩
  · exact ⟨_, rfl⟩

theorem setCommand_spec (c : ValveCommand) (s : State) :
    ∃ st, setCommand c s = { s with controller := { s.controller with command := c, stroke := st } } := by
  unfold setCommand
  split
  · rename_i h; subst h; exact ⟨s.controller.stroke, rfl⟩
  · exact ⟨_, rfl⟩

/-- A change to a state other than PUMPING: demand 0, ramp timer stopped, no-flow detector QUIET (R72, R73, R136). -/
theorem setDelivery_spec (d : DeliveryState) (s : State) (h : d ≠ .pumping) :
    setDelivery d s = s.redirect d { s.governor with demand := 0, ramp := none } s.controller .quiet := by
  simp [setDelivery, evalNoFlow, noFlowCondition, h, State.redirect]

/-- Entry to SETTLING (R98). -/
theorem enterSettling_spec (s : State) :
    enterSettling s = s.redirect .settling { s.governor with demand := 0, ramp := none }
      { s.controller with settle := some (ticksOf s.ret.settings.settle) } .quiet := by
  simp [enterSettling, setDelivery_spec, State.redirect]

/-- A state redirected to what it holds is the state. -/
theorem State.redirect_self (s : State) :
    s.redirect s.ret.delivery s.governor s.controller s.meter.noFlow = s := rfl

/-- Entry to CLOSING ends in CLOSING or SETTLING, with the command CLOSED and the demand 0 (R97, R72). -/
theorem enterClosing_spec (s : State) : ∃ d c,
    enterClosing s = s.redirect d { s.governor with demand := 0, ramp := none } c .quiet ∧
      (d = .closing ∨ d = .settling) ∧ c.command = .closed ∧ c.rundown = none ∧
      c.armedFrom = s.controller.armedFrom ∧ c.stopCause = s.controller.stopCause ∧
      c.confirm = s.controller.confirm ∧ s.controller.sameSwitches c := by
  have hd : setDelivery .closing s =
      s.redirect .closing { s.governor with demand := 0, ramp := none } s.controller .quiet :=
    setDelivery_spec _ _ (by decide)
  obtain ⟨st, hst⟩ := setCommand_spec .closed { setDelivery .closing s with controller.rundown := none }
  have hc : enterClosing s =
      if (setCommand .closed { setDelivery .closing s with controller.rundown := none }).valve = .closed then
        enterSettling (setCommand .closed { setDelivery .closing s with controller.rundown := none })
      else setCommand .closed { setDelivery .closing s with controller.rundown := none } := rfl
  rw [hc]
  generalize setCommand .closed { setDelivery .closing s with controller.rundown := none } = x at hst
  rw [hd] at hst
  subst hst
  split
  · rw [enterSettling_spec]
    exact ⟨.settling, _, rfl, .inr rfl, rfl, rfl, rfl, rfl, rfl, rfl, rfl⟩
  · exact ⟨.closing, _, rfl, .inl rfl, rfl, rfl, rfl, rfl, rfl, rfl, rfl⟩

/-- Entry to RUNDOWN ends in RUNDOWN with the command as it was, or, with RUNDOWN 0, in CLOSING or SETTLING with the
command CLOSED (R94, R96). -/
theorem enterRundown_spec (s : State) : ∃ d c,
    enterRundown s = s.redirect d { s.governor with demand := 0, ramp := none } c .quiet ∧
      (d = .rundown ∧ c.command = s.controller.command ∨ (d = .closing ∨ d = .settling) ∧ c.command = .closed) ∧
      c.armedFrom = s.controller.armedFrom ∧ c.stopCause = s.controller.stopCause ∧
      c.confirm = s.controller.confirm ∧ s.controller.sameSwitches c := by
  have hd : setDelivery .rundown s =
      s.redirect .rundown { s.governor with demand := 0, ramp := none } s.controller .quiet :=
    setDelivery_spec _ _ (by decide)
  unfold enterRundown
  split
  · obtain ⟨d, c, h, hd', hc, -, ha, hs, hf, hw⟩ := enterClosing_spec
      { setDelivery .rundown s with controller.rundown := some (ticksOf s.ret.settings.rundown) }
    rw [hd] at h ha hs hf hw
    refine ⟨d, c, ?_, .inr ⟨hd', hc⟩, ha, hs, hf, hw⟩
    rw [hd]
    exact h
  · rw [hd]
    exact ⟨.rundown, _, rfl, .inl ⟨rfl, rfl⟩, rfl, rfl, rfl, rfl, rfl⟩

/-- The end decision leaves PUMPING for RUNDOWN, CLOSING or SETTLING (R68, R94). -/
theorem endDecision_spec (s : State) : ∃ d c,
    endDecision s = s.redirect d { s.governor with demand := 0, ramp := none } c .quiet ∧
      (d = .rundown ∧ c.command = s.controller.command ∨ (d = .closing ∨ d = .settling) ∧ c.command = .closed) ∧
      c.armedFrom = s.controller.armedFrom ∧ c.confirm = s.controller.confirm ∧ s.controller.sameSwitches c := by
  obtain ⟨d, c, h, hd, ha, -, hf, hw⟩ := enterRundown_spec
    { s with controller.stopCause := s.ret.active.map (endCauseNow s) }
  exact ⟨d, c, h, hd, ha, hf, hw⟩

/-- Outside PUMPING the Governor's comparison does nothing (R68). -/
theorem governorAct_idle (s : State) (h : s.ret.delivery ≠ .pumping) : governorAct s = s := by
  simp [governorAct, h]

/-- In PUMPING the comparison ends the step when P is below Rmin, and otherwise leaves a demand that P does not fall
below (R68, R74). -/
theorem governorAct_pumping (s : State) (h : s.ret.delivery = .pumping) :
    (s.governor.permitted < s.ret.settings.rmin ∧ governorAct s = endDecision s) ∨
      (s.ret.settings.rmin ≤ s.governor.permitted ∧ ∃ nf,
        governorAct s =
          s.redirect .pumping { s.governor with demand := min s.governor.demand s.governor.permitted } s.controller nf) := by
  unfold governorAct
  rw [if_pos h]
  split
  · exact .inl ⟨‹_›, rfl⟩
  · refine .inr ⟨by omega, ?_⟩
    rw [← h]
    split
    · obtain ⟨nf, hnf⟩ := evalNoFlow_spec { s with governor.demand := s.governor.permitted }
      refine ⟨nf, ?_⟩
      rw [hnf, Nat.min_eq_right (by omega)]
      rfl
    · refine ⟨s.meter.noFlow, ?_⟩
      rw [Nat.min_eq_left (by omega)]
      rfl

/-- Outside PUMPING a recomputation changes P and the limiting term alone (R67). -/
theorem recompute_idle (s : State) (h : s.ret.delivery ≠ .pumping) : recompute s = s.rated := by
  simp [recompute, governorAct, h, State.rated]

/-- Anywhere, a recomputation changes the delivery state, the governor, the controller and the no-flow detector
alone, and sets P and the limiting term to what the terms give (R67). -/
theorem recompute_spec (s : State) : ∃ d g c nf, recompute s = s.redirect d g c nf ∧
    g.permitted = permittedRate s ∧ g.term = limitingTerm s ∧ g.noRise = s.governor.noRise ∧
    c.armedFrom = s.controller.armedFrom ∧ c.confirm = s.controller.confirm ∧ s.controller.sameSwitches c ∧
    (s.ret.delivery ≠ .pumping → d = s.ret.delivery ∧ c = s.controller ∧ g.demand = s.governor.demand ∧
      g.ramp = s.governor.ramp ∧ nf = s.meter.noFlow) ∧
    (s.ret.delivery = .pumping →
      (d = .pumping ∧ s.ret.settings.rmin ≤ g.permitted ∧ g.demand = min s.governor.demand g.permitted ∧
        g.ramp = s.governor.ramp ∧ c = s.controller) ∨
      (g.permitted < s.ret.settings.rmin ∧ g.demand = 0 ∧ g.ramp = none ∧
        (d = .rundown ∧ c.command = s.controller.command ∨ (d = .closing ∨ d = .settling) ∧ c.command = .closed))) := by
  by_cases h : s.ret.delivery = .pumping
  · rcases governorAct_pumping s.rated h with ⟨hlt, he⟩ | ⟨hle, nf, he⟩
    · obtain ⟨d, c, hd, hc, ha, hf, hw⟩ := endDecision_spec s.rated
      exact ⟨d, { s.rated.governor with demand := 0, ramp := none }, c, .quiet, he.trans hd, rfl, rfl, rfl, ha, hf, hw,
        fun hn => absurd h hn, fun _ => .inr ⟨hlt, rfl, rfl, hc⟩⟩
    · exact ⟨.pumping, { s.rated.governor with demand := min s.governor.demand (permittedRate s) }, s.controller, nf,
        he, rfl, rfl, rfl, rfl, rfl, ⟨rfl, rfl⟩, fun hn => absurd h hn, fun _ => .inl ⟨rfl, hle, rfl, rfl, rfl⟩⟩
  · rw [recompute_idle s h]
    exact ⟨s.ret.delivery, s.rated.governor, s.controller, s.meter.noFlow, rfl, rfl, rfl, rfl, rfl, rfl, ⟨rfl, rfl⟩,
      fun _ => ⟨rfl, rfl, rfl, rfl, rfl⟩, fun hp => absurd hp h⟩

/-- Entry to PUMPING: the demand is Rmin while P supports it, else the step passes on (R71, R92). -/
theorem enterPumping_spec (s : State) : ∃ d g c nf, enterPumping s = s.redirect d g c nf ∧
    g.permitted = s.governor.permitted ∧ g.term = s.governor.term ∧ g.noRise = s.governor.noRise ∧
    c.armedFrom = s.controller.armedFrom ∧ c.confirm = s.controller.confirm ∧ s.controller.sameSwitches c ∧
    ((d = .pumping ∧ s.ret.settings.rmin ≤ g.permitted ∧ g.demand = s.ret.settings.rmin ∧
        g.ramp = some Config.ticksPerSecond ∧ c.command = s.controller.command) ∨
      (g.permitted < s.ret.settings.rmin ∧ g.demand = 0 ∧ g.ramp = none ∧
        (d = .rundown ∧ c.command = s.controller.command ∨ (d = .closing ∨ d = .settling) ∧ c.command = .closed))) := by
  obtain ⟨nf0, h0⟩ := evalNoFlow_spec { s with
    ret.delivery := .pumping, controller.stroke := none, governor.demand := s.ret.settings.rmin,
    governor.ramp := some Config.ticksPerSecond }
  have hu : enterPumping s = governorAct { s with
      ret.delivery := .pumping, controller.stroke := none, governor.demand := s.ret.settings.rmin,
      governor.ramp := some Config.ticksPerSecond, meter.noFlow := nf0 } := congrArg governorAct h0
  rw [hu]
  rcases governorAct_pumping { s with
      ret.delivery := .pumping, controller.stroke := none, governor.demand := s.ret.settings.rmin,
      governor.ramp := some Config.ticksPerSecond, meter.noFlow := nf0 } rfl with ⟨hlt, he⟩ | ⟨hle, nf, he⟩
  · obtain ⟨d, c, hd, hc, ha, hf, hw⟩ := endDecision_spec
      { s with
        ret.delivery := .pumping, controller.stroke := none, governor.demand := s.ret.settings.rmin,
        governor.ramp := some Config.ticksPerSecond, meter.noFlow := nf0 }
    exact ⟨d, { s.governor with demand := 0, ramp := none }, c, .quiet, he.trans hd, rfl, rfl, rfl, ha, hf, hw,
      .inr ⟨hlt, rfl, rfl, hc⟩⟩
  · exact ⟨.pumping, { s.governor with
        demand := min s.ret.settings.rmin s.governor.permitted, ramp := some Config.ticksPerSecond },
      { s.controller with stroke := none }, nf, he, rfl, rfl, rfl, rfl, rfl, ⟨rfl, rfl⟩,
      .inl ⟨rfl, hle, Nat.min_eq_left hle, rfl, rfl⟩⟩

/-! ### The end of an arming (R21, R88) -/

/-- The state once an arming has ended, before delivery moves: the confirm timer stopped and the number lapsed. -/
def State.disarmed (s : State) (r : Step) : State :=
  { s with
    controller.confirm := none, controller.armedFrom := none, ret.lapsed := insertNumber r.number s.ret.lapsed }

/-- Armed from IDLE: the step returns to the head of AGREED, and P is 0 with no limiting term (R21, R65). -/
theorem endArming_idle (how : ArmingEnd) (e : Event) (r : Step) (ha : e.s.ret.active = some r)
    (hf : e.s.controller.armedFrom = some .idle) :
    (endArming how e).s =
      ({ e.s.disarmed r with ret.active := none, ret.agreed := r :: e.s.ret.agreed }.redirect .idle
        { permitted := 0, term := .none, demand := 0, noRise := e.s.governor.noRise, ramp := none }
        (e.s.disarmed r).controller .quiet) := by
  unfold endArming
  rw [ha]
  dsimp only
  rw [if_pos hf]
  dsimp only
  rw [setDelivery_spec _ _ (by decide), recompute_idle _ (by simp [State.redirect])]
  rfl

/-- Armed from HELD: the step stays in the slot, in HELD (R21). -/
theorem endArming_held (how : ArmingEnd) (e : Event) (r : Step) (ha : e.s.ret.active = some r)
    (hf : e.s.controller.armedFrom ≠ some .idle) :
    (endArming how e).s =
      (e.s.disarmed r).redirect .held { e.s.governor with demand := 0, ramp := none } (e.s.disarmed r).controller
        .quiet := by
  unfold endArming
  rw [ha]
  dsimp only
  rw [if_neg hf]
  dsimp only
  rw [setDelivery_spec _ _ (by decide)]
  rfl

/-- With no step in the slot, which no run reaches, delivery becomes IDLE. -/
theorem endArming_none (how : ArmingEnd) (e : Event) (ha : e.s.ret.active = none) :
    (endArming how e).s =
      e.s.redirect .idle { e.s.governor with demand := 0, ramp := none }
        { e.s.controller with confirm := none, armedFrom := none } .quiet := by
  unfold endArming
  rw [ha]
  show setDelivery .idle _ = _
  rw [setDelivery_spec _ _ (by decide)]
  rfl

/-! ### The end of a step (R22, R23) -/

/-- A step that completes or is abandoned goes to the tail of DONE; delivery is IDLE and P is 0 (R18, R23, R65). -/
theorem finishStep_spec (cause : EndCause) (r : Step) (e : Event) :
    (finishStep cause r e).s =
      { e.s with
        ret.active := none,
        ret.done := e.s.ret.done ++ [{ r with endCause := some cause, endTime := some e.s.ret.transfer.clock }],
        ret.totals := countFinished e.s.ret.totals r.grade }.redirect .idle
        { permitted := 0, term := .none, demand := 0, noRise := e.s.governor.noRise, ramp := none } e.s.controller
        .quiet := by
  unfold finishStep
  dsimp only
  rw [setDelivery_spec _ _ (by decide), recompute_idle _ (by simp [State.redirect])]
  rfl

/-- A step that enters HELD (R22). -/
theorem holdStep_spec (last : LastStop) (r : Step) (s : State) :
    holdStep last r s =
      { s with
        ret.active := some { r with holdCount := bump8 r.holdCount, lastStop := some last } }.redirect .held
        { s.governor with demand := 0, ramp := none } s.controller .quiet := by
  unfold holdStep
  rw [setDelivery_spec _ _ (by decide)]

end Sys2Proof.Machine
end

