-- ==== Sys2Proof/Laws/Links.lean ====
section
/-! SUPPORT. What queueing does: a notice is offered to each link it is addressed to, and touches nothing but links. -/

namespace Sys2Proof.Machine

/-- A notice offered to one link: queued, or lost with notices-lost set (R191). -/
def Link.offer (l : Link) (f : Frame) : Link :=
  if l.state = .up ∧ l.full = false then { l with queue := l.queue ++ [f] } else { l with noticesLost := true }

def Link.offerAll (l : Link) (fs : List Frame) : Link := fs.foldl Link.offer l

/-- The frames of a list of notices that are addressed to a link, in order. -/
def framesFor (link : Station) (ns : List Notice) : List Frame :=
  ns.flatMap fun n => (n.stations.filter fun k => k == link).map fun _ => n.frame

theorem Link.offerAll_append (l : Link) (fs gs : List Frame) : l.offerAll (fs ++ gs) = (l.offerAll fs).offerAll gs := by
  simp [Link.offerAll]

theorem State.queueNotice_eq (s : State) (f : Frame) (link : Station) :
    s.queueNotice f link = s.setLink link ((s.link link).offer f) := by
  simp only [State.queueNotice, Link.offer]
  split <;> rfl

/-- A notice addressed to some stations changes their links alone. -/
theorem State.post_eq (s : State) (n : Notice) :
    ∃ ls, s.post n = { s with links := ls } ∧
      ∀ k, ls.at k = (s.links.at k).offerAll ((n.stations.filter fun j => j == k).map fun _ => n.frame) := by
  obtain ⟨stations, f⟩ := n
  simp only [State.post]
  induction stations generalizing s with
  | nil => exact ⟨s.links, rfl, fun k => rfl⟩
  | cons a rest ih =>
    obtain ⟨ls, h, hk⟩ := ih (s.setLink a ((s.link a).offer f))
    refine ⟨ls, ?_, fun k => ?_⟩
    · rw [List.foldl_cons, State.queueNotice_eq, h]
      rfl
    · rw [hk k, State.setLink_links, PerStation_at_put, List.filter_cons]
      by_cases hak : k = a
      · subst hak; simp [Link.offerAll, State.link]
      · have hne : (a == k) = false := by simpa using fun hh : a = k => hak hh.symm
        rw [if_neg hak, hne]
        rfl

/-- Posting notices changes the links alone, each by the frames addressed to it. -/
theorem State.postAll_spec (s : State) (ns : List Notice) :
    ∃ ls, s.postAll ns = { s with links := ls } ∧
      ∀ k, ls.at k = (s.links.at k).offerAll (framesFor k ns) := by
  induction ns generalizing s with
  | nil => exact ⟨s.links, rfl, fun k => rfl⟩
  | cons n rest ih =>
    obtain ⟨l1, h1, hk1⟩ := s.post_eq n
    obtain ⟨l2, h2, hk2⟩ := ih (s.post n)
    refine ⟨l2, ?_, fun k => ?_⟩
    · show (s.post n).postAll rest = _
      rw [h2, h1]
    · rw [hk2 k, h1]
      show (l1.at k).offerAll _ = _
      rw [hk1 k, ← Link.offerAll_append]
      rfl

theorem State.postAll_link (s : State) (ns : List Notice) (k : Station) :
    (s.postAll ns).link k = (s.link k).offerAll (framesFor k ns) := by
  obtain ⟨ls, h, hk⟩ := s.postAll_spec ns
  rw [h]
  exact hk k

/-- What an offer leaves of a link. -/
theorem Link.offerAll_keeps (l : Link) (fs : List Frame) :
    (l.offerAll fs).state = l.state ∧ (l.offerAll fs).silence = l.silence ∧ (l.offerAll fs).receiver = l.receiver ∧
      (l.offerAll fs).overrun = l.overrun ∧ (l.offerAll fs).errors = l.errors ∧ (l.offerAll fs).rate = l.rate := by
  induction fs generalizing l with
  | nil => exact ⟨rfl, rfl, rfl, rfl, rfl, rfl⟩
  | cons f rest ih =>
    have := ih (l.offer f)
    have ho : (l.offer f).state = l.state ∧ (l.offer f).silence = l.silence ∧ (l.offer f).receiver = l.receiver ∧
        (l.offer f).overrun = l.overrun ∧ (l.offer f).errors = l.errors ∧ (l.offer f).rate = l.rate := by
      unfold Link.offer; split <;> exact ⟨rfl, rfl, rfl, rfl, rfl, rfl⟩
    rw [ho.1, ho.2.1, ho.2.2.1, ho.2.2.2.1, ho.2.2.2.2.1, ho.2.2.2.2.2] at this
    exact this

theorem Link.offer_sound (l : Link) (f : Frame) (h : l.sound) : (l.offer f).sound := by
  unfold Link.offer
  split
  · rename_i hc
    obtain ⟨hu, hf⟩ := hc
    refine ⟨?_, fun hn => absurd hu hn, h.2.2⟩
    simp only [Link.full, decide_eq_false_iff_not] at hf
    simp only [List.length_append, List.length_cons, List.length_nil]
    omega
  · exact h

theorem Link.offerAll_sound (l : Link) (fs : List Frame) (h : l.sound) : (l.offerAll fs).sound := by
  induction fs generalizing l with
  | nil => exact h
  | cons f rest ih => exact ih _ (l.offer_sound f h)

end Sys2Proof.Machine
end

