-- ==== Sys2Proof/Laws/Events.lean ====
section
/-! SUPPORT. What the three kinds of event answer: a request, an event with notices, a quiet event. -/

namespace Sys2Proof.Machine

/-- The event in which a request's owner finds the part. -/
theorem State.opened_begin (s : State) (link : Station) :
    (s.opened link).begin =
      { s := s.opened link, began := s.ret.delivery, moved := none, notes := [], arming := none, late := [] } := rfl

theorem State.begin_eq (s : State) :
    s.begin = { s := s.noted, began := s.ret.delivery, moved := none, notes := [], arming := none, late := [] } := rfl

theorem State.opened_full (s : State) (link : Station) :
    ((s.opened link).link link).full = decide (Config.queueCapacity ≤ (s.link link).queue.length) := by
  simp [State.opened_link, Link.full, Link.resetReceiver]

/-- A request that its link can take and that fits its type is carried out by its owner, and answered (R192). -/
theorem request_taken {s : State} {link : Station} {type : RequestType} {tag : Byte} {formed : Bool}
    {owner : Event → Event × Answer} (h : s.canTake link type) (hf : formed = true) :
    request link type tag formed owner s =
      .next ((owner (s.opened link).begin).1.reply link
        (replyFrame type tag (owner (s.opened link).begin).2.result (owner (s.opened link).begin).2.data)) := by
  obtain ⟨hr, hq, hp⟩ := h
  have hfull : ((s.opened link).link link).full = false := by rw [State.opened_full]; simp; omega
  unfold request
  rw [if_pos hr]
  show (if ((s.opened link).link link).full then _ else _) = _
  rw [if_neg (by simp [hfull]), if_neg (by simp [hp]), if_neg (by simp [hf])]
  rfl

/-- All that a request can lead to (R179, R191, R193, R192). -/
theorem request_cases {s t : State} {link : Station} {type : RequestType} {tag : Byte} {formed : Bool}
    {owner : Event → Event × Answer} (h : request link type tag formed owner s = .next t) :
    (s.running = false ∧ t = s) ∨
      (s.running = true ∧ t = (s.opened link).overrun link) ∨
      (s.running = true ∧ (s.link link).queue.length < Config.queueCapacity ∧ ∃ f, t = (s.opened link).queueReply link f) ∨
      (s.canTake link type ∧ formed = true ∧
        ∃ f, t = (owner (s.opened link).begin).1.reply link f) := by
  by_cases hr : s.running = true
  · by_cases hfull : ((s.opened link).link link).full = true
    · refine .inr (.inl ⟨hr, ?_⟩)
      unfold request at h
      rw [if_pos hr] at h
      change (if ((s.opened link).link link).full then _ else _) = _ at h
      rw [if_pos hfull] at h
      exact (Host.Outcome.next.inj h).symm
    · have hq : (s.link link).queue.length < Config.queueCapacity := by
        rw [State.opened_full] at hfull; simpa using hfull
      unfold request at h
      rw [if_pos hr] at h
      change (if ((s.opened link).link link).full then _ else _) = _ at h
      rw [if_neg hfull] at h
      split at h
      · exact .inr (.inr (.inl ⟨hr, hq, _, (Host.Outcome.next.inj h).symm⟩))
      · split at h
        · exact .inr (.inr (.inl ⟨hr, hq, _, (Host.Outcome.next.inj h).symm⟩))
        · rename_i hp hf
          refine .inr (.inr (.inr ⟨⟨hr, hq, by simpa using hp⟩, by simpa using hf, _, (Host.Outcome.next.inj h).symm⟩))
  · refine .inl ⟨by simpa using hr, ?_⟩
    unfold request at h
    rw [if_neg hr] at h
    exact (Host.Outcome.next.inj h).symm

/-- All that an event with notices can lead to (R179). -/
theorem event_cases {s t : State} {f : Event → Event} (h : event s f = .next t) :
    (s.running = false ∧ t = s) ∨ (s.running = true ∧ t = (f s.begin).finish) := by
  unfold event at h
  split at h
  · exact .inr ⟨‹_›, (Host.Outcome.next.inj h).symm⟩
  · rename_i hr; exact .inl ⟨by simpa using hr, (Host.Outcome.next.inj h).symm⟩

theorem event_running {s : State} {f : Event → Event} (h : s.running = true) :
    event s f = .next (f s.begin).finish := by
  simp [event, h]

/-- All that a quiet event can lead to (R179). -/
theorem quietEvent_cases {s t : State} {f : State → State} (h : quietEvent s f = .next t) :
    (s.running = false ∧ t = s) ∨ (s.running = true ∧ t = f s.noted) := by
  unfold quietEvent at h
  split at h
  · exact .inr ⟨‹_›, (Host.Outcome.next.inj h).symm⟩
  · rename_i hr; exact .inl ⟨by simpa using hr, (Host.Outcome.next.inj h).symm⟩

theorem quietEvent_running {s : State} {f : State → State} (h : s.running = true) :
    quietEvent s f = .next (f s.noted) := by
  simp [quietEvent, h, State.noted]

end Sys2Proof.Machine
end

