-- ==== Sys2Proof/Laws/Moves.lean ====
section
/-! SUPPORT. What one command can do to the plan, the delivery, the holds, the tally, the limits and the links, said
once: a command that is no start and no stop is a chain of the moves below. A property of the state that every move
keeps is kept by every such command. -/

namespace Sys2Proof.Machine

/-! ### The part of the state the moves speak of -/

/-- The fields that only the named moves change. -/
structure Core where
  running : Bool
  pending : List Instr
  transferState : TransferState
  nextStep : Option Nat
  proposed : List Step
  agreed : List Step
  active : Option Step
  done : List Step
  free : Nat
  litres : Vector Nat 4
  rmax : Nat
  rmin : Nat
  cb : Nat
  tstop : Nat
  rundown : Nat
  tclose : Nat
  delivery : DeliveryState
  holds : List HoldEntry
  metered : Nat
  unassigned : Nat
  permitted : Nat
  demand : Nat
  rampRuns : Bool
  command : ValveCommand
  armedFrom : Option ArmedFrom
  loopOut : LoopState

def coreOf (s : State) : Core :=
  { running := s.running, pending := s.pending, transferState := s.ret.transfer.state, nextStep := s.ret.transfer.nextStep,
    proposed := s.ret.proposed, agreed := s.ret.agreed, active := s.ret.active, done := s.ret.done,
    free := s.ret.free, litres := mapTable GradeTotal.litres s.ret.totals, rmax := s.ret.settings.rmax,
    rmin := s.ret.settings.rmin, cb := s.ret.settings.cb, tstop := s.ret.settings.tstop,
    rundown := s.ret.settings.rundown, tclose := s.ret.settings.tclose, delivery := s.ret.delivery,
    holds := s.ret.holds, metered := s.ret.metered, unassigned := s.ret.unassigned,
    permitted := s.governor.permitted, demand := s.governor.demand, rampRuns := s.governor.ramp.isSome,
    command := s.controller.command, armedFrom := s.controller.armedFrom, loopOut := s.loop.loopOut }

/-- A step on PROPOSED after PROPOSE (R14). -/
def proposeEffect (link : Station) (n : Nat) (g : Fin 4) (entries : List TankEntry) (c : StepContent) (s : State) :
    State :=
  { s with
    ret.free := s.ret.free - 1, ret.transfer.nextStep := nextNumber n,
    ret.proposed := s.ret.proposed ++ [proposedStep link n g entries c] }

/-- The valve is commanded open for the armed step (R91). -/
def openingEffect (r : Step) (s : State) : State :=
  setCommand .opened (setDelivery .opening { s with
    controller.confirm := none, controller.armedFrom := none,
    ret.active := some { r with startTime := some (r.startTime.getD s.ret.transfer.clock) } })

/-- Litres credited to the step in the slot (R130, items 1 to 3). -/
def creditEffect (r : Step) (w : Nat) (s : State) : State :=
  { s with
    ret.metered := s.ret.metered + w, ret.active := some (r.credited w),
    ret.totals := addLitres s.ret.totals r.grade w }

/-- Litres to the unassigned total (R131, items 1 and 2). -/
def unassignEffect (w : Nat) (s : State) : State :=
  { s with ret.metered := s.ret.metered + w, ret.unassigned := s.ret.unassigned + w }

/-- The moves. -/
inductive Move : State → State → Prop where
  | note (s : State) : Move s s.noted
  | quiet (s t : State) (hc : coreOf t = coreOf s) (hp : t.prior = s.prior)
      (hl : ∀ k, (s.link k).sound → (t.link k).sound) : Move s t
  | holds (s : State) (l : List HoldEntry) (hr : s.running = true)
      (hn : (s.ret.holds.map HoldEntry.source).Nodup → (l.map HoldEntry.source).Nodup) : Move s (s.setHolds l)
  | closing (s : State) (hr : s.running = true) (hd : s.ret.delivery.flowing = true) : Move s (enterClosing s)
  | rundown (s : State) (hr : s.running = true) (hd : s.ret.delivery = .pumping) : Move s (enterRundown s)
  | settling (s : State) (hr : s.running = true) (hd : s.ret.delivery = .closing) : Move s (enterSettling s)
  | pumping (s : State) (hr : s.running = true) (hd : s.ret.delivery = .opening) : Move s (enterPumping s)
  | rate (s : State) (hr : s.running = true) : Move s (recompute s)
  | limits (s : State) (which : RateLimit) (v : Nat) (hr : s.running = true) :
      Move s (limitsAct which { s with
        ret.settings := setLimit s.ret.settings which (clampLimit s.ret.settings which v) })
  | stopTime (s : State) (which : StopTime) (v : Nat) (hr : s.running = true) :
      Move s { s with ret.settings := setStopTime s.ret.settings which (clampStopTime s.ret.settings which v) }
  | arming (e : Event) (how : ArmingEnd) (hr : e.s.running = true) (hd : e.s.ret.delivery = .armed) :
      Move e.s (endArming how e).s
  | arm (e : Event) (r : Step) (hr : e.s.running = true) (hn : startRefusal e.s = none)
      (hc : candidate e.s = some r) : Move e.s (armStep r e).s
  | opening (s : State) (r : Step) (hr : s.running = true) (hd : s.ret.delivery = .armed)
      (ha : s.ret.active = some r) : Move s (openingEffect r s)
  | finish (e : Event) (cause : EndCause) (r : Step) (hr : e.s.running = true)
      (hd : e.s.ret.delivery = .held ∨ e.s.ret.delivery = .settling) (ha : e.s.ret.active = some r) :
      Move e.s (finishStep cause r e).s
  | hold (s : State) (last : LastStop) (r : Step) (hr : s.running = true) (hd : s.ret.delivery = .settling)
      (ha : s.ret.active = some r) : Move s (holdStep last r s)
  | unheld (s : State) (hr : s.running = true) (hd : s.ret.delivery = .settling) (ha : s.ret.active ≠ none) :
      Move s (setDelivery .held s)
  | unslotted (s : State) (hr : s.running = true) (hd : s.ret.delivery = .settling) (ha : s.ret.active = none) :
      Move s (setDelivery .idle s)
  | ramp (s : State) (hr : s.running = true) (hd : s.ret.delivery = .pumping) :
      Move s (evalNoFlow { s with governor.ramp := some Config.ticksPerSecond, governor.demand := rampDemand s })
  | credit (s : State) (r : Step) (w : Nat) (hr : s.running = true) (ha : s.ret.active = some r)
      (hd : s.ret.delivery.crediting = true) (hm : s.ret.metered + w ≤ Config.max32) : Move s (creditEffect r w s)
  | unassign (s : State) (w : Nat) (hr : s.running = true) (hm : s.ret.metered + w ≤ Config.max32) :
      Move s (unassignEffect w s)
  | openTransfer (s : State) (id : Nat) (gs : List (Fin 4)) (hr : s.running = true)
      (hs : s.ret.transfer.state = .vacant ∨ s.ret.transfer.state = .closed ∧ s.ret.done = []) :
      Move s (openEffects id gs s)
  | joinTransfer (s : State) (hr : s.running = true) (hs : s.ret.transfer.state = .opened) :
      Move s { s with ret.transfer.state := .joined }
  | closeTransfer (s : State) (hr : s.running = true) (ha : s.ret.active = none) : Move s (closeEffects s)
  | propose (s : State) (link : Station) (n : Nat) (g : Fin 4) (entries : List TankEntry) (c : StepContent)
      (hr : s.running = true) (hl : link ≠ .survey) (hf : contentFormed c = true)
      (hs : s.ret.transfer.state = .opened ∨ s.ret.transfer.state = .joined) (hn : s.ret.transfer.nextStep = some n)
      (h0 : s.ret.free ≠ 0) (hc : checkContent s c = some (g, entries)) : Move s (proposeEffect link n g entries c s)
  | amend (s : State) (link : Station) (r : Step) (g : Fin 4) (entries : List TankEntry) (c : StepContent)
      (hr : s.running = true) (hl : link ≠ .survey) (hf : contentFormed c = true) (hm : r ∈ s.ret.proposed)
      (hc : checkContent s c = some (g, entries)) :
      Move s { s with ret.proposed := replaceStep s.ret.proposed (amendedStep link r g entries c) }
  | agree (s : State) (link : Station) (r : Step) (hr : s.running = true) (hl : link ≠ .survey)
      (hs : s.ret.transfer.state = .joined) (hm : r ∈ s.ret.proposed) (hk : r.marked link = false) :
      Move s { s with
        ret.proposed := dropStep s.ret.proposed r.number, ret.agreed := s.ret.agreed ++ [r.addMark link] }
  | revise (s : State) (link : Station) (n : Nat) (head : Bool) (hr : s.running = true) (hl : link ≠ .survey)
      (hs : s.ret.transfer.state = .joined) :
      Move s { s with
        ret.agreed := (splitRun s.ret.agreed n).1,
        ret.proposed :=
          if head then (splitRun s.ret.agreed n).2.map (fun q => q.onlyMark link) ++ s.ret.proposed
          else s.ret.proposed ++ (splitRun s.ret.agreed n).2.map fun q => q.onlyMark link }
  | freeProposed (s : State) (r : Step) (hr : s.running = true) (hm : r ∈ s.ret.proposed) :
      Move s (freeProposed r.number s)
  | freeAgreed (s : State) (r : Step) (hr : s.running = true) (hm : r ∈ s.ret.agreed) :
      Move s (freeAgreed r.number s)
  | take (s : State) (r : Step) (rest : List Step) (hr : s.running = true) (hm : s.ret.done = r :: rest) :
      Move s { s with ret.done := rest, ret.free := s.ret.free + 1 }

/-- A chain of moves. -/
inductive Reach : State → State → Prop where
  | refl (s : State) : Reach s s
  | tail {s t u : State} : Reach s t → Move t u → Reach s u

theorem Reach.trans {s t u : State} (h : Reach s t) (h' : Reach t u) : Reach s u := by
  induction h' with
  | refl => exact h
  | tail _ m ih => exact ih.tail m

theorem Move.reach {s t : State} (h : Move s t) : Reach s t := (Reach.refl s).tail h

/-- A property every move keeps is kept by every chain. -/
theorem Reach.keeps {P : State → Prop} (hP : ∀ s t, Move s t → P s → P t) {s t : State} (h : Reach s t) (hs : P s) :
    P t := by
  induction h with
  | refl => exact hs
  | tail _ m ih => exact hP _ _ m ih

/-- A change that leaves the core, retention memory's earlier copy and the links alone. -/
theorem quiet_of_core {s t : State} (hc : coreOf t = coreOf s) (hp : t.prior = s.prior) (hl : t.links = s.links) :
    Move s t :=
  .quiet s t hc hp fun k h => by simpa only [State.link, hl] using h

end Sys2Proof.Machine
end

