-- ==== Sys2Proof/Laws/Running.lean ====
section
/-! SUPPORT. A chain of moves leaves the running state and the queue of waiting commands alone. -/

namespace Sys2Proof.Machine

/-- Two states that run alike and have the same commands waiting. -/
def State.alike (s t : State) : Prop := t.running = s.running ∧ t.pending = s.pending

theorem State.alike_redirect (s : State) (d : DeliveryState) (g : Governor) (c : Controller) (nf : NoFlow) :
    s.alike (s.redirect d g c nf) := ⟨rfl, rfl⟩

theorem State.alike_trans {s t u : State} (h : s.alike t) (h' : t.alike u) : s.alike u :=
  ⟨h'.1.trans h.1, h'.2.trans h.2⟩

theorem alike_setDelivery (d : DeliveryState) (h : d ≠ .pumping) (s : State) : s.alike (setDelivery d s) := by
  rw [setDelivery_spec d s h]; exact s.alike_redirect _ _ _ _

theorem alike_evalNoFlow (s : State) : s.alike (evalNoFlow s) := by
  obtain ⟨nf, h⟩ := evalNoFlow_spec s; rw [h]; exact ⟨rfl, rfl⟩

theorem alike_evalOverspeed (s : State) : s.alike (evalOverspeed s) := by
  obtain ⟨nf, h⟩ := evalOverspeed_spec s; rw [h]; exact ⟨rfl, rfl⟩

theorem alike_setCommand (c : ValveCommand) (s : State) : s.alike (setCommand c s) := by
  obtain ⟨st, h⟩ := setCommand_spec c s; rw [h]; exact ⟨rfl, rfl⟩

theorem alike_recompute (s : State) : s.alike (recompute s) := by
  obtain ⟨d, g, c, nf, h, -⟩ := recompute_spec s; rw [h]; exact s.alike_redirect _ _ _ _

theorem alike_enterClosing (s : State) : s.alike (enterClosing s) := by
  obtain ⟨d, c, h, -⟩ := enterClosing_spec s; rw [h]; exact s.alike_redirect _ _ _ _

theorem alike_enterRundown (s : State) : s.alike (enterRundown s) := by
  obtain ⟨d, c, h, -⟩ := enterRundown_spec s; rw [h]; exact s.alike_redirect _ _ _ _

theorem alike_enterSettling (s : State) : s.alike (enterSettling s) := by
  rw [enterSettling_spec]; exact s.alike_redirect _ _ _ _

theorem alike_enterPumping (s : State) : s.alike (enterPumping s) := by
  obtain ⟨d, g, c, nf, h, -⟩ := enterPumping_spec s; rw [h]; exact s.alike_redirect _ _ _ _

theorem alike_endArming (how : ArmingEnd) (e : Event) : e.s.alike (endArming how e).s := by
  cases ha : e.s.ret.active with
  | none => rw [endArming_none how e ha]; exact ⟨rfl, rfl⟩
  | some r =>
    by_cases hf : e.s.controller.armedFrom = some .idle
    · rw [endArming_idle how e r ha hf]; exact ⟨rfl, rfl⟩
    · rw [endArming_held how e r ha hf]; exact ⟨rfl, rfl⟩

theorem alike_liftDemand (s : State) : s.alike (liftDemand s) := by
  unfold liftDemand
  split
  · exact State.alike_trans (t := { s with governor.demand := s.ret.settings.rmin }) ⟨rfl, rfl⟩ (alike_evalNoFlow _)
  · exact ⟨rfl, rfl⟩

theorem alike_limitsAct (which : RateLimit) (s : State) : s.alike (limitsAct which s) := by
  unfold limitsAct
  have h := State.alike_trans (alike_recompute s) (alike_liftDemand (recompute s))
  dsimp only
  split
  · exact State.alike_trans h (alike_evalOverspeed _)
  · exact h

theorem alike_armStep (r : Step) (e : Event) : e.s.alike (armStep r e).s := by
  unfold armStep
  dsimp only
  refine State.alike_trans ?_ (alike_recompute _)
  rw [setDelivery_spec _ _ (by decide)]
  by_cases h : e.s.ret.delivery = .held
  · rw [if_pos h]; exact ⟨rfl, rfl⟩
  · rw [if_neg h]; exact ⟨rfl, rfl⟩

theorem Move.alike {s t : State} (h : Move s t) : s.alike t := by
  cases h with
  | quiet _ _ hc => exact ⟨congrArg Core.running hc, congrArg Core.pending hc⟩
  | closing => exact alike_enterClosing _
  | rundown => exact alike_enterRundown _
  | settling => exact alike_enterSettling _
  | pumping => exact alike_enterPumping _
  | rate => exact alike_recompute _
  | limits which v => exact State.alike_trans (t := { s with ret.settings := _ }) ⟨rfl, rfl⟩ (alike_limitsAct _ _)
  | arming e how => exact alike_endArming how _
  | arm e r => exact alike_armStep r _
  | opening r =>
    refine State.alike_trans ?_ (alike_setCommand _ _)
    rw [setDelivery_spec _ _ (by decide)]
    exact ⟨rfl, rfl⟩
  | finish e cause r => rw [finishStep_spec]; exact ⟨rfl, rfl⟩
  | hold last r => rw [holdStep_spec]; exact ⟨rfl, rfl⟩
  | unheld => exact alike_setDelivery _ (by decide) _
  | unslotted => exact alike_setDelivery _ (by decide) _
  | ramp => exact State.alike_trans (t := { s with governor.ramp := _, governor.demand := _ }) ⟨rfl, rfl⟩ (alike_evalNoFlow _)
  | openTransfer id gs =>
    refine State.alike_trans ?_ (alike_recompute _)
    exact ⟨rfl, rfl⟩
  | _ => exact ⟨rfl, rfl⟩

theorem Reach.alike {s t : State} (h : Reach s t) : s.alike t := by
  induction h with
  | refl => exact ⟨rfl, rfl⟩
  | tail _ m ih => exact State.alike_trans ih m.alike

theorem Reach.running {s t : State} (h : Reach s t) (hr : s.running = true) : t.running = true :=
  h.alike.1.trans hr

end Sys2Proof.Machine
end

