-- ==== Sys2Proof/Laws/Chains.lean ====
section
/-! SUPPORT. The operations of the blocks as chains of moves. -/

namespace Sys2Proof.Machine

/-- A change of one tank is quiet. -/
theorem quiet_setTank (s : State) (i : Fin 8) (t : Tank) : Move s (s.setTank i t) := quiet_of_core rfl rfl rfl

/-- A change of one line is quiet. -/
theorem quiet_setLine (s : State) (i : Fin 6) (l : LineService) : Move s (s.setLine i l) := quiet_of_core rfl rfl rfl

theorem quiet_setLink (s : State) (k : Station) (l : Link) (h : (s.link k).sound → l.sound) : Move s (s.setLink k l) := by
  refine .quiet _ _ rfl rfl fun j hj => ?_
  rw [State.setLink_link]
  split
  · rename_i hjk; subst hjk; exact h hj
  · exact hj

theorem quiet_evalNoFlow (s : State) : Move s (evalNoFlow s) := by
  obtain ⟨nf, h⟩ := evalNoFlow_spec s; rw [h]; exact quiet_of_core rfl rfl rfl

theorem quiet_evalOverspeed (s : State) : Move s (evalOverspeed s) := by
  obtain ⟨nf, h⟩ := evalOverspeed_spec s; rw [h]; exact quiet_of_core rfl rfl rfl

theorem quiet_fixCause (c : StopCause) (s : State) : Move s (fixCause c s) := quiet_of_core rfl rfl rfl

/-! ### The hold list -/

theorem findHold_some {l : List HoldEntry} {src : HoldSource} {h : HoldEntry} (hf : findHold l src = some h) :
    h ∈ l ∧ h.source = src := by
  unfold findHold at hf
  exact ⟨List.mem_of_find?_eq_some hf, by simpa using List.find?_some hf⟩

theorem findHold_none {l : List HoldEntry} {src : HoldSource} (hf : findHold l src = none) :
    src ∉ l.map HoldEntry.source := by
  unfold findHold at hf
  simpa using hf

/-- A raise keeps at most one entry per source (R104, R105). -/
theorem raisedList_nodup (s : State) (src : HoldSource) (cls : HoldClass) (reason : HoldReason)
    (h : (s.ret.holds.map HoldEntry.source).Nodup) :
    ((raisedList s src cls reason).map HoldEntry.source).Nodup := by
  unfold raisedList
  split
  · have he : (s.ret.holds.map fun h => if h.source = src then h.again cls reason else h).map HoldEntry.source =
        s.ret.holds.map HoldEntry.source := by
      rw [List.map_map]
      apply List.map_congr_left
      intro x _
      simp only [Function.comp_apply]
      split <;> rfl
    rw [he]; exact h
  · rename_i hf
    have hs : (raisedEntry s src cls reason).source = src := by simp [raisedEntry, hf]
    rw [List.map_append, List.map_cons, List.map_nil, hs]
    rw [List.nodup_append]
    refine ⟨h, by simp, fun a ha b hb => ?_⟩
    simp only [List.mem_cons, List.not_mem_nil, or_false] at hb
    subst hb
    intro hab
    subst hab
    exact findHold_none hf ha

theorem removed_nodup (l : List HoldEntry) (src : HoldSource) (h : (l.map HoldEntry.source).Nodup) :
    ((l.filter fun e => decide (e.source ≠ src)).map HoldEntry.source).Nodup :=
  h.sublist ((List.filter_sublist).map _)

theorem deliveryTakesRaise_reach (src : HoldSource) (cls : HoldClass) (e : Event) (hr : e.s.running = true) :
    Reach e.s (deliveryTakesRaise src cls e).s := by
  unfold deliveryTakesRaise
  have hfix : ∀ f : State → State, Move (fixCause (.hold src) e.s) (f (fixCause (.hold src) e.s)) →
      Reach e.s (f (fixCause (.hold src) e.s)) := fun f h => (quiet_fixCause _ _).reach.tail h
  split
  · rename_i hd; exact (Move.arming e _ hr hd).reach
  · rename_i hd; exact hfix enterClosing (.closing _ hr (by show e.s.ret.delivery.flowing = true; rw [hd]; rfl))
  · rename_i hd
    cases cls
    · exact hfix enterRundown (.rundown _ hr hd)
    · exact hfix enterClosing (.closing _ hr (by show e.s.ret.delivery.flowing = true; rw [hd]; rfl))
  · rename_i hd
    cases cls
    · exact .refl _
    · exact (Move.closing _ hr (by rw [hd]; rfl)).reach
  all_goals exact .refl _

/-- A raise is a chain of moves (R107). -/
theorem raiseHold_reach (src : HoldSource) (cls : HoldClass) (reason : HoldReason) (e : Event)
    (hr : e.s.running = true) : Reach e.s (raiseHold src cls reason e).s := by
  refine Reach.trans (Move.holds e.s (raisedList e.s src cls reason) hr (raisedList_nodup _ _ _ _)).reach ?_
  exact deliveryTakesRaise_reach src _ { e with s := e.s.setHolds (raisedList e.s src cls reason) } hr

/-- A raise continues a chain of moves (R107). -/
theorem raiseHold_after {s : State} {e : Event} (src : HoldSource) (cls : HoldClass) (reason : HoldReason)
    (h : Reach s e.s) (hr : s.running = true) : Reach s (raiseHold src cls reason e).s :=
  h.trans (raiseHold_reach src cls reason e (h.running hr))

/-- A removal is a move (R117). -/
theorem removeHold_reach (src : HoldSource) (by_ : Station) (e : Event) (hr : e.s.running = true) :
    Reach e.s (removeHold src by_ e).s :=
  (Move.holds e.s _ hr (removed_nodup _ _)).reach

/-! ### The Watch -/

theorem evalHigh_reach (i : Fin 8) (est high : Nat) (e : Event) : Reach e.s (evalHigh i est high e).s := by
  unfold evalHigh
  dsimp only
  split
  · split
    · exact .refl _
    · exact (quiet_setTank _ _ _).reach
  · exact (quiet_setTank _ _ _).reach

theorem evalTrip_reach (i : Fin 8) (est trip : Nat) (e : Event) (hr : e.s.running = true) :
    Reach e.s (evalTrip i est trip e).s := by
  unfold evalTrip
  dsimp only
  split
  · split
    · exact .refl _
    · refine raiseHold_after _ _ _ ?_ hr
      exact (quiet_setTank e.s i { e.s.tank i with overTrip := true }).reach
  · exact (quiet_setTank _ _ _).reach

theorem evalTank_reach (i : Fin 8) (e : Event) (hr : e.s.running = true) : Reach e.s (evalTank i e).s := by
  unfold evalTank
  split
  · rename_i d est _ _
    have h1 := evalHigh_reach i est d.highVolume e
    have h2 := evalTrip_reach i est d.tripVolume (evalHigh i est d.highVolume e) (h1.running hr)
    exact (h1.trans h2).tail (quiet_setTank _ _ _)
  · exact .refl _

theorem foldl_reach {α : Type} (f : Event → α → Event)
    (hf : ∀ e a, e.s.running = true → Reach e.s (f e a).s) (l : List α) (e : Event) (hr : e.s.running = true) :
    Reach e.s (l.foldl f e).s := by
  induction l generalizing e with
  | nil => exact .refl _
  | cons a rest ih => exact (hf e a hr).trans (ih _ ((hf e a hr).running hr))

theorem evalTanks_reach (test : Fin 8 → Bool) (e : Event) (hr : e.s.running = true) :
    Reach e.s (evalTanks test e).s :=
  foldl_reach _ (fun e i h => evalTank_reach i e h) _ e hr

theorem applyReport_quiet (s : State) (g : GaugeEntry) : Reach s (applyReport s g) := by
  unfold applyReport
  split
  · exact .refl _
  · exact (quiet_setTank _ _ _).reach

theorem foldl_state_reach {α : Type} (f : State → α → State) (hf : ∀ s a, Reach s (f s a)) (l : List α) (s : State) :
    Reach s (l.foldl f s) := by
  induction l generalizing s with
  | nil => exact .refl _
  | cons a rest ih => exact (hf s a).trans (ih _)

theorem takeGauge_reach (entries : List GaugeEntry) (e : Event) (hr : e.s.running = true) :
    Reach e.s (takeGauge entries e).1.s := by
  unfold takeGauge
  split
  · exact .refl _
  · split
    · exact .refl _
    · have h1 := foldl_state_reach applyReport applyReport_quiet entries e.s
      have h2 := evalTanks_reach (fun i => entries.any fun g => g.tank == oct i.val)
        (e.mod fun s => entries.foldl applyReport s) (h1.running hr)
      exact (h1.trans h2).tail (.rate _ ((h1.trans h2).running hr))

theorem takeTankdef_reach (index : Byte) (c : TankContent) (e : Event) (hr : e.s.running = true) :
    Reach e.s (takeTankdef index c e).1.s := by
  unfold takeTankdef
  split
  · exact .refl _
  · rename_i i _
    split
    · unfold undefineTank
      split
      · exact .refl _
      · split
        · exact .refl _
        · exact (quiet_setTank _ i coldTank).reach.tail (.rate _ hr)
    · unfold defineTank
      dsimp only
      split
      · exact .refl _
      · split
        · exact .refl _
        · have h1 := (quiet_setTank e.s i ((e.s.tank i).redefine (clampTankDef c))).reach
          have h2 := evalTank_reach i (e.mod fun s => s.setTank i ((s.tank i).redefine (clampTankDef c))) hr
          exact (h1.trans h2).tail (.rate _ ((h1.trans h2).running hr))

theorem takeStagedef_reach (index : Byte) (c : StageContent) (e : Event) (hr : e.s.running = true) :
    Reach e.s (takeStagedef index c e).1.s := by
  unfold takeStagedef
  split
  · dsimp only
    split
    · exact .refl _
    · refine Reach.tail ?_ (.rate _ ?_)
      · exact (quiet_of_core rfl rfl rfl : Move e.s (applyStage _ _ e.s)).reach
      · exact hr
  · exact .refl _

theorem restatus_reach (watched : Fin 8 → Bool) (i : Fin 8) (e : Event) (hr : e.s.running = true) :
    Reach e.s (restatus watched i e).s := by
  unfold restatus
  dsimp only
  split
  · exact .refl _
  · have h1 := (quiet_setTank e.s i
      { e.s.tank i with status := (e.s.tank i).agedStatus e.s.ret.settings.stale }).reach
    split
    · exact h1
    · exact h1
    · exact h1
    · split
      · exact raiseHold_after _ _ _ h1 hr
      · exact h1

/-- The statuses of several tanks are a chain of moves (R42, R44). -/
theorem restatusAll_reach (test : Fin 8 → Bool) (e : Event) (hr : e.s.running = true) :
    Reach e.s (restatusAll test e).s :=
  foldl_reach _ (fun _ i h => restatus_reach _ i _ h) _ e hr

/-! ### Credits -/

theorem carryCredits_reach (old new : List TankEntry) (s : State) : Reach s (carryCredits old new s) := by
  induction old generalizing new s with
  | nil => cases new <;> exact .refl _
  | cons o olds ih =>
    cases new with
    | nil => exact .refl _
    | cons n news => exact (quiet_setTank _ _ _).reach.trans (ih _ _)

theorem creditPulse_reach (r : Step) (e : Event) (hr : e.s.running = true) (ha : e.s.ret.active = some r)
    (hd : e.s.ret.delivery.crediting = true) (hm : e.s.ret.metered + e.s.ret.settings.weight ≤ Config.max32) :
    Reach e.s (creditPulse r e).s := by
  have h1 := (Move.credit e.s r e.s.ret.settings.weight hr ha hd hm).reach
  have h2 := h1.trans (carryCredits_reach r.tanks (r.credited e.s.ret.settings.weight).tanks _)
  let carried := carryCredits r.tanks (r.credited e.s.ret.settings.weight).tanks
    (creditEffect r e.s.ret.settings.weight e.s)
  have h3 := evalTanks_reach (creditChanged r.tanks (r.credited e.s.ret.settings.weight).tanks)
    { e with s := carried } (h2.running hr)
  exact (h2.trans h3).tail (.rate _ ((h2.trans h3).running hr))

theorem unassignPulse_reach (e : Event) (hr : e.s.running = true)
    (hm : e.s.ret.metered + e.s.ret.settings.weight ≤ Config.max32) : Reach e.s (unassignPulse e).s := by
  have h := (Move.unassign e.s e.s.ret.settings.weight hr hm).reach
  unfold unassignPulse
  dsimp only
  split <;> exact h

theorem tallyPulse_reach (e : Event) (hr : e.s.running = true)
    (hm : e.s.ret.metered + e.s.ret.settings.weight ≤ Config.max32) : Reach e.s (tallyPulse e).s := by
  unfold tallyPulse
  split
  · rename_i hd
    split
    · rename_i r ha; exact creditPulse_reach r e hr ha hd hm
    · exact unassignPulse_reach e hr hm
  · exact unassignPulse_reach e hr hm

/-! ### Instruments -/

theorem tripRole_reach (old : Instruments) (e : Event) (r : Role) (hr : e.s.running = true) :
    Reach e.s (tripRole old e r).s := by
  unfold tripRole
  split
  · exact raiseHold_reach _ _ _ e hr
  · exact .refl _

theorem handOnRoles_reach (i : Fin 4) (prev : AgentState) (role : Option Role) (e : Event)
    (hr : e.s.running = true) : Reach e.s (handOnRoles i prev role e).s := by
  have h1 : Reach e.s (e.mod deriveRoles).s := (quiet_of_core rfl rfl rfl : Move e.s (deriveRoles e.s)).reach
  have h2 := h1.trans (foldl_reach (tripRole e.s.instruments) (fun e r h => tripRole_reach _ e r h) allRoles
    (e.mod deriveRoles) (h1.running hr))
  have h3 := h2.tail (quiet_of_core (t := deriveNoRise (evalInstrumentStages e.s.instruments
    (allRoles.foldl (tripRole e.s.instruments) (e.mod deriveRoles)).s)) rfl rfl rfl)
  exact h3.tail (.rate _ (h3.running hr))

theorem quiet_pollFrom (n : Nat) (s : State) : Move s (pollFrom n s) := quiet_of_core rfl rfl rfl

theorem takeSetAgent_reach (link : Station) (address : Byte) (c : AgentContent) (e : Event) (hr : e.s.running = true) :
    Reach e.s (takeSetAgent link address c e).1.s := by
  unfold takeSetAgent
  split
  · exact .refl _
  · split
    · rename_i i role use _ _ _
      dsimp only
      split
      · exact .refl _
      · unfold applyAgent
        dsimp only
        refine Reach.trans ?_ (handOnRoles_reach _ _ _ _ ?_)
        · refine (quiet_of_core ?_ ?_ ?_).reach
          all_goals
            simp only [Event.mod, restartAgent]
            split <;> try split
          all_goals rfl
        · simp only [Event.mod, restartAgent]
          split <;> try split
          all_goals exact hr
    · exact .refl _

/-! ### Lines -/

theorem raiseLine_reach (n : Fin 6) (cls : HoldClass) (e : Event) (hr : e.s.running = true) :
    Reach e.s (raiseLine n cls e).s := raiseHold_reach _ _ _ e hr

theorem raisePermit_reach (n : Fin 6) (e : Event) (hr : e.s.running = true) : Reach e.s (raisePermit n e).s :=
  raiseHold_reach _ _ _ e hr

theorem raiseMissingPermits_reach (e : Event) (hr : e.s.running = true) : Reach e.s (raiseMissingPermits e).s :=
  foldl_reach _ (fun e n h => raisePermit_reach n e h) _ e hr

theorem lineActive_reach (n : Fin 6) (e : Event) (hr : e.s.running = true) : Reach e.s (lineActive n e).s := by
  unfold lineActive
  dsimp only
  have h1 := (quiet_setLine e.s n { e.s.line n with active := true, count := 0, latch := true }).reach
  split
  · exact raiseHold_after _ _ _ h1 hr
  · exact h1

theorem lineInactive_reach (n : Fin 6) (e : Event) (hr : e.s.running = true) : Reach e.s (lineInactive n e).s := by
  unfold lineInactive
  dsimp only
  have h1 := (quiet_setLine e.s n { e.s.line n with active := false, count := 0 }).reach
  split
  · exact raiseHold_after _ _ _ h1 hr
  · exact h1

theorem lineFollows_reach (n : Fin 6) (e : Event) (hr : e.s.running = true) : Reach e.s (lineFollows n e).s := by
  unfold lineFollows
  split
  · exact lineActive_reach n e hr
  · exact lineInactive_reach n e hr

theorem applyLine_reach (n : Fin 6) (c : LineConfig) (e : Event) (hr : e.s.running = true) :
    Reach e.s (applyLine n c e).s := by
  unfold applyLine
  dsimp only
  split
  · refine raiseHold_after _ _ _ ?_ hr
    refine (quiet_of_core ?_ ?_ ?_).reach <;> rfl
  · split
    · refine raiseHold_after _ _ _ ?_ hr
      refine (quiet_of_core ?_ ?_ ?_).reach <;> rfl
    · refine (quiet_of_core ?_ ?_ ?_).reach <;> rfl

theorem takeSetLine_reach (link : Station) (line : Byte) (c : LineContent) (e : Event) (hr : e.s.running = true) :
    Reach e.s (takeSetLine link line c e).1.s := by
  unfold takeSetLine
  split
  · exact .refl _
  · split
    · dsimp only
      split
      · exact .refl _
      · exact applyLine_reach _ _ _ hr
    · exact .refl _

/-! ### Posting -/

/-- Posting notices is quiet. -/
theorem quiet_postAll (s : State) (ns : List Notice) : Move s (s.postAll ns) := by
  obtain ⟨ls, h, hk⟩ := s.postAll_spec ns
  rw [h]
  refine .quiet _ _ rfl rfl fun k hs => ?_
  show (ls.at k).sound
  rw [hk k]
  exact Link.offerAll_sound _ _ hs

/-! ### Completed debounces taken first -/

/-- An event begun on a state and ended is a chain of moves if its changes are (R177, R190). -/
theorem event_reach {s : State} {e : Event} (h : Reach s.noted e.s) : Reach s e.finish :=
  ((Move.note s).reach.trans h).tail (quiet_postAll _ _)

/-- A change of a line's debounced state is a chain of moves (R161). -/
theorem lineEvent_reach (s : State) (n : Fin 6) (hr : s.running = true) : Reach s (lineEvent s n) :=
  event_reach (lineFollows_reach n s.begin hr)

/-- Without a completed debounce of the line there is nothing to take first (R161). -/
theorem settleLine_idle {n : Fin 6} {s : State} (h : lineDebounced s n = false) : settleLine n s = s := by
  simp [settleLine, h]

/-- The completed debounces of a line and those below it are taken as a chain of moves (R161). -/
theorem settleLine_reach (n : Fin 6) (s : State) (hr : s.running = true) : Reach s (settleLine n s) := by
  unfold settleLine
  split
  · have h : ∀ (l : List (Fin 6)) (s : State), s.running = true → Reach s (l.foldl lineEvent s) := by
      intro l
      induction l with
      | nil => exact fun s _ => .refl _
      | cons a rest ih =>
        exact fun s hr => (lineEvent_reach s a hr).trans (ih _ ((lineEvent_reach s a hr).running hr))
    exact h _ s hr
  · exact .refl _

/-- Without a completed debounce of loop IN there is nothing to take first (R111). -/
theorem settleLoop_idle {s : State} (h : loopDebounced s = false) : settleLoop s = s := by
  simp [settleLoop, h]

/-- A completed debounce of loop IN is taken as a chain of moves (R111, R112). -/
theorem settleLoop_reach (s : State) (hr : s.running = true) : Reach s (settleLoop s) := by
  unfold settleLoop
  split
  · refine event_reach ?_
    have h1 : Reach s.noted (s.begin.mod fun s => { s with loop.loopIn := s.loop.rawIn, loop.count := 0 }).s := by
      refine Move.reach ?_
      exact quiet_of_core rfl rfl rfl
    unfold loopFollows
    dsimp only
    split
    · exact raiseHold_after _ _ _ h1 hr
    · exact h1
  · exact .refl _

end Sys2Proof.Machine
end

