-- ==== Sys2Proof/Tests/Slice0.lean ====
section
/-! SUPPORT. Tests: ill-formed commands are refused by WellFormed, single steps of the manual's worked examples, and for
every statement with hypotheses states and operands that meet them (`meets_…`). Expected values come from the manual. -/

namespace Sys2Proof.Tests

open Sys2Proof.Machine

/-! ### Helpers -/

/-- A command answers a next state that passes a test. -/
def gives (c : Instr) (s : State) (p : State → Bool) : Bool :=
  match exec c s with
  | .next t => p t
  | .fault _ | .refused _ => false

def upLink : Link := { startLink with state := .up, silence := some 100 }

/-- After reset, with the links UP and no hold left on the list. -/
def calm : State :=
  { State.reset with ret.holds := [], loop.loopOut := .closed, links := { barge := upLink, ship := upLink, survey := upLink } }

/-- A step of a number, with tank entries as index, share and credit. -/
def stepOf (n : Nat) (tanks : List (Fin 8 × Nat × Nat)) (q d : Nat) : Step :=
  { number := n, grade := 0, tanks := tanks.map fun p => { tank := p.1, share := p.2.1, credit := p.2.2 }, quantity := q,
    rateCap := none, proposer := .barge, markBarge := true, markShip := true, delivered := d, holdCount := 0,
    endCause := none, lastStop := none, startTime := none, endTime := none }

/-- A FRESH tank with high 950 and trip 980 permille. -/
def tankOf (capacity contents credited : Nat) : Tank :=
  { coldTank with
    definition := some { capacity := capacity, high := 950, trip := 980 }, contents := some contents,
    credited := credited, status := .fresh }

/-- A JOINED transfer with tanks 2 to 6 defined and reported. -/
def joined : State :=
  let s := { calm with
    ret.transfer := { state := .joined, id := some 7, grades := [0, 2], nextStep := some 20, clock := 9 } }
  ((((s.setTank 2 (tankOf 400000 1000 0)).setTank 3 (tankOf 500000 1000 0)).setTank 4 (tankOf 400000 1000 0)).setTank 5
    (tankOf 300000 1000 0)).setTank 6 (tankOf 400000 1000 0)

/-- A step in the slot in a delivery state, with the valve where that state has it. -/
def running (d : DeliveryState) (r : Step) : State :=
  let open_ := d.flowing
  { joined with
    ret.free := 23, ret.active := some r, ret.delivery := d,
    controller.command := if open_ then .opened else .closed, controller.openLimit := d = .pumping || d = .rundown,
    controller.closedLimit := !open_,
    governor.demand := if d = .pumping then 40 else 0, governor.ramp := if d = .pumping then some 0 else none,
    instruments.hose.blind := false }

/-- One tank, all of the step: Q 80,000 L, none delivered. -/
def plain : Step := stepOf 7 [(4, 100, 0)] 80000 0

def pumping : State := running .pumping plain

def replies (s : State) (link : Station) : List (List Byte) := (s.link link).queue.map Frame.data

def heldBy (s : State) : List (HoldSource × HoldClass × Nat) := s.ret.holds.map fun h => (h.source, h.cls, h.repeats)

/-! ### Ill-formed commands -/

theorem test_illformed_open (grades : List Byte) (h : grades.length = 196) :
    WellFormed (.openTransfer .barge 0 1 grades) = false := by simp [WellFormed, maxFrameLength, h]
theorem test_illformed_propose : WellFormed (.propose .barge 0 ⟨1, List.replicate 96 ⟨1, 1⟩, 1, 1⟩) = false := by decide
theorem test_illformed_amend : WellFormed (.amend .barge 0 1 ⟨1, List.replicate 95 ⟨1, 1⟩, 1, 1⟩) = false := by decide
theorem test_illformed_gauge : WellFormed (.gauge .ship 0 (List.replicate 40 ⟨1, 1⟩)) = false := by decide
theorem test_illformed_unknown : WellFormed (.unknownRequest .barge 0 0x16#8) = false := by decide
theorem test_illformed_transaction : WellFormed (.transactionEnd (List.replicate 8 1)) = false := by decide

/-! ### Chapter 10: frames -/

def step27 : State := { joined with ret.agreed := [stepOf 27 [(4, 100, 0)] 1000 0] }

/-- Chapter 11's worked example: the octets of AGREE 27 with tag 5 bring the reply A5 03 86 05 24 4E FF. -/
theorem test_agree_octets :
    (match receive .ship [0xA5, 0x03, 0x06, 0x05, 0x1B, 0x3B, 0xD7, 0xFF] step27 with
      | .next t => (t.link .ship).queue.map Frame.onLine == [[0xA5, 0x03, 0x86, 0x05, 0x24, 0x4E, 0xFF]]
      | .fault _ | .refused _ => false) = true := by decide

/-- The check word of the same frame is FFD7h. -/
theorem test_check_word : checkWord [0x03, 0x06, 0x05, 0x1B] = 0xFFD7 := by decide

/-! ### Chapter 01: building a plan -/

def content (grade : Byte) (tanks : List (Byte × Byte)) (q : Word32) (cap : Word16) : StepContent :=
  { grade := grade, tanks := tanks.map fun p => ⟨p.1, p.2⟩, quantity := q, rateCap := cap }

def marks (l : List Step) : List (Nat × Bool × Bool) := l.map fun r => (r.number, r.markBarge, r.markShip)

theorem test_open_4107 : gives (.openTransfer .barge 1 4107 [1, 3]) State.reset (fun t =>
    t.ret.transfer.state = .opened && t.ret.transfer.id = some 4107 && t.ret.transfer.grades = [0, 2] &&
      t.ret.transfer.nextStep = some 1) = true := by decide
theorem test_join : gives (.joinTransfer .ship 1) { joined with ret.transfer.state := .opened } (fun t =>
    t.ret.transfer.state = .joined && replies t .survey = [[7, 0, 1, 2]]) = true := by decide
theorem test_propose_before_join : gives (.propose .ship 2 (content 3 [(6, 100)] 120000 300))
    { joined with ret.transfer.state := .opened } (fun t => replies t .ship = [[0x24]]) = true := by decide
theorem test_propose_step_3 : gives (.propose .ship 2 (content 3 [(6, 100)] 120000 300))
    { joined with ret.transfer.nextStep := some 3 } (fun t =>
      marks t.ret.proposed = [(3, false, true)] && t.ret.free = 23 && (t.ret.proposed.map Step.rateCap) = [some 300]) =
    true := by decide

def threeSteps : State := { joined with
  ret.free := 21, ret.proposed := [(stepOf 1 [(2, 100, 0)] 250000 0).onlyMark .barge,
    (stepOf 2 [(2, 40, 0), (4, 60, 0)] 400000 0).onlyMark .barge, (stepOf 3 [(6, 100, 0)] 120000 0).onlyMark .ship] }

theorem test_agree_2 : gives (.agree .ship 3 2) threeSteps (fun t =>
    marks t.ret.proposed = [(1, true, false), (3, false, true)] && marks t.ret.agreed = [(2, true, true)] &&
      sumQuantity t.ret.proposed = 370000) = true := by decide
theorem test_amend_1 : gives (.amend .ship 4 1 (content 1 [(2, 100)] 180000 0)) threeSteps (fun t =>
    (marks t.ret.proposed).head? = some (1, false, true) && sumQuantity t.ret.proposed = 700000) = true := by decide
theorem test_revise_2_head : gives (.revise .ship 5 2 0)
    { threeSteps with
      ret.proposed := [(stepOf 3 [(6, 100, 0)] 120000 0).onlyMark .ship],
      ret.agreed := [stepOf 2 [(4, 100, 0)] 400000 0, stepOf 1 [(2, 100, 0)] 180000 0] }
    (fun t => marks t.ret.proposed = [(2, false, true), (1, false, true), (3, false, true)] && t.ret.agreed = []) =
    true := by decide
theorem test_withdraw_3 : gives (.withdraw .barge 6 3) threeSteps (fun t =>
    t.ret.free = 22 && (marks t.ret.proposed).length = 2) = true := by decide
theorem test_close_frees_records : gives (.closeTransfer .barge 7) threeSteps (fun t =>
    t.ret.free = 24 && t.ret.transfer.state = .closed) = true := by decide
theorem test_take_empty : gives (.take .survey 8) joined (fun t => t.starvation.survey = 1) = true := by decide

/-- A hold of every source. -/
def full : State := { joined with ret.holds := allSources.map fun src => ⟨src, .trip, .opened, 9, 0⟩ }

/-- R198: READ HOLDS with 18 entries has 184 data octets, its result code among them. R197: STATUS has 38. -/
theorem test_read_holds_full : (holdsData full).length + 1 = 184 := by rfl
theorem test_status_length : gives (.status .survey 1) full (fun t => (replies t .survey).map List.length = [38]) = true := by
  decide
/-- R198: the TAKE reply of a record with three tanks has 50 data octets. -/
theorem test_take_three_tanks :
    gives (.take .survey 1) { joined with ret.done := [stepOf 8 [(2, 34, 0), (4, 33, 0), (6, 33, 0)] 1000 0] } (fun t =>
      (replies t .survey).head?.map List.length = some 50) = true := by decide

/-! ### Chapters 02 and 03: shares, estimates, the permitted rate -/

def thirds (first others : Nat) : List TankEntry :=
  [⟨2, 34, first⟩, ⟨4, 33, others⟩, ⟨6, 33, others⟩]

/-- R39's worked example at D 4 and D 7. -/
theorem test_split : splitCredits 4 (thirds 3 0) = thirds 2 1 ∧ splitCredits 7 (thirds 4 1) = thirds 3 2 := by
  decide

/-- The fourth pulse: entry 1 falls by 1, and tank 2's credit since its report stays at 0. -/
theorem test_pulse_cuts_fall_short :
    gives .meterPulse (running .opening { plain with tanks := thirds 3 0, delivered := 3 }) (fun t =>
      t.ret.active.map Step.tanks = some (thirds 2 1) && (t.tank 2).credited = 0 && (t.tank 4).credited = 1) =
    true := by decide

/-- The step of chapter 03's worked example, at a D with the two credits, and tank 3 reported with a credit since. -/
def governed (d c3 c5 v3 since3 since5 demand : Nat) (engaged0 : Bool) : State :=
  let r := { stepOf 1 [(3, 60, c3), (5, 40, c5)] 600000 d with rateCap := some 800 }
  let s := running .pumping r
  ({ s with
    ret.settings.rmax := 1000, governor.demand := demand, governor.permitted := demand, meter.rate := 400,
    ret.stages := #v[
      { enabled := true, input := .tankFill, enter := 900, leave := 880, mode := .eighths, k := 1,
        instrumentEngaged := false },
      { enabled := true, input := .tankFill, enter := 800, leave := 780, mode := .fraction, k := 1,
        instrumentEngaged := false }, coldStage, coldStage] }.setTank 3
      { tankOf 500000 v3 since3 with engaged := #v[engaged0, true, false, false] }).setTank 5 (tankOf 300000 200000 since5)

theorem test_stage_limits : permittedRate (governed 520000 312000 208000 410000 0 0 400 false) = 400 ∧
    limitingTerm (governed 520000 312000 208000 410000 0 0 400 false) = .stageTank 1 3 := by decide
theorem test_quantity_limits : permittedRate (governed 597000 358200 238800 430000 4200 30800 360 false) = 360 ∧
    limitingTerm (governed 597000 358200 238800 430000 4200 30800 360 false) = .quantity ∧
    permittedRate (governed 599666 359800 239866 430000 5800 31866 40 false) = 40 := by decide

/-- Event 2: the credit at D 586,666 engages stage 0 and lowers the demand from 400 to 200. -/
theorem test_pulse_engages_stage : gives .meterPulse (governed 586665 351999 234666 410000 39999 26666 400 false) (fun t =>
    t.governor.permitted = 200 && t.governor.term = .stageTank 0 3 && t.governor.demand = 200 &&
      (t.tank 3).fill = some 900) = true := by decide
/-- Event 8: the credit at D 599,667 brings P to 39 and ends the step, QUANTITY. -/
theorem test_pulse_ends_step : gives .meterPulse (governed 599666 359800 239866 430000 5800 31866 40 false) (fun t =>
    t.governor.permitted = 39 && t.ret.delivery = .rundown && t.controller.stopCause = some .quantity &&
      t.governor.demand = 0) = true := by decide
/-- Event 4: a report of 430,000 L disengages stage 0; the demand does not follow P at once. -/
theorem test_gauge_disengages : gives (.gauge .ship 1 [⟨3, 430000⟩]) (governed 590000 354000 236000 410000 42000 28000 200 true)
    (fun t => t.governor.permitted = 400 && t.governor.demand = 200 && (t.tank 3).fill = some 860) = true := by decide

/-- The worked example of a trip level lowered in delivery, events 1 and 3. -/
def trip5 : State := (running .pumping (stepOf 1 [(3, 60, 0), (5, 40, 0)] 600000 0)).setTank 5 (tankOf 300000 272000 0)

theorem test_tankdef_in_delivery : gives (.tankdef .ship 1 5 ⟨1, 320000, 950, 980⟩) trip5 (fun t =>
    replies t .ship = [[0x24]]) = true := by decide
theorem test_tankdef_lowers_trip : gives (.tankdef .ship 1 5 ⟨1, 300000, 880, 870⟩) trip5 (fun t =>
    (t.tank 5).definition = some ⟨300000, 880, 885⟩ && (t.tank 5).highCrossed && (t.tank 5).overTrip &&
      heldBy t = [(.overfill, .trip, 0)] && t.ret.delivery = .closing && (replies t .ship).head? = some [0x02]) =
    true := by decide

/-- A capped step whose tank goes stale at the 601st tick: P 30 is below Rmin, and the step ends TOPPED with tank 2. -/
theorem test_stale_ends_step : gives (.reportStale 2)
    ((running .pumping { stepOf 1 [(2, 100, 0)] 50000 0 with rateCap := some 60 }).setTank 2
      { tankOf 400000 362000 0 with age := 601 }) (fun t =>
      t.governor.permitted = 30 && t.controller.stopCause = some (.topped 2) && (t.tank 2).status = .stale) = true := by
  decide
theorem test_stagedef_clamps : gives (.stagedef .ship 1 3 ⟨1, 0, 1001, 1001, 0, 8⟩) joined (fun t =>
    t.stage 3 = { enabled := true, input := .tankFill, enter := 1000, leave := 999, mode := .eighths, k := 7,
                  instrumentEngaged := false }) = true := by decide

/-- The ramp with interruptions: a rise by U, and none while a pressure role warns. -/
theorem test_ramp_rises : gives .rampSecond { pumping with governor.permitted := 400 } (fun t => t.governor.demand = 60) =
    true := by decide
theorem test_ramp_held : gives .rampSecond
    { pumping with governor.permitted := 400, governor.demand := 140, governor.noRise := true }
    (fun t => t.governor.demand = 140 && t.governor.ramp = some 10) = true := by decide

/-! ### Chapter 04: a step from start to DONE, a lapsed arming, a stop that goes wrong -/

def agreedTwo : State := { joined with ret.free := 22, ret.agreed := [{ plain with number := 9 }, { plain with number := 10 }] }

def armed9 : State :=
  { running .armed { plain with number := 9 } with
    controller.armedFrom := some .idle, controller.confirm := some 0, ret.agreed := [{ plain with number := 10 }] }

theorem test_start_arms : gives (.startStep .barge 1) agreedTwo (fun t =>
    t.ret.delivery = .armed && t.ret.active.map Step.number = some 9 && t.controller.confirm = some 1200 &&
      (t.link .ship).queue.length = 2) = true := by decide
theorem test_start_held : gives (.startStep .barge 1)
    { agreedTwo with ret.holds := [⟨.survey, .pause, .operator 1, 0, 0⟩] } (fun t => replies t .barge = [[0x28]]) = true := by
  decide
theorem test_confirm_expires : gives .confirmExpiry armed9 (fun t =>
    t.ret.delivery = .idle && t.ret.agreed.map Step.number = [9, 10] && t.ret.lapsed = [9] &&
      (t.link .ship).queue.length = 2) = true := by decide
theorem test_lined_late : gives (.lined .ship 2 9) { agreedTwo with ret.lapsed := [9] } (fun t =>
    t.ret = { agreedTwo with ret.lapsed := [9] }.ret && replies t .ship = [[0x2C]]) = true := by decide
theorem test_lined_opens : gives (.lined .ship 2 9) armed9 (fun t =>
    t.ret.delivery = .opening && t.controller.command = .opened && t.controller.stroke = some 300 &&
      t.ret.active.bind Step.startTime = some 9) = true := by decide
theorem test_open_end_pumps : gives (.limitSwitchChange .openLimit 5000)
    { running .opening plain with governor.permitted := 400, controller.stroke := some 110 } (fun t =>
      t.ret.delivery = .pumping && t.governor.demand = 40 && t.governor.ramp = some 10 && t.controller.stroke = none) =
    true := by decide
theorem test_closed_end_settles : gives (.limitSwitchChange .closedLimit 5000)
    { running .closing plain with controller.closedLimit := false, controller.stroke := some 70 } (fun t =>
      t.ret.delivery = .settling && t.controller.settle = some 100 && t.controller.stroke = none) = true := by decide

/-- A measured rate of 31 m³/h in RUNDOWN, below Rmin: 44 L in the window. -/
theorem test_rate_ends_rundown : gives .rateSecond
    { running .rundown plain with meter.window := #v[50, 9, 9, 9, 9], meter.bin := 8, meter.rateTimer := 0 } (fun t =>
      t.meter.rate = 31 && t.ret.delivery = .closing && t.controller.command = .closed && t.controller.stroke = some 200) =
    true := by decide
theorem test_settled_done : gives .settleExpiry
    { running .settling plain with controller.settle := some 0, controller.stopCause := some .quantity } (fun t =>
      t.ret.delivery = .idle && t.ret.active = none && t.ret.done.map Step.endCause = [some .quantity]) = true := by decide
theorem test_settled_held : gives .settleExpiry
    { running .settling plain with controller.settle := some 0, controller.stopCause := some (.stopped .ship) } (fun t =>
      t.ret.delivery = .held && t.ret.active.map Step.lastStop = some (some (.stopped .ship)) &&
        t.ret.active.map Step.holdCount = some 1) = true := by decide
theorem test_stop_runs_down : gives (.stopStep .ship 1) pumping (fun t =>
    t.ret.delivery = .rundown && t.controller.stopCause = some (.stopped .ship) && t.controller.rundown = some 50 &&
      t.ret.holds = []) = true := by decide
theorem test_rundown_expires : gives .rundownExpiry { running .rundown plain with controller.rundown := some 0 } (fun t =>
    t.ret.delivery = .closing && t.controller.stroke = some 200) = true := by decide
theorem test_stroke_expires : gives .strokeTimerExpiry
    { running .closing plain with controller.closedLimit := false, controller.stroke := some 0 } (fun t =>
      t.ret.holds.map HoldEntry.reason = [.noClose] && t.ret.delivery = .closing) = true := by decide

/-! ### Chapter 05: a station hold, a drip tray and a halt; two loops after a power return -/

def wet : State :=
  { running .rundown plain with
    ret.holds := [⟨.survey, .pause, .operator 7, 9, 0⟩, ⟨.line 4, .pause, .line .dripTray .level, 9, 0⟩],
    lines := #v[startLine, startLine, startLine, startLine, { startLine with active := true }, startLine],
    controller.stopCause := some (.hold .survey) }

theorem test_hold_escalates : gives (.hold .survey 1 1 9) wet (fun t =>
    heldBy t = [(.survey, .trip, 1), (.line 4, .pause, 0)] && t.loop.loopOut = .opened && t.ret.delivery = .closing &&
      t.controller.stopCause = some (.hold .survey)) = true := by decide
theorem test_clear_persists : gives (.clear .barge 2 11) wet (fun t => replies t .barge = [[0x2E]] && heldBy t = heldBy wet) =
    true := by decide
theorem test_release_not_owner : gives (.release .ship 3 3) wet (fun t => replies t .ship = [[0x23]]) = true := by decide
theorem test_halt_appends : gives (.halt .survey)
    { joined with ret.holds := [⟨.line 4, .pause, .line .dripTray .level, 9, 0⟩] } (fun t =>
      heldBy t = [(.line 4, .pause, 0), (.survey, .trip, 0)] && t.loop.loopOut = .opened) = true := by decide

def shipLoopOpen : InputSample :=
  { power := ⟨24000, false⟩, loopIn := 0, lines := #v[0, 0, 0, 0, 0, 0], openLimit := 0, closedLimit := 0,
    straps := { barge := (true, false), ship := (false, true), survey := (true, true) } }

theorem test_warm_start : gives (.warmStart shipLoopOpen []) { pumping with ret.holds := [] } (fun t =>
    heldBy t = [(.power, .trip, 0), (.loop, .trip, 0)] && t.ret.delivery = .held && t.loop.loopOut = .opened &&
      t.ret.active.bind Step.lastStop = some .power && t.controller.stroke = some 200 && (t.tank 4).status = .stale &&
      (t.link .barge).rate = .b19200) = true := by decide
theorem test_cold_start : gives (.coldStart .markerLost shipLoopOpen [.watch]) pumping (fun t =>
    heldBy t = [(.power, .trip, 0), (.loop, .trip, 0)] && t.ret.transfer.state = .vacant && t.ret.free = 24 &&
      t.ret.marker) = true := by decide
theorem test_loop_debounced : gives .loopInDebounceComplete
    { joined with ret.holds := [⟨.loop, .trip, .opened, 0, 0⟩], loop.rawIn := .closed, loop.loopIn := .opened, loop.count := 2 }
    (fun t => t.loop.loopIn = .closed && heldBy t = [(.loop, .trip, 0)]) = true := by decide
theorem test_clear_power_closes_loop : gives (.clear .barge 1 18)
    { joined with
      ret.holds := [⟨.power, .trip, .warm, 0, 0⟩, ⟨.loop, .trip, .opened, 0, 0⟩], loop.loopOut := .opened, loop.loopIn := .opened }
    (fun t => heldBy t = [(.loop, .trip, 0)] && t.loop.loopOut = .closed) = true := by decide

/-! ### Chapter 06: where the litres go, a pump that does not start, an overspeed on the edge -/

theorem test_tenth_seeping_pulse : gives .meterPulse
    { joined with ret.settings.weight := 10, ret.metered := 90, ret.unassigned := 90 } (fun t =>
      t.ret.unassigned = 100 && t.meter.bin = 10 && (t.link .survey).queue.length = 1) = true := by decide
theorem test_rates : rateOf 6 = 4 ∧ rateOf 9 = 6 ∧ rateOf 12 = 8 ∧ rateOf 14 = 10 ∧ rateOf 15 = 10 ∧ rateOf 1361 = 979 ∧
    rateOf 1406 = 1012 ∧ rateOf 1450 = 1044 ∧ rateOf 1431 = 1030 ∧ rateOf 1384 = 996 := by decide
theorem test_overspeed_timed : gives .rateSecond
    { pumping with meter.window := #v[0, 281, 281, 281, 281], meter.bin := 282, meter.rateTimer := 0 } (fun t =>
      t.meter.rate = 1012 && t.meter.overspeed = .timing 50) = true := by decide
theorem test_overspeed_trips : gives .overspeedExpiry { pumping with meter.overspeed := .timing 0 } (fun t =>
    heldBy t = [(.meter, .trip, 0)] && t.ret.delivery = .closing && t.meter.overspeed = .latched) = true := by decide
theorem test_no_flow_pauses : gives .noFlowExpiry { pumping with meter.noFlow := .timing 0 } (fun t =>
    heldBy t = [(.meter, .pause, 0)] && t.ret.delivery = .rundown && t.meter.noFlow = .quiet) = true := by decide

/-! ### Chapter 07: a hose pressure agent falling out of service -/

def hoseAgents (h1 : List PollOutcome) (s1 : AgentState) (v1 : Nat) (h2 : List PollOutcome) (s2 : AgentState) (v2 : Nat) :
    State :=
  let a1 : AgentConfig := { enabled := true, role := some .hosePressure, channels := 2, use := .higher, warn := 1400, trip := 1800 }
  let a2 : AgentConfig := { enabled := true, role := some .hosePressure, channels := 1, use := .first, warn := 1200, trip := 1600 }
  { pumping with
    ret.settings.rmax := 800, governor.permitted := 400, governor.demand := 400, meter.rate := 400,
    ret.active := some { plain with rateCap := some 400 },
    ret.settings.agents := #v[a1, a2, coldAgent, coldAgent],
    instruments.agents := #v[⟨h1, s1, some v1, 0⟩, ⟨h2, s2, some v2, 0⟩, startAgent, startAgent],
    instruments.hose :=
      { value := some (max v1 v2), blind := false, warn := some 1200, trip := some 1600, warned := false, tripped := false } }

/-- Round 1: agent 1 replies 1210 and 1240 kPa; the role warns on agent 2's limit. -/
theorem test_role_warns : gives (.transactionEnd [1, 0xBA, 4, 0xD8, 4, 0x65])
    { hoseAgents [.good, .good, .good] .present 900 [.good, .good, .good] .present 870 with
      instruments.polling := some 0 } (fun t =>
      t.instruments.hose.value = some 1240 && t.instruments.hose.warned && t.governor.noRise &&
        t.instruments.polling = some 1) = true := by decide
/-- Round 3: agent 2's missing reply leaves no agent PRESENT; the blind cap lowers the demand to Cb. -/
theorem test_role_blind : gives (.transactionEnd [])
    { hoseAgents [.noReply, .badCheck, .good] .suspect 1240 [.good, .good, .good] .present 1190 with
      instruments.polling := some 1 } (fun t =>
      t.instruments.hose.blind && t.governor.permitted = 200 && t.governor.demand = 200 &&
        (t.agent 1).state = .suspect) = true := by decide
/-- A complete reply of one channel is GOOD, whatever octet follows it (R147). -/
theorem test_octet_behind_reply : gives (.transactionEnd [2, 0xBA, 4, 0x40, 9])
    { hoseAgents [.good, .good, .good] .present 900 [.good, .good, .good] .present 870 with
      instruments.polling := some 1 } (fun t => (t.agent 1).value = some 1210 && (t.agent 1).state = .present) =
    true := by decide
theorem test_poll_begins : gives .pollCycleExpiry
    { hoseAgents [] .unknown 0 [] .unknown 0 with instruments.pollTimer := 0 } (fun t =>
      t.instruments.polling = some 0 && t.instruments.pollTimer = 10) = true := by decide
/-- HOSE-PRESSURE's only PRESENT agent becomes a TENSION agent: the AGENT notice, PRESENT to UNKNOWN, reports
HOSE-PRESSURE blind (R145, R154). -/
theorem test_moved_agent_reports_blindness : gives (.setAgentConfiguration .barge 1 1 ⟨1, 3, 1, 0, 1400, 1800⟩)
    (hoseAgents [.good, .good, .good] .present 900 [] .unknown 0) (fun t =>
      (replies t .barge).contains [0, 1, 1, 0, 1, 0xFF, 0xFF, 1, 0, 0]) = true := by decide
theorem test_agent_clamped : gives (.setAgentConfiguration .barge 1 1 ⟨1, 1, 1, 2, 4000, 0⟩) joined (fun t =>
    t.agentConfig 0 = { enabled := true, role := some .hosePressure, channels := 1, use := .first, warn := 3999, trip := 4000 }) =
    true := by decide

/-! ### Chapter 08: a permit lost and a breakaway -/

def permitLine (count : Nat) : State :=
  { pumping with
    ret.settings.lines := #v[coldLine,
      { coldLine with function := .permit, debounce := 10, trigger := .level, notify := ⟨true, false, false⟩ }, coldLine,
      { coldLine with function := .breakaway, debounce := 0, trigger := .edge, notify := ⟨true, true, true⟩ }, coldLine, coldLine],
    lines := #v[startLine, { raw := false, active := true, count := count, latch := false }, startLine, startLine, startLine,
      startLine] }

theorem test_permit_counts_again : gives (.rawLineChange 1 5000) (permitLine 6) (fun t =>
    (t.line 1).count = 0 && (t.line 1).active && t.ret.delivery = .pumping) = true := by decide
theorem test_permit_lost : gives (.lineDebounceComplete 1) (permitLine 10) (fun t =>
    heldBy t = [(.line 1, .pause, 0)] && t.ret.delivery = .rundown && (t.line 1).active = false) = true := by decide
/-- Lines 1 and 3 are due together: line 1 is taken first (R161). -/
theorem test_lower_line_first : gives (.lineDebounceComplete 3)
    (let s := permitLine 10
     { s with
       ret.settings.lines := s.ret.settings.lines.set 3 { coldLine with function := .breakaway, debounce := 4, trigger := .level },
       lines := s.lines.set 3 { raw := true, active := false, count := 4, latch := false } }) (fun t =>
      heldBy t = [(.line 1, .pause, 0), (.line 3, .trip, 0)] && (t.line 3).active && t.ret.delivery = .closing) =
    true := by decide
theorem test_breakaway : gives (.rawLineChange 3 5000) (permitLine 0) (fun t =>
    heldBy t = [(.line 3, .trip, 0)] && (t.line 3).latch && t.ret.delivery = .closing &&
      (t.link .survey).queue.length = 3) = true := by decide
theorem test_line_set : gives (.setLineConfiguration .barge 1 6 ⟨4, 1, 21, 1, 0xFF⟩) joined (fun t =>
    t.lineConfig 5 = ⟨.dripTray, true, 20, .level, ⟨true, true, true⟩⟩ && (t.line 5).active && heldBy t = []) = true := by
  decide

/-! ### Chapter 09: the dependent clamps -/

theorem test_set_rmin : gives (.setRateLimits .barge 1 .rmin 0 250) calm (fun t =>
    t.ret.settings.cb = 250 && replies t .barge = [[0, 2, 0, 250, 0, 1, 5, 250, 0]]) = true := by decide
theorem test_set_rmax : gives (.setRateLimits .barge 1 .rmax 0 180) { calm with ret.settings.rmin := 250, ret.settings.cb := 250 }
    (fun t => t.ret.settings.rmin = 180 && t.ret.settings.cb = 180) = true := by decide
theorem test_set_tclose : gives (.setStopTimes .barge 1 .tclose 0 40) calm (fun t =>
    t.ret.settings.tstop = 45 && replies t .barge = [[0, 8, 0, 40, 0, 1, 4, 45, 0]]) = true := by decide
theorem test_set_tstop : gives (.setStopTimes .barge 1 .tstop 0 20) { calm with ret.settings.tclose := 40, ret.settings.tstop := 45 }
    (fun t => t.ret.settings.tstop = 45 && replies t .barge = [[2, 4, 0, 45, 0, 0]]) = true := by decide
theorem test_set_w_refused : gives (.setW .survey 1 0 2) joined (fun t => replies t .survey = [[0x24]]) = true := by decide
theorem test_set_s_stales : gives (.setS .ship 1 0 10) (joined.setTank 4 { tankOf 400000 1000 0 with age := 101 }) (fun t =>
    (t.tank 4).status = .stale && (t.tank 3).status = .fresh) = true := by decide
/-- Two tanks of the step LOST with one S: each raises, the second as a repeat (R42, R44, R105). -/
theorem test_set_s_loses_two : gives (.setS .ship 1 0 10)
    (((running .pumping (stepOf 7 [(3, 50, 0), (4, 50, 0)] 80000 0)).setTank 3
      { tankOf 400000 1000 0 with age := 201 }).setTank 4 { tankOf 400000 1000 0 with age := 201 }) (fun t =>
    heldBy t = [(.overfill, .trip, 1)] && t.ret.holds.map HoldEntry.reason = [.gaugeLost 4] &&
      t.ret.delivery = .closing) = true := by decide
theorem test_part_stops : gives (.partStops ⟨⟨15999, false⟩, false⟩) { pumping with prior := joined.ret } (fun t =>
    t.ret = joined.ret && t.running = false && t.rateOutput = .below 1000) = true := by decide
theorem test_part_runs_on : gives (.partStops ⟨⟨16000, false⟩, true⟩) pumping (fun t => t == pumping) = true := by decide
/-- The rate output at 800 m³/h, and the loop current of a closed and of an open loop OUT (R182). -/
theorem test_outputs : ({ pumping with governor.demand := 800 } : State).rateOutput = .exactly 10400 ∧
    pumping.valveOpenOutput = true ∧ pumping.loopOutOutput = .between 18000 22000 ∧
    State.reset.loopOutOutput = .below 500 := by decide
/-- An octet ignored in HUNT is an event: the write of the one before it has completed (R177, R185). -/
theorem test_hunt_octet_notes : gives (.receiverOctet .ship 0x55 true) { pumping with prior := State.reset.ret } (fun t =>
    t == { pumping with prior := pumping.ret }) = true := by decide
theorem test_tick : gives .tick { pumping with governor.ramp := some 1 } (fun t =>
    t.governor.ramp = some 0 && t.tickCount = 1 && (t.tank 4).age = 1) = true := by decide
/-- The tenth tick sets the count to 0 and raises the transfer clock (R2). -/
theorem test_clock_second : gives .tick { joined with tickCount := 9 } (fun t =>
    t.ret.transfer.clock = 10 && t.tickCount = 0) = true := by decide

/-! ### States and operands that meet the hypotheses of the statements -/

def filled (n : Nat) (s : State) : State :=
  { s with links.barge := { s.links.barge with queue := List.replicate n { type := 0, tag := 0, data := [] } } }

theorem meets_StepRunsFrontCommand :
    ({ calm with pending := [.tick, .meterPulse] } : State).pending = .tick :: [.meterPulse] ∧ calm.pending = [] := by
  decide
theorem meets_PartStopsAndStaysStopped :
    pumping.running = true ∧ (⟨15999, false⟩ : PowerSample).supply < 16000 ∧
      (⟨24000, true⟩ : PowerSample).resetAsserted = true ∧ 16000 ≤ (⟨16000, false⟩ : PowerSample).supply ∧
      (⟨16000, false⟩ : PowerSample).resetAsserted = false ∧ ({ pumping with running := false } : State).running = false ∧
      isStart .tick = false ∧ State.reset.running = true := by
  decide
theorem meets_LinkRefusesRequest :
    (filled 16 calm).running = true ∧ Config.queueCapacity ≤ ((filled 16 calm).link .barge).queue.length ∧
      ((filled 15 calm).link .barge).queue.length < Config.queueCapacity ∧ isRequestType 0 = false ∧
      isRequestType 23 = false ∧ requestOf (.take .barge 1) = some (.barge, .take, 1, true) ∧
      RequestType.take.permits .barge = false ∧
      requestOf (.openTransfer .barge 1 1 []) = some (.barge, .openTransfer, 1, false) ∧
      requestOf (.openTransfer .barge 1 1 [1, 2, 3, 4, 5]) = some (.barge, .openTransfer, 1, false) ∧
      RequestType.openTransfer.permits .barge = true := by decide
/-- Frames that do not fit (a list too long, a length, an unlisted item), that fit, and codes no command sets. -/
theorem meets_LinkRefusesRequest_frames :
    calm.canTake .barge .openTransfer ∧ calm.canTake .ship .lined ∧ calm.canTake .survey .read ∧ calm.canTake .ship .set ∧
      ¬((5 : Byte).toNat ≤ 4) ∧ ([1, 0, 4, 1, 2, 3, 4] : List Byte).length = 3 + 1 * (4 : Byte).toNat ∧
      ([9, 9] : List Byte).length ≠ 1 ∧ ([9] : List Byte).length = 1 ∧ (9 : Byte).toNat ∉ [1, 2, 3, 4, 5, 6, 7, 8] ∧
      ([5, 7] : List Byte).length = 2 ∧ ([8] : List Byte).length = 1 ∧
      ([0x0F, 1, 1, 1, 1, 0, 0, 0, 0, 0] : List Byte).length = 10 ∧ ([0x13, 0, 5, 0] : List Byte).length = 4 ∧
      (1 ≤ (0x13 : Byte).toNat ∧ (0x13 : Byte).toNat ≤ 0x13) ∧ ¬(1 ≤ (0 : Byte).toNat) ∧ ¬((0x14 : Byte).toNat ≤ 0x13) ∧
      ((0x14 : Byte).toNat ≤ 0x16) ∧ ¬((0x17 : Byte).toNat ≤ 0x16) ∧ (0x17 : Byte).toNat ≠ 0x20 := by
  unfold State.canTake; decide
theorem meets_NoticesJoinOrAreLost :
    ∀ n ∈ [planNotice coldTransfer (.transfer .opened), creepNotice 100 100 .joined .idle 0], n.stations.Nodup := by decide
theorem meets_NoticesJoinOrAreLost_event :
    pumping.begin.s.ret.delivery = pumping.begin.began ∧
      (pumping.begin.mod enterSettling).s.ret.delivery ≠ (pumping.begin.mod enterSettling).began := by decide
theorem meets_RefusalChangesNothing :
    requestOf (.openTransfer .barge 1 7 [1]) = some (.barge, .openTransfer, 1, true) ∧
      (filled 15 calm).canTake .barge .openTransfer ∧ requestOf (.take .survey 1) = some (.survey, .take, 1, true) ∧
      calm.canTake .survey .take := by
  unfold State.canTake; decide

def transferIn (t : TransferState) (s : State) : State := { s with ret.transfer.state := t }

theorem meets_OpenStartsTransfer :
    State.reset.canTake .barge .openTransfer ∧ State.reset.ret.delivery ≠ .pumping ∧
      State.reset.ret.transfer.state = .vacant ∧ (65535 : Word16).toNat ≠ 0 ∧ (1 : Word16).toNat ≠ 0 ∧
      [(3 : Fin 4)].Nodup ∧ [(3 : Fin 4), 0, 1, 2].Nodup ∧ (transferIn .closed calm).canTake .barge .openTransfer ∧
      (transferIn .closed calm).ret.transfer.state = .closed ∧ (transferIn .closed calm).ret.done = [] := by
  unfold State.canTake; decide
theorem meets_OpenStartsTransfer_refusals :
    (transferIn .opened calm).canTake .barge .openTransfer ∧ (transferIn .opened calm).ret.transfer.state = .opened ∧
      (transferIn .closed { calm with ret.done := [plain] }).canTake .barge .openTransfer ∧
      (transferIn .closed { calm with ret.done := [plain] }).ret.transfer.state = .closed ∧
      (transferIn .closed { calm with ret.done := [plain] }).ret.done ≠ [] ∧ (0 : Word16).toNat = 0 ∧
      ¬[(1 : Byte), 1].Nodup ∧ (∃ c ∈ [(0 : Byte)], c.toNat = 0 ∨ 4 < c.toNat) ∧
      ∃ c ∈ [(1 : Byte), 2, 3, 5], c.toNat = 0 ∨ 4 < c.toNat := by
  unfold State.canTake; decide
theorem meets_JoinAndCloseMoveTransfer :
    joined.canTake .ship .joinTransfer ∧ joined.canTake .barge .closeTransfer := by unfold State.canTake; decide
theorem meets_ProposeAndAmendSetContent :
    joined.canTake .ship .propose ∧ joined.canTake .barge .amend ∧
      contentFormed (content 1 [(2, 100)] 1000 0) = true ∧
      contentFormed (content 3 [(2, 40), (3, 30), (4, 30)] 4000000 2000) = true ∧
      checkContent joined (content 3 [(2, 40), (3, 30), (4, 30)] 4000000 2000) =
        some (2, [⟨2, 40, 0⟩, ⟨3, 30, 0⟩, ⟨4, 30, 0⟩]) := by
  unfold State.canTake; decide
/-- A number in each of the four places, and one in none. -/
theorem meets_ProposeAndAmendSetContent_places :
    (let s : State := { threeSteps with
      ret.agreed := [stepOf 4 [] 1 0], ret.active := some (stepOf 5 [] 1 0), ret.done := [stepOf 6 [] 1 0] }
     ((s.ret.proposed ++ s.ret.agreed ++ s.ret.active.toList ++ s.ret.done).map Step.number).Nodup ∧
       [1, 4, 5, 6, 7].map (fun n => (locate s n).map Prod.fst) =
         [some .proposed, some .agreed, some .active, some .done, none]) := by decide
theorem meets_AgreeAndReviseMoveSteps : threeSteps.canTake .ship .agree ∧ threeSteps.canTake .barge .revise := by
  unfold State.canTake; decide
theorem meets_WithdrawAndTakeFreeRecords : joined.canTake .barge .withdraw ∧ joined.canTake .survey .take := by
  unfold State.canTake; decide
theorem meets_ReadsAnswerItems :
    joined.canTake .survey .read ∧ joined.canTake .ship .get ∧ joined.canTake .barge .status ∧
      full.ret.holds.length = 18 := by
  unfold State.canTake; decide

/-- Without a definition, without contents, below both levels, and at the trip volume with the over-trip flag clear. -/
theorem meets_TankEvaluationFollowsLevels :
    (calm.tank 0).definition = none ∧ (calm.tank 0).estimate = none ∧
      ({ tankOf 300000 0 0 with contents := none } : Tank).contents = none ∧
      (trip5.tank 5).definition = some ⟨300000, 950, 980⟩ ∧ (trip5.tank 5).contents = some 272000 ∧
      (tankOf 300000 294000 0).definition = some ⟨300000, 950, 980⟩ ∧ (tankOf 300000 294000 0).contents = some 294000 ∧
      300000 * 980 / 1000 = 294000 ∧ (tankOf 300000 294000 0).overTrip = false := by decide

def gaugeReports : List (Fin 8 × Word32) :=
  [(0, 1), (1, 1), (2, 1), (3, 1), (4, 1), (5, 1), (6, 1), (7, 4000000)]

/-- Every tank defined. -/
def allTanks : State := { joined with ret.tanks := mapTable (fun _ => tankOf 400000 1000 0) joined.ret.tanks }

theorem meets_GaugeReportsTanks :
    allTanks.canTake .ship .gauge ∧ allTanks.ret.transfer.state ≠ .vacant ∧ (gaugeReports.map Prod.fst).Nodup ∧
      1 ≤ gaugeReports.length ∧ gaugeReports.length ≤ 8 ∧ (∀ p ∈ gaugeReports, (allTanks.tank p.1).definition ≠ none) ∧
      (transferIn .vacant allTanks).canTake .ship .gauge ∧ (transferIn .vacant allTanks).ret.transfer.state = .vacant ∧
      ¬(([⟨7, 1⟩, ⟨7, 2⟩] : List GaugeEntry).map GaugeEntry.tank).Nodup := by
  have defined : ∀ i : Fin 8, (allTanks.tank i).definition ≠ none := by decide
  unfold State.canTake
  refine ⟨?_, ?_, ?_, ?_, ?_, fun p _ => defined p.1, ?_, ?_, ?_⟩ <;> decide
theorem meets_GaugeReportsTanks_range :
    (∃ g ∈ ([⟨8, 1⟩] : List GaugeEntry), ∀ i : Fin 8, i.val = g.tank.toNat → (allTanks.tank i).definition = none) ∧
      ∃ g ∈ ([⟨7, 1⟩] : List GaugeEntry), ∀ i : Fin 8, i.val = g.tank.toNat → (joined.tank i).definition = none := by
  decide
/-- Tank 5 is named by the step in delivery and tank 4 by none. -/
theorem meets_TankdefDefinesTank :
    trip5.canTake .ship .tankdef ∧ 8 ≤ (8 : Byte).toNat ∧ (7 : Byte) = oct (7 : Fin 8).val ∧
      (⟨0, 0, 0, 0⟩ : TankContent).flag = 0#8 ∧ (⟨255, 300000, 880, 870⟩ : TankContent).flag ≠ 0#8 ∧
      trip5.ret.delivery = .pumping ∧ (trip5.ret.active.any fun r => r.tanks.any fun e => decide (e.tank = 5)) = true ∧
      (trip5.ret.active.any fun r => r.tanks.any fun e => decide (e.tank = 4)) = false := by
  unfold State.canTake; decide
theorem meets_StagedefSetsStage :
    joined.canTake .ship .stagedef ∧ 4 ≤ (4 : Byte).toNat ∧ 3 < (4 : Byte).toNat ∧ 1 < (2 : Byte).toNat ∧
      (3 : Byte) = oct (3 : Fin 4).val ∧ (3 : Byte) = inputCode (.role .tension) ∧ (0 : Byte) = inputCode .tankFill ∧
      (1 : Byte) = modeCode .fraction := by
  unfold State.canTake; decide

def aged (n : Nat) : State := joined.setTank 4 { tankOf 400000 1000 0 with age := n }

theorem meets_ReportAgesPastLimit :
    (aged 601).running = true ∧ ((aged 601).tank 4).contents = some 1000 ∧ ((aged 601).tank 4).status = .fresh ∧
      (aged 601).ret.settings.stale * 10 < ((aged 601).tank 4).age ∧
      ((aged 1200).tank 4).age ≤ (aged 1200).ret.settings.stale * 20 ∧
      ((aged 1201).tank 4).status ≠ .lost ∧ (aged 1201).ret.settings.stale * 20 < ((aged 1201).tank 4).age := by decide

/-- The step's tank defined and reported, no stage engaged and two engaged, a tank of the step STALE without and with an
enabled fill stage, an instrument stage engaged. -/
theorem meets_PermittedRateIsLowestTerm :
    joined.ret.active = none ∧ pumping.ret.active = some plain ∧ plain.tanks ≠ [] ∧
      (pumping.tank 4).definition = some ⟨400000, 950, 980⟩ ∧ (pumping.tank 4).contents = some 1000 ∧
      (∀ e ∈ plain.tanks, (pumping.tank e.tank).status ≠ .stale ∧ (pumping.tank e.tank).status ≠ .lost) ∧
      (let s := pumping.setTank 4 { tankOf 400000 1000 0 with status := .stale }
       (∃ e ∈ plain.tanks, (s.tank e.tank).status = .stale ∨ (s.tank e.tank).status = .lost) ∧
         (∀ j, ¬((s.stage j).enabled = true ∧ (s.stage j).input = .tankFill)) ∧ degradeTerm s plain = 400) ∧
      (let r := stepOf 7 [(5, 30, 0), (4, 30, 0), (3, 40, 0)] 800000 0
       let s := (((running .pumping r).setTank 3 { tankOf 400000 1000 0 with status := .lost }).setTank 4
         { tankOf 400000 1000 0 with status := .lost })
       limitingTerm s = .degrade 3 ∧
         limitingTerm (s.setTank 5 { tankOf 400000 1000 0 with status := .stale }) = .degrade 5) ∧
      (let s := governed 520000 312000 208000 410000 0 0 400 true
       (s.stage 0).enabled = true ∧ (s.stage 0).input = .tankFill ∧ fillStage s 3 = some 0 ∧ fillStage s 5 = none) ∧
      (let s : State := { pumping with
        ret.stages := pumping.ret.stages.set 2 { coldStage with input := .role .tension, instrumentEngaged := true } }
       instrumentStage s = some 2 ∧ instrumentStageRate s plain = some 100) := by decide
theorem meets_RecomputationActsOnDemand :
    joined.ret.delivery ≠ .pumping ∧ pumping.ret.delivery = .pumping ∧
      permittedRate (governed 599667 359801 239866 430000 5801 31866 40 false) <
        (governed 599667 359801 239866 430000 5801 31866 40 false).ret.settings.rmin ∧
      pumping.ret.settings.rmin ≤ permittedRate pumping ∧
      permittedRate pumping < ({ pumping with governor.demand := 900 } : State).governor.demand ∧
      pumping.governor.demand ≤ permittedRate pumping := by decide
theorem meets_EndCauseNamesTank :
    (let s := governed 599667 359801 239866 430000 5801 31866 40 false
     s.ret.active.any (fun r => quantityTerm s r < s.ret.settings.rmin) = true) ∧
    (let s := (pumping.setTank 4 (tankOf 400000 391999 0))
     s.ret.settings.rmin ≤ quantityTerm s plain ∧ (∃ e ∈ plain.tanks, tankRate s e < s.ret.settings.rmin)) ∧
    (plain.tanks = ⟨4, 100, 0⟩ :: [] ∧ pumping.ret.settings.rmin ≤ quantityTerm pumping plain ∧
      ∀ e' ∈ plain.tanks, ¬(tankRate pumping e' < pumping.ret.settings.rmin ∨
        ∃ n, tankStageRate pumping plain e'.tank = some n ∧ n < pumping.ret.settings.rmin)) := by
  refine ⟨by decide, by decide, by decide, by decide, ?_⟩
  intro e' he
  simp only [plain, stepOf, List.map, List.mem_singleton] at he
  subst he
  rintro (h | ⟨n, h, -⟩)
  · exact absurd h (by decide)
  · exact absurd h (by decide +revert)
theorem meets_RampSecondMovesDemand :
    pumping.running = true ∧ pumping.ret.delivery = .pumping ∧ pumping.governor.ramp = some 0 ∧
      joined.ret.delivery ≠ .pumping := by decide

def held7 : State := { joined with ret.free := 23, ret.active := some plain, ret.delivery := .held }

theorem meets_StartArmsStep :
    agreedTwo.canTake .barge .startStep ∧ agreedTwo.ret.transfer.state = .joined ∧ agreedTwo.ret.holds = [] ∧
      (agreedTwo.link .ship).state = .up ∧ agreedTwo.valve = .closed ∧
      (∀ n : Fin 6, (agreedTwo.lineConfig n).function = .permit → (agreedTwo.line n).active = true) ∧
      (∀ e ∈ plain.tanks, (agreedTwo.tank e.tank).status = .fresh ∨ (agreedTwo.tank e.tank).status = .stale) ∧
      agreedTwo.ret.delivery = .idle ∧
      agreedTwo.ret.agreed = { plain with number := 9 } :: [{ plain with number := 10 }] := by
  unfold State.canTake; decide
theorem meets_StartArmsStep_held :
    held7.canTake .barge .startStep ∧ held7.ret.delivery = .held ∧ held7.ret.active = some plain ∧
      held7.valve = .closed ∧ held7.ret.transfer.state = .joined ∧ held7.ret.holds = [] ∧
      (held7.link .ship).state = .up := by
  unfold State.canTake; decide
/-- START's refusals: the transfer state, the hold list, a delivery under way, no agreed step, a tank without report, a
permit line not made, link B down, the valve not closed. -/
theorem meets_StartArmsStep_refusals :
    (transferIn .closed agreedTwo).ret.transfer.state ≠ .joined ∧ wet.ret.holds ≠ [] ∧
      (pumping.ret.delivery ≠ .idle ∧ pumping.ret.delivery ≠ .held) ∧ joined.ret.agreed = [] ∧
      (¬∀ e ∈ plain.tanks, ((agreedTwo.setTank 4 coldTank).tank e.tank).status = .fresh ∨
        ((agreedTwo.setTank 4 coldTank).tank e.tank).status = .stale) ∧
      (¬∀ n : Fin 6, (({ agreedTwo with ret.settings.lines := (permitLine 0).ret.settings.lines } : State).lineConfig n
        ).function = .permit → (agreedTwo.line n).active = true) ∧
      (({ agreedTwo with links.ship := startLink } : State).link .ship).state ≠ .up ∧
      ({ agreedTwo with controller.closedLimit := false } : State).valve ≠ .closed := by decide
theorem meets_LinedOpensValve :
    armed9.canTake .ship .lined ∧ armed9.ret.delivery = .armed ∧ armed9.ret.active = some { plain with number := 9 } ∧
      armed9.controller.command = .closed ∧ armed9.controller.openLimit = false ∧
      (∀ n : Fin 6, (armed9.lineConfig n).function = .permit → (armed9.line n).active = true) ∧
      agreedTwo.canTake .ship .lined ∧ agreedTwo.ret.delivery ≠ .armed := by
  unfold State.canTake; decide
/-- LINED with a PERMIT line not active, and with a valve that stands OPEN. -/
theorem meets_LinedOpensValve_more :
    (let s : State := { armed9 with ret.settings.lines := (permitLine 0).ret.settings.lines }
     s.canTake .ship .lined ∧ s.ret.delivery = .armed ∧ s.controller.command = .closed ∧
       (s.lineConfig 1).function = .permit ∧ (s.line 1).active = false) ∧
    (let s : State := { armed9 with controller.openLimit := true, controller.closedLimit := false }
     s.canTake .ship .lined ∧ s.ret.delivery = .armed ∧ s.controller.command = .closed ∧
       s.ret.active = some { plain with number := 9 }) := by
  unfold State.canTake; decide
theorem meets_StopStopsDelivery : pumping.canTake .ship .stopStep ∧ pumping.canTake .barge .stopStep := by
  unfold State.canTake; decide
theorem meets_ArmingAndStopEnterStates :
    armed9.ret.active = some { plain with number := 9 } ∧ armed9.controller.armedFrom = some .idle ∧
      ({ armed9 with controller.armedFrom := some .held } : State).controller.armedFrom = some .held ∧
      pumping.valve ≠ .closed ∧ (running .opening plain).controller.closedLimit = false ∧ held7.valve = .closed ∧
      pumping.ret.settings.rundown ≠ 0 ∧
      ({ pumping with ret.settings.rundown := 0 } : State).ret.settings.rundown = 0 ∧
      (let s : State := { running .opening plain with governor.permitted := 40 }
       s.ret.settings.rmin ≤ s.governor.permitted) ∧
      (let s : State := { running .opening plain with governor.permitted := 39 }
       s.governor.permitted < s.ret.settings.rmin) := by decide

def settled : State :=
  { running .settling plain with controller.settle := some 0, controller.stopCause := some .quantity }

theorem meets_DeliveryTimersExpire :
    armed9.running = true ∧ armed9.ret.delivery = .armed ∧ armed9.controller.confirm = some 0 ∧
      (running .rundown plain).ret.delivery = .rundown ∧ settled.ret.delivery = .settling ∧
      settled.controller.settle = some 0 ∧ settled.ret.active = some plain ∧
      settled.controller.stopCause = some .quantity ∧ pumping.ret.delivery ≠ .armed := by decide
/-- The open end while delivery is OPENING, the closed end while it is CLOSING, both limits, a drift, a mere passage,
and a current that changes nothing. -/
theorem meets_LimitSwitchMovesValve :
    (running .opening plain).running = true ∧ (running .opening plain).valve = .opening ∧
      ({ running .opening plain with controller.openLimit := true } : State).valve = .opened ∧
      ({ running .closing plain with controller.closedLimit := false } : State).valve ≠ .closed ∧
      ({ running .closing plain with controller.closedLimit := true } : State).valve = .closed ∧
      ({ pumping with controller.closedLimit := true } : State).valve = .jammed ∧ pumping.valve = .opened ∧
      pumping.controller.command = .opened ∧
      ({ pumping with controller.openLimit := false } : State).valve = .opening ∧
      ({ held7 with controller.closedLimit := false } : State).valve = .closing := by decide
theorem meets_TimersRaiseHolds :
    ({ pumping with controller.stroke := some 0 } : State).controller.stroke = some 0 ∧
      ({ pumping with meter.noFlow := .timing 0 } : State).meter.noFlow = .timing 0 ∧
      ({ pumping with meter.overspeed := .timing 0 } : State).meter.overspeed = .timing 0 ∧
      pumping.controller.stroke ≠ some 0 ∧ pumping.meter.noFlow ≠ .timing 0 ∧ pumping.meter.overspeed ≠ .timing 0 := by
  decide
theorem meets_RaiseChangesList :
    (∀ h ∈ wet.ret.holds, h.source ≠ .meter) ∧
      wet.ret.holds = [⟨.survey, .pause, .operator 7, 9, 0⟩] ++
        ⟨.line 4, .pause, .line .dripTray .level, 9, 0⟩ :: [] ∧
      ∀ k ∈ ([⟨.survey, .pause, .operator 7, 9, 0⟩] : List HoldEntry) ++ [], k.source ≠ .line 4 := by decide
theorem meets_RaiseReachesDelivery :
    armed9.ret.delivery = .armed ∧ armed9.ret.active = some { plain with number := 9 } ∧
      armed9.controller.armedFrom = some .idle ∧
      ({ armed9 with controller.armedFrom := some .held } : State).controller.armedFrom = some .held ∧
      wet.ret.delivery = .rundown ∧ (raisedEntry wet .survey .pause .halt).cls = .pause ∧
      (raisedEntry wet .survey .trip .halt).cls = .trip ∧ (running .opening plain).ret.delivery = .opening ∧
      pumping.ret.delivery = .pumping ∧ held7.ret.delivery = .held := by decide
theorem meets_StationHoldsRaise : wet.canTake .survey .hold ∧ (2 : Byte) ≠ 0#8 ∧ (2 : Byte) ≠ 1#8 := by
  unfold State.canTake; decide
theorem meets_ReleaseAndClearRemoveEntry :
    wet.canTake .ship .release ∧ wet.canTake .barge .clear ∧ (0 : Byte).toNat = 0 ∧ 18 < (19 : Byte).toNat ∧
      findHold wet.ret.holds (.line 4) = some ⟨.line 4, .pause, .line .dripTray .level, 9, 0⟩ ∧
      findHold wet.ret.holds (.line 5) = none ∧ HoldSource.overfill ≠ .line 4 := by
  unfold State.canTake; decide
theorem meets_LoopInIsDebounced :
    ({ joined with loop.rawIn := .opened, loop.count := 2 } : State).loop.rawIn ≠ joined.loop.loopIn ∧
      2 ≤ ({ joined with loop.rawIn := .opened, loop.count := 2 } : State).loop.count ∧
      joined.loop.rawIn = joined.loop.loopIn ∧ joined.loop.count < 2 ∧ joined.running = true := by decide

def silent (s : State) : State := { s with links.ship := { s.links.ship with silence := some 0 } }

theorem meets_SilenceLosesLink :
    ((silent pumping).link .ship).state = .up ∧ ((silent pumping).link .ship).silence = some 0 ∧
      (pumping.link .ship).silence ≠ some 0 ∧ (State.reset.link .ship).state ≠ .up := by decide

/-- Metered litres that the next pulse brings to the top of four octets, and one litre more. -/
def metered (n : Nat) (s : State) : State := { s with ret.metered := n, ret.unassigned := n }

theorem meets_MeterPulseIsCounted :
    State.reset.ret.transfer.state = .vacant ∧
      4294967295 < (metered 4294967295 joined).ret.metered + joined.ret.settings.weight ∧
      joined.ret.transfer.state ≠ .vacant ∧
      (metered 4294967294 joined).ret.metered + joined.ret.settings.weight ≤ 4294967295 ∧
      joined.ret.delivery = .idle ∧ pumping.ret.active = some plain ∧ (plain.tanks.map TankEntry.tank).Nodup ∧
      pumping.ret.delivery = .pumping := by decide
theorem meets_SharesAccountForDelivered : ((thirds 0 0).map TankEntry.share).sum = 100 := by decide
theorem meets_RateSecondMeasures :
    ({ pumping with meter.rateTimer := 0 } : State).meter.rateTimer = 0 ∧ pumping.meter.rateTimer ≠ 0 := by decide

/-! ### The same, chapters 07 to 11 and the starts -/

def polling0 (discard : Bool) : State :=
  { hoseAgents [.good, .good, .good] .present 900 [] .unknown 0 with
    instruments.polling := some 0, instruments.discard := discard }

theorem meets_PollTakesTransactions :
    pumping.instruments.pollTimer ≠ 0 ∧ ({ pumping with instruments.pollTimer := 0 } : State).instruments.pollTimer = 0 ∧
      pumping.instruments.polling = none ∧ (polling0 true).instruments.polling = some 0 ∧
      (polling0 true).instruments.discard = true ∧ (polling0 false).instruments.discard = false ∧
      pumping.running = true ∧ (polling0 false).running = true := by decide
/-- The octets of a GOOD reply of one channel and of two sum to 0; one octet less, or a sum of 1, is BADCHECK. -/
theorem meets_PollTakesTransactions_replies :
    ((polling0 false).agentConfig 0).channels = 2 ∧
      (([oct 1, 0xBA, 4, 0xD8, 4, 0x65] : List Byte).foldl (fun n b => n + b.toNat) 0) % 256 = 0 ∧
      (let s := { polling0 false with instruments.polling := some 1 }
       s.instruments.polling = some 1 ∧ (s.agentConfig 1).channels = 1) ∧
      (([oct 2, 0xBA, 4, 0x40] : List Byte).foldl (fun n b => n + b.toNat) 0) % 256 = 0 ∧
      (([oct 2, 0xBA, 4, 0x41] : List Byte).foldl (fun n b => n + b.toNat) 0) % 256 ≠ 0 ∧
      ([oct 2, 0xBA, 4] : List Byte) ≠ [] := by decide
/-- A trip that sets, and roles that do not trip. -/
theorem meets_RolesFollowAgents :
    (let e := (hoseAgents [.good, .good, .good] .present 1900 [] .unknown 0).begin
     ((handOnRoles 0 .present (some .hosePressure) e).s.instruments.role .hosePressure).tripped = true ∧
       (e.s.instruments.role .hosePressure).tripped = false) ∧
    let e := (hoseAgents [.good, .good, .good] .present 900 [] .unknown 0).begin
    ∀ role ∈ [Role.hosePressure, .manifoldPressure, .tension],
      ((handOnRoles 0 .present (some .hosePressure) e).s.instruments.role role).tripped = false := by decide
theorem meets_SetAgentConfigures :
    joined.canTake .barge .set ∧ joined.canTake .ship .set ∧ (0 : Byte).toNat = 0 ∧ 4 < (5 : Byte).toNat ∧
      3 < (4 : Byte).toNat ∧ 2 < (3 : Byte).toNat := by
  unfold State.canTake; decide
/-- Every role's blindness as derived, HOSE-PRESSURE sighted by agent 1 alone, and a SET that takes agent 1 away. -/
theorem meets_SetAgentConfigures_blinds :
    (let s := hoseAgents [.good, .good, .good] .present 900 [] .unknown 0
     s.canTake .barge .set ∧
       (∀ r ∈ [Role.hosePressure, .manifoldPressure, .tension], (s.instruments.role r).blind = true ↔ ∀ a,
         (s.agentConfig a).enabled = true → (s.agentConfig a).role = some r → (s.agent a).state ≠ .present) ∧
       (s.instruments.role .hosePressure).blind = false ∧
       gives (.setAgentConfiguration .barge 1 1 ⟨1, 3, 1, 0, 1400, 1800⟩) s (fun t =>
         (t.instruments.role .hosePressure).blind) = true) := by
  unfold State.canTake; decide
theorem meets_LineFollowsItsInput :
    (permitLine 10).running = true ∧
      ((((permitLine 10).line 1).raw != ((permitLine 10).lineConfig 1).inverted) ≠ ((permitLine 10).line 1).active) ∧
      1 ≤ ((permitLine 10).lineConfig 1).debounce ∧
      ((permitLine 10).lineConfig 1).debounce ≤ ((permitLine 10).line 1).count ∧
      ((permitLine 9).line 1).count < ((permitLine 9).lineConfig 1).debounce ∧
      ((permitLine 9).lineConfig 3).debounce = 0 := by decide
/-- An input that returns to the debounced state before the count is up, one that is due, and one that is not. -/
theorem meets_LineFollowsItsInput_due :
    (let s := permitLine 10
     (((s.line 1).raw != (s.lineConfig 1).inverted) ≠ (s.line 1).active) ∧
       (1 ≤ (s.lineConfig 1).debounce ∧ (s.lineConfig 1).debounce ≤ (s.line 1).count)) ∧
    (let s := permitLine 9
     ¬(1 ≤ (s.lineConfig 1).debounce ∧ (s.lineConfig 1).debounce ≤ (s.line 1).count)) ∧
    (let s := permitLine 0
     ¬(1 ≤ (s.lineConfig 3).debounce)) := by decide
theorem meets_SetLineConfigures :
    joined.canTake .barge .set ∧ joined.canTake .survey .set ∧ 6 < (7 : Byte).toNat ∧ 5 < (6 : Byte).toNat ∧
      1 < (2 : Byte).toNat := by
  unfold State.canTake; decide
theorem meets_SetRateLimitsKeepsOrder : joined.canTake .ship .set ∧ joined.canTake .barge .set := by
  unfold State.canTake; decide
theorem meets_SetStopTimesKeepsSum :
    joined.canTake .ship .set ∧ joined.canTake .barge .set ∧
      joined.ret.settings.rundown + joined.ret.settings.tclose ≤ joined.ret.settings.tstop ∧
      (let s : State := { joined with ret.settings.tstop := 25 }
       s.ret.settings.rundown + s.ret.settings.tclose ≤ s.ret.settings.tstop) := by
  unfold State.canTake; decide
theorem meets_SetTimesWeightAndStaleLimit :
    joined.canTake .barge .set ∧ joined.canTake .survey .set ∧ State.reset.canTake .survey .set ∧
      joined.canTake .ship .set ∧ 4 < (5 : Word16).toNat ∧ (4 : Word16).toNat = pollCode .four ∧
      joined.ret.transfer.state = .joined ∧ State.reset.ret.transfer.state = .vacant ∧
      (min (max (60 : Word16).toNat 10) 600 = (60 : Word16).toNat ∧
        min (max (60 : Word16).toNat 10) 600 = joined.ret.settings.stale) ∧
      min (max (601 : Word16).toNat 10) 600 ≠ (601 : Word16).toNat ∧
      min (max (9 : Word16).toNat 10) 600 ≠ (9 : Word16).toNat ∧
      (∀ i : Fin 8, (joined.tank i).age = 0 ∧ ((joined.tank i).status = .fresh ∨ (joined.tank i).contents = none)) ∧
      ((aged 201).canTake .ship .set ∧ min (max (10 : Word16).toNat 10) 600 = (10 : Word16).toNat ∧
        min (max (10 : Word16).toNat 10) 600 ≠ (aged 201).ret.settings.stale ∧ 10 * 20 < ((aged 201).tank 4).age) := by
  unfold State.canTake; decide
theorem meets_TickAdvancesTimers : pumping.running = true := by decide

def receiving (r : Receiver) (escape : Bool) : State :=
  { joined with links.barge := { upLink with receiver := r, escape := escape, frameLength := 2, frameOctets := [6] } }

theorem meets_LinkReceivesAndSends :
    ((receiving .length false).link .barge).receiver ≠ .hunt ∧ ((receiving .length false).link .barge).escape = false ∧
      ((receiving .length true).link .barge).escape = true ∧ 2 ≤ (2 : Byte).toNat ∧ (200 : Byte).toNat ≤ 200 ∧
      (1 : Byte).toNat < 2 ∧ 200 < (201 : Byte).toNat ∧ ((receiving .body false).link .barge).receiver = .body ∧
      ¬(octetSum (oct 2 :: [6]) + 0 + 256 * (1 : Byte).toNat) % 65536 = 0 ∧ (joined.link .barge).receiver = .hunt ∧
      ((filled 1 joined).link .barge).queue = { type := 0, tag := 0, data := [] } :: [] ∧
      ((filled 1 joined).link .barge).state = .up ∧ (joined.link .barge).queue = [] ∧ joined.running = true ∧
      (octetSum (oct 2 :: [6]) + 0 + 256 * (1 : Byte).toNat) % 65536 ≠ 0 ∧ (0x55 : Byte) ≠ 0x18#8 ∧
      (0x55 : Byte) ≠ 0xA5#8 := by decide
theorem meets_LineOctetsSpellFrame :
    joined.running = true ∧ (joined.link .ship).receiver = .hunt ∧ ([] : List Byte).length ≤ 198 ∧
      (List.replicate 198 (0xA5 : Byte)).length ≤ 198 :=
  ⟨by decide, by decide, by decide, Nat.le_of_eq List.length_replicate⟩
theorem meets_RequestFrameIsItsCommand :
    WellFormed (.lined .ship 4 9) = true ∧ requestOf (.lined .ship 4 9) = some (.ship, .lined, 4, true) ∧
      requestData (.lined .ship 4 9) = some (.lined, [9]) ∧
      WellFormed (.openTransfer .barge 1 4107 []) = true ∧
      requestOf (.openTransfer .barge 1 4107 []) = some (.barge, .openTransfer, 1, false) ∧
      requestData (.openTransfer .barge 1 4107 []) = some (.openTransfer, [0x0B, 0x10, 0]) := by decide
theorem meets_ColdStartRestoresDefaults :
    ({ pumping with ret.marker := false } : State).ret.marker = false ∧
      ({ pumping with ret.checkCorrect := false } : State).ret.checkCorrect = false ∧
      (18000 ≤ shipLoopOpen.power.supply ∧ shipLoopOpen.power.supply ≤ 32000 ∧
        shipLoopOpen.power.resetAsserted = false) ∧
      ¬(18000 ≤ (⟨17999, false⟩ : PowerSample).supply) ∧ ¬((⟨32001, false⟩ : PowerSample).supply ≤ 32000) ∧
      (⟨18000, true⟩ : PowerSample).resetAsserted ≠ false ∧ (⟨15999, false⟩ : PowerSample).supply < 16000 ∧
      (⟨24000, true⟩ : PowerSample).resetAsserted = true := by decide
theorem meets_WarmStartResumes :
    pumping.ret.marker = true ∧ pumping.ret.checkCorrect = true ∧
      (let sample : InputSample := { shipLoopOpen with power := ⟨18000, false⟩ }
       18000 ≤ sample.power.supply ∧ sample.power.supply ≤ 32000 ∧ sample.power.resetAsserted = false) ∧
      (let sample : InputSample := { shipLoopOpen with power := ⟨32000, false⟩ }
       18000 ≤ sample.power.supply ∧ sample.power.supply ≤ 32000 ∧ sample.power.resetAsserted = false) := by decide

/-! ### A state far from reset that meets the invariants, and a step from it -/

/-- PUMPING below the permitted rate, a pulse due next. -/
def safe : State := { pumping.rated with prior := pumping.ret, pending := [.meterPulse] }

theorem meets_StepKeeps_next : (match step safe with | .next _ => true | .fault _ | .refused _ => false) = true := by
  decide
theorem meets_StepKeepsPlanSound : safe.poolWhole ∧ safe.planSound := by
  refine ⟨by unfold State.poolWhole Retained.poolWhole; decide, ?_, ?_⟩ <;>
    exact ⟨by decide, fun r hr => by
      obtain rfl : r = plain := by simpa [safe, State.rated, pumping, running, joined, calm, State.reset, coldRetained,
        State.setTank, Retained.records] using hr
      exact ⟨by decide, by decide, fun n hn => by cases hn; decide⟩, fun n hn => by cases hn; decide, by decide, by decide⟩
theorem meets_StepKeepsRecordsSound : safe.recordsSound := by
  unfold State.recordsSound Retained.recordsSound Step.split; decide
theorem meets_StepKeepsTallyAndSettings : safe.tallySound ∧ safe.settingsOrdered := by
  unfold State.tallySound Retained.tallySound State.settingsOrdered Settings.ordered; decide
theorem meets_StepKeepsHoldsAndLinksSound : safe.holdsSound ∧ safe.linksSound := by
  refine ⟨by unfold State.holdsSound; decide, fun link => ?_⟩
  cases link <;> (unfold Link.sound; decide)
theorem meets_StepKeepsDeliverySound :
    safe.deliverySound ∧ safe.poolWhole ∧ safe.timersSound ∧ settled.timersSound ∧ armed9.timersSound ∧
      ({ calm with running := false } : State).timersSound := by
  unfold State.deliverySound State.timersSound State.poolWhole Retained.poolWhole
  refine ⟨?_, ?_, ?_, ?_, ?_, ?_⟩ <;> decide
theorem meets_StepKeepsRateCurrent : safe.rateCurrent := by unfold State.rateCurrent; decide

end Sys2Proof.Tests
end

