-- ==== Sys2Proof/Proofs/Owners.lean ====
section
/-! SUPPORT. The owner of each request command, and what a taken request answers. -/

namespace Sys2Proof.Machine

/-- What the owner of a request command does with it. A command that is no request has no owner. -/
def ownerOf : Instr → Event → Event × Answer
  | .openTransfer _ _ id grades => takeOpen id grades
  | .joinTransfer _ _ => takeJoin
  | .closeTransfer _ _ => takeClose
  | .propose link _ c => takePropose link c
  | .amend link _ number c => takeAmend link number c
  | .agree link _ number => takeAgree link number
  | .revise link _ number operand => takeRevise link number operand
  | .withdraw link _ number => takeWithdraw link number
  | .startStep _ _ => takeStart
  | .lined _ _ number => takeLined number
  | .stopStep link _ => takeStop link
  | .hold link _ cls reason => takeHold link cls reason
  | .release link _ source => takeRelease link source
  | .clear link _ source => takeClear link source
  | .gauge _ _ entries => takeGauge entries
  | .tankdef _ _ index c => takeTankdef index c
  | .stagedef _ _ index c => takeStagedef index c
  | .setRateLimits link _ which index v => takeSetLimit link which index v
  | .setStopTimes link _ which index v => takeSetStopTime link which index v
  | .setTimerSetting link _ which index v => takeSetTimer link which index v
  | .setS link _ index v => takeSetS link index v
  | .setW link _ index v => takeSetW link index v
  | .setNoFlow link _ index v => takeSetNoFlow link index v
  | .setAgentConfiguration link _ address c => takeSetAgent link address c
  | .setLineConfiguration link _ line c => takeSetLine link line c
  | .getSetting _ _ code index => takeGet code index
  | .readStep _ _ number => takeReadStep number
  | .readLists _ _ => fun e => (e, { result := .ok, data := listsData e.s })
  | .readTotals _ _ => fun e => (e, { result := .ok, data := totalsData e.s })
  | .readHolds _ _ => fun e => (e, { result := .ok, data := holdsData e.s })
  | .readTanks _ _ group => fun e =>
    match tanksData e.s group with
    | some d => (e, { result := .ok, data := d })
    | none => refuse e .range
  | .readLines link _ => takeReadLines link
  | .readInstruments _ _ => fun e => (e, { result := .ok, data := instrumentsData e.s })
  | .readCounters link _ => fun e => (e.mod (clearCounters link), { result := .ok, data := countersData e.s })
  | .take link _ => takeTake link
  | .status link _ => takeStatus link
  | _ => fun e => refuse e .unknown

/-- A request command runs its owner under `request` (R192). -/
theorem exec_eq_request {c : Instr} {link : Station} {type : RequestType} {tag : Byte} {formed : Bool}
    (h : requestOf c = some (link, type, tag, formed)) (s : State) :
    exec c s = request link type tag formed (ownerOf c) s := by
  cases c <;> cases h <;> rfl

/-- A request that is taken is answered by its owner: the reply, then the notices of the owner's event (R192). -/
theorem exec_taken {c : Instr} {link : Station} {type : RequestType} {tag : Byte} {s : State}
    (h : requestOf c = some (link, type, tag, true)) (ht : s.canTake link type) :
    exec c s = .next ((ownerOf c (s.opened link).begin).1.s.answered link type tag
      (ownerOf c (s.opened link).begin).2.result (ownerOf c (s.opened link).begin).2.data
      (ownerOf c (s.opened link).begin).1.notices) := by
  rw [exec_eq_request h, request_taken ht rfl]
  rfl

@[simp] theorem Event.mod_s (e : Event) (f : State → State) : (e.mod f).s = f e.s := rfl

/-- An event begun in the state as it stands causes no notice by itself (R80). -/
@[simp] theorem State.begin_notices (s : State) : s.begin.notices = [] := by
  simp [State.begin, Event.notices, Event.stepState]

end Sys2Proof.Machine
end

