-- ==== Sys2Proof/Proofs/CommandChains.lean ====
section
/-! SUPPORT. Every command that is no start and no stop is a chain of moves, up to what a request's reply and notices
put on the links: the owners of the requests first, then the events, then the receiver. -/

namespace Sys2Proof.Machine

/-! ### Where a number finds its record (R9) -/

/-- The place in which a record stands (R7). -/
def State.stands (s : State) (r : Step) : Place → Prop
  | .proposed => r ∈ s.ret.proposed
  | .agreed => r ∈ s.ret.agreed
  | .active => s.ret.active = some r
  | .done => r ∈ s.ret.done

theorem findStep_some {l : List Step} {n : Nat} {r : Step} (h : findStep l n = some r) : r ∈ l ∧ r.number = n :=
  ⟨List.mem_of_find?_eq_some h, by simpa using List.find?_some h⟩

theorem findStep_none {l : List Step} {n : Nat} : findStep l n = none ↔ ∀ r ∈ l, r.number ≠ n := by
  simp [findStep, List.find?_eq_none]

theorem locate_some {s : State} {n : Nat} {p : Place} {r : Step} (h : locate s n = some (p, r)) :
    r.number = n ∧ s.stands r p := by
  unfold locate at h
  split at h
  · next hf => cases h; exact ⟨(findStep_some hf).2, (findStep_some hf).1⟩
  · split at h
    · next hf => cases h; exact ⟨(findStep_some hf).2, (findStep_some hf).1⟩
    · split at h
      · next hf =>
        cases h
        exact ⟨(findStep_some hf).2, Option.mem_toList.1 (findStep_some hf).1⟩
      · obtain ⟨q, hq, he⟩ := Option.map_eq_some_iff.1 h
        cases he
        exact ⟨(findStep_some hq).2, (findStep_some hq).1⟩

/-! ### Owners of the plan's requests (R3 to R24) -/

/-- An unchanged state is a chain of no moves. -/
theorem Reach.of_eq {s t : State} (h : t = s) : Reach s t := h ▸ .refl s

/-- A change outside the core and the links is a chain of one move. -/
theorem reach_of_core {s t : State} (hc : coreOf t = coreOf s) (hp : t.prior = s.prior) (hl : t.links = s.links) :
    Reach s t := (quiet_of_core hc hp hl).reach

theorem admitsBuild_state {tr : TransferState} {link : Station} (h : admitsBuild tr link = true) :
    tr = .opened ∨ tr = .joined := by
  cases link <;> simp_all [admitsBuild]

theorem takeOpen_reach (id : Word16) (grades : List Byte) (e : Event) (hr : e.s.running = true) :
    Reach e.s (takeOpen id grades e).1.s := by
  unfold takeOpen
  have accepted : ∀ gs, e.s.ret.transfer.state = .vacant ∨ e.s.ret.transfer.state = .closed ∧ e.s.ret.done = [] →
      Reach e.s (openEffects id.toNat gs e.s) := fun gs hs => (Move.openTransfer e.s id.toNat gs hr hs).reach
  split
  · exact .refl _
  · exact .refl _
  · next hs =>
    rw [if_neg (by simp [hs])]
    split
    · exact .refl _
    · split
      · exact .refl _
      · exact accepted _ (.inl hs)
  · next hs =>
    split
    · exact .refl _
    · next hd =>
      split
      · exact .refl _
      · split
        · exact .refl _
        · exact accepted _ (.inr ⟨hs, by simpa [hs] using hd⟩)

theorem takeJoin_reach (e : Event) (hr : e.s.running = true) : Reach e.s (takeJoin e).1.s := by
  unfold takeJoin
  split
  · next hs => exact (Move.joinTransfer e.s hr hs).reach
  all_goals exact .refl _

theorem takeClose_reach (e : Event) (hr : e.s.running = true) : Reach e.s (takeClose e).1.s := by
  unfold takeClose
  split
  · exact .refl _
  · exact .refl _
  all_goals
    split
    · exact .refl _
    · next ha => exact (Move.closeTransfer e.s hr (by simpa using ha)).reach

/-- A starvation counter is outside the core. -/
theorem quiet_starve (s : State) (p : PerStation Nat) : Move s { s with starvation := p } := quiet_of_core rfl rfl rfl

theorem takePropose_reach (link : Station) (c : StepContent) (e : Event) (hr : e.s.running = true)
    (hl : link ≠ .survey) (hf : contentFormed c = true) : Reach e.s (takePropose link c e).1.s := by
  unfold takePropose
  split
  · exact .refl _
  · next ha =>
    split
    · exact .refl _
    · next hc =>
      split
      · exact .refl _
      · next hn =>
        split
        · exact (quiet_starve _ _).reach
        · next h0 =>
          exact (Move.propose e.s link _ _ _ c hr hl hf (admitsBuild_state (by simpa using ha)) hn h0 hc).reach

theorem takeAmend_reach (link : Station) (number : Byte) (c : StepContent) (e : Event) (hr : e.s.running = true)
    (hl : link ≠ .survey) (hf : contentFormed c = true) : Reach e.s (takeAmend link number c e).1.s := by
  unfold takeAmend
  split
  · exact .refl _
  · split
    any_goals exact .refl _
    next hm =>
      split
      · exact .refl _
      · next hc => exact (Move.amend e.s link _ _ _ c hr hl hf (locate_some hm).2 hc).reach

theorem takeAgree_reach (link : Station) (number : Byte) (e : Event) (hr : e.s.running = true)
    (hl : link ≠ .survey) : Reach e.s (takeAgree link number e).1.s := by
  unfold takeAgree
  split
  · exact .refl _
  · next hs =>
    split
    any_goals exact .refl _
    next hm =>
      split
      · exact .refl _
      · next hk =>
        exact (Move.agree e.s link _ hr hl (by simpa using hs) (locate_some hm).2 (by simpa using hk)).reach

theorem takeRevise_reach (link : Station) (number operand : Byte) (e : Event) (hr : e.s.running = true)
    (hl : link ≠ .survey) : Reach e.s (takeRevise link number operand e).1.s := by
  unfold takeRevise
  split
  · exact .refl _
  · next hs =>
    split
    any_goals exact .refl _
    next r hm =>
      split
      · exact .refl _
      · have h := (Move.revise e.s link r.number (decide (operand = 0#8)) hr hl (by simpa using hs)).reach
        simp only [decide_eq_true_eq] at h
        exact h

theorem takeWithdraw_reach (link : Station) (number : Byte) (e : Event) (hr : e.s.running = true) :
    Reach e.s (takeWithdraw link number e).1.s := by
  unfold takeWithdraw
  split
  · exact .refl _
  · split
    · exact .refl _
    · next hm => exact (Move.freeProposed e.s _ hr (locate_some hm).2).reach
    · next hm => exact (Move.freeAgreed e.s _ hr (locate_some hm).2).reach
    · next hm =>
      split
      · next hd => exact (Move.finish e .abandoned _ hr (.inl hd) (locate_some hm).2).reach
      · exact .refl _
    · exact .refl _

theorem takeTake_reach (link : Station) (e : Event) (hr : e.s.running = true) : Reach e.s (takeTake link e).1.s := by
  unfold takeTake
  split
  · exact (quiet_starve _ _).reach
  · next hd => exact (Move.take e.s _ _ hr hd).reach

/-! ### Owners of START, LINED and STOP (R85 to R99) -/

theorem takeStart_reach (e : Event) (hr : e.s.running = true) : Reach e.s (takeStart e).1.s := by
  unfold takeStart
  split
  · exact .refl _
  · exact .refl _
  · next hn hc => exact (Move.arm e _ hr hn hc).reach

/-- The entry to OPENING with its valve command named (R91, R165). -/
theorem enterOpening_eq (r : Step) (e : Event) : enterOpening r e =
    if (raiseMissingPermits (e.mod (openingEffect r))).s.ret.delivery = .opening ∧
        (raiseMissingPermits (e.mod (openingEffect r))).s.valve = .opened then
      (raiseMissingPermits (e.mod (openingEffect r))).mod enterPumping
    else raiseMissingPermits (e.mod (openingEffect r)) := rfl

theorem enterOpening_reach (r : Step) (e : Event) (hr : e.s.running = true) (hd : e.s.ret.delivery = .armed)
    (ha : e.s.ret.active = some r) : Reach e.s (enterOpening r e).s := by
  have h1 : Reach e.s (e.mod (openingEffect r)).s := (Move.opening e.s r hr hd ha).reach
  have h2 := h1.trans (raiseMissingPermits_reach (e.mod (openingEffect r)) (h1.running hr))
  rw [enterOpening_eq]
  split
  · next hc => exact h2.tail (.pumping _ (h2.running hr) hc.1)
  · exact h2

theorem takeLined_reach (number : Byte) (e : Event) (hr : e.s.running = true) : Reach e.s (takeLined number e).1.s := by
  unfold takeLined
  split
  · next hm =>
    split at hm
    · next hd => exact enterOpening_reach _ e hr hd (by simpa using (findStep_some hm).1)
    · cases hm
  · split <;> exact .refl _

theorem takeStop_reach (link : Station) (e : Event) (hr : e.s.running = true) : Reach e.s (takeStop link e).1.s := by
  unfold takeStop
  split
  · next hd => exact (Move.arming e _ hr hd).reach
  · next hd =>
    exact (quiet_fixCause (.stopped link) e.s).reach.tail
      (.closing _ hr (by show e.s.ret.delivery.flowing = true; rw [hd]; rfl))
  · next hd => exact (quiet_fixCause (.stopped link) e.s).reach.tail (.rundown _ hr hd)
  all_goals exact .refl _

/-! ### Owners of the hold requests (R108 to R117) -/

theorem takeHold_reach (link : Station) (cls reason : Byte) (e : Event) (hr : e.s.running = true) :
    Reach e.s (takeHold link cls reason e).1.s := by
  unfold takeHold
  split
  · exact .refl _
  · exact raiseHold_reach _ _ _ e hr

theorem takeRelease_reach (link : Station) (source : Byte) (e : Event) (hr : e.s.running = true) :
    Reach e.s (takeRelease link source e).1.s := by
  unfold takeRelease
  split
  · exact .refl _
  · split
    · exact .refl _
    · split
      · exact .refl _
      · exact removeHold_reach _ _ e hr

theorem takeClear_reach (link : Station) (source : Byte) (e : Event) (hr : e.s.running = true) :
    Reach e.s (takeClear link source e).1.s := by
  unfold takeClear
  split
  · exact .refl _
  · split
    · exact .refl _
    · split
      · exact .refl _
      · split
        · exact .refl _
        · split
          · exact .refl _
          · exact removeHold_reach _ _ e hr

/-! ### Owners of SET (R171 to R175) -/

theorem takeSetLimit_reach (link : Station) (which : RateLimit) (index : Byte) (v : Word16) (e : Event)
    (hr : e.s.running = true) : Reach e.s (takeSetLimit link which index v e).1.s := by
  unfold takeSetLimit
  split
  · exact .refl _
  · dsimp only
    split
    · exact .refl _
    · exact (Move.limits e.s which v.toNat hr).reach

theorem takeSetStopTime_reach (link : Station) (which : StopTime) (index : Byte) (v : Word16) (e : Event)
    (hr : e.s.running = true) : Reach e.s (takeSetStopTime link which index v e).1.s := by
  unfold takeSetStopTime
  split
  · exact .refl _
  · have accepted : Reach e.s (recompute { e.s with
        ret.settings := setStopTime e.s.ret.settings which (clampStopTime e.s.ret.settings which v.toNat) }) :=
      (Move.stopTime e.s which v.toNat hr).reach.tail (.rate _ hr)
    dsimp only
    split
    · exact .refl _
    · exact accepted

theorem quiet_applyTimer (which : TimerSetting) (v : Nat) (s : State) : Move s (applyTimer which v s) := by
  cases which <;> exact quiet_of_core rfl rfl rfl

theorem takeSetTimer_reach (link : Station) (which : TimerSetting) (index : Byte) (v : Word16) (e : Event) :
    Reach e.s (takeSetTimer link which index v e).1.s := by
  unfold takeSetTimer
  split
  · exact .refl _
  · split
    · exact .refl _
    · dsimp only
      split
      · exact .refl _
      · exact (quiet_applyTimer _ _ _).reach

theorem applyStale_reach (v : Nat) (e : Event) (hr : e.s.running = true) : Reach e.s (applyStale v e).s := by
  have h1 : Reach e.s { e.s with ret.settings.stale := v } := reach_of_core rfl rfl rfl
  have h2 : Reach e.s (restatusAll (fun _ => true) (e.mod fun s => { s with ret.settings.stale := v })).s :=
    h1.trans (restatusAll_reach _ (e.mod fun s => { s with ret.settings.stale := v }) hr)
  rw [applyStale, Event.mod_s]
  exact h2.tail (.rate _ (h2.running hr))

theorem takeSetS_reach (link : Station) (index : Byte) (v : Word16) (e : Event) (hr : e.s.running = true) :
    Reach e.s (takeSetS link index v e).1.s := by
  unfold takeSetS
  split
  · exact .refl _
  · dsimp only
    split
    · exact .refl _
    · exact applyStale_reach _ e hr

theorem takeSetW_reach (link : Station) (index : Byte) (v : Word16) (e : Event) :
    Reach e.s (takeSetW link index v e).1.s := by
  unfold takeSetW
  split
  · exact .refl _
  · split
    · exact .refl _
    · dsimp only
      split
      · exact .refl _
      · exact reach_of_core rfl rfl rfl

theorem takeSetNoFlow_reach (link : Station) (index : Byte) (v : Word16) (e : Event) :
    Reach e.s (takeSetNoFlow link index v e).1.s := by
  unfold takeSetNoFlow
  split
  · exact .refl _
  · dsimp only
    split
    · exact .refl _
    · exact reach_of_core rfl rfl rfl

/-! ### Owners of the reads (R25 to R28, R167, R176, R197) -/

theorem takeGet_state (code index : Byte) (e : Event) : (takeGet code index e).1 = e := by
  unfold takeGet; split <;> rfl

theorem takeReadStep_state (number : Byte) (e : Event) : (takeReadStep number e).1 = e := by
  unfold takeReadStep; split <;> rfl

theorem takeReadLines_reach (link : Station) (e : Event) : Reach e.s (takeReadLines link e).1.s := by
  unfold takeReadLines
  dsimp only
  split
  · exact reach_of_core rfl rfl rfl
  · exact .refl _

theorem clearCounters_reach (link : Station) (s : State) : Reach s (clearCounters link s) :=
  (quiet_starve s (s.starvation.put link 0)).reach.tail (quiet_setLink _ _ _ id)

theorem quiet_clearFlags (link : Station) (s : State) : Move s (clearFlags link s) := quiet_setLink _ _ _ id

/-! ### Every request -/

/-- The owner of a request that its station may send is a chain of moves (R192). -/
theorem ownerOf_reach {c : Instr} {link : Station} {type : RequestType} {tag : Byte}
    (h : requestOf c = some (link, type, tag, true)) (hp : type.permits link = true) (e : Event)
    (hr : e.s.running = true) : Reach e.s (ownerOf c e).1.s := by
  have notSurvey {l : Station} (h : decide (l ≠ .survey) = true) : l ≠ .survey := of_decide_eq_true h
  cases c with
  | openTransfer => exact takeOpen_reach _ _ e hr
  | joinTransfer => exact takeJoin_reach e hr
  | closeTransfer => exact takeClose_reach e hr
  | propose =>
    simp only [requestOf, Option.some.injEq, Prod.mk.injEq] at h
    obtain ⟨rfl, rfl, rfl, hf⟩ := h
    exact takePropose_reach _ _ e hr (notSurvey hp) hf
  | amend =>
    simp only [requestOf, Option.some.injEq, Prod.mk.injEq] at h
    obtain ⟨rfl, rfl, rfl, hf⟩ := h
    exact takeAmend_reach _ _ _ e hr (notSurvey hp) hf
  | agree => cases h; exact takeAgree_reach _ _ e hr (notSurvey hp)
  | revise => cases h; exact takeRevise_reach _ _ _ e hr (notSurvey hp)
  | withdraw => exact takeWithdraw_reach _ _ e hr
  | startStep => exact takeStart_reach e hr
  | lined => exact takeLined_reach _ e hr
  | stopStep => exact takeStop_reach _ e hr
  | hold => exact takeHold_reach _ _ _ e hr
  | release => exact takeRelease_reach _ _ e hr
  | clear => exact takeClear_reach _ _ e hr
  | gauge => exact takeGauge_reach _ e hr
  | tankdef => exact takeTankdef_reach _ _ e hr
  | stagedef => exact takeStagedef_reach _ _ e hr
  | setRateLimits => exact takeSetLimit_reach _ _ _ _ e hr
  | setStopTimes => exact takeSetStopTime_reach _ _ _ _ e hr
  | setTimerSetting => exact takeSetTimer_reach _ _ _ _ e
  | setS => exact takeSetS_reach _ _ _ e hr
  | setW => exact takeSetW_reach _ _ _ e
  | setNoFlow => exact takeSetNoFlow_reach _ _ _ e
  | setAgentConfiguration => exact takeSetAgent_reach _ _ _ e hr
  | setLineConfiguration => exact takeSetLine_reach _ _ _ e hr
  | getSetting _ _ code index => exact .of_eq (congrArg Event.s (takeGet_state code index e))
  | readStep _ _ number => exact .of_eq (congrArg Event.s (takeReadStep_state number e))
  | readTanks =>
    unfold ownerOf
    dsimp only
    split <;> exact .refl _
  | readLines => exact takeReadLines_reach _ e
  | readCounters => exact clearCounters_reach _ _
  | take => exact takeTake_reach _ e hr
  | status link => exact (quiet_clearFlags link e.s).reach
  | _ => exact .refl _

/-- One state follows another by a chain of moves and then frames queued on the links. -/
def State.leadsTo (s t : State) : Prop := ∃ u ls, Reach s u ∧ t = { u with links := ls }

theorem Reach.leadsTo {s t : State} (h : Reach s t) : s.leadsTo t := ⟨t, t.links, h, rfl⟩

/-- A valid frame taken: the link comes UP (R188). -/
theorem opened_reach (s : State) (link : Station) : Reach s (s.opened link) := by
  refine (Move.note s).reach.tail (quiet_setLink _ _ _ fun h => ?_)
  obtain ⟨hq, -, -⟩ := h
  exact ⟨hq, fun hn => absurd rfl hn, ⟨fun _ hc => (by cases hc), fun _ => rfl⟩⟩

theorem quiet_overrun (s : State) (link : Station) : Move s (s.overrun link) := quiet_setLink _ _ _ id

/-- A frame queued on a link that is UP and has room keeps the link sound (R190). -/
theorem quiet_queueReply (s : State) (link : Station) (f : Frame)
    (hu : (s.link link).state = .up) (hq : (s.link link).queue.length < Config.queueCapacity) :
    Move s (s.queueReply link f) := by
  refine quiet_setLink _ _ _ fun h => ⟨?_, fun hn => absurd hu hn, h.2.2⟩
  simpa using hq

theorem opened_link_up (s : State) (link : Station) : ((s.opened link).link link).state = .up := by
  simp [State.opened_link]

theorem opened_link_queue (s : State) (link : Station) :
    ((s.opened link).link link).queue = (s.link link).queue := by
  simp [State.opened_link, Link.resetReceiver]

/-- Ending the event of a request changes the links alone. -/
theorem Event.reply_eq (e : Event) (link : Station) (f : Frame) : ∃ ls, e.reply link f = { e.s with links := ls } := by
  obtain ⟨ls, h, -⟩ := (e.s.queueReply link f).postAll_spec e.notices
  exact ⟨ls, h⟩

/-- A request whose owner is a chain of moves leads by moves to the next state. -/
theorem request_leadsTo {s t : State} {link : Station} {type : RequestType} {tag : Byte} {formed : Bool}
    {owner : Event → Event × Answer} (h : request link type tag formed owner s = .next t)
    (ho : formed = true → type.permits link = true → ∀ e : Event, e.s.running = true → Reach e.s (owner e).1.s) :
    s.leadsTo t := by
  have h0 := opened_reach s link
  rcases request_cases h with ⟨-, rfl⟩ | ⟨-, rfl⟩ | ⟨-, hq, f, rfl⟩ | ⟨ht, hf, f, rfl⟩
  · exact (Reach.refl _).leadsTo
  · exact (h0.tail (quiet_overrun _ _)).leadsTo
  · refine (h0.tail (quiet_queueReply _ _ _ (opened_link_up s link) ?_)).leadsTo
    rw [opened_link_queue]
    exact hq
  · obtain ⟨hr, -, hp⟩ := ht
    obtain ⟨ls, hls⟩ := (owner (s.opened link).begin).1.reply_eq link f
    exact ⟨_, ls, (h0.tail (.note _)).trans (ho hf hp (s.opened link).begin hr), hls⟩

/-- A request command leads by moves to the next state. -/
theorem exec_request_leadsTo {c : Instr} {s t : State} {link : Station} {type : RequestType} {tag : Byte} {formed : Bool}
    (hc : requestOf c = some (link, type, tag, formed)) (h : exec c s = .next t) : s.leadsTo t := by
  rw [exec_eq_request hc] at h
  refine request_leadsTo h fun hf hp e hr => ?_
  subst hf
  exact ownerOf_reach hc hp e hr

/-! ### The events that are no request -/

/-- A quiet event whose change is a chain of moves is one (R177). -/
theorem quietEvent_reach {s t : State} {f : State → State} (h : quietEvent s f = .next t)
    (hf : s.running = true → Reach s.noted (f s.noted)) : Reach s t := by
  rcases quietEvent_cases h with ⟨-, rfl⟩ | ⟨hr, rfl⟩
  · exact .refl _
  · exact (Move.note s).reach.trans (hf hr)

/-- An event whose changes are a chain of moves is one (R177, R190). -/
theorem event_next_reach {s t : State} {f : Event → Event} (h : event s f = .next t)
    (hf : s.running = true → Reach s.noted (f s.begin).s) : Reach s t := by
  rcases event_cases h with ⟨-, rfl⟩ | ⟨hr, rfl⟩
  · exact .refl _
  · exact event_reach (hf hr)

theorem next_reach {s t : State} (h : (.next s : Host.Outcome State Fault Refusal) = .next t) : Reach s t := by
  cases h; exact .refl _

theorem execUnknownRequest_reach {link : Station} {tag type : Byte} {s t : State}
    (h : execUnknownRequest link tag type s = .next t) : Reach s t := by
  unfold execUnknownRequest at h
  split at h
  · exact next_reach h
  · rcases quietEvent_cases h with ⟨-, rfl⟩ | ⟨-, rfl⟩
    · exact .refl _
    · dsimp only
      refine (opened_reach s link).trans ?_
      split
      · exact (quiet_overrun (s.opened link) link).reach
      · next hq =>
        refine (quiet_queueReply (s.opened link) link _ (opened_link_up s link) ?_).reach
        have hf : ((s.opened link).link link).full = false := Bool.eq_false_iff.2 hq
        rw [opened_link_queue]
        simpa [State.opened_full] using hf

theorem execOverrun_reach {link : Station} {s t : State} (h : execOverrun link s = .next t) : Reach s t := by
  unfold execOverrun at h
  split at h
  · rcases quietEvent_cases h with ⟨-, rfl⟩ | ⟨-, rfl⟩
    · exact .refl _
    · exact (opened_reach s link).tail (quiet_overrun _ _)
  · exact next_reach h

theorem quiet_discardFrame (link : Station) (cause : DiscardCause) (s : State) : Move s (discardFrame link cause s) :=
  quiet_setLink _ _ _ id

theorem haltEffect_reach (link : Station) (e : Event) (hr : e.s.running = true) : Reach e.s (haltEffect link e).s := by
  refine raiseHold_after _ _ _ ?_ hr
  exact (quiet_setLink e.s link ((e.s.link link).resetReceiver .hunt) id).reach

theorem execHalt_reach {link : Station} {s t : State} (h : execHalt link s = .next t) : Reach s t :=
  event_next_reach h fun hr => haltEffect_reach link s.begin hr

theorem execTransmissionEnd_reach {link : Station} {s t : State} (h : execTransmissionEnd link s = .next t) :
    Reach s t := by
  unfold execTransmissionEnd at h
  split at h
  · refine quietEvent_reach h fun _ => (quiet_setLink _ _ _ fun hs => ?_).reach
    obtain ⟨hq, hn, hu⟩ := hs
    refine ⟨?_, fun hne => ?_, hu⟩
    · rw [List.length_tail]; omega
    · show List.tail _ = []
      rw [hn hne]; rfl
  · exact next_reach h

theorem lostHold_reach (link : Station) (e : Event) (hr : e.s.running = true) : Reach e.s (lostHold link e).s := by
  unfold lostHold
  split
  · split
    · exact raiseHold_reach _ _ _ e hr
    · exact raiseHold_reach _ _ _ e hr
    · exact .refl _
  · exact .refl _

theorem quiet_loseLink (link : Station) (s : State) : Move s (loseLink link s) := by
  refine quiet_setLink _ _ _ fun _ => ⟨?_, fun _ => rfl, ?_⟩
  · exact Nat.zero_le _
  · exact ⟨fun h => (by cases h), fun h => absurd rfl h⟩

theorem execSilenceExpiry_reach {link : Station} {s t : State} (h : execSilenceExpiry link s = .next t) :
    Reach s t := by
  unfold execSilenceExpiry at h
  split at h
  · refine event_next_reach h fun hr => ?_
    have h1 : Reach s.noted (s.begin.mod (loseLink link)).s := (quiet_loseLink link s.noted).reach
    exact h1.trans (lostHold_reach link _ (h1.running hr))
  · exact next_reach h

theorem execConfirmExpiry_reach {s t : State} (h : execConfirmExpiry s = .next t) : Reach s t := by
  unfold execConfirmExpiry at h
  split at h
  · next hd => exact event_next_reach h fun hr => (Move.arming s.begin _ hr hd.1).reach
  · exact next_reach h

theorem execStrokeTimerExpiry_reach {s t : State} (h : execStrokeTimerExpiry s = .next t) : Reach s t := by
  unfold execStrokeTimerExpiry at h
  split at h
  · refine event_next_reach h fun hr => raiseHold_after _ _ _ ?_ hr
    exact reach_of_core rfl rfl rfl
  · exact next_reach h

theorem execRundownExpiry_reach {s t : State} (h : execRundownExpiry s = .next t) : Reach s t := by
  unfold execRundownExpiry at h
  split at h
  · next hd =>
    exact event_next_reach h fun hr =>
      (Move.closing s.noted hr (by show s.ret.delivery.flowing = true; rw [hd.1]; rfl)).reach
  · exact next_reach h

theorem settleStep_reach (r : Step) (cause : StopCause) (e : Event) (hr : e.s.running = true)
    (hd : e.s.ret.delivery = .settling) (ha : e.s.ret.active = some r) : Reach e.s (settleStep r cause e).s := by
  cases cause with
  | quantity => exact (Move.finish e _ r hr (.inr hd) ha).reach
  | topped => exact (Move.finish e _ r hr (.inr hd) ha).reach
  | stopped => exact (Move.hold e.s _ r hr hd ha).reach
  | hold => exact (Move.hold e.s _ r hr hd ha).reach

theorem execSettleExpiry_reach {s t : State} (h : execSettleExpiry s = .next t) : Reach s t := by
  unfold execSettleExpiry at h
  split at h
  · next hd =>
    refine event_next_reach h fun hr => ?_
    have h1 : Reach s.noted { s.noted with controller.settle := none, controller.stopCause := none } := reach_of_core rfl rfl rfl
    dsimp only
    split
    · next r _ ha _ => 
      refine Reach.trans ?_ (settleStep_reach r _ _ ?_ ?_ ?_)
      · exact h1
      · exact hr
      · exact hd.1
      · exact ha
    · next ha _ => exact h1.tail (.unheld _ hr hd.1 (by show s.ret.active ≠ none; rw [show s.ret.active = _ from ha]; simp))
    · next ha => exact h1.tail (.unslotted _ hr hd.1 ha)
  · exact next_reach h

theorem execRampSecond_reach {s t : State} (h : execRampSecond s = .next t) : Reach s t := by
  unfold execRampSecond at h
  split at h
  · next hd => exact quietEvent_reach h fun hr => (Move.ramp s.noted hr hd.1).reach
  · exact next_reach h

theorem rateEndsRundown_reach (s : State) (hr : s.running = true) : Reach s (rateEndsRundown s) := by
  unfold rateEndsRundown
  split
  · next hd => exact (Move.closing s hr (by rw [hd.1]; rfl)).reach
  · exact .refl _

theorem execRateSecond_reach {s t : State} (h : execRateSecond s = .next t) : Reach s t := by
  unfold execRateSecond at h
  split at h
  · refine event_next_reach h fun hr => ?_
    have h1 : Reach s.noted (shiftBins s.noted) := reach_of_core rfl rfl rfl
    have h2 := h1.trans (rateEndsRundown_reach _ (h1.running hr))
    exact (h2.tail (quiet_evalNoFlow _)).tail (quiet_evalOverspeed _)
  · exact next_reach h

theorem execNoFlowExpiry_reach {s t : State} (h : execNoFlowExpiry s = .next t) : Reach s t := by
  unfold execNoFlowExpiry at h
  split at h
  · refine event_next_reach h fun hr => raiseHold_after _ _ _ ?_ hr
    exact reach_of_core rfl rfl rfl
  · exact next_reach h

theorem execOverspeedExpiry_reach {s t : State} (h : execOverspeedExpiry s = .next t) : Reach s t := by
  unfold execOverspeedExpiry at h
  split at h
  · refine event_next_reach h fun hr => raiseHold_after _ _ _ ?_ hr
    exact reach_of_core rfl rfl rfl
  · exact next_reach h

theorem execPollCycleExpiry_reach {s t : State} (h : execPollCycleExpiry s = .next t) : Reach s t := by
  unfold execPollCycleExpiry at h
  split at h
  · refine quietEvent_reach h fun _ => ?_
    have h1 : Reach s.noted (startPollTimer s.noted) := reach_of_core rfl rfl rfl
    exact h1.tail (quiet_pollFrom 0 _)
  · exact next_reach h

theorem quiet_setAgent (s : State) (i : Fin 4) (a : AgentService) : Move s (s.setAgent i a) := quiet_of_core rfl rfl rfl

theorem execTransactionEnd_reach {reply : List Byte} {s t : State} (h : execTransactionEnd reply s = .next t) :
    Reach s t := by
  unfold execTransactionEnd at h
  split at h
  · exact next_reach h
  · refine event_next_reach h fun hr => ?_
    dsimp only
    split
    · exact (quiet_pollFrom _ _).reach
    · refine Reach.tail ?_ (quiet_pollFrom _ _)
      refine Reach.trans ?_ (handOnRoles_reach _ _ _ _ ?_)
      · exact (quiet_setAgent s.noted _ _).reach
      · exact hr

theorem countLink_sound (l : Link) (h : l.sound) : (countLink l).sound := by
  obtain ⟨hq, hn, hu⟩ := h
  refine ⟨hq, hn, hu.trans ?_⟩
  simp [countLink, countDown]

theorem countLoop_loopOut (l : StopLoop) : (countLoop l).loopOut = l.loopOut := by
  unfold countLoop; split <;> rfl

/-- A tick counts: nothing it changes is in the core (R2). -/
theorem quiet_tickState (s : State) : Move s (tickState s) := by
  refine .quiet _ _ ?_ ?_ fun k hk => ?_
  · unfold tickState clockTick
    split
    · simp [coreOf, countDown, countLoop_loopOut]
    · split <;> simp [coreOf, countDown, countLoop_loopOut]
  · unfold tickState clockTick
    dsimp only
    split
    · rfl
    · split <;> rfl
  · cases k <;> exact countLink_sound _ hk

theorem execTick_reach {s t : State} (h : execTick s = .next t) : Reach s t :=
  quietEvent_reach h fun _ => (quiet_tickState _).reach

theorem execTransferClockSecond_reach {s t : State} (h : execTransferClockSecond s = .next t) : Reach s t := by
  unfold execTransferClockSecond at h
  split at h
  · exact execTick_reach h
  · exact next_reach h

theorem execReportStale_reach {i : Fin 8} {s t : State} (h : execReportStale i s = .next t) : Reach s t := by
  unfold execReportStale at h
  split at h
  · refine event_next_reach h fun hr => ?_
    have h1 := restatus_reach s.watches i s.begin hr
    exact h1.tail (.rate _ (h1.running hr))
  · exact next_reach h

theorem execReportLost_reach {i : Fin 8} {s t : State} (h : execReportLost i s = .next t) : Reach s t := by
  unfold execReportLost at h
  split at h
  · refine event_next_reach h fun hr => ?_
    have h1 := restatusAll_reach (lostDue s) s.begin hr
    exact h1.tail (.rate _ (h1.running hr))
  · exact next_reach h

theorem valveFault_reach (before : ValveState) (e : Event) (hr : e.s.running = true) :
    Reach e.s (valveFault before e).s := by
  unfold valveFault
  split
  · exact raiseHold_reach _ _ _ e hr
  · split
    · exact raiseHold_reach _ _ _ e hr
    · exact .refl _

theorem valveEnd_reach (before : ValveState) (s : State) (hr : s.running = true) : Reach s (valveEnd before s) := by
  unfold valveEnd
  split
  · next hd => exact (Move.pumping s hr hd.2.2).reach
  · split
    · next hd => exact (Move.settling s hr hd.2.2).reach
    · exact .refl _

theorem execLimitSwitchChange_reach {w : LimitSwitch} {current : Nat} {s t : State}
    (h : execLimitSwitchChange w current s = .next t) : Reach s t := by
  unfold execLimitSwitchChange at h
  dsimp only at h
  split at h
  · exact next_reach h
  · refine event_next_reach h fun hr => ?_
    have h1 : Reach s.noted
        { setSwitch w (senseContact (s.controller.switch w) current) s.noted with
          controller.stroke := strokeAfter s.valve (setSwitch w (senseContact (s.controller.switch w) current) s.noted) } := by
      refine Move.reach ?_
      cases w <;> exact quiet_of_core rfl rfl rfl
    have h2 : Reach s.noted (valveFault s.valve (s.begin.mod fun s =>
        { setSwitch w (senseContact (s.controller.switch w) current) s with
          controller.stroke := strokeAfter s.valve (setSwitch w (senseContact (s.controller.switch w) current) s) })).s := by
      refine Reach.trans ?_ (valveFault_reach _ _ ?_)
      · exact h1
      · exact h1.running hr
    exact h2.trans (valveEnd_reach _ _ (h2.running hr))

theorem execMeterPulse_reach {s t : State} (h : execMeterPulse s = .next t) : Reach s t := by
  refine event_next_reach h fun hr => ?_
  have h1 : Reach s.noted (s.begin.mod binPulse).s := reach_of_core rfl rfl rfl
  dsimp only
  split
  · exact h1
  · split
    · exact h1
    · next hm => exact h1.trans (tallyPulse_reach _ (h1.running hr) (by omega))

theorem senseLine_reach (n : Fin 6) (current : Nat) (e : Event) (hr : e.s.running = true) :
    Reach e.s (senseLine n current e).s := by
  unfold senseLine
  dsimp only
  have h1 := (quiet_setLine e.s n { e.s.line n with raw := senseContact (e.s.line n).raw current }).reach
  split
  · exact h1.tail (quiet_setLine _ _ _)
  · split
    · refine Reach.trans ?_ (lineFollows_reach n _ ?_)
      · exact h1
      · exact hr
    · exact h1

theorem execRawLineChange_reach {n : Fin 6} {current : Nat} {s t : State} (h : execRawLineChange n current s = .next t) :
    Reach s t := by
  unfold execRawLineChange at h
  split at h
  · next hr =>
    exact (settleLine_reach n s hr).trans
      (event_next_reach h fun hr' => senseLine_reach n current (settleLine n s).begin hr')
  · exact next_reach h

theorem execLineDebounceComplete_reach {n : Fin 6} {s t : State} (h : execLineDebounceComplete n s = .next t) :
    Reach s t := by
  unfold execLineDebounceComplete at h
  split at h
  · next hr => exact (settleLine_reach n s hr).trans (next_reach h)
  · exact next_reach h

theorem execLoopInRawChange_reach {current : Nat} {s t : State} (h : execLoopInRawChange current s = .next t) :
    Reach s t := by
  unfold execLoopInRawChange at h
  split at h
  · next hr =>
    refine (settleLoop_reach s hr).trans (quietEvent_reach h fun _ => ?_)
    exact reach_of_core rfl rfl rfl
  · exact next_reach h

theorem execLoopInDebounceComplete_reach {s t : State} (h : execLoopInDebounceComplete s = .next t) : Reach s t := by
  unfold execLoopInDebounceComplete at h
  split at h
  · next hr => exact (settleLoop_reach s hr).trans (next_reach h)
  · exact next_reach h

end Sys2Proof.Machine
end

