-- ==== Sys2Proof/Proofs/StepCases.lean ====
section
/-! SUPPORT. What a step can do: nothing, a chain of moves with frames queued, a stop or a start. A property that each
of these keeps is kept by every step. -/

namespace Sys2Proof.Machine

/-! ### The receiver (R185, R192 to R196) -/

theorem malformed_leadsTo {link : Station} {type : RequestType} {tag : Byte} {s t : State}
    (h : malformed link type tag s = .next t) : s.leadsTo t :=
  request_leadsTo h fun _ _ e _ => .refl e.s

theorem takeSetOther_state (code : Byte) (e : Event) : (takeSetOther code e).1 = e := by
  unfold takeSetOther; split <;> rfl

theorem setOther_leadsTo {link : Station} {tag code : Byte} {s t : State}
    (h : request link .set tag true (takeSetOther code) s = .next t) : s.leadsTo t :=
  request_leadsTo h fun _ _ e _ => .of_eq (congrArg Event.s (takeSetOther_state code e))

theorem takeSetNumber_leadsTo {link : Station} {tag code index : Byte} {v : Word16} {s t : State}
    (h : takeSetNumber link tag code index v s = .next t) : s.leadsTo t := by
  have limit {w} (h : execSetRateLimits link tag w index v s = .next t) : s.leadsTo t :=
    exec_request_leadsTo (c := .setRateLimits link tag w index v) rfl h
  have stopTime {w} (h : execSetStopTimes link tag w index v s = .next t) : s.leadsTo t :=
    exec_request_leadsTo (c := .setStopTimes link tag w index v) rfl h
  have timer {w} (h : execSetTimerSetting link tag w index v s = .next t) : s.leadsTo t :=
    exec_request_leadsTo (c := .setTimerSetting link tag w index v) rfl h
  unfold takeSetNumber at h
  split at h
  · exact limit h
  · exact limit h
  · exact timer h
  · exact stopTime h
  · exact limit h
  · exact stopTime h
  · exact timer h
  · exact stopTime h
  · exact timer h
  · exact timer h
  · exact timer h
  · exact timer h
  · exact timer h
  · exact timer h
  · exact exec_request_leadsTo (c := .setS link tag index v) rfl h
  · exact exec_request_leadsTo (c := .setW link tag index v) rfl h
  · exact exec_request_leadsTo (c := .setNoFlow link tag index v) rfl h
  · exact setOther_leadsTo h

theorem takeSetFrame_leadsTo {link : Station} {tag : Byte} {data : List Byte} {s t : State}
    (h : takeSetFrame link tag data s = .next t) : s.leadsTo t := by
  unfold takeSetFrame at h
  split at h
  · split at h
    · split at h
      · exact setOther_leadsTo h
      · exact malformed_leadsTo h
    · split at h
      · split at h
        · exact exec_request_leadsTo (c := .setAgentConfiguration _ _ _ _) rfl h
        · exact malformed_leadsTo h
      · split at h
        · split at h
          · exact exec_request_leadsTo (c := .setLineConfiguration _ _ _ _) rfl h
          · exact malformed_leadsTo h
        · split at h
          · exact takeSetNumber_leadsTo h
          · exact malformed_leadsTo h
  · exact malformed_leadsTo h

theorem takeReadFrame_leadsTo {link : Station} {tag : Byte} {data : List Byte} {s t : State}
    (h : takeReadFrame link tag data s = .next t) : s.leadsTo t := by
  unfold takeReadFrame at h
  split at h
  · split at h
    · exact exec_request_leadsTo (c := .readLists _ _) rfl h
    · exact exec_request_leadsTo (c := .readTotals _ _) rfl h
    · exact exec_request_leadsTo (c := .readHolds _ _) rfl h
    · exact exec_request_leadsTo (c := .readLines _ _) rfl h
    · exact exec_request_leadsTo (c := .readInstruments _ _) rfl h
    · exact exec_request_leadsTo (c := .readCounters _ _) rfl h
    · exact malformed_leadsTo h
  · split at h
    · exact exec_request_leadsTo (c := .readStep _ _ _) rfl h
    · exact exec_request_leadsTo (c := .readTanks _ _ _) rfl h
    · exact malformed_leadsTo h
  · exact malformed_leadsTo h

/-- A typed frame runs the request command that it spells, or is MALFORMED: its octets are taken apart as far as the
layout of its type reaches (R196). -/
theorem takeTypedFrame_leadsTo {link : Station} {tag : Byte} {type : RequestType} {data : List Byte} {s t : State}
    (h : takeTypedFrame link tag type data s = .next t) : s.leadsTo t := by
  cases type with
  | openTransfer =>
    rcases data with _ | ⟨a, _ | ⟨b, _ | ⟨n, grades⟩⟩⟩
    · exact malformed_leadsTo h
    · exact malformed_leadsTo h
    · exact malformed_leadsTo h
    · change (if grades.length = n.toNat then execOpen link tag (word2 a b) grades s
        else malformed link .openTransfer tag s) = _ at h
      split at h
      · exact exec_request_leadsTo (c := .openTransfer link tag (word2 a b) grades) rfl h
      · exact malformed_leadsTo h
  | joinTransfer =>
    cases data
    · exact exec_request_leadsTo (c := .joinTransfer link tag) rfl h
    · exact malformed_leadsTo h
  | closeTransfer =>
    cases data
    · exact exec_request_leadsTo (c := .closeTransfer link tag) rfl h
    · exact malformed_leadsTo h
  | propose =>
    change (match contentOf data with
      | some c => execPropose link tag c s
      | none => malformed link .propose tag s) = _ at h
    cases hc : contentOf data with
    | none => rw [hc] at h; exact malformed_leadsTo h
    | some c => rw [hc] at h; exact exec_request_leadsTo (c := .propose link tag c) rfl h
  | amend =>
    rcases data with _ | ⟨n, data⟩
    · exact malformed_leadsTo h
    · change (match contentOf data with
        | some c => execAmend link tag n c s
        | none => malformed link .amend tag s) = _ at h
      cases hc : contentOf data with
      | none => rw [hc] at h; exact malformed_leadsTo h
      | some c => rw [hc] at h; exact exec_request_leadsTo (c := .amend link tag n c) rfl h
  | agree =>
    rcases data with _ | ⟨x, _ | ⟨y, rest⟩⟩
    · exact malformed_leadsTo h
    · exact exec_request_leadsTo (c := .agree link tag x) rfl h
    · exact malformed_leadsTo h
  | revise =>
    rcases data with _ | ⟨x, _ | ⟨y, _ | ⟨z, rest⟩⟩⟩
    · exact malformed_leadsTo h
    · exact malformed_leadsTo h
    · exact exec_request_leadsTo (c := .revise link tag x y) rfl h
    · exact malformed_leadsTo h
  | withdraw =>
    rcases data with _ | ⟨x, _ | ⟨y, rest⟩⟩
    · exact malformed_leadsTo h
    · exact exec_request_leadsTo (c := .withdraw link tag x) rfl h
    · exact malformed_leadsTo h
  | startStep =>
    cases data
    · exact exec_request_leadsTo (c := .startStep link tag) rfl h
    · exact malformed_leadsTo h
  | lined =>
    rcases data with _ | ⟨x, _ | ⟨y, rest⟩⟩
    · exact malformed_leadsTo h
    · exact exec_request_leadsTo (c := .lined link tag x) rfl h
    · exact malformed_leadsTo h
  | stopStep =>
    cases data
    · exact exec_request_leadsTo (c := .stopStep link tag) rfl h
    · exact malformed_leadsTo h
  | hold =>
    rcases data with _ | ⟨x, _ | ⟨y, _ | ⟨z, rest⟩⟩⟩
    · exact malformed_leadsTo h
    · exact malformed_leadsTo h
    · exact exec_request_leadsTo (c := .hold link tag x y) rfl h
    · exact malformed_leadsTo h
  | release =>
    rcases data with _ | ⟨x, _ | ⟨y, rest⟩⟩
    · exact malformed_leadsTo h
    · exact exec_request_leadsTo (c := .release link tag x) rfl h
    · exact malformed_leadsTo h
  | clear =>
    rcases data with _ | ⟨x, _ | ⟨y, rest⟩⟩
    · exact malformed_leadsTo h
    · exact exec_request_leadsTo (c := .clear link tag x) rfl h
    · exact malformed_leadsTo h
  | gauge =>
    rcases data with _ | ⟨n, rest⟩
    · exact malformed_leadsTo h
    · change (if rest.length = 5 * n.toNat then execGauge link tag (gaugesOf rest) s
        else malformed link .gauge tag s) = _ at h
      split at h
      · exact exec_request_leadsTo (c := .gauge link tag (gaugesOf rest)) rfl h
      · exact malformed_leadsTo h
  | tankdef =>
    rcases data with
      _ | ⟨i, _ | ⟨f, _ | ⟨a, _ | ⟨b, _ | ⟨c, _ | ⟨d, _ | ⟨hl, _ | ⟨hh, _ | ⟨tl, _ | ⟨th, _ | ⟨x, rest⟩⟩⟩⟩⟩⟩⟩⟩⟩⟩⟩
    iterate 10 exact malformed_leadsTo h
    · exact exec_request_leadsTo (c := .tankdef link tag i
        { flag := f, capacity := word4 a b c d, high := word2 hl hh, trip := word2 tl th }) rfl h
    · exact malformed_leadsTo h
  | stagedef =>
    rcases data with
      _ | ⟨i, _ | ⟨en, _ | ⟨inp, _ | ⟨el, _ | ⟨eh, _ | ⟨ll, _ | ⟨lh, _ | ⟨m, _ | ⟨k, _ | ⟨x, rest⟩⟩⟩⟩⟩⟩⟩⟩⟩⟩
    iterate 9 exact malformed_leadsTo h
    · exact exec_request_leadsTo (c := .stagedef link tag i
        { enabled := en, input := inp, enter := word2 el eh, leave := word2 ll lh, mode := m, k := k }) rfl h
    · exact malformed_leadsTo h
  | set => exact takeSetFrame_leadsTo h
  | get =>
    rcases data with _ | ⟨x, _ | ⟨y, _ | ⟨z, rest⟩⟩⟩
    · exact malformed_leadsTo h
    · exact malformed_leadsTo h
    · exact exec_request_leadsTo (c := .getSetting link tag x y) rfl h
    · exact malformed_leadsTo h
  | read => exact takeReadFrame_leadsTo h
  | take =>
    cases data
    · exact exec_request_leadsTo (c := .take link tag) rfl h
    · exact malformed_leadsTo h
  | status =>
    cases data
    · exact exec_request_leadsTo (c := .status link tag) rfl h
    · exact malformed_leadsTo h

theorem takeFrame_leadsTo {link : Station} {type tag : Byte} {data : List Byte} {s t : State}
    (h : takeFrame link type tag data s = .next t) : s.leadsTo t := by
  unfold takeFrame at h
  split at h
  · exact takeTypedFrame_leadsTo h
  · exact (execUnknownRequest_reach h).leadsTo

/-- A quiet event that changes a link's receiver alone. -/
theorem quietLink_leadsTo {s t : State} {f : State → State} (h : quietEvent s f = .next t)
    (hf : Move s.noted (f s.noted)) : s.leadsTo t :=
  (quietEvent_reach h fun _ => hf.reach).leadsTo

theorem takeOctet_leadsTo {link : Station} {v : Byte} {s t : State} (h : takeOctet link v s = .next t) :
    s.leadsTo t := by
  unfold takeOctet at h
  dsimp only at h
  split at h
  · exact (quietEvent_reach h fun _ => .refl _).leadsTo
  · split at h
    · exact quietLink_leadsTo h (quiet_setLink _ _ _ id)
    · exact quietLink_leadsTo h (quiet_discardFrame _ _ _)
  · exact quietLink_leadsTo h (quiet_setLink _ _ _ id)
  · exact quietLink_leadsTo h (quiet_setLink _ _ _ id)
  · split at h
    · unfold takeCorrect at h
      split at h
      · exact takeFrame_leadsTo h
      · exact quietLink_leadsTo h (quiet_setLink _ _ _ id)
    · exact quietLink_leadsTo h (quiet_discardFrame _ _ _)

theorem takeGoodOctet_leadsTo {link : Station} {octet : Byte} {s t : State}
    (h : takeGoodOctet link octet s = .next t) : s.leadsTo t := by
  unfold takeGoodOctet at h
  dsimp only at h
  split at h
  · split at h
    · exact quietLink_leadsTo h (quiet_setLink _ _ _ id)
    · exact (quietEvent_reach h fun _ => .refl _).leadsTo
  · split at h
    · split at h
      · exact takeOctet_leadsTo h
      · exact quietLink_leadsTo h (quiet_discardFrame _ _ _)
    · split at h
      · exact quietLink_leadsTo h (quiet_discardFrame _ _ _)
      · split at h
        · exact quietLink_leadsTo h (quiet_setLink _ _ _ id)
        · exact takeOctet_leadsTo h

theorem execReceiverOctet_leadsTo {link : Station} {octet : Byte} {good : Bool} {s t : State}
    (h : execReceiverOctet link octet good s = .next t) : s.leadsTo t := by
  unfold execReceiverOctet at h
  split at h
  · exact (next_reach h).leadsTo
  · split at h
    · split at h
      · exact (quietEvent_reach h fun _ => .refl _).leadsTo
      · exact quietLink_leadsTo h (quiet_discardFrame _ _ _)
    · split at h
      · exact (execHalt_reach h).leadsTo
      · exact takeGoodOctet_leadsTo h

/-! ### Commands and steps -/

/-- A retention memory a start can find: as it stands, or after a loss (R178). -/
def State.startMemory (s : State) (m : Retained) : Prop := m = s.ret ∨ ∃ loss, m = lostMemory loss s.ret

/-- All that a command can do. -/
theorem exec_cases {c : Instr} {s t : State} (h : exec c s = .next t) :
    s.leadsTo t ∨ (∃ m, (m = s.ret ∨ m = s.prior) ∧ t = stopped m s) ∨
      ∃ m sample schedule, s.startMemory m ∧ t = startPart m sample schedule s := by
  cases hc : requestOf c with
  | some q =>
    obtain ⟨link, type, tag, formed⟩ := q
    exact .inl (exec_request_leadsTo hc h)
  | none =>
    cases c with
    | unknownRequest => exact .inl (execUnknownRequest_reach h).leadsTo
    | overrun => exact .inl (execOverrun_reach h).leadsTo
    | frameDiscard => exact .inl (quietLink_leadsTo h (quiet_discardFrame _ _ _))
    | halt => exact .inl (execHalt_reach h).leadsTo
    | transmissionEnd => exact .inl (execTransmissionEnd_reach h).leadsTo
    | silenceExpiry => exact .inl (execSilenceExpiry_reach h).leadsTo
    | confirmExpiry => exact .inl (execConfirmExpiry_reach h).leadsTo
    | strokeTimerExpiry => exact .inl (execStrokeTimerExpiry_reach h).leadsTo
    | rundownExpiry => exact .inl (execRundownExpiry_reach h).leadsTo
    | settleExpiry => exact .inl (execSettleExpiry_reach h).leadsTo
    | rampSecond => exact .inl (execRampSecond_reach h).leadsTo
    | rateSecond => exact .inl (execRateSecond_reach h).leadsTo
    | noFlowExpiry => exact .inl (execNoFlowExpiry_reach h).leadsTo
    | overspeedExpiry => exact .inl (execOverspeedExpiry_reach h).leadsTo
    | pollCycleExpiry => exact .inl (execPollCycleExpiry_reach h).leadsTo
    | transactionEnd => exact .inl (execTransactionEnd_reach h).leadsTo
    | tick => exact .inl (execTick_reach h).leadsTo
    | transferClockSecond => exact .inl (execTransferClockSecond_reach h).leadsTo
    | reportStale => exact .inl (execReportStale_reach h).leadsTo
    | reportLost => exact .inl (execReportLost_reach h).leadsTo
    | limitSwitchChange => exact .inl (execLimitSwitchChange_reach h).leadsTo
    | meterPulse => exact .inl (execMeterPulse_reach h).leadsTo
    | rawLineChange => exact .inl (execRawLineChange_reach h).leadsTo
    | lineDebounceComplete => exact .inl (execLineDebounceComplete_reach h).leadsTo
    | loopInRawChange => exact .inl (execLoopInRawChange_reach h).leadsTo
    | loopInDebounceComplete => exact .inl (execLoopInDebounceComplete_reach h).leadsTo
    | receiverOctet => exact .inl (execReceiverOctet_leadsTo h)
    | coldStart loss sample schedule =>
      unfold exec execColdStart at h
      dsimp only at h
      split at h
      · exact .inr (.inr ⟨_, sample, schedule, .inr ⟨loss, rfl⟩, (Host.Outcome.next.inj h).symm⟩)
      · exact .inl (next_reach h).leadsTo
    | warmStart sample schedule =>
      unfold exec execWarmStart at h
      dsimp only at h
      split at h
      · exact .inr (.inr ⟨_, sample, schedule, .inl rfl, (Host.Outcome.next.inj h).symm⟩)
      · exact .inl (next_reach h).leadsTo
    | partStops stop =>
      unfold exec execPartStops at h
      dsimp only at h
      split at h
      · refine .inr (.inl ⟨if stop.writeCompleted then s.ret else s.prior, ?_, (Host.Outcome.next.inj h).symm⟩)
        split
        · exact .inl rfl
        · exact .inr rfl
      · exact .inl (next_reach h).leadsTo
    | _ => cases hc

/-- A property of the state that does not speak of the queue of commands and of the links, and that the moves, the
stops and the starts keep, is kept by every step. -/
theorem step_keeps {P : State → Prop} (hpending : ∀ s l, P s → P { s with pending := l })
    (hlinks : ∀ s ls, P s → P { s with links := ls }) (hmove : ∀ s t, Move s t → P s → P t)
    (hstop : ∀ s m, m = s.ret ∨ m = s.prior → P s → P (stopped m s))
    (hstart : ∀ s m sample schedule, s.startMemory m → P s → P (startPart m sample schedule s))
    {s t : State} (hs : P s) (h : step s = .next t) : P t := by
  unfold step at h
  split at h
  · cases h; exact hs
  · next c rest _ =>
    have hs' : P { s with pending := rest } := hpending s rest hs
    rcases exec_cases h with ⟨u, ls, hu, rfl⟩ | ⟨m, hm, rfl⟩ | ⟨m, sample, schedule, hm, rfl⟩
    · exact hlinks u ls (hu.keeps hmove hs')
    · exact hstop _ m hm hs'
    · exact hstart _ m sample schedule hm hs'

/-! ### Starts (R102, R178, R180) -/

/-- Retention memory with the step found in the slot in its place after a start (R102). -/
def Retained.placed (m : Retained) : Retained :=
  match m.active with
  | none => { m with delivery := .idle }
  | some r =>
    { m with
      active := some (powerStep m.delivery r), delivery := .held,
      lapsed := if m.delivery = .armed then insertNumber r.number m.lapsed else m.lapsed }

theorem Retained.placed_none {m : Retained} (h : m.active = none) : m.placed = { m with delivery := .idle } := by
  simp [Retained.placed, h]

theorem Retained.placed_some {m : Retained} {r : Step} (h : m.active = some r) :
    m.placed = { m with
      active := some (powerStep m.delivery r), delivery := .held,
      lapsed := if m.delivery = .armed then insertNumber r.number m.lapsed else m.lapsed } := by
  simp [Retained.placed, h]

theorem placeStep_eq (s : State) : placeStep s = { s with ret := s.ret.placed } := by
  cases ha : s.ret.active <;> simp [placeStep, Retained.placed, ha]

theorem Retained.placed_delivery (m : Retained) : m.placed.delivery = .idle ∨ m.placed.delivery = .held := by
  unfold Retained.placed
  split
  · exact .inl rfl
  · exact .inr rfl

/-- Raises at a start change the hold list and the loops alone (R124). -/
theorem foldl_startRaise_eq (rs : List Raise) (s : State) :
    ∃ holds loop, rs.foldl startRaise s = { s with ret.holds := holds, loop := loop } := by
  induction rs generalizing s with
  | nil => exact ⟨s.ret.holds, s.loop, rfl⟩
  | cons r rest ih =>
    obtain ⟨holds, loop, h⟩ := ih (startRaise s r)
    exact ⟨holds, loop, h⟩

/-- What a start leaves of a retention memory: the step in its place, the tanks and stages aged, the holds raised; no
arming is under way (R102, R55, R124). -/
theorem startFrom_spec (memory prior : Retained) (reason : HoldReason) (sample : InputSample)
    (schedule : List RaisingBlock) (s : State) : ∃ tanks stages holds,
    (startFrom memory prior reason sample schedule s).ret =
        { memory.placed with tanks := tanks, stages := stages, holds := holds } ∧
      (startFrom memory prior reason sample schedule s).prior = prior ∧
      (startFrom memory prior reason sample schedule s).controller.armedFrom = none := by
  unfold startFrom
  rw [placeStep_eq]
  obtain ⟨h1, l1, e1⟩ := foldl_startRaise_eq
    (ownRaises reason { sampled memory prior sample s with ret := (sampled memory prior sample s).ret.placed })
    { sampled memory prior sample s with ret := (sampled memory prior sample s).ret.placed }
  dsimp only
  rw [e1]
  have hidle : (watchStarts { sampled memory prior sample s with
      ret := { (sampled memory prior sample s).ret.placed with holds := h1 }, loop := l1 }).ret.delivery ≠ .pumping := by
    intro hp
    rcases (sampled memory prior sample s).ret.placed_delivery with hd | hd <;>
      exact absurd (hd.symm.trans hp) (by decide)
  rw [recompute_idle _ hidle]
  generalize interleave schedule _ _ _ = raises
  obtain ⟨h2, l2, e2⟩ := foldl_startRaise_eq raises (watchStarts { sampled memory prior sample s with
      ret := { (sampled memory prior sample s).ret.placed with holds := h1 }, loop := l1 }).rated
  rw [e2]
  exact ⟨_, _, h2, rfl, rfl, rfl⟩

/-- What the part's start leaves: of the memory found if it is valid, else of the cold-start values (R178, R180). -/
theorem startPart_spec (memory : Retained) (sample : InputSample) (schedule : List RaisingBlock) (s : State) :
    ∃ m tanks stages holds, (m = memory ∨ m = { coldRetained with marker := true, checkCorrect := true }) ∧
      (startPart memory sample schedule s).ret = { m.placed with tanks := tanks, stages := stages, holds := holds } ∧
      (startPart memory sample schedule s).prior = memory ∧
      (startPart memory sample schedule s).controller.armedFrom = none := by
  unfold startPart
  split
  · obtain ⟨tanks, stages, holds, h⟩ := startFrom_spec memory memory .warm sample schedule s
    exact ⟨memory, tanks, stages, holds, .inl rfl, h⟩
  · obtain ⟨tanks, stages, holds, h⟩ :=
      startFrom_spec { coldRetained with marker := true, checkCorrect := true } memory .cold sample schedule s
    exact ⟨_, tanks, stages, holds, .inr rfl, h⟩

/-- A property of retention memory that a step's steps keep, held by the memory in use and by the one noted before the
latest event, is kept by stops and starts if it holds of the cold-start values, is kept by placing the step found in the
slot, and does not speak of tanks, stages, holds, the marker and the check. -/
theorem start_keeps {Q : Retained → Prop} (hcold : Q coldRetained)
    (hmarks : ∀ m marker check, Q m → Q { m with marker := marker, checkCorrect := check })
    (hplaced : ∀ m tanks stages holds, Q m → Q { m.placed with tanks := tanks, stages := stages, holds := holds })
    {s : State} (hs : Q s.ret) {m : Retained} (hm : s.startMemory m) (sample : InputSample)
    (schedule : List RaisingBlock) :
    Q (startPart m sample schedule s).ret ∧ Q (startPart m sample schedule s).prior := by
  have hmem : Q m := by
    rcases hm with rfl | ⟨loss, rfl⟩
    · exact hs
    · cases loss with
      | markerLost => exact hcold
      | checkIncorrect => exact hmarks s.ret s.ret.marker false hs
  obtain ⟨m', tanks, stages, holds, hm', hret, hprior, -⟩ := startPart_spec m sample schedule s
  rw [hret, hprior]
  refine ⟨hplaced m' tanks stages holds ?_, hmem⟩
  rcases hm' with rfl | rfl
  · exact hmem
  · exact hmarks _ _ _ hcold

end Sys2Proof.Machine
end

