-- ==== Sys2Proof/Proofs/Ledger.lean ====
section
/-! SUPPORT. What a move does to the ledger: the plan, the tally, the limits, the delivery state and the arming. The
moves of the Delivery Controller and the Rate Governor come down to a few turns of the ledger, each a plain update, so
that an invariant of the ledger is checked turn by turn. -/

namespace Sys2Proof.Machine

/-- The core without the holds, the rate and the valve. -/
def ledgerOf (s : State) : Core :=
  { coreOf s with holds := [], permitted := 0, demand := 0, rampRuns := false, command := .closed, loopOut := .closed }

/-- Two states with one ledger and one memory noted before the latest event. -/
def State.sameLedger (s t : State) : Prop := ledgerOf t = ledgerOf s ∧ t.prior = s.prior

/-- A change of delivery state while a step is worked on: both states credit pulses to the step (R79, R130). -/
def DeliveryState.worksOn (d d' : DeliveryState) : Prop := d' = d ∨ d.crediting = true ∧ d'.crediting = true

/-- A state with another delivery state and arming. -/
def State.turned (s : State) (d : DeliveryState) (a : Option ArmedFrom) : State :=
  { s with ret.delivery := d, controller.armedFrom := a }

/-- What a move does to the ledger. -/
inductive Turn (s : State) : State → Prop where
  | note : Turn s s.noted
  | work (d : DeliveryState) (hd : s.ret.delivery.worksOn d) : Turn s (s.turned d s.controller.armedFrom)
  | limits (which : RateLimit) (v : Nat) (d : DeliveryState) (hd : s.ret.delivery.worksOn d) :
      Turn s ({ s with ret.settings := setLimit s.ret.settings which (clampLimit s.ret.settings which v) }.turned d
        s.controller.armedFrom)
  | stopTime (which : StopTime) (v : Nat) :
      Turn s { s with ret.settings := setStopTime s.ret.settings which (clampStopTime s.ret.settings which v) }
  | disarmIdle (r : Step) (hd : s.ret.delivery = .armed) (ha : s.ret.active = some r)
      (hf : s.controller.armedFrom = some .idle) :
      Turn s ({ s with ret.active := none, ret.agreed := r :: s.ret.agreed }.turned .idle none)
  | disarmHeld (r : Step) (hd : s.ret.delivery = .armed) (ha : s.ret.active = some r) : Turn s (s.turned .held none)
  | disarmNone (ha : s.ret.active = none) : Turn s (s.turned .idle none)
  | armIdle (r : Step) (rest : List Step) (hs : s.ret.transfer.state = .joined) (hd : s.ret.delivery = .idle)
      (ha : s.ret.agreed = r :: rest) :
      Turn s ({ s with ret.active := some r, ret.agreed := rest }.turned .armed (some .idle))
  | armHeld (r : Step) (hd : s.ret.delivery = .held) (ha : s.ret.active = some r) :
      Turn s (s.turned .armed (some .held))
  | opening (r : Step) (time : Option Nat) (hd : s.ret.delivery = .armed) (ha : s.ret.active = some r) :
      Turn s ({ s with ret.active := some { r with startTime := time } }.turned .opening none)
  | finish (r : Step) (cause : EndCause) (hd : s.ret.delivery = .held ∨ s.ret.delivery = .settling)
      (ha : s.ret.active = some r) :
      Turn s ({ s with
        ret.active := none,
        ret.done := s.ret.done ++ [{ r with endCause := some cause, endTime := some s.ret.transfer.clock }],
        ret.totals := countFinished s.ret.totals r.grade }.turned .idle s.controller.armedFrom)
  | hold (r : Step) (last : LastStop) (hd : s.ret.delivery = .settling) (ha : s.ret.active = some r) :
      Turn s ({ s with
        ret.active := some { r with holdCount := bump8 r.holdCount, lastStop := some last } }.turned .held
        s.controller.armedFrom)
  | unheld (hd : s.ret.delivery = .settling) (ha : s.ret.active ≠ none) :
      Turn s (s.turned .held s.controller.armedFrom)
  | unslotted (hd : s.ret.delivery = .settling) (ha : s.ret.active = none) :
      Turn s (s.turned .idle s.controller.armedFrom)
  | credit (r : Step) (w : Nat) (hd : s.ret.delivery.crediting = true) (ha : s.ret.active = some r)
      (hm : s.ret.metered + w ≤ Config.max32) : Turn s (creditEffect r w s)
  | unassign (w : Nat) (hm : s.ret.metered + w ≤ Config.max32) : Turn s (unassignEffect w s)
  | openTransfer (tr : Transfer) (d : DeliveryState) (hd : s.ret.delivery.worksOn d)
      (hs : s.ret.transfer.state = .vacant ∨ s.ret.transfer.state = .closed ∧ s.ret.done = [])
      (ht : tr.state = .opened) (hn : tr.nextStep = some 1) :
      Turn s ({ s with
        ret.transfer := tr, ret.totals := mapTable (fun _ => { litres := 0, steps := 0 }) s.ret.totals,
        ret.unassigned := 0, ret.metered := 0 }.turned d s.controller.armedFrom)
  | joinTransfer (hs : s.ret.transfer.state = .opened) : Turn s { s with ret.transfer.state := .joined }
  | closeTransfer (ha : s.ret.active = none) : Turn s (closeEffects s)
  | propose (link : Station) (n : Nat) (g : Fin 4) (entries : List TankEntry) (c : StepContent) (hl : link ≠ .survey)
      (hf : contentFormed c = true) (hs : s.ret.transfer.state = .opened ∨ s.ret.transfer.state = .joined)
      (hn : s.ret.transfer.nextStep = some n) (h0 : s.ret.free ≠ 0) (hc : checkContent s c = some (g, entries)) :
      Turn s (proposeEffect link n g entries c s)
  | amend (link : Station) (r : Step) (g : Fin 4) (entries : List TankEntry) (c : StepContent) (hl : link ≠ .survey)
      (hf : contentFormed c = true) (hm : r ∈ s.ret.proposed) (hc : checkContent s c = some (g, entries)) :
      Turn s { s with ret.proposed := replaceStep s.ret.proposed (amendedStep link r g entries c) }
  | agree (link : Station) (r : Step) (hl : link ≠ .survey) (hs : s.ret.transfer.state = .joined)
      (hm : r ∈ s.ret.proposed) (hk : r.marked link = false) :
      Turn s { s with
        ret.proposed := dropStep s.ret.proposed r.number, ret.agreed := s.ret.agreed ++ [r.addMark link] }
  | revise (link : Station) (n : Nat) (head : Bool) (hl : link ≠ .survey) (hs : s.ret.transfer.state = .joined) :
      Turn s { s with
        ret.agreed := (splitRun s.ret.agreed n).1,
        ret.proposed :=
          if head then (splitRun s.ret.agreed n).2.map (fun q => q.onlyMark link) ++ s.ret.proposed
          else s.ret.proposed ++ (splitRun s.ret.agreed n).2.map fun q => q.onlyMark link }
  | freeProposed (r : Step) (hm : r ∈ s.ret.proposed) : Turn s (freeProposed r.number s)
  | freeAgreed (r : Step) (hm : r ∈ s.ret.agreed) : Turn s (freeAgreed r.number s)
  | take (r : Step) (rest : List Step) (hm : s.ret.done = r :: rest) :
      Turn s { s with ret.done := rest, ret.free := s.ret.free + 1 }

/-- A state redirected keeps its ledger but for the delivery state and the arming. -/
theorem sameLedger_redirect (s : State) {d : DeliveryState} {g : Governor} {c : Controller} {nf : NoFlow}
    {a : Option ArmedFrom} (h : c.armedFrom = a) : (s.turned d a).sameLedger (s.redirect d g c nf) := by
  subst h; exact ⟨rfl, rfl⟩

theorem worksOn_of_crediting {d d' : DeliveryState} (h : d.crediting = true)
    (h' : d' = .pumping ∨ d' = .rundown ∨ d' = .closing ∨ d' = .settling) : d.worksOn d' := by
  refine .inr ⟨h, ?_⟩
  rcases h' with rfl | rfl | rfl | rfl <;> rfl

theorem crediting_of_flowing {d : DeliveryState} (h : d.flowing = true) : d.crediting = true := by
  cases d <;> first | rfl | cases h

/-- A recomputation turns the ledger by the end of a pumped step alone (R67, R68). -/
theorem recompute_turn (s : State) : ∃ d, s.ret.delivery.worksOn d ∧
    (s.turned d s.controller.armedFrom).sameLedger (recompute s) := by
  obtain ⟨d, g, c, nf, h, -, -, -, ha, -, -, hidle, hpump⟩ := recompute_spec s
  refine ⟨d, ?_, h ▸ sameLedger_redirect s ha⟩
  by_cases hp : s.ret.delivery = .pumping
  · refine worksOn_of_crediting (by rw [hp]; rfl) ?_
    rcases hpump hp with ⟨hd, -⟩ | ⟨-, -, -, ⟨hd, -⟩ | ⟨hd | hd, -⟩⟩ <;> simp [hd]
  · exact .inl (hidle hp).1

theorem sameLedger_trans {s t u : State} (h : s.sameLedger t) (h' : t.sameLedger u) : s.sameLedger u :=
  ⟨h'.1.trans h.1, h'.2.trans h.2⟩

theorem sameLedger_evalNoFlow (s : State) : s.sameLedger (evalNoFlow s) := by
  obtain ⟨nf, h⟩ := evalNoFlow_spec s; rw [h]; exact ⟨rfl, rfl⟩

theorem sameLedger_evalOverspeed (s : State) : s.sameLedger (evalOverspeed s) := by
  obtain ⟨nf, h⟩ := evalOverspeed_spec s; rw [h]; exact ⟨rfl, rfl⟩

theorem sameLedger_setCommand (c : ValveCommand) (s : State) : s.sameLedger (setCommand c s) := by
  obtain ⟨st, h⟩ := setCommand_spec c s; rw [h]; exact ⟨rfl, rfl⟩

/-- The limits' effects after the recomputation are outside the ledger (R76, R138). -/
theorem sameLedger_limitsAct (which : RateLimit) (s : State) : (recompute s).sameLedger (limitsAct which s) := by
  have h1 : (recompute s).sameLedger (liftDemand (recompute s)) := by
    unfold liftDemand
    split
    · exact sameLedger_trans (t := { recompute s with governor.demand := (recompute s).ret.settings.rmin }) ⟨rfl, rfl⟩
        (sameLedger_evalNoFlow _)
    · exact ⟨rfl, rfl⟩
  unfold limitsAct
  dsimp only
  split
  · exact sameLedger_trans h1 (sameLedger_evalOverspeed _)
  · exact h1

/-- The arming of a step, on the ledger (R86). -/
theorem armStep_turn (r : Step) (e : Event) (hn : startRefusal e.s = none) (hc : candidate e.s = some r) :
    ∃ u, Turn e.s u ∧ u.sameLedger (armStep r e).s := by
  have hj : e.s.ret.transfer.state = .joined := by
    unfold startRefusal at hn
    by_contra hne
    rw [if_pos hne] at hn
    cases hn
  have armed (s : State) (h : s.ret.delivery = .armed) : s.sameLedger (recompute s) := by
    rw [recompute_idle s (by rw [h]; decide)]; exact ⟨rfl, rfl⟩
  unfold candidate at hc
  split at hc
  · next hd =>
    obtain ⟨rest, ha⟩ : ∃ rest, e.s.ret.agreed = r :: rest := by
      cases hl : e.s.ret.agreed with
      | nil => rw [hl] at hc; cases hc
      | cons q rest => rw [hl] at hc; cases hc; exact ⟨rest, rfl⟩
    refine ⟨_, .armIdle r rest hj hd ha, ?_⟩
    simp only [armStep, hd, setDelivery_spec _ _ (show DeliveryState.armed ≠ .pumping by decide), reduceCtorEq, if_false,
      ha, List.tail_cons]
    exact sameLedger_trans ⟨rfl, rfl⟩ (armed _ rfl)
  · next hd =>
    refine ⟨_, .armHeld r hd hc, ?_⟩
    simp only [armStep, hd, setDelivery_spec _ _ (show DeliveryState.armed ≠ .pumping by decide), if_true]
    exact sameLedger_trans ⟨rfl, rfl⟩ (armed _ rfl)
  all_goals cases hc

/-- Every move is one turn of the ledger. -/
theorem Move.turn {s t : State} (h : Move s t) : ∃ u, Turn s u ∧ u.sameLedger t := by
  have stays {t : State} (h : s.sameLedger t) : ∃ u, Turn s u ∧ u.sameLedger t := ⟨_, .work s.ret.delivery (.inl rfl), h⟩
  have works {t : State} {d g c nf} (ht : t = s.redirect d g c nf) (hd : s.ret.delivery.worksOn d)
      (hc : c.armedFrom = s.controller.armedFrom) : ∃ u, Turn s u ∧ u.sameLedger t :=
    ⟨_, .work d hd, ht ▸ sameLedger_redirect s hc⟩
  cases h with
  | note => exact ⟨_, .note, rfl, rfl⟩
  | quiet _ _ hc hp =>
    refine stays ⟨?_, hp⟩
    unfold ledgerOf
    rw [hc]
  | holds => exact stays ⟨rfl, rfl⟩
  | closing _ hr hd =>
    obtain ⟨d, c, h, hdc, -, -, ha, -⟩ := enterClosing_spec s
    refine works h (worksOn_of_crediting (crediting_of_flowing hd) ?_) ha
    rcases hdc with rfl | rfl <;> simp
  | rundown _ hr hd =>
    obtain ⟨d, c, h, hdc, ha, -⟩ := enterRundown_spec s
    refine works h (worksOn_of_crediting (by rw [hd]; rfl) ?_) ha
    rcases hdc with ⟨rfl, -⟩ | ⟨rfl | rfl, -⟩ <;> simp
  | settling _ hr hd => exact works (enterSettling_spec s) (worksOn_of_crediting (by rw [hd]; rfl) (by simp)) rfl
  | pumping _ hr hd =>
    obtain ⟨d, g, c, nf, h, -, -, -, ha, -, -, hdc⟩ := enterPumping_spec s
    refine works h (worksOn_of_crediting (by rw [hd]; rfl) ?_) ha
    rcases hdc with ⟨rfl, -⟩ | ⟨-, -, -, ⟨rfl, -⟩ | ⟨rfl | rfl, -⟩⟩ <;> simp
  | rate =>
    obtain ⟨d, hd, h⟩ := recompute_turn s
    exact ⟨_, .work d hd, h⟩
  | limits _ which v =>
    obtain ⟨d, hd, h⟩ := recompute_turn
      { s with ret.settings := setLimit s.ret.settings which (clampLimit s.ret.settings which v) }
    exact ⟨_, .limits which v d hd, sameLedger_trans h (sameLedger_limitsAct which _)⟩
  | stopTime _ which v => exact ⟨_, .stopTime which v, rfl, rfl⟩
  | arming e how hr hd =>
    cases ha : e.s.ret.active with
    | none =>
      rw [endArming_none how e ha]
      exact ⟨_, .disarmNone ha, sameLedger_redirect _ rfl⟩
    | some r =>
      by_cases hf : e.s.controller.armedFrom = some .idle
      · rw [endArming_idle how e r ha hf]
        exact ⟨_, .disarmIdle r hd ha hf, rfl, rfl⟩
      · rw [endArming_held how e r ha hf]
        exact ⟨_, .disarmHeld r hd ha, rfl, rfl⟩
  | arm e r hr hn hc => exact armStep_turn r e hn hc
  | opening _ r hr hd ha =>
    refine ⟨_, .opening r (some (r.startTime.getD s.ret.transfer.clock)) hd ha, ?_⟩
    refine sameLedger_trans ?_ (sameLedger_setCommand _ _)
    rw [setDelivery_spec _ _ (by decide)]
    exact ⟨rfl, rfl⟩
  | finish e cause r hr hd ha =>
    rw [finishStep_spec]
    exact ⟨_, .finish r cause hd ha, rfl, rfl⟩
  | hold _ last r hr hd ha =>
    rw [holdStep_spec]
    exact ⟨_, .hold r last hd ha, rfl, rfl⟩
  | unheld _ hr hd ha =>
    rw [setDelivery_spec _ _ (by decide)]
    exact ⟨_, .unheld hd ha, rfl, rfl⟩
  | unslotted _ hr hd ha =>
    rw [setDelivery_spec _ _ (by decide)]
    exact ⟨_, .unslotted hd ha, rfl, rfl⟩
  | ramp => exact stays (sameLedger_trans (t := { s with governor.ramp := _, governor.demand := _ }) ⟨rfl, rfl⟩
      (sameLedger_evalNoFlow _))
  | credit _ r w hr ha hd hm => exact ⟨_, .credit r w hd ha hm, rfl, rfl⟩
  | unassign _ w hr hm => exact ⟨_, .unassign w hm, rfl, rfl⟩
  | openTransfer _ id gs hr hs =>
    obtain ⟨d, hd, h⟩ := recompute_turn { s with
      ret.transfer := { state := .opened, id := some id, grades := gs, nextStep := some 1, clock := 0 },
      ret.totals := mapTable (fun _ => { litres := 0, steps := 0 }) s.ret.totals,
      ret.unassigned := 0, ret.metered := 0, ret.lapsed := [],
      ret.tanks := mapTable clearReading s.ret.tanks, tickCount := 0 }
    exact ⟨_, .openTransfer _ d hd hs rfl rfl, sameLedger_trans ⟨rfl, rfl⟩ h⟩
  | joinTransfer _ hr hs => exact ⟨_, .joinTransfer hs, rfl, rfl⟩
  | closeTransfer _ hr ha => exact ⟨_, .closeTransfer ha, rfl, rfl⟩
  | propose _ link n g entries c hr hl hf hs hn h0 hc =>
    exact ⟨_, .propose link n g entries c hl hf hs hn h0 hc, rfl, rfl⟩
  | amend _ link r g entries c hr hl hf hm hc => exact ⟨_, .amend link r g entries c hl hf hm hc, rfl, rfl⟩
  | agree _ link r hr hl hs hm hk => exact ⟨_, .agree link r hl hs hm hk, rfl, rfl⟩
  | revise _ link n head hr hl hs => exact ⟨_, .revise link n head hl hs, rfl, rfl⟩
  | freeProposed _ r hr hm => exact ⟨_, .freeProposed r hm, rfl, rfl⟩
  | freeAgreed _ r hr hm => exact ⟨_, .freeAgreed r hm, rfl, rfl⟩
  | take _ r rest hr hm => exact ⟨_, .take r rest hm, rfl, rfl⟩

/-- A property of the ledger and of the memory noted before the latest event that every turn keeps is kept by every
move. -/
theorem Move.keeps_of_turn {P : State → Prop} (hP : ∀ s t, s.sameLedger t → P s → P t)
    (hturn : ∀ s u, Turn s u → P s → P u) (s t : State) (h : Move s t) (hs : P s) : P t := by
  obtain ⟨u, hu, hl⟩ := h.turn
  exact hP u t hl (hturn s u hu hs)

end Sys2Proof.Machine
end

