-- ==== Sys2Proof/Proofs/Content.lean ====
section
/-! Codes and indices, the checks of a step content (R13), and the share split of a credit (R39). -/

namespace Sys2Proof.Machine

/-! ### Codes and indices (R195) -/

theorem index?_eq_some {n k : Nat} {i : Fin n} : index? n k = some i ↔ k = i.val := by
  unfold index?
  split
  · simp [Fin.ext_iff]
  · have := i.isLt
    simp only [reduceCtorEq, false_iff]
    omega

theorem code?_eq_some {n k : Nat} {i : Fin n} : code? n k = some i ↔ k = i.val + 1 := by
  unfold code?
  split
  · simp only [reduceCtorEq, false_iff]
    omega
  · rw [index?_eq_some]
    omega

@[simp] theorem oct_toNat (n : Nat) : (oct n).toNat = n % 256 := by simp [oct]

theorem toNat_eq_iff_oct {b : Byte} {n : Nat} (h : n < 256) : b.toNat = n ↔ b = oct n := by
  rw [BitVec.toNat_eq, oct_toNat, Nat.mod_eq_of_lt h]

/-- A grade code names a grade exactly when it is that grade's code (R195). -/
theorem code?_gradeCode {b : Byte} {g : Fin 4} : code? 4 b.toNat = some g ↔ b = gradeCode g := by
  rw [code?_eq_some, toNat_eq_iff_oct (by omega)]
  rfl

/-! ### The content of a step (R13) -/

/-- A tank-list entry as a request spells it (R196). -/
def TankEntry.asked (e : TankEntry) : TankShare := { tank := oct e.tank.val, share := oct e.share }

/-- An entry that passes R13: a defined tank, a share of 1 to 100, no credit yet. -/
def TankEntry.admitted (s : State) (e : TankEntry) : Prop :=
  (s.tank e.tank).definition ≠ none ∧ 1 ≤ e.share ∧ e.share ≤ 100 ∧ e.credit = 0

theorem entryOf_eq_some {s : State} {t : TankShare} {e : TankEntry} :
    entryOf s t = some e ↔ t = e.asked ∧ e.admitted s := by
  obtain ⟨tank, share⟩ := t
  obtain ⟨i, n, k⟩ := e
  unfold entryOf TankEntry.asked TankEntry.admitted
  simp only [TankShare.mk.injEq]
  constructor
  · intro h
    split at h
    · cases h
    · next j hj =>
      rw [index?_eq_some] at hj
      split at h
      · next hc =>
        simp only [Option.some.injEq, TankEntry.mk.injEq] at h
        obtain ⟨rfl, rfl, rfl⟩ := h
        simp only [Bool.and_eq_true, decide_eq_true_eq] at hc
        obtain ⟨hdef, hshare⟩ := hc
        exact ⟨⟨(toNat_eq_iff_oct (by omega)).1 hj, (toNat_eq_iff_oct (by omega)).1 rfl⟩,
          Option.isSome_iff_ne_none.1 hdef, hshare.1, hshare.2, rfl⟩
      · cases h
  · rintro ⟨⟨rfl, rfl⟩, hdef, h1, h2, rfl⟩
    have hi : index? 8 (oct i.val).toNat = some i := by rw [index?_eq_some, oct_toNat]; omega
    have hn : (oct n).toNat = n := by rw [oct_toNat]; omega
    rw [hi]
    simp [hn, h1, h2, Option.isSome_iff_ne_none.2 hdef]

/-- A list of optional values that are all present is the list of these values. -/
theorem all_isSome_iff {α : Type} (l : List (Option α)) (r : List α) :
    (l.all Option.isSome = true ∧ l.filterMap id = r) ↔ l = r.map some := by
  induction l generalizing r with
  | nil => cases r <;> simp
  | cons a rest ih =>
    cases a with
    | none => cases r <;> simp
    | some x =>
      cases r with
      | nil => simp
      | cons y ys => simp [← ih ys, and_left_comm]

theorem map_entryOf_eq {s : State} {tanks : List TankShare} {entries : List TankEntry} :
    tanks.map (entryOf s) = entries.map some ↔
      tanks = entries.map TankEntry.asked ∧ ∀ e ∈ entries, e.admitted s := by
  induction entries generalizing tanks with
  | nil => simp
  | cons e rest ih =>
    cases tanks with
    | nil => simp
    | cons t ts =>
      simp only [List.map_cons, List.cons.injEq, ih, entryOf_eq_some, List.forall_mem_cons]
      exact and_and_and_comm

/-- The tanks an entry list spells are distinct exactly when its tanks are. -/
theorem nodup_asked (entries : List TankEntry) :
    ((entries.map TankEntry.asked).map TankShare.tank).Nodup ↔ (entries.map TankEntry.tank).Nodup := by
  have hmap : (entries.map TankEntry.asked).map TankShare.tank =
      (entries.map TankEntry.tank).map fun i => oct i.val := by
    simp [List.map_map, Function.comp_def, TankEntry.asked]
  have hinj : Function.Injective fun i : Fin 8 => oct i.val := by decide
  rw [hmap, List.nodup_map_iff hinj]

/-- The shares an entry list spells are its shares, none above 100. -/
theorem shares_asked {entries : List TankEntry} (h : ∀ e ∈ entries, e.share ≤ 100) :
    (entries.map TankEntry.asked).map (fun t => t.share.toNat) = entries.map TankEntry.share := by
  rw [List.map_map]
  refine List.map_congr_left fun e he => ?_
  have := h e he
  show (oct e.share).toNat = e.share
  rw [oct_toNat]
  omega

/-- Which contents pass R13, and with what grade and tank list. -/
theorem checkContent_eq_some {s : State} {c : StepContent} {g : Fin 4} {entries : List TankEntry} :
    checkContent s c = some (g, entries) ↔
      c.grade = gradeCode g ∧ g ∈ s.ret.transfer.grades ∧ c.tanks = entries.map TankEntry.asked ∧
        (entries.map TankEntry.tank).Nodup ∧ (entries.map TankEntry.share).sum = 100 ∧
        ∀ e ∈ entries, e.admitted s := by
  unfold checkContent
  dsimp only
  constructor
  · intro h
    split at h
    · cases h
    · next g' hg =>
      split at h
      · next hc =>
        simp only [Option.some.injEq, Prod.mk.injEq] at h
        obtain ⟨rfl, hentries⟩ := h
        simp only [Bool.and_eq_true, decide_eq_true_eq] at hc
        obtain ⟨⟨⟨hgrade, hall⟩, hnodup⟩, hsum⟩ := hc
        obtain ⟨htanks, hadm⟩ := map_entryOf_eq.1 ((all_isSome_iff _ _).1 ⟨hall, hentries⟩)
        rw [htanks] at hnodup hsum
        refine ⟨code?_gradeCode.1 hg, by simpa using hgrade, htanks, (nodup_asked entries).1 hnodup, ?_, hadm⟩
        rwa [shares_asked fun e he => (hadm e he).2.2.1] at hsum
      · cases h
  · rintro ⟨hg, hgrade, htanks, hnodup, hsum, hadm⟩
    obtain ⟨hall, hentries⟩ := (all_isSome_iff _ _).2 (map_entryOf_eq.2 ⟨htanks, hadm⟩)
    have hn : (c.tanks.map TankShare.tank).Nodup := by rw [htanks]; exact (nodup_asked entries).2 hnodup
    have hs : (c.tanks.map fun t => t.share.toNat).sum = 100 := by
      rw [htanks, shares_asked fun e he => (hadm e he).2.2.1]; exact hsum
    rw [code?_gradeCode.2 hg]
    dsimp only
    rw [if_pos (by simp [hgrade, hall, hn, hs]), hentries]

/-- Settles O9: the content checks, with each entry written as R196 spells it. -/
theorem contentIsChecked : Obligations.ContentIsChecked := by
  intro s c g entries
  rw [checkContent_eq_some]
  rfl

/-- The tank list that passes R13 splits a step that has delivered nothing (R13, R39). -/
theorem checkContent_split {s : State} {c : StepContent} {g : Fin 4} {entries : List TankEntry}
    (h : checkContent s c = some (g, entries)) (hf : contentFormed c = true) (r : Step) (ht : r.tanks = entries)
    (hd : r.delivered = 0) : r.split := by
  obtain ⟨-, -, htanks, hnodup, hsum, hadm⟩ := checkContent_eq_some.1 h
  have hlen : c.tanks.length = entries.length := by rw [htanks, List.length_map]
  have hformed : 1 ≤ c.tanks.length ∧ c.tanks.length ≤ 3 := by simpa [contentFormed] using hf
  have hcredit : (entries.map TankEntry.credit).sum = 0 :=
    List.sum_eq_zero fun n hn => by
      obtain ⟨e, he, rfl⟩ := List.mem_map.1 hn
      exact (hadm e he).2.2.2
  unfold Step.split
  rw [ht, hd, ← hlen]
  exact ⟨hformed.1, hformed.2, hnodup, fun e he => ⟨(hadm e he).2.1, (hadm e he).2.2.1⟩, hsum, hcredit⟩

/-! ### The share split (R39) -/

/-- A split keeps the tanks and the shares, and so their number. -/
theorem splitCredits_keeps (d : Nat) (l : List TankEntry) :
    (splitCredits d l).map TankEntry.tank = l.map TankEntry.tank ∧
      (splitCredits d l).map TankEntry.share = l.map TankEntry.share := by
  cases l with
  | nil => exact ⟨rfl, rfl⟩
  | cons e rest => simp [splitCredits, Function.comp_def, shareOf]

/-- The floors of the shares of `d` do not exceed the share of `d` that they sum to. -/
theorem sum_shareOf_le (d : Nat) (l : List TankEntry) :
    100 * ((l.map (shareOf d)).map TankEntry.credit).sum ≤ d * (l.map TankEntry.share).sum := by
  induction l with
  | nil => simp
  | cons e rest ih =>
    have hfloor : 100 * (d * e.share / 100) ≤ d * e.share := Nat.mul_div_le _ _
    simp only [List.map_cons, List.sum_cons, Nat.mul_add]
    exact Nat.add_le_add hfloor ih

/-- The credits of a list whose shares sum to 100 sum to what was delivered (R39). -/
theorem splitCredits_sum (d : Nat) {l : List TankEntry} (h : (l.map TankEntry.share).sum = 100) :
    ((splitCredits d l).map TankEntry.credit).sum = d := by
  cases l with
  | nil => simp at h
  | cons e rest =>
    have hrest : (rest.map TankEntry.share).sum ≤ 100 := by rw [List.map_cons, List.sum_cons] at h; omega
    have hle : ((rest.map (shareOf d)).map TankEntry.credit).sum ≤ d := by
      have h1 := sum_shareOf_le d rest
      have h2 : d * (rest.map TankEntry.share).sum ≤ d * 100 := Nat.mul_le_mul_left d hrest
      omega
    simp only [splitCredits, List.map_cons, List.sum_cons]
    exact Nat.sub_add_cancel hle

/-- A credited step still accounts for its litres (R22, R39). -/
theorem credited_split {r : Step} (h : r.split) (w : Nat) : (r.credited w).split := by
  obtain ⟨h1, h3, hnodup, hshares, hsum, -⟩ := h
  obtain ⟨htank, hshare⟩ := splitCredits_keeps (r.delivered + w) r.tanks
  have hlen : (splitCredits (r.delivered + w) r.tanks).length = r.tanks.length := by
    simpa using congrArg List.length htank
  refine ⟨hlen ▸ h1, hlen ▸ h3, htank ▸ hnodup, fun e he => ?_, hshare ▸ hsum, splitCredits_sum _ hsum⟩
  have hmem : e.share ∈ r.tanks.map TankEntry.share := hshare ▸ List.mem_map_of_mem he
  obtain ⟨e', he', heq⟩ := List.mem_map.1 hmem
  exact heq ▸ hshares e' he'

end Sys2Proof.Machine
end

