-- ==== Sys2Proof/Proofs/PlanInvariants.lean ====
section
/-! The invariants of the ledger (chapters 01 and 09): the pool, the step numbers, the records, the tally and the
settings. Each is kept by every turn of the ledger, by stops and by starts. -/

namespace Sys2Proof.Machine

/-! ### Ledgers with the same entries -/

theorem State.sameLedger.plan {s t : State} (h : s.sameLedger t) :
    t.ret.transfer.state = s.ret.transfer.state ∧ t.ret.transfer.nextStep = s.ret.transfer.nextStep ∧
      t.ret.proposed = s.ret.proposed ∧ t.ret.agreed = s.ret.agreed ∧ t.ret.active = s.ret.active ∧
      t.ret.done = s.ret.done ∧ t.ret.free = s.ret.free :=
  ⟨congrArg Core.transferState h.1, congrArg Core.nextStep h.1, congrArg Core.proposed h.1, congrArg Core.agreed h.1,
    congrArg Core.active h.1, congrArg Core.done h.1, congrArg Core.free h.1⟩

theorem State.sameLedger.delivery {s t : State} (h : s.sameLedger t) :
    t.ret.delivery = s.ret.delivery ∧ t.controller.armedFrom = s.controller.armedFrom :=
  ⟨congrArg Core.delivery h.1, congrArg Core.armedFrom h.1⟩

theorem State.sameLedger.tally {s t : State} (h : s.sameLedger t) :
    mapTable GradeTotal.litres t.ret.totals = mapTable GradeTotal.litres s.ret.totals ∧
      t.ret.metered = s.ret.metered ∧ t.ret.unassigned = s.ret.unassigned :=
  ⟨congrArg Core.litres h.1, congrArg Core.metered h.1, congrArg Core.unassigned h.1⟩

theorem State.sameLedger.limits {s t : State} (h : s.sameLedger t) :
    t.ret.settings.rmax = s.ret.settings.rmax ∧ t.ret.settings.rmin = s.ret.settings.rmin ∧
      t.ret.settings.cb = s.ret.settings.cb ∧ t.ret.settings.tstop = s.ret.settings.tstop ∧
      t.ret.settings.rundown = s.ret.settings.rundown ∧ t.ret.settings.tclose = s.ret.settings.tclose :=
  ⟨congrArg Core.rmax h.1, congrArg Core.rmin h.1, congrArg Core.cb h.1, congrArg Core.tstop h.1,
    congrArg Core.rundown h.1, congrArg Core.tclose h.1⟩

/-! ### Lists of records -/

/-- How often a number stands in a list of records. -/
def numbered (n : Nat) (l : List Step) : Nat := (l.map Step.number).count n

@[simp] theorem numbered_nil (n : Nat) : numbered n [] = 0 := rfl

@[simp] theorem numbered_append (n : Nat) (l k : List Step) : numbered n (l ++ k) = numbered n l + numbered n k := by
  simp [numbered]

@[simp] theorem numbered_cons (n : Nat) (r : Step) (l : List Step) :
    numbered n (r :: l) = numbered n l + if r.number = n then 1 else 0 := by
  simp [numbered, List.count_cons]

/-- A change of records that keeps their numbers. -/
theorem numbered_map (n : Nat) (f : Step → Step) (hf : ∀ q, (f q).number = q.number) (l : List Step) :
    numbered n (l.map f) = numbered n l := by
  simp [numbered, Function.comp_def, hf]

theorem numbered_replaceStep (n : Nat) (l : List Step) (r : Step) : numbered n (replaceStep l r) = numbered n l := by
  refine numbered_map n _ (fun q => ?_) l
  split
  · next h => simpa using (beq_iff_eq.1 h).symm
  · rfl

/-- The record that bears a number leaves a list. -/
theorem dropStep_split {l : List Step} {r : Step} (h : r ∈ l) :
    ∃ q k1 k2, q.number = r.number ∧ l = k1 ++ q :: k2 ∧ dropStep l r.number = k1 ++ k2 := by
  obtain ⟨q, k1, k2, -, hq, hl, hd⟩ := List.exists_of_eraseP (p := fun q => q.number == r.number) h (by simp)
  exact ⟨q, k1, k2, by simpa using hq, hl, hd⟩

theorem length_dropStep {l : List Step} {r : Step} (h : r ∈ l) : (dropStep l r.number).length + 1 = l.length := by
  obtain ⟨q, k1, k2, -, hl, hd⟩ := dropStep_split h
  rw [hd, hl]
  simp only [List.length_append, List.length_cons]
  omega

theorem numbered_dropStep {l : List Step} {r : Step} (n : Nat) (h : r ∈ l) :
    numbered n (dropStep l r.number) + (if r.number = n then 1 else 0) = numbered n l := by
  obtain ⟨q, k1, k2, hq, hl, hd⟩ := dropStep_split h
  rw [hd, hl]
  simp only [numbered_append, numbered_cons, hq]
  omega

theorem mem_of_mem_dropStep {l : List Step} {n : Nat} {r : Step} (h : r ∈ dropStep l n) : r ∈ l :=
  List.mem_of_mem_eraseP h

theorem splitRun_eq (l : List Step) (n : Nat) :
    splitRun l n = (l.takeWhile fun r => r.number != n, l.dropWhile fun r => r.number != n) :=
  List.span_eq_takeWhile_dropWhile _ _

theorem splitRun_append (l : List Step) (n : Nat) : (splitRun l n).1 ++ (splitRun l n).2 = l := by
  rw [splitRun_eq]; exact List.takeWhile_append_dropWhile

/-! ### Delivery states under work -/

theorem worksOn_idle {d d' : DeliveryState} (h : d.worksOn d') : d' = .idle ↔ d = .idle := by
  rcases h with rfl | ⟨h, h'⟩
  · exact Iff.rfl
  · constructor
    · rintro rfl; cases h'
    · rintro rfl; cases h

theorem worksOn_armed {d d' : DeliveryState} (h : d.worksOn d') (ha : d = .armed) : d' = .armed := by
  subst ha
  rcases h with rfl | ⟨h, -⟩
  · rfl
  · cases h

/-! ### The pool (R7, R20) -/

theorem poolWhole_of_sameLedger (s t : State) (h : s.sameLedger t) (hs : s.poolWhole) : t.poolWhole := by
  obtain ⟨hret, hprior⟩ := hs
  obtain ⟨-, -, hp, hg, ha, hd, hf⟩ := h.plan
  refine ⟨?_, h.2 ▸ hprior⟩
  unfold Retained.poolWhole at hret ⊢
  rwa [hp, hg, ha, hd, hf, h.delivery.1]

theorem turn_poolWhole (s u : State) (h : Turn s u) (hs : s.poolWhole) : u.poolWhole := by
  obtain ⟨⟨hcount, hslot⟩, hprior⟩ := hs
  have slot {r : Step} (ha : s.ret.active = some r) : s.ret.active.toList.length = 1 := by rw [ha]; rfl
  have empty (ha : s.ret.active = none) : s.ret.active.toList.length = 0 := by rw [ha]; rfl
  cases h with
  | note => exact ⟨⟨hcount, hslot⟩, hcount, hslot⟩
  | work d hd => exact ⟨⟨hcount, (worksOn_idle hd).trans hslot⟩, hprior⟩
  | limits which v d hd => exact ⟨⟨hcount, (worksOn_idle hd).trans hslot⟩, hprior⟩
  | disarmIdle r hd ha hf =>
    refine ⟨⟨?_, by simp [State.turned]⟩, hprior⟩
    have := slot ha
    simp only [State.turned, List.length_cons, Option.toList_none, List.length_nil]
    omega
  | disarmHeld r hd ha => exact ⟨⟨hcount, by simp [State.turned, ha]⟩, hprior⟩
  | disarmNone ha => exact ⟨⟨hcount, by simp [State.turned, ha]⟩, hprior⟩
  | armIdle r rest hj hd ha =>
    refine ⟨⟨?_, by simp [State.turned]⟩, hprior⟩
    have := empty (hslot.1 hd)
    rw [ha] at hcount
    simp only [List.length_cons] at hcount
    simp only [State.turned, Option.toList_some, List.length_cons, List.length_nil]
    omega
  | armHeld r hd ha => exact ⟨⟨hcount, by simp [State.turned, ha]⟩, hprior⟩
  | opening r time hd ha =>
    refine ⟨⟨?_, by simp [State.turned]⟩, hprior⟩
    rw [slot ha] at hcount
    exact hcount
  | finish r cause hd ha =>
    refine ⟨⟨?_, by simp [State.turned]⟩, hprior⟩
    have := slot ha
    simp only [State.turned, List.length_append, List.length_cons, Option.toList_none, List.length_nil]
    omega
  | hold r last hd ha =>
    refine ⟨⟨?_, by simp [State.turned]⟩, hprior⟩
    rw [slot ha] at hcount
    exact hcount
  | unheld hd ha => exact ⟨⟨hcount, by simp [State.turned, ha]⟩, hprior⟩
  | unslotted hd ha => exact ⟨⟨hcount, by simp [State.turned, ha]⟩, hprior⟩
  | credit r w hd ha hm =>
    refine ⟨⟨?_, ?_⟩, hprior⟩
    · rw [slot ha] at hcount
      exact hcount
    · have hne : s.ret.delivery ≠ .idle := fun he => by rw [he] at hd; cases hd
      simp [creditEffect, hne]
  | openTransfer tr d hd hs ht hn => exact ⟨⟨hcount, (worksOn_idle hd).trans hslot⟩, hprior⟩
  | closeTransfer ha =>
    refine ⟨⟨?_, hslot⟩, hprior⟩
    simp only [closeEffects, List.length_nil]
    omega
  | propose link n g entries c hl hf hs hn h0 hc =>
    refine ⟨⟨?_, hslot⟩, hprior⟩
    simp only [proposeEffect, List.length_append, List.length_cons, List.length_nil]
    omega
  | amend link r g entries c hl hf hm hc =>
    refine ⟨⟨?_, hslot⟩, hprior⟩
    simpa only [replaceStep, List.length_map] using hcount
  | agree link r hl hs hm hk =>
    refine ⟨⟨?_, hslot⟩, hprior⟩
    have := length_dropStep hm
    simp only [List.length_append, List.length_cons, List.length_nil]
    omega
  | revise link n head hl hs =>
    refine ⟨⟨?_, hslot⟩, hprior⟩
    have := congrArg List.length (splitRun_append s.ret.agreed n)
    rw [List.length_append] at this
    dsimp only
    split <;> simp only [List.length_append, List.length_map] <;> omega
  | freeProposed r hm =>
    refine ⟨⟨?_, hslot⟩, hprior⟩
    have := length_dropStep hm
    simp only [freeProposed]
    omega
  | freeAgreed r hm =>
    refine ⟨⟨?_, hslot⟩, hprior⟩
    have := length_dropStep hm
    simp only [freeAgreed]
    omega
  | take r rest hm =>
    refine ⟨⟨?_, hslot⟩, hprior⟩
    rw [hm, List.length_cons] at hcount
    dsimp only
    omega
  | stopTime | unassign | joinTransfer => exact ⟨⟨hcount, hslot⟩, hprior⟩

theorem poolWhole_cold : coldRetained.poolWhole := ⟨rfl, by simp [coldRetained]⟩

/-- A start leaves the pool whole: the step in the slot stays there, HELD (R102). -/
theorem poolWhole_placed (m : Retained) (tanks : Vector Tank 8) (stages : Vector Stage 4) (holds : List HoldEntry)
    (h : m.poolWhole) : Retained.poolWhole { m.placed with tanks := tanks, stages := stages, holds := holds } := by
  obtain ⟨hcount, -⟩ := h
  cases ha : m.active with
  | none =>
    rw [Retained.placed_none ha]
    exact ⟨hcount, by simp [ha]⟩
  | some r =>
    rw [Retained.placed_some ha]
    rw [ha] at hcount
    exact ⟨hcount, by simp⟩

theorem step_poolWhole {s t : State} (hs : s.poolWhole) (h : step s = .next t) : t.poolWhole := by
  refine step_keeps (fun _ _ h => h) (fun _ _ h => h) ?_ ?_ ?_ hs h
  · exact Move.keeps_of_turn poolWhole_of_sameLedger turn_poolWhole
  · rintro s m (rfl | rfl) ⟨hret, hprior⟩
    · exact ⟨hret, hret⟩
    · exact ⟨hprior, hprior⟩
  · intro s m sample schedule hm hs
    exact start_keeps poolWhole_cold (fun _ _ _ h => h) poolWhole_placed hs.1 hm sample schedule

/-! ### Step numbers (R9, R3, R5) -/

/-- Numbers as counts: each at most once, and each from 1 to 255 and below the next one. -/
theorem planSound_iff (m : Retained) : m.planSound ↔
    (∀ n, numbered n m.records ≤ 1) ∧
      (∀ n, 0 < numbered n m.records → 1 ≤ n ∧ n ≤ 255 ∧ ∀ k, m.transfer.nextStep = some k → n < k) ∧
      (∀ k, m.transfer.nextStep = some k → 1 ≤ k ∧ k ≤ 255) ∧
      (m.transfer.state = .vacant → m.records = []) ∧
      (m.transfer.state = .closed → m.proposed = [] ∧ m.agreed = [] ∧ m.active = none) := by
  unfold Retained.planSound numbered
  rw [List.nodup_iff_count_le_one]
  simp only [List.count_pos_iff, List.mem_map, forall_exists_index, and_imp, forall_apply_eq_imp_iff₂]

/-- A change after which no number stands more often than before, in a transfer that is neither newly VACANT nor CLOSED
with a record, keeps the numbers sound. -/
theorem planSound_of_numbered {m m' : Retained} (h : m.planSound)
    (hcount : ∀ n, numbered n m'.records ≤ numbered n m.records)
    (hnext : m'.transfer.nextStep = m.transfer.nextStep)
    (hvacant : m'.transfer.state = .vacant → m.transfer.state = .vacant)
    (hclosed : m'.transfer.state = .closed → m'.proposed = [] ∧ m'.agreed = [] ∧ m'.active = none) : m'.planSound := by
  obtain ⟨hone, hrange, hstep, hnone, -⟩ := (planSound_iff m).1 h
  refine (planSound_iff m').2 ⟨fun n => (hcount n).trans (hone n), fun n hn => ?_, hnext ▸ hstep, fun hv => ?_, hclosed⟩
  · rw [hnext]; exact hrange n (hn.trans_le (hcount n))
  · refine List.eq_nil_iff_forall_not_mem.2 fun r hr => ?_
    have hpos : 0 < numbered r.number m'.records := List.count_pos_iff.2 (List.mem_map_of_mem hr)
    have := hcount r.number
    rw [hnone (hvacant hv), numbered_nil] at this
    omega

theorem planSound_of_sameLedger (s t : State) (h : s.sameLedger t) (hs : s.planSound) : t.planSound := by
  obtain ⟨hret, hprior⟩ := hs
  obtain ⟨hst, hn, hp, hg, ha, hd, -⟩ := h.plan
  refine ⟨?_, h.2 ▸ hprior⟩
  unfold Retained.planSound Retained.records at hret ⊢
  rwa [hp, hg, ha, hd, hst, hn]

/-- The records of a memory, by their places. -/
theorem numbered_records (n : Nat) (m : Retained) : numbered n m.records =
    numbered n m.proposed + numbered n m.agreed + numbered n m.active.toList + numbered n m.done := by
  simp only [Retained.records, numbered_append]

/-- A transfer with nothing but finished records has no record once they are gone. -/
theorem records_eq_nil {m : Retained} (h : m.planSound)
    (hs : m.transfer.state = .vacant ∨ m.transfer.state = .closed ∧ m.done = []) : m.records = [] := by
  obtain ⟨-, -, -, hvacant, hclosed⟩ := h
  rcases hs with hs | ⟨hs, hd⟩
  · exact hvacant hs
  · obtain ⟨hp, hg, ha⟩ := hclosed hs
    simp [Retained.records, hp, hg, ha, hd]

theorem turn_planSound (s u : State) (h : Turn s u) (hs : s.planSound) : u.planSound := by
  obtain ⟨hret, hprior⟩ := hs
  obtain ⟨hone, hrange, hstep, hvacant, hclosed⟩ := (planSound_iff _).1 hret
  have records := fun n => numbered_records n s.ret
  -- with a step in the slot, or a record on a list, the transfer is not CLOSED
  have notClosed {r : Step} (ha : s.ret.active = some r) : s.ret.transfer.state ≠ .closed := fun hc => by
    have := (hclosed hc).2.2; rw [ha] at this; cases this
  cases h with
  | note => exact ⟨hret, hret⟩
  | disarmIdle r hd ha hf =>
    refine ⟨planSound_of_numbered hret (fun n => ?_) rfl id fun hc => absurd hc (notClosed ha), hprior⟩
    rw [records, numbered_records]
    simp only [State.turned, ha, Option.toList_some, Option.toList_none, numbered_cons, numbered_nil]
    omega
  | armIdle r rest hj hd ha =>
    refine ⟨planSound_of_numbered hret (fun n => ?_) rfl id fun hc => ?_, hprior⟩
    · rw [records, numbered_records]
      simp only [State.turned, ha, Option.toList_some, numbered_cons, numbered_nil]
      omega
    · rw [show s.ret.transfer.state = .closed from hc] at hj; cases hj
  | opening r time hd ha =>
    refine ⟨planSound_of_numbered hret (fun n => ?_) rfl id fun hc => absurd hc (notClosed ha), hprior⟩
    rw [records, numbered_records]
    simp only [State.turned, ha, Option.toList_some, numbered_cons, numbered_nil]
    omega
  | finish r cause hd ha =>
    refine ⟨planSound_of_numbered hret (fun n => ?_) rfl id fun hc => absurd hc (notClosed ha), hprior⟩
    rw [records, numbered_records]
    simp only [State.turned, ha, Option.toList_some, Option.toList_none, numbered_append, numbered_cons, numbered_nil]
    omega
  | hold r last hd ha =>
    refine ⟨planSound_of_numbered hret (fun n => ?_) rfl id fun hc => absurd hc (notClosed ha), hprior⟩
    rw [records, numbered_records]
    simp only [State.turned, ha, Option.toList_some, numbered_cons, numbered_nil]
    omega
  | credit r w hd ha hm =>
    refine ⟨planSound_of_numbered hret (fun n => ?_) rfl id fun hc => absurd hc (notClosed ha), hprior⟩
    rw [records, numbered_records]
    simp only [creditEffect, Step.credited, ha, Option.toList_some, numbered_cons, numbered_nil]
    omega
  | openTransfer tr d hd hs ht hn =>
    have hnil := records_eq_nil hret hs
    refine ⟨(planSound_iff _).2 ⟨fun n => ?_, fun n hpos => ?_, fun k hk => ?_, fun _ => hnil, fun hc => ?_⟩, hprior⟩
    · exact hone n
    · change 0 < numbered n s.ret.records at hpos
      rw [hnil] at hpos
      cases hpos
    · rw [show tr.nextStep = some k from hk] at hn
      cases hn
      omega
    · rw [show tr.state = .closed from hc] at ht; cases ht
  | joinTransfer hs => exact ⟨planSound_of_numbered hret (fun n => le_rfl) rfl (fun h => by cases h) (fun h => by cases h), hprior⟩
  | closeTransfer ha =>
    refine ⟨planSound_of_numbered hret (fun n => ?_) rfl (fun h => by cases h) fun _ => ⟨rfl, rfl, ha⟩, hprior⟩
    rw [records, numbered_records]
    simp only [closeEffects, numbered_nil]
    omega
  | propose link n g entries c hl hf hs hn h0 hc =>
    have hfresh : numbered n s.ret.records = 0 := by
      by_contra hne
      exact absurd ((hrange n (Nat.pos_of_ne_zero hne)).2.2 n hn) (lt_irrefl n)
    have hn255 := hstep n hn
    have hcount : ∀ k, numbered k (proposeEffect link n g entries c s).ret.records =
        numbered k s.ret.records + if n = k then 1 else 0 := fun k => by
      rw [records, numbered_records]
      simp only [proposeEffect, proposedStep, numbered_append, numbered_cons, numbered_nil]
      omega
    have hafter : ∀ k, nextNumber n = some k → k = n + 1 ∧ n ≠ 255 := fun k hk => by
      unfold nextNumber at hk
      split at hk
      · cases hk
      · cases hk; exact ⟨rfl, ‹_›⟩
    refine ⟨(planSound_iff _).2 ⟨fun k => ?_, fun k hk => ?_, fun k hk => ?_, fun hv => ?_, fun hc => ?_⟩, hprior⟩
    · rw [hcount]
      have := hone k
      split
      · next he => subst he; omega
      · omega
    · rw [hcount] at hk
      split at hk
      · next he =>
        subst he
        exact ⟨hn255.1, hn255.2, fun j hj => by have := hafter j hj; omega⟩
      · obtain ⟨h1, h2, h3⟩ := hrange k (by omega)
        exact ⟨h1, h2, fun j hj => by have := hafter j hj; have := h3 n hn; omega⟩
    · have := hafter k hk
      omega
    · rcases hs with hs | hs <;> exact absurd (hs.symm.trans hv) (by decide)
    · rcases hs with hs | hs <;> exact absurd (hs.symm.trans hc) (by decide)
  | amend link r g entries c hl hf hm hc =>
    refine ⟨planSound_of_numbered hret (fun n => ?_) rfl id fun hc => ?_, hprior⟩
    · rw [records, numbered_records, numbered_replaceStep]
    · obtain ⟨hp, hg, ha⟩ := hclosed hc
      exact ⟨by simp [replaceStep, hp], hg, ha⟩
  | agree link r hl hs hm hk =>
    refine ⟨planSound_of_numbered hret (fun n => ?_) rfl id fun hc => ?_, hprior⟩
    · have := numbered_dropStep n hm
      rw [records, numbered_records]
      simp only [numbered_append, numbered_cons, numbered_nil, Step.addMark]
      omega
    · exact absurd (hs.symm.trans hc) (by decide)
  | revise link n head hl hs =>
    refine ⟨planSound_of_numbered hret (fun k => ?_) rfl id fun hc => ?_, hprior⟩
    · have h1 := congrArg (numbered k) (splitRun_append s.ret.agreed n)
      have h2 := numbered_map k (fun q => q.onlyMark link) (fun _ => rfl) (splitRun s.ret.agreed n).2
      rw [numbered_append] at h1
      rw [records, numbered_records]
      dsimp only
      split <;> rw [numbered_append] <;> omega
    · exact absurd (hs.symm.trans hc) (by decide)
  | freeProposed r hm =>
    refine ⟨planSound_of_numbered hret (fun n => ?_) rfl id fun hc => ?_, hprior⟩
    · have := numbered_dropStep n hm
      rw [records, numbered_records]
      simp only [freeProposed]
      omega
    · rw [(hclosed hc).1] at hm; cases hm
  | freeAgreed r hm =>
    refine ⟨planSound_of_numbered hret (fun n => ?_) rfl id fun hc => ?_, hprior⟩
    · have := numbered_dropStep n hm
      rw [records, numbered_records]
      simp only [freeAgreed]
      omega
    · rw [(hclosed hc).2.1] at hm; cases hm
  | take r rest hm =>
    refine ⟨planSound_of_numbered hret (fun n => ?_) rfl id hclosed, hprior⟩
    rw [records, numbered_records, hm, numbered_cons]
    dsimp only
    omega
  | work | limits | stopTime | disarmHeld | disarmNone | armHeld | unheld | unslotted | unassign => exact ⟨hret, hprior⟩

theorem planSound_cold : coldRetained.planSound := by
  refine (planSound_iff _).2 ⟨fun n => ?_, fun n hn => ?_, fun k hk => ?_, fun _ => rfl, fun _ => ⟨rfl, rfl, rfl⟩⟩
  · exact Nat.zero_le 1
  · cases hn
  · cases hk; omega

/-- A start keeps the records' numbers (R102). -/
theorem planSound_placed (m : Retained) (tanks : Vector Tank 8) (stages : Vector Stage 4) (holds : List HoldEntry)
    (h : m.planSound) : Retained.planSound { m.placed with tanks := tanks, stages := stages, holds := holds } := by
  cases ha : m.active with
  | none =>
    rw [Retained.placed_none ha]
    exact h
  | some r =>
    rw [Retained.placed_some ha]
    refine planSound_of_numbered h (fun n => ?_) rfl id fun hc => ?_
    · rw [numbered_records, numbered_records, ha]
      simp only [powerStep, Option.toList_some, numbered_cons, numbered_nil]
      omega
    · have := (h.2.2.2.2 hc).2.2
      rw [ha] at this
      cases this

theorem step_planSound {s t : State} (hs : s.planSound) (h : step s = .next t) : t.planSound := by
  refine step_keeps (fun _ _ h => h) (fun _ _ h => h) ?_ ?_ ?_ hs h
  · exact Move.keeps_of_turn planSound_of_sameLedger turn_planSound
  · rintro s m (rfl | rfl) ⟨hret, hprior⟩
    · exact ⟨hret, hret⟩
    · exact ⟨hprior, hprior⟩
  · intro s m sample schedule hm hs
    exact start_keeps planSound_cold (fun _ _ _ h => h) planSound_placed hs.1 hm sample schedule

/-- Settles O54: every turn of the ledger, every stop and every start keeps the pool and the numbers. -/
theorem stepKeepsPlanSound : Obligations.StepKeepsPlanSound :=
  ⟨fun _ _ => step_poolWhole, fun _ _ => step_planSound⟩

end Sys2Proof.Machine
end

