-- ==== Sys2Proof/Proofs/RecordInvariants.lean ====
section
/-! The invariants of the records (chapter 01), of the tally (chapter 06) and of the settings (chapter 09), kept by
every turn of the ledger, by stops and by starts. -/

namespace Sys2Proof.Machine

/-! ### The records (R11, R13, R21, R22, R39) -/

/-- A record as it stands on PROPOSED: one mark, nothing delivered (R11). -/
def Step.offered (r : Step) : Prop := r.split ∧ r.markBarge = (!r.markShip) ∧ r.delivered = 0

/-- A record beyond PROPOSED: both marks (R11). -/
def Step.consented (r : Step) : Prop := r.split ∧ r.markBarge = true ∧ r.markShip = true

/-- The records of a memory are sound when each is sound in its place. -/
theorem recordsSound_iff (m : Retained) : m.recordsSound ↔
    (∀ r ∈ m.proposed, r.offered) ∧ (∀ r ∈ m.agreed, r.consented ∧ r.delivered = 0) ∧
      (∀ r ∈ m.active, r.consented) ∧ ∀ r ∈ m.done, r.consented := by
  unfold Retained.recordsSound Retained.records Step.offered Step.consented
  simp only [List.forall_mem_append, Option.mem_toList]
  constructor
  · rintro ⟨⟨⟨⟨sp, sg⟩, sa⟩, sd⟩, mp, ⟨⟨mg, ma⟩, md⟩, dp, dg⟩
    exact ⟨fun r h => ⟨sp r h, mp r h, dp r h⟩, fun r h => ⟨⟨sg r h, mg r h⟩, dg r h⟩, fun r h => ⟨sa r h, ma r h⟩,
      fun r h => ⟨sd r h, md r h⟩⟩
  · rintro ⟨hp, hg, ha, hd⟩
    exact ⟨⟨⟨⟨fun r h => (hp r h).1, fun r h => (hg r h).1.1⟩, fun r h => (ha r h).1⟩, fun r h => (hd r h).1⟩,
      fun r h => (hp r h).2.1, ⟨⟨fun r h => (hg r h).1.2, fun r h => (ha r h).2⟩, fun r h => (hd r h).2⟩,
      fun r h => (hp r h).2.2, fun r h => (hg r h).2⟩

/-- An empty slot asks for nothing, a filled one for its record. -/
theorem forall_mem_some {α : Type} {a : α} {P : α → Prop} : (∀ r ∈ some a, P r) ↔ P a := by simp

theorem offered_onlyMark {r : Step} {link : Station} (hl : link ≠ .survey) (hs : r.split) (hd : r.delivered = 0) :
    (r.onlyMark link).offered := by
  refine ⟨hs, ?_, hd⟩
  cases link with
  | barge => rfl
  | ship => rfl
  | survey => exact absurd rfl hl

/-- The second mark: a record with one mark takes the other station's (R16). -/
theorem consented_addMark {r : Step} {link : Station} (hl : link ≠ .survey) (h : r.offered)
    (hk : r.marked link = false) : (r.addMark link).consented := by
  obtain ⟨hs, hone, -⟩ := h
  refine ⟨hs, ?_⟩
  cases link with
  | barge =>
    change r.markBarge = false at hk
    simp_all [Step.addMark]
  | ship =>
    change r.markShip = false at hk
    simp_all [Step.addMark]
  | survey => exact absurd rfl hl

theorem recordsSound_of_sameLedger (s t : State) (h : s.sameLedger t) (hs : s.recordsSound) : t.recordsSound := by
  obtain ⟨hret, hprior, hfrom, harmed⟩ := hs
  obtain ⟨-, -, hp, hg, ha, hd, -⟩ := h.plan
  obtain ⟨hdel, haf⟩ := h.delivery
  refine ⟨?_, h.2 ▸ hprior, ?_, ?_⟩
  · rw [recordsSound_iff] at hret ⊢
    rwa [hp, hg, ha, hd]
  · rwa [haf, ha]
  · rwa [haf, hdel]

theorem turn_recordsSound (s u : State) (h : Turn s u) (hs : s.recordsSound) : u.recordsSound := by
  obtain ⟨hret, hprior, hfrom, harmed⟩ := hs
  obtain ⟨hp, hg, ha, hd⟩ := (recordsSound_iff _).1 hret
  -- outside ARMED no arming is under way
  have unarmed (hne : s.ret.delivery ≠ .armed) : s.controller.armedFrom = none := by
    by_contra h; exact hne (harmed h)
  -- so that an arming asks nothing of a state that keeps it there
  have idle {Q R : Prop} (hne : s.ret.delivery ≠ .armed) :
      (s.controller.armedFrom = some .idle → Q) ∧ (s.controller.armedFrom ≠ none → R) := by
    rw [unarmed hne]; exact ⟨fun h => (by cases h), fun h => absurd rfl h⟩
  have filled {r : Step} (hr : s.ret.active = some r) : r.consented := ha r hr
  cases h with
  | note => exact ⟨hret, hret, hfrom, harmed⟩
  | work d hw => exact ⟨hret, hprior, hfrom, fun h => worksOn_armed hw (harmed h)⟩
  | limits which v d hw => exact ⟨hret, hprior, hfrom, fun h => worksOn_armed hw (harmed h)⟩
  | disarmIdle r hdel hact hf =>
    refine ⟨(recordsSound_iff _).2 ⟨hp, ?_, fun _ h => (by cases h), hd⟩, hprior, fun h => (by cases h),
      fun h => absurd rfl h⟩
    exact List.forall_mem_cons.2 ⟨⟨filled hact, hfrom hf r hact⟩, hg⟩
  | disarmHeld | disarmNone => exact ⟨hret, hprior, fun h => (by cases h), fun h => absurd rfl h⟩
  | armIdle r rest hj hdel hl =>
    rw [hl] at hg
    obtain ⟨⟨hr, hzero⟩, hrest⟩ := List.forall_mem_cons.1 hg
    exact ⟨(recordsSound_iff _).2 ⟨hp, hrest, forall_mem_some.2 hr, hd⟩, hprior, fun _ => forall_mem_some.2 hzero,
      fun _ => rfl⟩
  | armHeld => exact ⟨hret, hprior, fun h => (by cases h), fun _ => rfl⟩
  | opening r time hdel hact =>
    have hr := filled hact
    exact ⟨(recordsSound_iff _).2 ⟨hp, hg, forall_mem_some.2 hr, hd⟩, hprior, fun h => (by cases h),
      fun h => absurd rfl h⟩
  | finish r cause hdel hact =>
    refine ⟨(recordsSound_iff _).2 ⟨hp, hg, fun _ h => (by cases h), ?_⟩, hprior, ?_⟩
    · have hr := filled hact
      exact List.forall_mem_append.2 ⟨hd, List.forall_mem_singleton.2 hr⟩
    · exact idle (by rcases hdel with h | h <;> rw [h] <;> decide)
  | hold r last hdel hact =>
    have hr := filled hact
    exact ⟨(recordsSound_iff _).2 ⟨hp, hg, forall_mem_some.2 hr, hd⟩, hprior, idle (by rw [hdel]; decide)⟩
  | unheld hdel => exact ⟨hret, hprior, idle (by rw [hdel]; decide)⟩
  | unslotted hdel => exact ⟨hret, hprior, idle (by rw [hdel]; decide)⟩
  | credit r w hdel hact =>
    refine ⟨(recordsSound_iff _).2 ⟨hp, hg, forall_mem_some.2 ?_, hd⟩, hprior, idle fun h => by rw [h] at hdel; cases hdel⟩
    exact ⟨credited_split (filled hact).1 w, (filled hact).2⟩
  | openTransfer tr d hw => exact ⟨hret, hprior, hfrom, fun h => worksOn_armed hw (harmed h)⟩
  | closeTransfer =>
    exact ⟨(recordsSound_iff _).2 ⟨fun _ h => (by cases h), fun _ h => (by cases h), ha, hd⟩, hprior, hfrom, harmed⟩
  | propose link n g entries c hl hf hs hn h0 hc =>
    refine ⟨(recordsSound_iff _).2 ⟨?_, hg, ha, hd⟩, hprior, hfrom, harmed⟩
    refine List.forall_mem_append.2 ⟨hp, List.forall_mem_singleton.2 ?_⟩
    exact offered_onlyMark (r := proposedStep link n g entries c) hl (checkContent_split hc hf _ rfl rfl) rfl
  | amend link r g entries c hl hf hm hc =>
    refine ⟨(recordsSound_iff _).2 ⟨fun q hq => ?_, hg, ha, hd⟩, hprior, hfrom, harmed⟩
    obtain ⟨q', hq', rfl⟩ := List.mem_map.1 hq
    split
    · have hzero := (hp r hm).2.2
      exact offered_onlyMark (r := { r with
          grade := g, tanks := entries, quantity := clampQuantity c.quantity, rateCap := clampCap c.rateCap })
        hl (checkContent_split hc hf _ rfl hzero) hzero
    · exact hp q' hq'
  | agree link r hl hs hm hk =>
    refine ⟨(recordsSound_iff _).2 ⟨fun q hq => hp q (mem_of_mem_dropStep hq), ?_, ha, hd⟩, hprior, hfrom, harmed⟩
    exact List.forall_mem_append.2 ⟨hg, List.forall_mem_singleton.2
      ⟨consented_addMark hl (hp r hm) hk, (hp r hm).2.2⟩⟩
  | revise link n head hl hs =>
    have hsplit : ∀ q ∈ (splitRun s.ret.agreed n).1 ++ (splitRun s.ret.agreed n).2, q.consented ∧ q.delivered = 0 := by
      rw [splitRun_append]; exact hg
    obtain ⟨hkept, hrun⟩ := List.forall_mem_append.1 hsplit
    have hback : ∀ q ∈ (splitRun s.ret.agreed n).2.map fun q => q.onlyMark link, q.offered := fun q hq => by
      obtain ⟨q', hq', rfl⟩ := List.mem_map.1 hq
      exact offered_onlyMark hl (hrun q' hq').1.1 (hrun q' hq').2
    refine ⟨(recordsSound_iff _).2 ⟨?_, hkept, ha, hd⟩, hprior, hfrom, harmed⟩
    dsimp only
    split
    · exact List.forall_mem_append.2 ⟨hback, hp⟩
    · exact List.forall_mem_append.2 ⟨hp, hback⟩
  | freeProposed r hm =>
    exact ⟨(recordsSound_iff _).2 ⟨fun q hq => hp q (mem_of_mem_dropStep hq), hg, ha, hd⟩, hprior, hfrom, harmed⟩
  | freeAgreed r hm =>
    exact ⟨(recordsSound_iff _).2 ⟨hp, fun q hq => hg q (mem_of_mem_dropStep hq), ha, hd⟩, hprior, hfrom, harmed⟩
  | take r rest hm =>
    rw [hm] at hd
    exact ⟨(recordsSound_iff _).2 ⟨hp, hg, ha, (List.forall_mem_cons.1 hd).2⟩, hprior, hfrom, harmed⟩
  | stopTime | unassign | joinTransfer => exact ⟨hret, hprior, hfrom, harmed⟩

theorem recordsSound_cold : coldRetained.recordsSound :=
  (recordsSound_iff _).2 ⟨fun _ h => (by cases h), fun _ h => (by cases h), fun _ h => (by cases h),
    fun _ h => (by cases h)⟩

/-- A start touches neither a record's list, nor its litres, nor its marks (R102). -/
theorem recordsSound_placed (m : Retained) (tanks : Vector Tank 8) (stages : Vector Stage 4) (holds : List HoldEntry)
    (h : m.recordsSound) : Retained.recordsSound { m.placed with tanks := tanks, stages := stages, holds := holds } := by
  cases ha : m.active with
  | none =>
    rw [Retained.placed_none ha]
    exact h
  | some r =>
    obtain ⟨hp, hg, hact, hd⟩ := (recordsSound_iff _).1 h
    rw [Retained.placed_some ha]
    exact (recordsSound_iff _).2 ⟨hp, hg, forall_mem_some.2 (hact r ha), hd⟩

/-- Settles O55: every turn of the ledger, every stop and every start keeps the records. -/
theorem stepKeepsRecordsSound : Obligations.StepKeepsRecordsSound := by
  intro s t hs h
  refine step_keeps (fun _ _ h => h) (fun _ _ h => h) ?_ ?_ ?_ hs h
  · exact Move.keeps_of_turn recordsSound_of_sameLedger turn_recordsSound
  · have unarmed {Q R : Prop} : ((none : Option ArmedFrom) = some .idle → Q) ∧ ((none : Option ArmedFrom) ≠ none → R) :=
      ⟨fun h => (by cases h), fun h => absurd rfl h⟩
    rintro s m (rfl | rfl) ⟨hret, hprior, -⟩
    · exact ⟨hret, hret, unarmed⟩
    · exact ⟨hprior, hprior, unarmed⟩
  · rintro s m sample schedule hm ⟨hret, -⟩
    obtain ⟨hret', hprior'⟩ := start_keeps recordsSound_cold (fun _ _ _ h => h) recordsSound_placed hret hm sample schedule
    obtain ⟨_, _, _, _, -, -, -, hfrom⟩ := startPart_spec m sample schedule s
    refine ⟨hret', hprior', ?_⟩
    rw [hfrom]
    exact ⟨fun h => (by cases h), fun h => absurd rfl h⟩

/-! ### The tally (R27, R132) -/

/-- The litres of the four grades, and the tally they balance. -/
theorem tallySound_iff (m : Retained) : m.tallySound ↔
    m.metered = (at' m.totals 0).litres + (at' m.totals 1).litres + (at' m.totals 2).litres + (at' m.totals 3).litres +
      m.unassigned ∧ m.metered ≤ Config.max32 := Iff.rfl

theorem litres_of_same {v w : Vector GradeTotal 4}
    (h : mapTable GradeTotal.litres v = mapTable GradeTotal.litres w) (g : Fin 4) :
    (at' v g).litres = (at' w g).litres := by
  have := congrArg (fun v => at' v g) h
  simpa only [at'_mapTable] using this

/-- A finished step changes no litres. -/
theorem litres_countFinished (v : Vector GradeTotal 4) (g k : Fin 4) :
    (at' (countFinished v g) k).litres = (at' v k).litres := by
  unfold countFinished
  rw [at'_put]
  split
  · next h => subst h; rfl
  · rfl

theorem litres_addLitres (v : Vector GradeTotal 4) (g k : Fin 4) (w : Nat) :
    (at' (addLitres v g w) k).litres = (at' v k).litres + if k = g then w else 0 := by
  unfold addLitres
  rw [at'_put]
  split
  · next h => subst h; rfl
  · rfl

/-- Litres added to one grade are added to the sum over the grades. -/
theorem sum_addLitres (v : Vector GradeTotal 4) (g : Fin 4) (w : Nat) :
    (at' (addLitres v g w) 0).litres + (at' (addLitres v g w) 1).litres + (at' (addLitres v g w) 2).litres +
        (at' (addLitres v g w) 3).litres =
      (at' v 0).litres + (at' v 1).litres + (at' v 2).litres + (at' v 3).litres + w := by
  simp only [litres_addLitres]
  fin_cases g <;> simp <;> omega

theorem tallySound_of_sameLedger (s t : State) (h : s.sameLedger t) (hs : s.tallySound) : t.tallySound := by
  obtain ⟨hret, hprior⟩ := hs
  obtain ⟨hl, hm, hu⟩ := h.tally
  refine ⟨?_, h.2 ▸ hprior⟩
  rw [tallySound_iff] at hret ⊢
  rwa [litres_of_same hl 0, litres_of_same hl 1, litres_of_same hl 2, litres_of_same hl 3, hm, hu]

theorem turn_tallySound (s u : State) (h : Turn s u) (hs : s.tallySound) : u.tallySound := by
  obtain ⟨hret, hprior⟩ := hs
  obtain ⟨hbal, hmax⟩ := (tallySound_iff _).1 hret
  cases h with
  | note => exact ⟨hret, hret⟩
  | finish r cause =>
    refine ⟨(tallySound_iff _).2 ⟨?_, hmax⟩, hprior⟩
    simp only [State.turned, litres_countFinished]
    exact hbal
  | credit r w hd ha hm =>
    refine ⟨(tallySound_iff _).2 ⟨?_, hm⟩, hprior⟩
    simp only [creditEffect, sum_addLitres]
    omega
  | unassign w hm =>
    refine ⟨(tallySound_iff _).2 ⟨?_, hm⟩, hprior⟩
    simp only [unassignEffect]
    omega
  | openTransfer =>
    refine ⟨(tallySound_iff _).2 ⟨?_, Nat.zero_le _⟩, hprior⟩
    simp [State.turned, at'_mapTable]
  | _ => exact ⟨hret, hprior⟩

theorem tallySound_cold : coldRetained.tallySound := ⟨rfl, by decide⟩

/-- A start leaves the tally as it is. -/
theorem tallySound_placed (m : Retained) (tanks : Vector Tank 8) (stages : Vector Stage 4) (holds : List HoldEntry)
    (h : m.tallySound) : Retained.tallySound { m.placed with tanks := tanks, stages := stages, holds := holds } := by
  cases ha : m.active with
  | none => rw [Retained.placed_none ha]; exact h
  | some r => rw [Retained.placed_some ha]; exact h

/-! ### The settings (R170, R172, R173) -/

theorem clamp_mem {lo hi n : Nat} (h : lo ≤ hi) : lo ≤ clamp lo hi n ∧ clamp lo hi n ≤ hi := by
  unfold clamp; omega

/-- A SET of a rate limit keeps the limits in their order (R172). -/
theorem ordered_setLimit {t : Settings} (h : t.ordered) (which : RateLimit) (v : Nat) :
    (setLimit t which (clampLimit t which v)).ordered := by
  obtain ⟨h50, h2000, h10, hcb, hmax, hstop⟩ := h
  cases which with
  | rmax =>
    have hv := clamp_mem (n := v) (show 50 ≤ 2000 by omega)
    have hc := clamp_mem (n := t.cb) (show min t.rmin (clamp 50 2000 v) ≤ clamp 50 2000 v by omega)
    exact ⟨hv.1, hv.2, by simp only [setLimit, clampLimit]; omega, hc.1, hc.2, hstop⟩
  | rmin =>
    have hv := clamp_mem (n := v) (show 10 ≤ t.rmax by omega)
    have hc := clamp_mem (n := t.cb) hv.2
    exact ⟨h50, h2000, hv.1, hc.1, hc.2, hstop⟩
  | cb =>
    have hv := clamp_mem (n := v) (show t.rmin ≤ t.rmax by omega)
    exact ⟨h50, h2000, h10, hv.1, hv.2, hstop⟩

/-- A SET of a stop time keeps Tstop at or above RUNDOWN + TCLOSE (R173). -/
theorem ordered_setStopTime {t : Settings} (h : t.ordered) (which : StopTime) (v : Nat) :
    (setStopTime t which (clampStopTime t which v)).ordered := by
  obtain ⟨h50, h2000, h10, hcb, hmax, hrun, hclose5, hclose60, hsum, htop⟩ := h
  refine ⟨?_, ?_, ?_, ?_, ?_, ?_⟩
  any_goals cases which <;> assumption
  cases which with
  | tstop =>
    have hv := clamp_mem (n := v) (show max 5 (t.rundown + t.tclose) ≤ 120 by omega)
    exact ⟨hrun, hclose5, hclose60, le_trans (le_max_right _ _) hv.1, hv.2⟩
  | rundown =>
    have hv := clamp_mem (n := v) (show 0 ≤ 30 by omega)
    exact ⟨hv.2, hclose5, hclose60, le_max_right _ _, by simp only [setStopTime, clampStopTime]; omega⟩
  | tclose =>
    have hv := clamp_mem (n := v) (show 5 ≤ 60 by omega)
    exact ⟨hrun, hv.1, hv.2, le_max_right _ _, by simp only [setStopTime, clampStopTime]; omega⟩

theorem settingsOrdered_of_sameLedger (s t : State) (h : s.sameLedger t) (hs : s.settingsOrdered) :
    t.settingsOrdered := by
  obtain ⟨hret, hprior⟩ := hs
  obtain ⟨h1, h2, h3, h4, h5, h6⟩ := h.limits
  refine ⟨?_, h.2 ▸ hprior⟩
  unfold Settings.ordered at hret ⊢
  rwa [h1, h2, h3, h4, h5, h6]

theorem turn_settingsOrdered (s u : State) (h : Turn s u) (hs : s.settingsOrdered) : u.settingsOrdered := by
  obtain ⟨hret, hprior⟩ := hs
  cases h with
  | note => exact ⟨hret, hret⟩
  | limits which v => exact ⟨ordered_setLimit hret which v, hprior⟩
  | stopTime which v => exact ⟨ordered_setStopTime hret which v, hprior⟩
  | _ => exact ⟨hret, hprior⟩

theorem ordered_cold : coldRetained.settings.ordered := by
  unfold Settings.ordered; decide

/-- A start leaves the settings as they are. -/
theorem placed_settings (m : Retained) : m.placed.settings = m.settings := by
  unfold Retained.placed; split <;> rfl

/-- Settles O56: every turn of the ledger, every stop and every start keeps the tally and the order of the settings. -/
theorem stepKeepsTallyAndSettings : Obligations.StepKeepsTallyAndSettings := by
  constructor
  · intro s t hs h
    refine step_keeps (fun _ _ h => h) (fun _ _ h => h) ?_ ?_ ?_ hs h
    · exact Move.keeps_of_turn tallySound_of_sameLedger turn_tallySound
    · rintro s m (rfl | rfl) ⟨hret, hprior⟩
      · exact ⟨hret, hret⟩
      · exact ⟨hprior, hprior⟩
    · intro s m sample schedule hm hs
      exact start_keeps tallySound_cold (fun _ _ _ h => h) tallySound_placed hs.1 hm sample schedule
  · intro s t hs h
    refine step_keeps (fun _ _ h => h) (fun _ _ h => h) ?_ ?_ ?_ hs h
    · exact Move.keeps_of_turn settingsOrdered_of_sameLedger turn_settingsOrdered
    · rintro s m (rfl | rfl) ⟨hret, hprior⟩
      · exact ⟨hret, hret⟩
      · exact ⟨hprior, hprior⟩
    · intro s m sample schedule hm hs
      refine start_keeps (Q := fun m => m.settings.ordered) ordered_cold (fun _ _ _ h => h)
        (fun m _ _ _ h => ?_) hs.1 hm sample schedule
      change m.placed.settings.ordered
      rwa [placed_settings]

end Sys2Proof.Machine
end

