-- ==== Sys2Proof/Proofs/Refusals.lean ====
section
/-! What an owner does with a request it does not carry out (R12, R171, R192). -/

namespace Sys2Proof.Machine

/-- A station's starvation counter rises (R14, R24, R28). -/
def starve (link : Station) (s : State) : State :=
  { s with starvation := s.starvation.put link (bump8 (s.starvation.at link)) }

/-- An owner that answers neither OK nor CLAMPED left the event as it found it, but for the starvation counter of an
EMPTY or a POOL-EMPTY, and sends no data with a refusal. -/
def declines (link : Station) (e : Event) (p : Event × Answer) : Prop :=
  p.2.result ≠ .ok → p.2.result ≠ .clamped →
    (p.2.result ≠ .unchanged → p.2.data = []) ∧
      p.1 = if p.2.result = .empty ∨ p.2.result = .poolEmpty then e.mod (starve link) else e

theorem declines_refuse (link : Station) (e : Event) {r : Result} (hr : r ≠ .empty ∧ r ≠ .poolEmpty) :
    declines link e (refuse e r) := fun _ _ =>
  ⟨fun _ => rfl, (if_neg (not_or.2 hr)).symm⟩

theorem declines_done {link : Station} {e : Event} {p : Event × Answer}
    (h : p.2.result = .ok ∨ p.2.result = .clamped) : declines link e p := fun hok hcl => by
  rcases h with h | h
  · exact absurd h hok
  · exact absurd h hcl

/-- An answer UNCHANGED of an event left alone. -/
theorem declines_unchanged {link : Station} {e : Event} {a : Answer} (h : a.result = .unchanged) :
    declines link e (e, a) := fun _ _ => by
  refine ⟨fun hne => absurd h hne, ?_⟩
  rw [if_neg (by rw [h]; decide)]

/-- A SET answers OK, CLAMPED or UNCHANGED. -/
theorem setResult_cases (asked taken standing : Nat) :
    setResult asked taken standing = .ok ∨ setResult asked taken standing = .clamped ∨
      setResult asked taken standing = .unchanged := by
  unfold setResult
  split
  · exact .inr (.inl rfl)
  · split
    · exact .inr (.inr rfl)
    · exact .inl rfl

/-- A SET of a number changes nothing when it answers UNCHANGED (R171). -/
theorem declines_set (link : Station) (e e' : Event) (asked taken standing : Nat) (data : List Byte) :
    declines link e (if setResult asked taken standing = .unchanged then e else e',
      { result := setResult asked taken standing, data := data }) := by
  rcases setResult_cases asked taken standing with h | h | h
  · exact declines_done (.inl h)
  · exact declines_done (.inr h)
  · rw [if_pos h]
    exact declines_unchanged h

/-- A definition that is the one standing changes nothing, and is UNCHANGED unless its values were clamped. -/
theorem declines_same (link : Station) (e e' : Event) (clamped : Prop) [Decidable clamped] (same : Bool)
    (data : List Byte) :
    declines link e (if same then e else e',
      { result := if clamped then .clamped else if same then .unchanged else .ok, data := data }) := by
  by_cases hc : clamped
  · exact declines_done (.inr (if_pos hc))
  · cases same
    · exact declines_done (.inl (if_neg hc))
    · exact declines_unchanged (if_neg hc)

section Owners

variable (link : Station) (e : Event)

theorem takeOpen_declines (id : Word16) (grades : List Byte) : declines link e (takeOpen id grades e) := by
  unfold takeOpen
  split
  · exact declines_refuse _ _ (by decide)
  · exact declines_refuse _ _ (by decide)
  all_goals
    split
    · exact declines_refuse _ _ (by decide)
    · split
      · exact declines_refuse _ _ (by decide)
      · split
        · exact declines_refuse _ _ (by decide)
        · exact declines_done (.inl rfl)

theorem takeJoin_declines : declines link e (takeJoin e) := by
  unfold takeJoin
  split
  · exact declines_done (.inl rfl)
  all_goals exact declines_refuse _ _ (by decide)

theorem takeClose_declines : declines link e (takeClose e) := by
  unfold takeClose
  split
  · exact declines_refuse _ _ (by decide)
  · exact declines_refuse _ _ (by decide)
  all_goals
    split
    · exact declines_refuse _ _ (by decide)
    · exact declines_done (.inl rfl)

theorem contentResult_cases (c : StepContent) : contentResult c = .ok ∨ contentResult c = .clamped := by
  unfold contentResult
  split
  · exact .inr rfl
  · exact .inl rfl

theorem takePropose_declines (c : StepContent) : declines link e (takePropose link c e) := by
  unfold takePropose
  split
  · exact declines_refuse _ _ (by decide)
  · split
    · exact declines_refuse _ _ (by decide)
    · split
      · exact declines_refuse _ _ (by decide)
      · split
        · exact fun _ _ => ⟨fun _ => rfl, rfl⟩
        · exact declines_done (contentResult_cases c)

theorem takeAmend_declines (number : Byte) (c : StepContent) : declines link e (takeAmend link number c e) := by
  unfold takeAmend
  split
  · exact declines_refuse _ _ (by decide)
  · split
    any_goals exact declines_refuse _ _ (by decide)
    split
    · exact declines_refuse _ _ (by decide)
    · exact declines_done (contentResult_cases c)

theorem takeAgree_declines (number : Byte) : declines link e (takeAgree link number e) := by
  unfold takeAgree
  split
  · exact declines_refuse _ _ (by decide)
  · split
    any_goals exact declines_refuse _ _ (by decide)
    split
    · exact declines_refuse _ _ (by decide)
    · exact declines_done (.inl rfl)

theorem takeRevise_declines (number operand : Byte) : declines link e (takeRevise link number operand e) := by
  unfold takeRevise
  split
  · exact declines_refuse _ _ (by decide)
  · split
    any_goals exact declines_refuse _ _ (by decide)
    split
    · exact declines_refuse _ _ (by decide)
    · exact declines_done (.inl rfl)

theorem takeWithdraw_declines (number : Byte) : declines link e (takeWithdraw link number e) := by
  unfold takeWithdraw
  split
  · exact declines_refuse _ _ (by decide)
  · split
    · exact declines_refuse _ _ (by decide)
    · exact declines_done (.inl rfl)
    · exact declines_done (.inl rfl)
    · split
      · exact declines_done (.inl rfl)
      · exact declines_refuse _ _ (by decide)
    · exact declines_refuse _ _ (by decide)

/-- A refused START fails one of R85's checks, none of which is EMPTY or POOL-EMPTY. -/
theorem startRefusal_ne {s : State} {r : Result} (h : startRefusal s = some r) : r ≠ .empty ∧ r ≠ .poolEmpty := by
  unfold startRefusal at h
  repeat' split at h
  all_goals cases h
  all_goals decide

theorem takeStart_declines : declines link e (takeStart e) := by
  unfold takeStart
  split
  · next h => exact declines_refuse _ _ (startRefusal_ne h)
  · exact declines_refuse _ _ (by decide)
  · exact declines_done (.inl rfl)

theorem takeLined_declines (number : Byte) : declines link e (takeLined number e) := by
  unfold takeLined
  split
  · exact declines_done (.inl rfl)
  · split <;> exact declines_refuse _ _ (by decide)

theorem takeStop_declines : declines link e (takeStop link e) := by
  unfold takeStop
  split
  · exact declines_done (.inl rfl)
  · exact declines_done (.inl rfl)
  · exact declines_done (.inl rfl)
  all_goals exact declines_refuse _ _ (by decide)

theorem takeHold_declines (cls reason : Byte) : declines link e (takeHold link cls reason e) := by
  unfold takeHold
  split
  · exact declines_refuse _ _ (by decide)
  · exact declines_done (.inl rfl)

theorem takeRelease_declines (source : Byte) : declines link e (takeRelease link source e) := by
  unfold takeRelease
  split
  · exact declines_refuse _ _ (by decide)
  · split
    · exact declines_refuse _ _ (by decide)
    · split
      · exact declines_refuse _ _ (by decide)
      · exact declines_done (.inl rfl)

theorem takeClear_declines (source : Byte) : declines link e (takeClear link source e) := by
  unfold takeClear
  split
  · exact declines_refuse _ _ (by decide)
  · split
    · exact declines_refuse _ _ (by decide)
    · split
      · exact declines_refuse _ _ (by decide)
      · split
        · exact declines_refuse _ _ (by decide)
        · split
          · exact declines_refuse _ _ (by decide)
          · exact declines_done (.inl rfl)

theorem takeGauge_declines (entries : List GaugeEntry) : declines link e (takeGauge entries e) := by
  unfold takeGauge
  split
  · exact declines_refuse _ _ (by decide)
  · split
    · exact declines_refuse _ _ (by decide)
    · refine declines_done ?_
      dsimp only
      split
      · exact .inr rfl
      · exact .inl rfl

theorem takeTankdef_declines (index : Byte) (c : TankContent) : declines link e (takeTankdef index c e) := by
  unfold takeTankdef
  split
  · exact declines_refuse _ _ (by decide)
  · split
    · unfold undefineTank
      split
      · exact declines_refuse _ _ (by decide)
      · split
        · exact declines_refuse _ _ (by decide)
        · exact declines_done (.inl rfl)
    · unfold defineTank
      dsimp only
      split
      · exact declines_refuse _ _ (by decide)
      · split
        · exact declines_refuse _ _ (by decide)
        · refine declines_done ?_
          dsimp only [answer]
          split
          · exact .inl rfl
          · exact .inr rfl

theorem takeStagedef_declines (index : Byte) (c : StageContent) : declines link e (takeStagedef index c e) := by
  unfold takeStagedef
  split
  · exact declines_same _ _ _ _ _ _
  · exact declines_refuse _ _ (by decide)

theorem takeSetLimit_declines (which : RateLimit) (index : Byte) (v : Word16) :
    declines link e (takeSetLimit link which index v e) := by
  unfold takeSetLimit
  split
  · exact declines_refuse _ _ (by decide)
  · exact declines_set _ _ _ _ _ _ _

theorem takeSetStopTime_declines (which : StopTime) (index : Byte) (v : Word16) :
    declines link e (takeSetStopTime link which index v e) := by
  unfold takeSetStopTime
  split
  · exact declines_refuse _ _ (by decide)
  · exact declines_set _ _ _ _ _ _ _

theorem takeSetTimer_declines (which : TimerSetting) (index : Byte) (v : Word16) :
    declines link e (takeSetTimer link which index v e) := by
  unfold takeSetTimer
  split
  · exact declines_refuse _ _ (by decide)
  · split
    · exact declines_refuse _ _ (by decide)
    · exact declines_set _ _ _ _ _ _ _

theorem takeSetS_declines (index : Byte) (v : Word16) : declines link e (takeSetS link index v e) := by
  unfold takeSetS
  split
  · exact declines_refuse _ _ (by decide)
  · exact declines_set _ _ _ _ _ _ _

theorem takeSetW_declines (index : Byte) (v : Word16) : declines link e (takeSetW link index v e) := by
  unfold takeSetW
  split
  · exact declines_refuse _ _ (by decide)
  · split
    · exact declines_refuse _ _ (by decide)
    · exact declines_set _ _ _ _ _ _ _

theorem takeSetNoFlow_declines (index : Byte) (v : Word16) : declines link e (takeSetNoFlow link index v e) := by
  unfold takeSetNoFlow
  split
  · exact declines_refuse _ _ (by decide)
  · exact declines_set _ _ _ _ _ _ _

theorem takeSetAgent_declines (address : Byte) (c : AgentContent) : declines link e (takeSetAgent link address c e) := by
  unfold takeSetAgent
  split
  · exact declines_refuse _ _ (by decide)
  · split
    · exact declines_same _ _ _ _ _ _
    · exact declines_refuse _ _ (by decide)

theorem takeSetLine_declines (line : Byte) (c : LineContent) : declines link e (takeSetLine link line c e) := by
  unfold takeSetLine
  split
  · exact declines_refuse _ _ (by decide)
  · split
    · exact declines_same _ _ _ _ _ _
    · exact declines_refuse _ _ (by decide)

theorem takeGet_declines (code index : Byte) : declines link e (takeGet code index e) := by
  unfold takeGet
  split
  · exact declines_refuse _ _ (by decide)
  · exact declines_done (.inl rfl)

theorem takeReadStep_declines (number : Byte) : declines link e (takeReadStep number e) := by
  unfold takeReadStep
  split
  · exact declines_refuse _ _ (by decide)
  · exact declines_done (.inl rfl)

theorem takeTake_declines : declines link e (takeTake link e) := by
  unfold takeTake
  split
  · exact fun _ _ => ⟨fun _ => rfl, rfl⟩
  · exact declines_done (.inl rfl)

end Owners

/-- Every owner answers so. -/
theorem ownerOf_declines {c : Instr} {link : Station} {type : RequestType} {tag : Byte} {formed : Bool}
    (h : requestOf c = some (link, type, tag, formed)) (e : Event) : declines link e (ownerOf c e) := by
  cases c with
  | openTransfer => exact takeOpen_declines _ e _ _
  | joinTransfer => exact takeJoin_declines _ e
  | closeTransfer => exact takeClose_declines _ e
  | propose => cases h; exact takePropose_declines _ e _
  | amend => cases h; exact takeAmend_declines _ e _ _
  | agree => cases h; exact takeAgree_declines _ e _
  | revise => cases h; exact takeRevise_declines _ e _ _
  | withdraw => cases h; exact takeWithdraw_declines _ e _
  | startStep => exact takeStart_declines _ e
  | lined => exact takeLined_declines _ e _
  | stopStep => cases h; exact takeStop_declines _ e
  | hold => cases h; exact takeHold_declines _ e _ _
  | release => cases h; exact takeRelease_declines _ e _
  | clear => cases h; exact takeClear_declines _ e _
  | gauge => exact takeGauge_declines _ e _
  | tankdef => exact takeTankdef_declines _ e _ _
  | stagedef => exact takeStagedef_declines _ e _ _
  | setRateLimits => cases h; exact takeSetLimit_declines _ e _ _ _
  | setStopTimes => cases h; exact takeSetStopTime_declines _ e _ _ _
  | setTimerSetting => cases h; exact takeSetTimer_declines _ e _ _ _
  | setS => cases h; exact takeSetS_declines _ e _ _
  | setW => cases h; exact takeSetW_declines _ e _ _
  | setNoFlow => cases h; exact takeSetNoFlow_declines _ e _ _
  | setAgentConfiguration => cases h; exact takeSetAgent_declines _ e _ _
  | setLineConfiguration => cases h; exact takeSetLine_declines _ e _ _
  | getSetting => exact takeGet_declines _ e _ _
  | readStep => exact takeReadStep_declines _ e _
  | readTanks =>
    unfold ownerOf
    dsimp only
    split
    · exact declines_done (.inl rfl)
    · exact declines_refuse _ _ (by decide)
  | take => cases h; exact takeTake_declines _ e
  | readLists | readTotals | readHolds | readLines | readInstruments | readCounters | status =>
    exact declines_done (.inl rfl)
  | _ => cases h

/-- A raised starvation counter causes no notice. -/
theorem notices_starve (s : State) (link : Station) : (s.begin.mod (starve link)).notices = [] := by
  simp [Event.notices, Event.stepState, State.begin, Event.mod, starve]

/-- Settles O6: the owner's answer, as `declines` says it of every owner. -/
theorem refusalChangesNothing : Obligations.RefusalChangesNothing := by
  intro c s link type tag hc ht
  have hd := ownerOf_declines hc (s.opened link).begin
  refine ⟨_, _, _, _, exec_taken hc ht, fun hok hclamped => ?_⟩
  obtain ⟨hdata, hstate⟩ := hd hok hclamped
  rw [hstate]
  by_cases h : (ownerOf c (s.opened link).begin).2.result = .empty ∨
      (ownerOf c (s.opened link).begin).2.result = .poolEmpty
  · rw [if_pos h, if_pos h]
    exact ⟨notices_starve _ _, hdata, rfl⟩
  · rw [if_neg h, if_neg h]
    exact ⟨State.begin_notices _, hdata, rfl⟩

end Sys2Proof.Machine
end

