-- ==== Sys2Proof/Proofs/PlanRequests.lean ====
section
/-! The requests of the Plan Store (R3 to R24), each by what its owner does. -/

namespace Sys2Proof.Machine

/-! ### What a taken request answers -/

section Taken

variable {c : Instr} {link : Station} {type : RequestType} {tag : Byte} {s : State}

theorem exec_answered {e : Event} {a : Answer} (h : requestOf c = some (link, type, tag, true))
    (ht : s.canTake link type) (ho : ownerOf c (s.opened link).begin = (e, a)) :
    exec c s = .next (e.s.answered link type tag a.result a.data e.notices) := by
  rw [exec_taken h ht, ho]

/-- A refusal by the owner (R12, R171). -/
theorem exec_refused {r : Result} (h : requestOf c = some (link, type, tag, true)) (ht : s.canTake link type)
    (ho : ownerOf c (s.opened link).begin = refuse (s.opened link).begin r) :
    exec c s = .next (s.refused link type tag r) := by
  rw [exec_answered h ht ho, State.begin_notices]
  rfl

/-- A change that leaves the delivery state alone and causes one PLAN notice (R19). -/
theorem exec_planned {f : State → State} {kind : PlanKind} {a : Answer}
    (h : requestOf c = some (link, type, tag, true)) (ht : s.canTake link type)
    (hd : (f (s.opened link)).ret.delivery = s.ret.delivery)
    (ho : ownerOf c (s.opened link).begin = (((s.opened link).begin.mod f).plan kind, a)) :
    exec c s = .next ((f (s.opened link)).answered link type tag a.result a.data
      [planNotice (f (s.opened link)).ret.transfer kind]) := by
  rw [exec_answered h ht ho]
  have hn : (((s.opened link).begin.mod f).plan kind).notices = [planNotice (f (s.opened link)).ret.transfer kind] := by
    simp only [Event.notices, Event.stepState, Event.plan, Event.note, State.opened_begin, Event.mod, hd, if_true,
      List.nil_append, Option.toList_none, List.append_nil]
  rw [hn]
  rfl

end Taken

/-! ### OPEN (R3) -/

theorem mapTable_const {α β : Type} (b : β) (v : Vector α 4) : mapTable (fun _ => b) v = #v[b, b, b, b] := by
  ext i hi
  simp only [mapTable]
  interval_cases i <;> simp

/-- Distinct grades, spelled by their codes, are the grades of the transfer. -/
theorem openGrades_gradeCode {gs : List (Fin 4)} (h : gs.Nodup) : openGrades (gs.map gradeCode) = some gs := by
  have hcodes : (gs.map gradeCode).map (fun g => code? 4 g.toNat) = gs.map some := by
    rw [List.map_map]
    exact List.map_congr_left fun g _ => code?_gradeCode.2 rfl
  obtain ⟨hall, hid⟩ := (all_isSome_iff (gs.map some) gs).2 rfl
  have hn : (gs.map some).Nodup := h.map (Option.some_injective _)
  unfold openGrades
  dsimp only
  rw [hcodes, if_pos (by simp [hall, hn]), hid]

/-- A repeated code, or one outside 1 to 4, names no grades. -/
theorem openGrades_eq_none {codes : List Byte} (h : ¬codes.Nodup ∨ ∃ c ∈ codes, c.toNat = 0 ∨ 4 < c.toNat) :
    openGrades codes = none := by
  unfold openGrades
  dsimp only
  refine if_neg fun hc => ?_
  simp only [Bool.and_eq_true, decide_eq_true_eq] at hc
  obtain ⟨hall, hn⟩ := hc
  rcases h with h | ⟨c, hc, h⟩
  · exact h (List.Nodup.of_map _ hn)
  · have hsome := List.all_eq_true.1 hall _ (List.mem_map_of_mem hc)
    obtain ⟨g, hg⟩ := Option.isSome_iff_exists.1 hsome
    have := code?_eq_some.1 hg
    omega

section OpenChecks

variable {link : Station} {id : Word16} {grades : List Byte} {e : Event}

theorem takeOpen_wrongState (h : e.s.ret.transfer.state = .opened ∨ e.s.ret.transfer.state = .joined) :
    takeOpen id grades e = refuse e .wrongState := by
  unfold takeOpen
  rcases h with h | h <;> rw [h]

theorem takeOpen_pending (h : e.s.ret.transfer.state = .closed) (hd : e.s.ret.done ≠ []) :
    takeOpen id grades e = refuse e .recordsPending := by
  unfold takeOpen
  rw [h]
  exact if_pos ⟨rfl, hd⟩

/-- In VACANT, and in CLOSED with DONE empty, the grades and the id are checked (R3). -/
theorem takeOpen_checked (h : e.s.ret.transfer.state = .vacant ∨ e.s.ret.transfer.state = .closed ∧ e.s.ret.done = []) :
    takeOpen id grades e = match openGrades grades with
      | none => refuse e .range
      | some gs =>
        if id.toNat = 0 then refuse e .range
        else ((e.mod (openEffects id.toNat gs)).plan (.transfer .opened), answer .ok) := by
  unfold takeOpen
  rcases h with h | ⟨h, hd⟩
  · simp only [h, reduceCtorEq, false_and, if_false] <;> rfl
  · simp only [h, hd, ne_eq, not_true_eq_false, and_false, if_false] <;> rfl

end OpenChecks

/-- Settles O7: the owner's checks in their order, and the recomputation outside PUMPING. -/
theorem openStartsTransfer : Obligations.OpenStartsTransfer := by
  constructor
  · intro s link tag id gs ht hd hs hid hn h1 h4 tr
    have hf : requestOf (.openTransfer link tag id (gs.map gradeCode)) = some (link, .openTransfer, tag, true) := by
      simp [requestOf, h1, h4]
    have ho : ownerOf (.openTransfer link tag id (gs.map gradeCode)) (s.opened link).begin =
        (((s.opened link).begin.mod (openEffects id.toNat gs)).plan (.transfer .opened), answer .ok) := by
      show takeOpen id (gs.map gradeCode) (s.opened link).begin = _
      rw [takeOpen_checked hs, openGrades_gradeCode hn]
      exact if_neg hid
    have he : openEffects id.toNat gs (s.opened link) = ({ s.opened link with
        ret.transfer := tr, ret.totals := #v[⟨0, 0⟩, ⟨0, 0⟩, ⟨0, 0⟩, ⟨0, 0⟩], ret.unassigned := 0, ret.metered := 0,
        ret.lapsed := [], ret.tanks := mapTable (fun t => { coldTank with definition := t.definition }) s.ret.tanks,
        tickCount := 0 } : State).rated := by
      refine (recompute_idle _ ?_).trans ?_
      · exact hd
      · rw [mapTable_const]
        rfl
    rw [exec_planned hf ht (by rw [he]; rfl) ho, he]
    rfl
  · intro s link tag id codes ht h1 h4
    have hf : requestOf (.openTransfer link tag id codes) = some (link, .openTransfer, tag, true) := by
      simp [requestOf, h1, h4]
    refine ⟨fun h => exec_refused hf ht (takeOpen_wrongState h), fun h hd => exec_refused hf ht (takeOpen_pending h hd),
      fun h hbad => exec_refused hf ht ?_⟩
    show takeOpen id codes (s.opened link).begin = _
    rw [takeOpen_checked h]
    split
    · rfl
    · next gs hgs =>
      refine if_pos ?_
      by_contra hid
      rw [openGrades_eq_none (hbad.resolve_left hid)] at hgs
      cases hgs

/-! ### JOIN and CLOSE (R4, R5) -/

/-- Settles O8: one case for each transfer state. -/
theorem joinAndCloseMoveTransfer : Obligations.JoinAndCloseMoveTransfer := by
  intro s tag
  constructor
  · intro ht
    cases hs : s.ret.transfer.state with
    | opened =>
      exact exec_planned (c := .joinTransfer .ship tag) (f := fun u => { u with ret.transfer.state := .joined }) rfl ht rfl
        (by simp only [ownerOf, takeJoin, State.opened_begin, State.opened_ret, hs]; rfl)
    | joined =>
      exact exec_refused (c := .joinTransfer .ship tag) rfl ht
        (by simp only [ownerOf, takeJoin, State.opened_begin, State.opened_ret, hs])
    | vacant | closed =>
      exact exec_refused (c := .joinTransfer .ship tag) rfl ht
        (by simp only [ownerOf, takeJoin, State.opened_begin, State.opened_ret, hs])
  · intro ht
    have open_ (hs : s.ret.transfer.state = .opened ∨ s.ret.transfer.state = .joined) :
        takeClose (s.opened .barge).begin =
          if s.ret.active.isSome then refuse (s.opened .barge).begin .busy
          else (((s.opened .barge).begin.mod closeEffects).plan (.transfer .closed), answer .ok) := by
      unfold takeClose
      rcases hs with hs | hs <;> (simp only [State.opened_begin, State.opened_ret, hs] <;> rfl)
    have taken (hs : s.ret.transfer.state = .opened ∨ s.ret.transfer.state = .joined) :
        exec (.closeTransfer .barge tag) s = .next
          (if s.ret.active = none then
            ({ s.opened .barge with
                ret.proposed := [], ret.agreed := [], ret.transfer.state := .closed,
                ret.free := s.ret.free + s.ret.proposed.length + s.ret.agreed.length } : State).answered
              .barge .closeTransfer tag .ok [] [planNotice { s.ret.transfer with state := .closed } (.transfer .closed)]
          else s.refused .barge .closeTransfer tag .busy) := by
      by_cases ha : s.ret.active = none
      · rw [if_pos ha]
        have ho : ownerOf (.closeTransfer .barge tag) (s.opened .barge).begin =
            (((s.opened .barge).begin.mod closeEffects).plan (.transfer .closed), answer .ok) :=
          (open_ hs).trans (if_neg (by simp [ha]))
        rw [exec_planned rfl ht rfl ho]
        rfl
      · rw [if_neg ha]
        exact exec_refused (c := .closeTransfer .barge tag) rfl ht
          ((open_ hs).trans (if_pos (Option.isSome_iff_ne_none.2 ha)))
    cases hs : s.ret.transfer.state with
    | opened => exact taken (.inl hs)
    | joined => exact taken (.inr hs)
    | vacant | closed =>
      exact exec_refused (c := .closeTransfer .barge tag) rfl ht
        (by simp only [ownerOf, takeClose, State.opened_begin, State.opened_ret, hs])

end Sys2Proof.Machine
end

