-- ==== Sys2Proof/Proofs/StepRequests.lean ====
section
/-! PROPOSE, AMEND, AGREE, REVISE, WITHDRAW and TAKE (R14 to R18, R24), and where a number finds its record (R9). -/

namespace Sys2Proof.Machine

/-! ### Where a number finds its record (R9, R10) -/

theorem numbered_eq_zero {n : Nat} {l : List Step} : numbered n l = 0 ↔ ∀ r ∈ l, r.number ≠ n := by
  simp [numbered, List.count_eq_zero]

theorem numbered_pos {n : Nat} {l : List Step} {r : Step} (h : r ∈ l) (hn : r.number = n) : 0 < numbered n l :=
  List.count_pos_iff.2 (hn ▸ List.mem_map_of_mem h)

theorem findStep_eq_none {n : Nat} {l : List Step} (h : numbered n l = 0) : findStep l n = none :=
  findStep_none.2 (numbered_eq_zero.1 h)

/-- A number that stands once in a list finds the record that bears it. -/
theorem findStep_eq_some {n : Nat} {l : List Step} {r : Step} (h : r ∈ l) (hn : r.number = n) (h1 : numbered n l ≤ 1) :
    findStep l n = some r := by
  induction l with
  | nil => cases h
  | cons q rest ih =>
    rw [numbered_cons] at h1
    unfold findStep
    rcases List.mem_cons.1 h with rfl | hr
    · exact List.find?_cons_of_pos (by simp [hn])
    · have hpos := numbered_pos hr hn
      have hq : q.number ≠ n := fun hq => by rw [if_pos hq] at h1; omega
      rw [List.find?_cons_of_neg (by simpa using hq)]
      exact ih hr (by omega)

theorem locate_none {s : State} {n : Nat} : locate s n = none ↔ ∀ p r, s.stands r p → r.number ≠ n := by
  constructor
  · intro h
    unfold locate at h
    split at h
    · cases h
    · next hp =>
      split at h
      · cases h
      · next hg =>
        split at h
        · cases h
        · next ha =>
          have hd : findStep s.ret.done n = none := Option.map_eq_none_iff.1 h
          intro p r hr
          cases p with
          | proposed => exact findStep_none.1 hp r hr
          | agreed => exact findStep_none.1 hg r hr
          | active => exact findStep_none.1 ha r (Option.mem_toList.2 hr)
          | done => exact findStep_none.1 hd r hr
  · intro h
    have hp : findStep s.ret.proposed n = none := findStep_none.2 fun r hr => h .proposed r hr
    have hg : findStep s.ret.agreed n = none := findStep_none.2 fun r hr => h .agreed r hr
    have ha : findStep s.ret.active.toList n = none :=
      findStep_none.2 fun r hr => h .active r (Option.mem_toList.1 hr)
    have hd : findStep s.ret.done n = none := findStep_none.2 fun r hr => h .done r hr
    simp [locate, hp, hg, ha, hd]

/-- With distinct numbers a record is found in its place. -/
theorem locate_stands {s : State} {n : Nat} {p : Place} {r : Step} (h : (s.ret.records.map Step.number).Nodup)
    (hr : s.stands r p) (hn : r.number = n) : locate s n = some (p, r) := by
  have h1 : numbered n s.ret.proposed + numbered n s.ret.agreed + numbered n s.ret.active.toList +
      numbered n s.ret.done ≤ 1 := by
    rw [← numbered_records]; exact List.nodup_iff_count_le_one.1 h n
  unfold locate
  cases p with
  | proposed => rw [findStep_eq_some hr hn (by omega)]
  | agreed =>
    have := numbered_pos hr hn
    rw [findStep_eq_none (l := s.ret.proposed) (by omega), findStep_eq_some hr hn (by omega)]
  | active =>
    have hm : r ∈ s.ret.active.toList := Option.mem_toList.2 hr
    have := numbered_pos hm hn
    rw [findStep_eq_none (l := s.ret.proposed) (by omega), findStep_eq_none (l := s.ret.agreed) (by omega),
      findStep_eq_some hm hn (by omega)]
  | done =>
    have := numbered_pos hr hn
    rw [findStep_eq_none (l := s.ret.proposed) (by omega), findStep_eq_none (l := s.ret.agreed) (by omega),
      findStep_eq_none (l := s.ret.active.toList) (by omega), findStep_eq_some hr hn (by omega)]
    rfl

/-! ### PROPOSE and AMEND (R12 to R15) -/

theorem contentResult_eq (c : StepContent) : contentResult c =
    if c.quantity.toNat < 1000 ∨ 4000000 < c.quantity.toNat ∨ 2000 < c.rateCap.toNat then .clamped else .ok := by
  unfold contentResult clampQuantity clamp
  congr 1
  apply propext
  omega

section Build

variable {link : Station} {number : Byte} {c : StepContent} {e : Event}

theorem takePropose_starved {n : Nat} {p : Fin 4 × List TankEntry}
    (ha : ¬admitsBuild e.s.ret.transfer.state link = false) (hc : checkContent e.s c = some p)
    (hn : e.s.ret.transfer.nextStep = some n) (h0 : e.s.ret.free = 0) :
    takePropose link c e = (e.mod (starve link), answer .poolEmpty) := by
  rw [takePropose, if_neg ha, hc]
  dsimp only
  rw [hn]
  exact if_pos h0

theorem takePropose_accepted {n : Nat} {g : Fin 4} {entries : List TankEntry}
    (ha : ¬admitsBuild e.s.ret.transfer.state link = false) (hc : checkContent e.s c = some (g, entries))
    (hn : e.s.ret.transfer.nextStep = some n) (h0 : e.s.ret.free ≠ 0) :
    takePropose link c e = ((e.mod (proposeEffect link n g entries c)).plan (.proposed n),
      { result := contentResult c, data := [oct n] }) := by
  rw [takePropose, if_neg ha, hc]
  dsimp only
  rw [hn]
  exact if_neg h0

theorem takePropose_refused (ha : ¬admitsBuild e.s.ret.transfer.state link = false) :
    (checkContent e.s c = none → takePropose link c e = refuse e .range) ∧
      (∀ p, checkContent e.s c = some p → e.s.ret.transfer.nextStep = none →
        takePropose link c e = refuse e .planFull) := by
  constructor
  · intro hc
    rw [takePropose, if_neg ha, hc]
  · intro p hc hn
    rw [takePropose, if_neg ha, hc]
    dsimp only
    rw [hn]

theorem takeAmend_noStep (ha : ¬admitsBuild e.s.ret.transfer.state link = false)
    (hl : locate e.s number.toNat = none) : takeAmend link number c e = refuse e .noStep := by
  rw [takeAmend, if_neg ha, hl]

theorem takeAmend_found {p : Place} {r : Step} (ha : ¬admitsBuild e.s.ret.transfer.state link = false)
    (hl : locate e.s number.toNat = some (p, r)) (hp : p ≠ .proposed) :
    takeAmend link number c e = refuse e .wrongState := by
  rw [takeAmend, if_neg ha, hl]
  cases p with
  | proposed => exact absurd rfl hp
  | agreed | active | done => rfl

theorem takeAmend_range {r : Step} (ha : ¬admitsBuild e.s.ret.transfer.state link = false)
    (hl : locate e.s number.toNat = some (.proposed, r)) (hc : checkContent e.s c = none) :
    takeAmend link number c e = refuse e .range := by
  rw [takeAmend, if_neg ha, hl]
  dsimp only
  rw [hc]

theorem takeAmend_accepted {r : Step} {g : Fin 4} {entries : List TankEntry}
    (ha : ¬admitsBuild e.s.ret.transfer.state link = false)
    (hl : locate e.s number.toNat = some (.proposed, r)) (hc : checkContent e.s c = some (g, entries)) :
    takeAmend link number c e =
      ((e.mod fun s => { s with ret.proposed := replaceStep s.ret.proposed (amendedStep link r g entries c) }).plan
        (.amended r.number), answer (contentResult c)) := by
  rw [takeAmend, if_neg ha, hl]
  dsimp only
  rw [hc]

end Build

/-- The record of the number is replaced in its place, whatever number it is asked by. -/
theorem replaceStep_eq {l : List Step} {r : Step} {n : Nat} (h : r.number = n) :
    replaceStep l r = l.map fun q => if q.number = n then r else q := by
  subst h
  exact List.map_congr_left fun q _ => if_congr beq_iff_eq rfl rfl

/-- Settles O10: each check of the owners in turn, then where a number finds its record. -/
theorem proposeAndAmendSetContent : Obligations.ProposeAndAmendSetContent := by
  refine ⟨fun s link tag c ht hf => ?_, fun s link tag number c ht hf => ?_, fun tr => ?_, fun s n => ?_⟩
  · have hreq : requestOf (.propose link tag c) = some (link, .propose, tag, true) := by rw [← hf]; rfl
    split
    · next ha => exact exec_refused hreq ht (if_pos ha)
    · next ha =>
      cases hc : checkContent s c with
      | none => exact exec_refused hreq ht ((takePropose_refused ha).1 hc)
      | some p =>
        obtain ⟨g, entries⟩ := p
        cases hn : s.ret.transfer.nextStep with
        | none => exact exec_refused hreq ht ((takePropose_refused ha).2 _ hc hn)
        | some n =>
          dsimp only
          split
          · next h0 =>
            rw [exec_answered hreq ht (takePropose_starved ha hc hn h0), notices_starve]
            rfl
          · next h0 =>
            rw [exec_planned hreq ht rfl (takePropose_accepted ha hc hn h0), contentResult_eq]
            rfl
  · have hreq : requestOf (.amend link tag number c) = some (link, .amend, tag, true) := by rw [← hf]; rfl
    split
    · next ha => exact exec_refused hreq ht (if_pos ha)
    · next ha =>
      cases hl : locate s number.toNat with
      | none => exact exec_refused hreq ht (takeAmend_noStep ha hl)
      | some q =>
        obtain ⟨p, r⟩ := q
        cases p with
        | agreed | active | done => exact exec_refused hreq ht (takeAmend_found ha hl (by decide))
        | proposed =>
          obtain ⟨hnum, -⟩ := locate_some hl
          cases hc : checkContent s c with
          | none => exact exec_refused hreq ht (takeAmend_range ha hl hc)
          | some p =>
            obtain ⟨g, entries⟩ := p
            rw [exec_planned hreq ht rfl (takeAmend_accepted ha hl hc), contentResult_eq, hnum]
            dsimp only
            rw [replaceStep_eq (r := amendedStep link r g entries c) hnum]
            rfl
  · cases tr <;> simp [admitsBuild]
  · exact ⟨fun p r h => locate_some h, locate_none, fun h p r hr hn => locate_stands h hr hn⟩

end Sys2Proof.Machine
end

