-- ==== Sys2Proof/Proofs/StepMoves.lean ====
section
/-! AGREE, REVISE, WITHDRAW and TAKE (R16 to R18, R24): the requests that move a record from one list to another. -/

namespace Sys2Proof.Machine

/-! ### AGREE and REVISE (R16, R17) -/

/-- BARGE and SHIP alone may mark a record, each its own mark (R11, R193). -/
theorem marked_of_ne_survey {link : Station} {r : Step} (h : link ≠ .survey) :
    r.marked link = if link = .barge then r.markBarge else r.markShip := by
  cases link with
  | survey => exact absurd rfl h
  | barge | ship => rfl

section Agree

variable {link : Station} {number : Byte} {e : Event}

theorem takeAgree_noStep (hj : ¬e.s.ret.transfer.state ≠ .joined) (hl : locate e.s number.toNat = none) :
    takeAgree link number e = refuse e .noStep := by
  rw [takeAgree, if_neg hj, hl]

theorem takeAgree_elsewhere {p : Place} {r : Step} (hj : ¬e.s.ret.transfer.state ≠ .joined)
    (hl : locate e.s number.toNat = some (p, r)) (hp : p ≠ .proposed) :
    takeAgree link number e = refuse e .wrongState := by
  rw [takeAgree, if_neg hj, hl]
  cases p with
  | proposed => exact absurd rfl hp
  | agreed | active | done => rfl

theorem takeAgree_proposed {r : Step} (hj : ¬e.s.ret.transfer.state ≠ .joined)
    (hl : locate e.s number.toNat = some (.proposed, r)) :
    takeAgree link number e = if r.marked link then refuse e .unchanged else
      ((e.mod fun s => { s with
          ret.proposed := dropStep s.ret.proposed r.number, ret.agreed := s.ret.agreed ++ [r.addMark link] }).plan
        (.agreed r.number), answer .ok) := by
  rw [takeAgree, if_neg hj, hl]

theorem takeRevise_noStep {operand : Byte} (hj : ¬e.s.ret.transfer.state ≠ .joined)
    (hl : locate e.s number.toNat = none) : takeRevise link number operand e = refuse e .noStep := by
  rw [takeRevise, if_neg hj, hl]

theorem takeRevise_elsewhere {operand : Byte} {p : Place} {r : Step} (hj : ¬e.s.ret.transfer.state ≠ .joined)
    (hl : locate e.s number.toNat = some (p, r)) (hp : p ≠ .agreed) :
    takeRevise link number operand e = refuse e .wrongState := by
  rw [takeRevise, if_neg hj, hl]
  cases p with
  | agreed => exact absurd rfl hp
  | proposed | active | done => rfl

/-- The effect of a REVISE: the run from a number on leaves AGREED for an end of PROPOSED (R17). -/
def reviseEffect (link : Station) (n : Nat) (operand : Byte) (s : State) : State :=
  let run := (s.ret.agreed.dropWhile fun q => q.number != n).map fun q => q.onlyMark link
  { s with
    ret.agreed := s.ret.agreed.takeWhile fun q => q.number != n,
    ret.proposed := if operand = 0#8 then run ++ s.ret.proposed else s.ret.proposed ++ run }

theorem takeRevise_agreed {operand : Byte} {r : Step} (hj : ¬e.s.ret.transfer.state ≠ .joined)
    (hl : locate e.s number.toNat = some (.agreed, r)) :
    takeRevise link number operand e =
      if operand ≠ 0#8 ∧ operand ≠ 1#8 then refuse e .range else
      ((e.mod (reviseEffect link r.number operand)).plan
        (.revised r.number (e.s.ret.agreed.dropWhile fun q => q.number != r.number).length operand), answer .ok) := by
  rw [takeRevise, if_neg hj, hl]
  dsimp only
  rw [splitRun_eq, List.length_map]
  rfl

end Agree

/-- Settles O11: the checks in their order; the record that is found bears the number asked for. -/
theorem agreeAndReviseMoveSteps : Obligations.AgreeAndReviseMoveSteps := by
  refine ⟨fun s link tag number ht => ?_, fun s link tag number operand ht => ?_⟩
  · have hreq : requestOf (.agree link tag number) = some (link, .agree, tag, true) := rfl
    have hlink : link ≠ .survey := by rintro rfl; exact absurd ht.2.2 (by decide)
    split
    · next hj => exact exec_refused hreq ht (if_pos hj)
    · next hj =>
      cases hl : locate s number.toNat with
      | none => exact exec_refused hreq ht (takeAgree_noStep hj hl)
      | some q =>
        obtain ⟨p, r⟩ := q
        cases p with
        | agreed | active | done => exact exec_refused hreq ht (takeAgree_elsewhere hj hl (by decide))
        | proposed =>
          obtain ⟨hnum, -⟩ := locate_some hl
          have ho := takeAgree_proposed (link := link) (e := (s.opened link).begin) hj hl
          dsimp only
          rw [← marked_of_ne_survey hlink]
          split
          · next hm => exact exec_refused hreq ht (ho.trans (if_pos hm))
          · next hm =>
            rw [exec_planned hreq ht rfl (ho.trans (if_neg hm)), ← hnum]
            rfl
  · have hreq : requestOf (.revise link tag number operand) = some (link, .revise, tag, true) := rfl
    split
    · next hj => exact exec_refused hreq ht (if_pos hj)
    · next hj =>
      cases hl : locate s number.toNat with
      | none => exact exec_refused hreq ht (takeRevise_noStep hj hl)
      | some q =>
        obtain ⟨p, r⟩ := q
        cases p with
        | proposed | active | done => exact exec_refused hreq ht (takeRevise_elsewhere hj hl (by decide))
        | agreed =>
          obtain ⟨hnum, -⟩ := locate_some hl
          have ho := takeRevise_agreed (link := link) (operand := operand) (e := (s.opened link).begin) hj hl
          dsimp only
          split
          · next hop => exact exec_refused hreq ht (ho.trans (if_pos hop))
          · next hop =>
            rw [exec_planned hreq ht rfl (ho.trans (if_neg hop)), hnum, List.length_map]
            rfl

/-! ### WITHDRAW and TAKE (R18, R24) -/

/-- The notices of an event in which the step in the slot finishes (R80). -/
theorem finishStep_notices {e : Event} {cause : EndCause} {r : Step} (h : e.began ≠ .idle) :
    (finishStep cause r e).notices = e.notes ++
      [stepStateNotice r.number e.began .idle none (some cause) none r.delivered] ++ e.arming.toList ++ e.late := by
  have hs : (finishStep cause r e).stepState =
      [stepStateNotice r.number e.began .idle none (some cause) none r.delivered] := by
    have hd : (finishStep cause r e).s.ret.delivery = .idle := by rw [finishStep_spec]; rfl
    have hc : (finishStep cause r e).concerned =
        some { r with endCause := some cause, endTime := some e.s.ret.transfer.clock } := by
      have ha : (finishStep cause r e).s.ret.active = none := by rw [finishStep_spec]; rfl
      rw [Event.concerned, ha]
      rfl
    have hb : (finishStep cause r e).began = e.began := rfl
    rw [Event.stepState, hd, hc, hb]
    exact if_neg h
  rw [Event.notices, hs]
  rfl

section Withdraw

variable {link : Station} {number : Byte} {e : Event}

theorem takeWithdraw_noStep (ha : ¬admitsBuild e.s.ret.transfer.state link = false)
    (hl : locate e.s number.toNat = none) : takeWithdraw link number e = refuse e .noStep := by
  rw [takeWithdraw, if_neg ha, hl]

/-- What a WITHDRAW does with the record in its place (R18). -/
def withdrawFrom (r : Step) (e : Event) : Place → Event × Answer
  | .proposed => ((e.mod (freeProposed r.number)).plan (.withdrawn r.number), answer .ok)
  | .agreed => ((e.mod (freeAgreed r.number)).plan (.withdrawn r.number), answer .ok)
  | .active => if e.s.ret.delivery = .held then (finishStep .abandoned r e, answer .ok) else refuse e .busy
  | .done => refuse e .wrongState

theorem takeWithdraw_found {p : Place} {r : Step} (ha : ¬admitsBuild e.s.ret.transfer.state link = false)
    (hl : locate e.s number.toNat = some (p, r)) : takeWithdraw link number e = withdrawFrom r e p := by
  rw [takeWithdraw, if_neg ha, hl]
  cases p with
  | proposed | agreed | active | done => rfl

end Withdraw

/-- An abandoned step's request: the step finishes, and delivery's change is told to all (R18, R80). -/
theorem exec_abandons {link : Station} {tag number : Byte} {s : State} {r : Step} (ht : s.canTake link .withdraw)
    (ha : ¬admitsBuild s.ret.transfer.state link = false) (hl : locate s number.toNat = some (.active, r))
    (hd : s.ret.delivery = .held) :
    exec (.withdraw link tag number) s = .next
      ({ s.opened link with
          ret.active := none, ret.delivery := .idle,
          ret.done := s.ret.done ++ [{ r with endCause := some .abandoned, endTime := some s.ret.transfer.clock }],
          ret.totals := countFinished s.ret.totals r.grade,
          governor.permitted := 0, governor.term := .none, governor.demand := 0, governor.ramp := none,
          meter.noFlow := .quiet } |>.answered link .withdraw tag .ok []
        [stepStateNotice r.number .held .idle none (some .abandoned) none r.delivered]) := by
  have ho : ownerOf (.withdraw link tag number) (s.opened link).begin =
      (finishStep .abandoned r (s.opened link).begin, answer .ok) :=
    (takeWithdraw_found (p := .active) ha hl).trans (if_pos hd)
  have hb : (s.opened link).begin.began = .held := hd
  rw [exec_answered rfl ht ho, finishStep_notices (by rw [hb]; decide), finishStep_spec, hb]
  rfl

/-- Settles O12: one case for each place of the record; then the head of DONE. -/
theorem withdrawAndTakeFreeRecords : Obligations.WithdrawAndTakeFreeRecords := by
  refine ⟨fun s link tag number ht => ?_, fun s tag ht => ?_⟩
  · have hreq : requestOf (.withdraw link tag number) = some (link, .withdraw, tag, true) := rfl
    split
    · next ha => exact exec_refused hreq ht (if_pos ha)
    · next ha =>
      cases hl : locate s number.toNat with
      | none => exact exec_refused hreq ht (takeWithdraw_noStep ha hl)
      | some q =>
        obtain ⟨p, r⟩ := q
        obtain ⟨hnum, -⟩ := locate_some hl
        have ho := takeWithdraw_found (e := (s.opened link).begin) ha hl
        cases p with
        | done => exact exec_refused hreq ht ho
        | proposed | agreed =>
          rw [exec_planned hreq ht rfl ho, hnum]
          rfl
        | active =>
          dsimp only
          split
          · next hd =>
            rw [exec_abandons ht ha hl hd, hnum]
            rfl
          · next hd => exact exec_refused hreq ht (ho.trans (if_neg hd))
  · have hreq : requestOf (.take .survey tag) = some (.survey, .take, tag, true) := rfl
    cases hd : s.ret.done with
    | nil =>
      have ho : ownerOf (.take .survey tag) (s.opened .survey).begin =
          ((s.opened .survey).begin.mod (starve .survey), answer .empty) := by
        show takeTake .survey _ = _
        unfold takeTake
        rw [show (s.opened .survey).begin.s.ret.done = [] from hd]
        rfl
      rw [exec_answered hreq ht ho, notices_starve]
      rfl
    | cons r rest =>
      have ho : ownerOf (.take .survey tag) (s.opened .survey).begin =
          (((s.opened .survey).begin.mod fun u => { u with ret.done := rest, ret.free := u.ret.free + 1 }).plan
            (.taken r.number), { result := .ok, data := idOctets s.ret.transfer ++ stepOctets .done r }) := by
        show takeTake .survey _ = _
        unfold takeTake
        rw [show (s.opened .survey).begin.s.ret.done = r :: rest from hd]
        rfl
      rw [exec_planned hreq ht rfl ho]
      rfl

end Sys2Proof.Machine
end

