-- ==== Sys2Proof/Proofs/DeliveryEntries.lean ====
section
/-! What the moves of the Delivery Controller do, in full (R21, R71, R82, R88 to R98): where the laws of
Laws/Delivery.lean say which fields may change, these say what each becomes. -/

namespace Sys2Proof.Machine

/-! ### The end of an arming (R21, R88) -/

theorem mem_insertNumber {n m : Nat} {l : List Nat} : m ∈ insertNumber n l ↔ m = n ∨ m ∈ l := by
  induction l with
  | nil => simp [insertNumber]
  | cons k rest ih =>
    unfold insertNumber
    split
    · exact List.mem_cons
    · split
      · next hk => subst hk; simp
      · rw [List.mem_cons, List.mem_cons, ih]
        tauto

theorem endArming_lapsed {how : ArmingEnd} {e : Event} {r : Step} (ha : e.s.ret.active = some r) :
    (endArming how e).s.ret.lapsed = insertNumber r.number e.s.ret.lapsed := by
  by_cases hf : e.s.controller.armedFrom = some .idle
  · rw [endArming_idle how e r ha hf]; rfl
  · rw [endArming_held how e r ha hf]; rfl

/-- The whole event of an arming's end, but for what `endArming_idle` and `endArming_held` say of its state. -/
theorem endArming_event {how : ArmingEnd} {e : Event} {r : Step} (ha : e.s.ret.active = some r) :
    endArming how e = { e with
      s := (endArming how e).s,
      moved := if e.s.controller.armedFrom = some .idle then some r else e.moved,
      arming := some (startExpiredNotice r.number how (e.s.controller.armedFrom ≠ some .idle)) } := by
  unfold endArming
  rw [ha]
  dsimp only
  split
  · next hf => simp [hf]
  · next hf => simp [hf]

/-! ### The valve command (R82) -/

/-- The command taken, and the stroke it starts. -/
theorem setCommand_eq (c : ValveCommand) (s : State) : setCommand c s = { s with
    controller.command := c,
    controller.stroke :=
      if s.controller.command = c then s.controller.stroke
      else if valveOf c s.controller.closedLimit s.controller.openLimit = c.names then none
      else some (ticksOf (s.strokeSetting c)) } := by
  unfold setCommand
  split
  · next h => subst h; rfl
  · rfl

/-! ### CLOSING and RUNDOWN (R94, R96, R97) -/

/-- The state with the valve commanded closed for a stop, before delivery settles (R97). -/
def State.shutting (s : State) : State :=
  s.redirect .closing { s.governor with demand := 0, ramp := none }
    { s.controller with
      rundown := none, command := .closed,
      stroke :=
        if s.controller.command = .opened then
          if valveOf .closed s.controller.closedLimit s.controller.openLimit = .closed then none
          else some (ticksOf s.ret.settings.tclose)
        else s.controller.stroke } .quiet

theorem enterClosing_eq (s : State) : enterClosing s =
    if valveOf .closed s.controller.closedLimit s.controller.openLimit = .closed then enterSettling s.shutting
    else s.shutting := by
  have hs : setCommand .closed { setDelivery .closing s with controller.rundown := none } = s.shutting := by
    rw [setDelivery_spec _ _ (by decide), setCommand_eq]
    cases hc : s.controller.command <;> simp only [State.shutting, State.redirect, hc] <;> rfl
  show (if (setCommand .closed { setDelivery .closing s with controller.rundown := none }).valve = .closed then
      enterSettling (setCommand .closed { setDelivery .closing s with controller.rundown := none })
    else setCommand .closed { setDelivery .closing s with controller.rundown := none }) = _
  rw [hs]
  rfl

/-- An entry to CLOSING ends in CLOSING or SETTLING (R97). -/
theorem enterClosing_delivery (s : State) :
    (enterClosing s).ret.delivery = .closing ∨ (enterClosing s).ret.delivery = .settling := by
  obtain ⟨d, c, h, hd, -⟩ := enterClosing_spec s
  rw [h]
  exact hd

theorem enterRundown_eq (s : State) : enterRundown s =
    if s.ret.settings.rundown = 0 then enterClosing s
    else s.redirect .rundown { s.governor with demand := 0, ramp := none }
      { s.controller with rundown := some (ticksOf s.ret.settings.rundown) } .quiet := by
  unfold enterRundown
  rw [setDelivery_spec _ _ (by decide)]
  dsimp only
  split
  · rw [enterClosing_eq, enterClosing_eq]
    rfl
  · rfl

/-! ### PUMPING (R71, R92) -/

/-- The no-flow detector after an evaluation (R136). -/
def noFlowAfter (s : State) : NoFlow :=
  if noFlowCondition s then
    match s.meter.noFlow with
    | .quiet => .timing (ticksOf s.ret.settings.noFlow)
    | .timing n => .timing n
  else .quiet

theorem evalNoFlow_eq (s : State) : evalNoFlow s = { s with meter.noFlow := noFlowAfter s } := by
  unfold evalNoFlow noFlowAfter
  split
  · cases h : s.meter.noFlow with
    | quiet => rfl
    | timing n => dsimp only; rw [← h]
  · rfl

/-- The state that has entered PUMPING, before P is compared with Rmin (R71). -/
def State.pumpingFromRmin (s : State) : State :=
  { s with
    ret.delivery := .pumping, controller.stroke := none, governor.demand := s.ret.settings.rmin,
    governor.ramp := some Config.ticksPerSecond,
    meter.noFlow :=
      if s.meter.rate < s.ret.settings.rmin / 4 then
        match s.meter.noFlow with
        | .quiet => .timing (ticksOf s.ret.settings.noFlow)
        | .timing n => .timing n
      else .quiet }

theorem enterPumping_eq (s : State) : enterPumping s =
    if s.governor.permitted < s.ret.settings.rmin then
      enterRundown { s.pumpingFromRmin with controller.stopCause := s.ret.active.map (endCauseNow s) }
    else s.pumpingFromRmin := by
  have hp : enterPumping s = governorAct s.pumpingFromRmin := by
    unfold enterPumping
    rw [evalNoFlow_eq]
    simp [noFlowAfter, noFlowCondition, State.pumpingFromRmin]
  rw [hp]
  refine (if_pos (c := s.pumpingFromRmin.ret.delivery = .pumping) rfl).trans ?_
  by_cases h : s.governor.permitted < s.ret.settings.rmin
  · rw [if_pos h]
    exact if_pos h
  · rw [if_neg h]
    exact (if_neg h).trans (if_neg h)

/-- Settles O26: each entry by its equation. -/
theorem armingAndStopEnterStates : Obligations.ArmingAndStopEnterStates := by
  refine ⟨fun e how r ha => ⟨fun n => ?_, fun hf => ?_, fun hf => ?_⟩, fun s => ⟨fun hv => ?_, fun hv => ?_, fun hr => ?_,
    fun hr => ?_, ?_, fun hp => ?_, fun hp => ?_⟩⟩
  · rw [endArming_lapsed ha]
    exact mem_insertNumber
  · rw [endArming_lapsed ha, endArming_event ha, endArming_idle how e r ha hf]
    simp only [hf]
    rfl
  · have hn : e.s.controller.armedFrom ≠ some .idle := by rw [hf]; decide
    rw [endArming_lapsed ha, endArming_event ha, endArming_held how e r ha hn]
    simp only [hf]
    rfl
  · have hv' : valveOf .closed s.controller.closedLimit s.controller.openLimit ≠ .closed := hv
    rw [enterClosing_eq, if_neg hv', State.shutting, if_neg hv']
    rfl
  · have hv' : valveOf .closed s.controller.closedLimit s.controller.openLimit = .closed := hv
    rw [enterClosing_eq, if_pos hv', enterSettling_spec, State.shutting, if_pos hv']
    rfl
  · rw [enterRundown_eq, if_neg hr]
    rfl
  · rw [enterRundown_eq, if_pos hr]
  · rw [enterSettling_spec]
    rfl
  · rw [enterPumping_eq, if_neg (Nat.not_lt.2 hp)]
    rfl
  · rw [enterPumping_eq, if_pos hp]
    rfl

end Sys2Proof.Machine
end

