-- ==== Sys2Proof/Proofs/StepStart.lean ====
section
/-! LINED (R87, R91, R165) and the expiries of the delivery timers (R88, R96, R98). -/

namespace Sys2Proof.Machine

/-! ### PERMIT raises at the entry to OPENING (R165) -/

/-- A raise in OPENING ends the step; the later raises of the event find it ending (R95). -/
theorem raiseHold_ends {src : HoldSource} {cls : HoldClass} {reason : HoldReason} {e : Event}
    (h : e.s.ret.delivery = .opening ∨ e.s.ret.delivery = .closing ∨ e.s.ret.delivery = .settling) :
    (raiseHold src cls reason e).s.ret.delivery = .closing ∨ (raiseHold src cls reason e).s.ret.delivery = .settling := by
  have taken (c : HoldClass) (u : Event) (hu : u.s.ret.delivery = e.s.ret.delivery) :
      (deliveryTakesRaise src c u).s.ret.delivery = .closing ∨ (deliveryTakesRaise src c u).s.ret.delivery = .settling := by
    unfold deliveryTakesRaise
    rw [hu]
    rcases h with h | h | h <;> rw [h]
    · exact enterClosing_delivery _
    · exact .inl (hu.trans h)
    · exact .inr (hu.trans h)
  exact taken _ _ rfl

theorem raisePermits_end {ns : List (Fin 6)} {e : Event} (hn : ns ≠ [])
    (h : e.s.ret.delivery = .opening ∨ e.s.ret.delivery = .closing ∨ e.s.ret.delivery = .settling) :
    (ns.foldl (fun e' n => raisePermit n e') e).s.ret.delivery = .closing ∨
      (ns.foldl (fun e' n => raisePermit n e') e).s.ret.delivery = .settling := by
  induction ns generalizing e with
  | nil => exact absurd rfl hn
  | cons n rest ih =>
    have h1 := raiseHold_ends (src := .line n) (cls := .pause) (reason := .line .permit .edge) h
    cases rest with
    | nil => exact h1
    | cons m rest => exact ih (by simp) (.inr h1)

theorem permitMissing_of_active {s : State} {n : Fin 6}
    (h : (s.lineConfig n).function = .permit → (s.line n).active = true) : ¬permitMissing s n = true := by
  simpa [permitMissing] using h

/-! ### The entry to OPENING (R91) -/

/-- Outside the valve's stroke, the entry to OPENING says what each field becomes (R91, R82). -/
theorem openingEffect_eq {s : State} {r : Step} (hc : s.controller.command = .closed) :
    openingEffect r s = { s with
      ret.delivery := .opening,
      ret.active := some { r with startTime := some (r.startTime.getD s.ret.transfer.clock) },
      controller.confirm := none, controller.armedFrom := none, controller.command := .opened,
      controller.stroke :=
        if s.controller.openLimit && !s.controller.closedLimit then none else some (10 * s.ret.settings.topen),
      governor.demand := 0, governor.ramp := none, meter.noFlow := .quiet } := by
  unfold openingEffect
  rw [setDelivery_spec _ _ (by decide), setCommand_eq]
  have hv : (valveOf .opened s.controller.closedLimit s.controller.openLimit = .opened) ↔
      (s.controller.openLimit && !s.controller.closedLimit) = true := by
    cases s.controller.openLimit <;> cases s.controller.closedLimit <;> decide
  simp only [State.redirect, hc, reduceCtorEq, if_false, ValveCommand.names, hv]
  rfl

theorem openingEffect_valve {s : State} {r : Step} (hc : s.controller.command = .closed) :
    (openingEffect r s).valve = .opened ↔ (s.controller.openLimit && !s.controller.closedLimit) = true := by
  rw [openingEffect_eq hc]
  show valveOf .opened s.controller.closedLimit s.controller.openLimit = .opened ↔ _
  cases s.controller.openLimit <;> cases s.controller.closedLimit <;> decide

/-- The notices of an event in which the armed step enters OPENING and nothing else happens (R80). -/
theorem openingEvent_notices {s : State} {r : Step} (hb : s.begin.began = .armed)
    (hc : s.controller.command = .closed) :
    (s.begin.mod (openingEffect r)).notices = [stepStateNotice r.number .armed .opening none none none r.delivered] := by
  have hd : (s.begin.mod (openingEffect r)).s.ret.delivery = .opening := by
    rw [Event.mod_s, openingEffect_eq (s := s.begin.s) hc]
  have ha : (s.begin.mod (openingEffect r)).s.ret.active =
      some { r with startTime := some (r.startTime.getD s.ret.transfer.clock) } := by
    rw [Event.mod_s, openingEffect_eq (s := s.begin.s) hc]
    rfl
  have hbm : (s.begin.mod (openingEffect r)).began = .armed := hb
  rw [Event.notices, Event.stepState, Event.concerned, hd, ha, hbm]
  rfl

/-- With every PERMIT line active a valve standing OPEN lets the step into PUMPING; a missing PERMIT ends it (R91, R165). -/
theorem enterOpening_cases {e : Event} {r : Step} (hc : e.s.controller.command = .closed) :
    enterOpening r e =
      if allLines.filter (permitMissing e.s) = [] then
        if e.s.controller.openLimit && !e.s.controller.closedLimit then (e.mod (openingEffect r)).mod enterPumping
        else e.mod (openingEffect r)
      else (allLines.filter (permitMissing e.s)).foldl (fun e' n => raisePermit n e') (e.mod (openingEffect r)) := by
  have hm : permitMissing (e.mod (openingEffect r)).s = permitMissing e.s := by
    rw [Event.mod_s, openingEffect_eq hc]
    rfl
  have hd : (e.mod (openingEffect r)).s.ret.delivery = .opening := by
    rw [Event.mod_s, openingEffect_eq hc]
  have hr : raiseMissingPermits (e.mod (openingEffect r)) =
      (allLines.filter (permitMissing e.s)).foldl (fun e' n => raisePermit n e') (e.mod (openingEffect r)) := by
    unfold raiseMissingPermits
    rw [hm]
  rw [enterOpening_eq, hr]
  by_cases hn : allLines.filter (permitMissing e.s) = []
  · rw [if_pos hn, hn]
    refine if_congr ?_ rfl rfl
    rw [← openingEffect_valve (r := r) hc]
    exact and_iff_right hd
  · rw [if_neg hn]
    refine if_neg fun ho => ?_
    rcases raisePermits_end hn (.inl hd) with h | h <;> exact absurd (h.symm.trans ho.1) (by decide)

/-! ### LINED (R87) -/

theorem takeLined_armed {e : Event} {r : Step} {number : Byte} (hd : e.s.ret.delivery = .armed)
    (ha : e.s.ret.active = some r) (hn : r.number = number.toNat) :
    takeLined number e = (enterOpening r e, answer .ok) := by
  have hf : findStep e.s.ret.active.toList number.toNat = some r := by
    rw [ha]
    exact List.find?_cons_of_pos (by simp [hn])
  rw [takeLined, if_pos hd, hf]

theorem takeLined_other {e : Event} {number : Byte}
    (h : ∀ r, e.s.ret.delivery = .armed → e.s.ret.active = some r → r.number ≠ number.toNat) :
    takeLined number e = refuse e (if number.toNat ∈ e.s.ret.lapsed then .late else .wrongState) := by
  have hf : (if e.s.ret.delivery = .armed then findStep e.s.ret.active.toList number.toNat else none) = none := by
    split
    · next hd => exact findStep_none.2 fun r hr => h r hd (Option.mem_toList.1 hr)
    · rfl
  rw [takeLined, hf]
  by_cases hl : number.toNat ∈ e.s.ret.lapsed
  · simp [hl]
  · simp [hl]

/-- Settles O24: the entry to OPENING, with the raises it may bring. -/
theorem linedOpensValve : Obligations.LinedOpensValve := by
  refine ⟨fun s tag number r ht hd ha hn hc hv hp => ?_, fun s tag number ht h => ?_, fun s tag number r ht hd ha hn hc => ?_⟩
  · have ho : ownerOf (.lined .ship tag number) (s.opened .ship).begin =
        (enterOpening r (s.opened .ship).begin, answer .ok) := takeLined_armed hd ha hn
    have hm : allLines.filter (permitMissing (s.opened .ship).begin.s) = [] :=
      List.filter_eq_nil_iff.2 fun n _ => permitMissing_of_active (s := s) (hp n)
    have hs : ¬(s.controller.openLimit && !s.controller.closedLimit) = true := by
      rcases hv with hv | hv <;> simp [hv]
    have hb : (s.opened .ship).begin.began = .armed := hd
    rw [exec_answered rfl ht ho, enterOpening_cases hc, if_pos hm, if_neg (by exact hs), openingEvent_notices hb hc,
      Event.mod_s, openingEffect_eq (s := (s.opened .ship).begin.s) hc, if_neg (by exact hs)]
    rfl
  · exact exec_refused rfl ht (takeLined_other h)
  · have ho : ownerOf (.lined .ship tag number) (s.opened .ship).begin =
        (enterOpening r (s.opened .ship).begin, answer .ok) := takeLined_armed hd ha hn
    have he : (s.opened .ship).begin.mod (openingEffect r) = (s.opened .ship).begin.mod fun u => { u with
        ret.delivery := .opening,
        ret.active := some { r with startTime := some (r.startTime.getD s.ret.transfer.clock) },
        controller.confirm := none, controller.armedFrom := none, controller.command := .opened,
        controller.stroke :=
          if s.controller.openLimit && !s.controller.closedLimit then none else some (10 * s.ret.settings.topen),
        governor.demand := 0, governor.ramp := none, meter.noFlow := .quiet } :=
      congrArg (fun u => ({ (s.opened .ship).begin with s := u } : Event)) (openingEffect_eq hc)
    rw [exec_answered rfl ht ho, enterOpening_cases hc, he]
    rfl

/-! ### The expiries of the delivery timers (R88, R96, R98) -/

/-- The notices of an event in which the step in the slot is held (R80). -/
theorem holdStep_notices {e : Event} {last : LastStop} {r : Step} (h : e.began ≠ .held) :
    (e.mod (holdStep last r)).notices = e.notes ++
      [stepStateNotice r.number e.began .held none none (some last) r.delivered] ++ e.arming.toList ++ e.late := by
  have hs : (e.mod (holdStep last r)).stepState =
      [stepStateNotice r.number e.began .held none none (some last) r.delivered] := by
    have hd : (e.mod (holdStep last r)).s.ret.delivery = .held := by rw [Event.mod_s, holdStep_spec]; rfl
    have hc : (e.mod (holdStep last r)).concerned =
        some { r with holdCount := bump8 r.holdCount, lastStop := some last } := by
      have ha : (e.mod (holdStep last r)).s.ret.active =
          some { r with holdCount := bump8 r.holdCount, lastStop := some last } := by rw [Event.mod_s, holdStep_spec]; rfl
      rw [Event.concerned, ha]
    have hb : (e.mod (holdStep last r)).began = e.began := rfl
    rw [Event.stepState, hd, hc, hb]
    exact if_neg h
  rw [Event.notices, hs]
  rfl

/-- The event of a settle expiry, before the step is settled: the timer and the stop cause are gone (R98). -/
def State.settled (s : State) : Event :=
  s.begin.mod fun u => { u with controller.settle := none, controller.stopCause := none }

theorem exec_settleExpiry {s : State} {r : Step} {cause : StopCause} (hr : s.running = true)
    (hd : s.ret.delivery = .settling) (ht : s.controller.settle = some 0) (ha : s.ret.active = some r)
    (hc : s.controller.stopCause = some cause) :
    exec .settleExpiry s = .next (settleStep r cause s.settled).finish := by
  show execSettleExpiry s = _
  rw [execSettleExpiry, if_pos ⟨hd, ht⟩, event_running hr]
  simp only [State.begin, ha, hc]
  rfl

/-- A settled step that completes (R23). -/
theorem finish_finishStep {s : State} {r : Step} {cause : EndCause} (hd : s.ret.delivery = .settling) :
    (finishStep cause r s.settled).finish = ({ s.noted with
      controller.settle := none, controller.stopCause := none, meter.noFlow := .quiet,
      ret.active := none, ret.delivery := .idle,
      ret.done := s.ret.done ++ [{ r with endCause := some cause, endTime := some s.ret.transfer.clock }],
      ret.totals := countFinished s.ret.totals r.grade,
      governor := { permitted := 0, term := .none, demand := 0, noRise := s.governor.noRise, ramp := none } } : State).postAll
        [stepStateNotice r.number .settling .idle none (some cause) none r.delivered] := by
  have hb : s.settled.began = .settling := hd
  rw [Event.finish, finishStep_notices (by rw [hb]; decide), finishStep_spec, hb]
  rfl

/-- A settled step that is held (R22). -/
theorem finish_holdStep {s : State} {r : Step} {last : LastStop} (hd : s.ret.delivery = .settling) :
    (s.settled.mod (holdStep last r)).finish = ({ s.noted with
      controller.settle := none, controller.stopCause := none, governor.demand := 0, governor.ramp := none,
      meter.noFlow := .quiet, ret.delivery := .held,
      ret.active := some { r with holdCount := bump8 r.holdCount, lastStop := some last } } : State).postAll
        [stepStateNotice r.number .settling .held none none (some last) r.delivered] := by
  have hb : s.settled.began = .settling := hd
  rw [Event.finish, holdStep_notices (by rw [hb]; decide), Event.mod_s, holdStep_spec, hb]
  rfl

/-- Settles O27: each timer when it is due and when it is not; then the four stop causes of a settled step. -/
theorem deliveryTimersExpire : Obligations.DeliveryTimersExpire := by
  refine ⟨fun s hr => ⟨fun hd ht => ?_, fun hd ht => ?_, fun h => ?_, fun h => ?_, fun h => ?_⟩,
    fun s r cause hr hd ht ha hc => ?_⟩
  · exact (if_pos ⟨hd, ht⟩).trans (event_running hr)
  · exact (if_pos ⟨hd, ht⟩).trans (event_running hr)
  · exact if_neg (not_and_or.2 h)
  · exact if_neg (not_and_or.2 h)
  · exact if_neg (not_and_or.2 h)
  · rw [exec_settleExpiry hr hd ht ha hc]
    cases cause with
    | quantity | topped tank => exact congrArg Host.Outcome.next (finish_finishStep hd)
    | stopped station | hold source => exact congrArg Host.Outcome.next (finish_holdStep hd)

end Sys2Proof.Machine
end

