-- ==== Sys2Proof/Proofs/MeterPulse.lean ====
section
/-! A meter pulse (R129 to R132): whose litres it is, and what its credits leave in the tanks (R39, R40). -/

namespace Sys2Proof.Machine

/-! ### Credits carried to the tanks (R40) -/

/-- A tank after the credits of a tank list went from one split to another (R40). -/
def carriedTank (olds news : List TankEntry) (i : Fin 8) (t : Tank) : Tank :=
  match (olds.zip news).find? fun p => decide (p.1.tank = i) with
  | none => t
  | some p => t.carry p.1.credit p.2.credit

theorem carriedTank_cons {o n : TankEntry} {olds news : List TankEntry} {i : Fin 8} {t : Tank} :
    carriedTank (o :: olds) (n :: news) i t =
      if o.tank = i then t.carry o.credit n.credit else carriedTank olds news i t := by
  unfold carriedTank
  rw [List.zip_cons_cons]
  split_ifs with h
  · rw [List.find?_cons_of_pos (by simpa using h)]
  · rw [List.find?_cons_of_neg (by simpa using h)]

/-- A tank that is not on the list keeps what it holds. -/
theorem carriedTank_absent {olds news : List TankEntry} {i : Fin 8} {t : Tank} (h : i ∉ olds.map TankEntry.tank) :
    carriedTank olds news i t = t := by
  have hf : (olds.zip news).find? (fun p => decide (p.1.tank = i)) = none :=
    List.find?_eq_none.2 fun p hp hi => h (of_decide_eq_true hi ▸ List.mem_map_of_mem (List.of_mem_zip hp).1)
  rw [carriedTank, hf]

theorem Tank.carry_eq (t : Tank) (old new : Nat) : t.carry old new =
    if t.contents = none then t
    else { t with credited := if old ≤ new then min (t.credited + (new - old)) 4294967295 else t.credited - (old - new) } := by
  cases hc : t.contents <;> simp [Tank.carry, hc, Config.max32]

/-- Carrying credits changes the tanks alone. -/
theorem carryCredits_eq (olds news : List TankEntry) (s : State) :
    carryCredits olds news s = { s with ret.tanks := (carryCredits olds news s).ret.tanks } := by
  induction olds generalizing news s with
  | nil => cases news <;> rfl
  | cons o olds ih =>
    cases news with
    | nil => rfl
    | cons n news => exact ih news _

/-- Each tank of a list that names none twice takes its own entry's change (R40). -/
theorem carryCredits_tank {olds news : List TankEntry} (hk : news.map TankEntry.tank = olds.map TankEntry.tank)
    (hd : (olds.map TankEntry.tank).Nodup) (s : State) (i : Fin 8) :
    (carryCredits olds news s).tank i = carriedTank olds news i (s.tank i) := by
  induction olds generalizing news s with
  | nil => cases news <;> rfl
  | cons o olds ih =>
    cases news with
    | nil => cases hk
    | cons n news =>
      obtain ⟨ht, hk⟩ := List.cons_eq_cons.1 hk
      obtain ⟨hne, hd⟩ := List.nodup_cons.1 hd
      have hrest := ih hk hd (s.setTank n.tank ((s.tank n.tank).carry o.credit n.credit))
      rw [carryCredits, hrest, carriedTank_cons]
      have hset : (s.setTank n.tank ((s.tank n.tank).carry o.credit n.credit)).tank i =
          if i = n.tank then (s.tank n.tank).carry o.credit n.credit else s.tank i := at'_put ..
      rw [hset, ht]
      by_cases hi : o.tank = i
      · subst hi
        rw [if_pos rfl, if_pos rfl, carriedTank_absent hne]
      · rw [if_neg (Ne.symm hi), if_neg hi]

theorem creditChanged_eq {olds news : List TankEntry} (hk : news.map TankEntry.tank = olds.map TankEntry.tank)
    (i : Fin 8) :
    creditChanged olds news i = (olds.zip news).any fun p => decide (p.1.tank = i ∧ p.1.credit ≠ p.2.credit) := by
  induction olds generalizing news with
  | nil => cases news <;> rfl
  | cons o olds ih =>
    cases news with
    | nil => rfl
    | cons n news =>
      obtain ⟨ht, hk⟩ := List.cons_eq_cons.1 hk
      have hrest := ih hk
      unfold creditChanged at hrest ⊢
      rw [List.zip_cons_cons, List.any_cons, List.any_cons, hrest, ht]

/-! ### Whose litres a pulse is (R129 to R132) -/

/-- An event that leaves delivery where it began, with nothing armed and nothing late, sends its notes alone (R80). -/
theorem Event.notices_eq_notes {e : Event} (hd : e.began = e.s.ret.delivery) (ha : e.arming = none) (hl : e.late = []) :
    e.notices = e.notes := by
  rw [Event.notices, Event.stepState, ha, hl, if_pos hd]
  simp

/-- The event of a meter pulse (R129, R132). -/
def pulseEvent (e : Event) : Event :=
  if e.s.ret.transfer.state = .vacant then e.mod binPulse
  else if Config.max32 < e.s.ret.metered + e.s.ret.settings.weight then e.mod binPulse
  else tallyPulse (e.mod binPulse)

theorem exec_meterPulse {s : State} (hr : s.running = true) : exec .meterPulse s = .next (pulseEvent s.begin).finish := by
  show event s pulseEvent = _
  exact event_running hr

theorem pulseEvent_binned {e : Event}
    (h : e.s.ret.transfer.state = .vacant ∨ Config.max32 < e.s.ret.metered + e.s.ret.settings.weight) :
    pulseEvent e = e.mod binPulse := by
  unfold pulseEvent
  split_ifs with hv hm
  · rfl
  · rfl
  · exact absurd h (not_or.2 ⟨hv, hm⟩)

theorem pulseEvent_tallied {e : Event} (hv : e.s.ret.transfer.state ≠ .vacant)
    (hm : e.s.ret.metered + e.s.ret.settings.weight ≤ Config.max32) : pulseEvent e = tallyPulse (e.mod binPulse) := by
  rw [pulseEvent, if_neg hv, if_neg (Nat.not_lt.2 hm)]

theorem tallyPulse_unassigned {e : Event} (h : e.s.ret.delivery.crediting = false) : tallyPulse e = unassignPulse e := by
  rw [tallyPulse, h]
  rfl

theorem tallyPulse_credited {e : Event} {r : Step} (h : e.s.ret.delivery.crediting = true)
    (ha : e.s.ret.active = some r) : tallyPulse e = creditPulse r e := by
  rw [tallyPulse, if_pos h, ha]

/-- A pulse that nobody takes is unassigned, with CREEP at each multiple of 100 reached (R131). -/
theorem unassignPulse_finish {e : Event} (hd : e.began = e.s.ret.delivery) (hn : e.notes = []) (ha : e.arming = none)
    (hl : e.late = []) : (unassignPulse e).finish =
      ({ e.s with
        ret.metered := e.s.ret.metered + e.s.ret.settings.weight,
        ret.unassigned := e.s.ret.unassigned + e.s.ret.settings.weight } : State).postAll
      (if e.s.ret.unassigned / 100 < (e.s.ret.unassigned + e.s.ret.settings.weight) / 100 then
        [creepNotice (e.s.ret.unassigned + e.s.ret.settings.weight) (e.s.ret.metered + e.s.ret.settings.weight)
          e.s.ret.transfer.state e.s.ret.delivery ((e.s.ret.active.map Step.number).getD 0)]
      else []) := by
  unfold unassignPulse
  dsimp only
  split
  · rw [Event.finish, Event.notices_eq_notes (by exact hd) (by exact ha) (by exact hl), Event.note, Event.mod, hn]
    rfl
  · rw [Event.finish, Event.notices_eq_notes (by exact hd) (by exact ha) (by exact hl), Event.mod, hn]

/-- The state of a credited pulse before the tanks are evaluated: the tally, the record and the tanks' credits (R130). -/
def creditedState (r : Step) (s : State) : State :=
  carryCredits r.tanks (r.credited s.ret.settings.weight).tanks (creditEffect r s.ret.settings.weight s)

theorem creditedState_eq (r : Step) (s : State) : creditedState r s =
    { creditEffect r s.ret.settings.weight s with ret.tanks := (creditedState r s).ret.tanks } :=
  carryCredits_eq ..

theorem creditPulse_eq (r : Step) (e : Event) : creditPulse r e =
    (evalTanks (creditChanged r.tanks (r.credited e.s.ret.settings.weight).tanks) (e.mod (creditedState r))).mod
      recompute := rfl

/-- Settles O36: the pulses that are not tallied, the unassigned ones, and the credited ones. -/
theorem meterPulseIsCounted : Obligations.MeterPulseIsCounted := by
  intro s hr w m binned
  refine ⟨fun h => ?_, fun hv hm => ⟨fun hd => ?_, fun r ha hnd hd => ?_⟩⟩
  · rw [exec_meterPulse hr, pulseEvent_binned h, Event.finish, Event.notices_eq_notes rfl rfl rfl]
    rfl
  · have hc : s.ret.delivery.crediting = false := by
      rcases hd with hd | hd | hd <;> exact congrArg DeliveryState.crediting hd
    rw [exec_meterPulse hr, pulseEvent_tallied hv hm, tallyPulse_unassigned hc, unassignPulse_finish rfl rfl rfl rfl]
    rfl
  · have hc : s.ret.delivery.crediting = true := by
      rcases hd with hd | hd | hd | hd | hd <;> exact congrArg DeliveryState.crediting hd
    intro credits
    obtain ⟨hk, -⟩ := splitCredits_keeps (r.delivered + w) r.tanks
    refine ⟨(creditedState r binned).ret.tanks, fun i => ?_, ?_⟩
    · refine (carryCredits_tank hk hnd _ i).trans ?_
      show carriedTank r.tanks credits i (s.tank i) = _
      unfold carriedTank
      cases (r.tanks.zip credits).find? fun p => decide (p.1.tank = i) with
      | none => rfl
      | some p => exact Tank.carry_eq ..
    · have ht : creditChanged r.tanks credits = fun i =>
          (r.tanks.zip credits).any fun p => decide (p.1.tank = i ∧ p.1.credit ≠ p.2.credit) :=
        funext (creditChanged_eq hk)
      have he : (s.begin.mod binPulse).mod (creditedState r) = { s.begin with
          s := { creditEffect r w binned with ret.tanks := (creditedState r binned).ret.tanks } } :=
        congrArg (fun u => ({ s.begin with s := u } : Event)) (creditedState_eq r binned)
      rw [exec_meterPulse hr, pulseEvent_tallied hv hm, tallyPulse_credited hc ha, creditPulse_eq, he, ← ht]
      rfl

end Sys2Proof.Machine
end

