-- ==== Sys2Proof/Proofs/Tick.lean ====
section
/-! The tick (R2, R41): what it ages, counts and carries, and the transfer clock's second. -/

namespace Sys2Proof.Machine

/-- The tick count and the transfer clock, which rise while the clock runs (R2). -/
theorem clockTick_eq (s : State) : clockTick s = { s with
    tickCount :=
      if s.ret.transfer.state.clockRuns then (if s.tickCount < 9 then s.tickCount + 1 else 0) else s.tickCount,
    ret.transfer.clock :=
      if s.ret.transfer.state.clockRuns && decide (9 ≤ s.tickCount) then min (s.ret.transfer.clock + 1) 4294967295
      else s.ret.transfer.clock } := by
  unfold clockTick
  cases hr : s.ret.transfer.state.clockRuns with
  | false => rfl
  | true =>
    by_cases h : s.tickCount < 9
    · simp [h, Nat.not_le.2 h]
    · simp [h, Nat.not_lt.1 h, Config.max32]

/-- Loop IN's debounce count (R111). -/
theorem countLoop_eq (l : StopLoop) :
    countLoop l = { l with count := if l.rawIn = l.loopIn then l.count else min (l.count + 1) 2 } := by
  unfold countLoop
  by_cases h : l.rawIn = l.loopIn
  · rw [if_neg (not_not.2 h), if_pos h]
  · rw [if_pos h, if_neg h]
    rfl

/-- A line's debounce count (R161). -/
theorem countLine_eq (c : LineConfig) (l : LineService) : countLine c l =
    if (l.raw != c.inverted) = l.active then l else { l with count := min (l.count + 1) c.debounce } := by
  unfold countLine effectiveInput
  by_cases h : (l.raw != c.inverted) = l.active
  · rw [if_neg (not_not.2 h), if_pos h]
  · rw [if_pos h, if_neg h]

/-- What a tick leaves, with the tables it maps left as they come (R2, R41, R73, R82, R88, R96, R98, R111, R134, R149). -/
theorem tickState_eq (s : State) : tickState s = { s with
    tickCount :=
      if s.ret.transfer.state.clockRuns then (if s.tickCount < 9 then s.tickCount + 1 else 0) else s.tickCount,
    ret.transfer.clock :=
      if s.ret.transfer.state.clockRuns && decide (9 ≤ s.tickCount) then min (s.ret.transfer.clock + 1) 4294967295
      else s.ret.transfer.clock,
    ret.tanks := mapTable ageTank s.ret.tanks, instruments.agents := mapTable ageAgent s.instruments.agents,
    lines := zipTable countLine s.ret.settings.lines s.lines,
    governor.ramp := countDown s.governor.ramp,
    controller.confirm := countDown s.controller.confirm, controller.rundown := countDown s.controller.rundown,
    controller.settle := countDown s.controller.settle, controller.stroke := countDown s.controller.stroke,
    loop.count := if s.loop.rawIn = s.loop.loopIn then s.loop.count else min (s.loop.count + 1) 2,
    meter := countMeter s.meter, instruments.pollTimer := s.instruments.pollTimer - 1,
    links := {
      barge := countLink s.links.barge, ship := countLink s.links.ship, survey := countLink s.links.survey } } := by
  unfold tickState
  rw [clockTick_eq, countLoop_eq]

/-- The clock runs while the transfer is OPENED or JOINED (R2). -/
theorem clockRuns_eq (t : TransferState) : t.clockRuns = (t matches .opened | .joined) := by
  cases t <;> rfl

/-- Settles O47: the tables entry by entry, then every other field; the second is the tick that carries. -/
theorem tickAdvancesTimers : Obligations.TickAdvancesTimers := by
  intro s hr runs
  have hruns : runs = s.ret.transfer.state.clockRuns := (clockRuns_eq _).symm
  clear_value runs
  subst hruns
  have htick : exec .tick s = .next (tickState s.noted) := quietEvent_running hr
  refine ⟨⟨tickState s.noted, htick, fun i => at'_mapTable .., fun i => at'_mapTable .., fun n => ?_, ?_⟩, ?_⟩
  · exact (at'_zipTable ..).trans (countLine_eq ..)
  · exact tickState_eq s.noted
  · rw [htick]
    show execTransferClockSecond s = _
    unfold execTransferClockSecond
    rw [quietEvent_running hr]
    exact if_congr (by simp) rfl rfl

end Sys2Proof.Machine
end

