-- ==== Sys2Proof/Proofs/Reads.lean ====
section
/-! The reads, STATUS and GET (R25 to R28, R53, R123, R155, R167, R176, R197): what each answers and clears. -/

namespace Sys2Proof.Machine

/-- A read that leaves its owner as it stands. -/
theorem exec_reads {c : Instr} {link : Station} {type : RequestType} {tag : Byte} {s : State} {data : List Byte}
    (h : requestOf c = some (link, type, tag, true)) (ht : s.canTake link type)
    (ho : ownerOf c (s.opened link).begin = ((s.opened link).begin, { result := .ok, data := data })) :
    exec c s = .next ((s.opened link).answered link type tag .ok data []) := by
  rw [exec_answered h ht ho, State.begin_notices]
  rfl

/-- A read that clears what it reported. -/
theorem exec_clears {c : Instr} {link : Station} {type : RequestType} {tag : Byte} {s : State} {data : List Byte}
    {f : State → State} (h : requestOf c = some (link, type, tag, true)) (ht : s.canTake link type)
    (hd : (f (s.opened link)).ret.delivery = s.ret.delivery)
    (ho : ownerOf c (s.opened link).begin = ((s.opened link).begin.mod f, { result := .ok, data := data })) :
    exec c s = .next ((f (s.opened link)).answered link type tag .ok data []) := by
  rw [exec_answered h ht ho, Event.notices_eq_notes hd.symm rfl rfl]
  rfl

/-- A frame taken from a link leaves every link's data rate and error counter (R186, R188). -/
theorem State.opened_rate (s : State) (link k : Station) : ((s.opened link).link k).rate = (s.link k).rate := by
  cases link <;> cases k <;> rfl

theorem State.opened_errors (s : State) (link k : Station) : ((s.opened link).link k).errors = (s.link k).errors := by
  cases link <;> cases k <;> rfl

theorem settingOf_opened (s : State) (link : Station) (code index : Byte) :
    settingOf (s.opened link).begin.s code index = settingOf s code index := by
  show settingOf (s.opened link) code index = _
  unfold settingOf
  rw [State.opened_rate, State.opened_rate, State.opened_rate]
  rfl

theorem countersData_opened (s : State) (link : Station) : countersData (s.opened link).begin.s = countersData s := by
  show countersData (s.opened link) = _
  simp only [countersData, State.opened_errors]
  rfl

section Reads

variable {s : State} {link : Station} {tag : Byte}

theorem exec_readStep (ht : s.canTake link .read) (number : Byte) : exec (.readStep link tag number) s = .next
    (match locate s number.toNat with
    | none => s.refused link .read tag .noStep
    | some (p, r) => (s.opened link).answered link .read tag .ok (stepOctets p r) []) := by
  cases hl : locate s number.toNat with
  | none => exact exec_refused rfl ht (by rw [ownerOf, takeReadStep, show locate (s.opened link).begin.s _ = none from hl])
  | some q =>
    exact exec_reads rfl ht (by rw [ownerOf, takeReadStep, show locate (s.opened link).begin.s _ = some q from hl])

theorem exec_readTanks (ht : s.canTake link .read) (group : Byte) : exec (.readTanks link tag group) s = .next
    (match tanksData s group with
    | none => s.refused link .read tag .range
    | some data => (s.opened link).answered link .read tag .ok data []) := by
  cases hd : tanksData s group with
  | none => exact exec_refused rfl ht (by
    rw [ownerOf]
    dsimp only
    rw [show tanksData (s.opened link).begin.s group = none from hd])
  | some data =>
    exact exec_reads rfl ht (by
      rw [ownerOf]
      dsimp only
      rw [show tanksData (s.opened link).begin.s group = some data from hd])

theorem exec_getSetting (ht : s.canTake link .get) (code index : Byte) : exec (.getSetting link tag code index) s = .next
    (match settingOf s code index with
    | none => s.refused link .get tag .range
    | some (owner, value) =>
      (s.opened link).answered link .get tag .ok ([code, index, ownerCode owner] ++ value) []) := by
  cases hs : settingOf s code index with
  | none =>
    exact exec_refused rfl ht (by rw [ownerOf, takeGet, settingOf_opened, hs])
  | some v =>
    exact exec_reads rfl ht (by rw [ownerOf, takeGet, settingOf_opened, hs])

theorem exec_readLines (ht : s.canTake link .read) : exec (.readLines link tag) s = .next
    ((if link = .barge then { s.opened link with lines := mapTable (fun l => { l with latch := false }) s.lines }
      else s.opened link).answered link .read tag .ok (linesData s) []) := by
  split
  · next hb => exact exec_clears (f := clearLatches) rfl ht rfl (Prod.ext (if_pos hb) rfl)
  · next hb => exact exec_reads rfl ht (Prod.ext (if_neg hb) rfl)

theorem exec_readCounters (ht : s.canTake link .read) : exec (.readCounters link tag) s = .next
    ((({ s.opened link with starvation := s.starvation.put link 0 } : State).setLink link
      { (s.opened link).link link with errors := 0 }).answered link .read tag .ok (countersData s) []) :=
  exec_clears (f := clearCounters link) rfl ht rfl (by rw [← countersData_opened s link]; rfl)

end Reads

end Sys2Proof.Machine
end

