-- ==== Sys2Proof/Proofs/ReplyOctets.lean ====
section
/-! The octets of the replies (R195 to R198): sets as bits, the records, and the data of the reads. -/

namespace Sys2Proof.Machine

/-! ### Sets as one octet (R195) -/

theorem getLsbD_twoMembers (a b : Bool) (k : Fin 8) :
    (oct ((if a then 1 else 0) + (if b then 2 else 0))).getLsbD k.val = [a, b].getD k.val false := by
  revert a b k
  decide

theorem getLsbD_notifyCode (n : PerStation Bool) (k : Fin 8) :
    (notifyCode n).getLsbD k.val = [n.barge, n.ship, n.survey].getD k.val false := by
  obtain ⟨a, b, c⟩ := n
  revert a b c k
  decide

theorem getLsbD_fourMembers (a b c d : Bool) (k : Fin 8) :
    (oct ((if a then 1 else 0) + (if b then 2 else 0) + (if c then 4 else 0) + (if d then 8 else 0))).getLsbD k.val =
      [a, b, c, d].getD k.val false := by
  revert a b c d k
  decide

theorem getLsbD_engagedCode (v : Vector Bool 4) (k : Fin 8) :
    (engagedCode v).getLsbD k.val = v.toList.getD k.val false := by
  have hv : v.toList = [v[0], v[1], v[2], v[3]] := by
    apply List.ext_getElem
    · simp
    · intro i h _
      simp only [Vector.length_toList] at h
      interval_cases i <;> simp
  rw [hv]
  exact getLsbD_fourMembers ..

/-! ### Lengths -/

@[simp] theorem length_le2 (n : Nat) : (le2 n).length = 2 := rfl
@[simp] theorem length_le4 (n : Nat) : (le4 n).length = 4 := rfl
@[simp] theorem length_le4? (n : Option Nat) : (le4? n).length = 4 := rfl
@[simp] theorem length_endCauseOctets (c : Option EndCause) : (endCauseOctets c).length = 2 := by
  match c with
  | none | some .quantity | some (.topped _) | some .abandoned => rfl
@[simp] theorem length_lastStopOctets (c : Option LastStop) : (lastStopOctets c).length = 2 := by
  match c with
  | none | some (.stopped _) | some (.hold _) | some .power => rfl
@[simp] theorem length_termOctets (t : LimitTerm) : (termOctets t).length = 3 := by
  cases t <;> rfl
@[simp] theorem length_reasonOctets (r : HoldReason) : (reasonOctets r).length = 2 := by
  cases r with
  | role r => cases r <;> rfl
  | _ => rfl

/-- Records of one size each. -/
theorem length_flatMap_of_size {α : Type} {l : List α} {f : α → List Byte} {n : Nat} (h : ∀ x, (f x).length = n) :
    (l.flatMap f).length = n * l.length := by
  simp [List.length_flatMap, h, Nat.mul_comm]

theorem length_stepOctets (p : Place) (r : Step) : (stepOctets p r).length = 29 + 6 * r.tanks.length := by
  unfold stepOctets
  have ht := length_flatMap_of_size (l := r.tanks) (f := fun t => [oct t.tank.val, oct t.share] ++ le4 t.credit) (n := 6)
    fun _ => rfl
  simp only [List.length_append, List.length_cons, List.length_nil, length_le4, length_le2, length_le4?,
    length_endCauseOctets, length_lastStopOctets, ht]

theorem length_holdsData {s : State} (h : s.ret.holds.length = 18) : (holdsData s).length + 1 = 184 := by
  unfold holdsData
  have hh := length_flatMap_of_size (l := s.ret.holds) (f := holdOctets s) (n := 10) fun x => by
    simp [holdOctets]
  simp [hh, h]

theorem firstOutCode_eq (l : List HoldEntry) : firstOutCode l = (l.head?.map fun h => sourceCode h.source).getD 0#8 := by
  cases l <;> rfl

theorem length_statusData (s : State) (link : Station) : (statusData s link).length + 1 = 38 := by
  simp [statusData, idOctets]

/-! ### Holds (R113, R198) -/

/-- The clearer of an entry by its source and, for a line, its reason (R113, R115, R116). -/
def clearerOctet : HoldSource → HoldReason → Byte
  | .loop, _ => 4#8
  | .survey, _ => 3#8
  | .ship, _ | .linkShip, _ | .overfill, _ | .line _, .line .levelSwitch _ => 2#8
  | .line _, .line .unused _ => 0#8
  | .line _, .line _ _ => 1#8
  | .line _, _ => 0#8
  | _, _ => 1#8

theorem clearerCode_clearers (h : HoldEntry) : clearerCode h.clearers = clearerOctet h.source h.reason := by
  unfold HoldEntry.clearers
  cases h.source with
  | line n =>
    cases h.reason with
    | line f trigger => cases f <;> rfl
    | _ => rfl
  | _ => rfl

/-! ### Tanks (R31, R198) -/

theorem estimate_eq_none {t : Tank} (h : t.definition = none ∨ t.contents = none) :
    t.estimate = none ∧ t.fill = none ∧ t.room = none := by
  have he : t.estimate = none := by
    unfold Tank.estimate
    rcases h with h | h
    · rw [h]
    · rw [h]; cases t.definition <;> rfl
  refine ⟨he, ?_, ?_⟩
  · unfold Tank.fill; rw [he]; cases t.definition <;> rfl
  · unfold Tank.room; rw [he]; cases t.definition <;> rfl

/-- A tank with an estimate has a definition, and its fill and room follow from both (R31). -/
theorem fill_room_of_estimate {t : Tank} {e : Nat} (h : t.estimate = some e) :
    ∃ d, t.definition = some d ∧ t.fill = some (d.fillOf e) ∧ t.room = some (d.tripVolume - e) := by
  cases hd : t.definition with
  | none => rw [(estimate_eq_none (.inl hd)).1] at h; cases h
  | some d =>
    refine ⟨d, rfl, ?_, ?_⟩
    · unfold Tank.fill; rw [hd, h]
    · unfold Tank.room; rw [hd, h]

theorem tankOctets_eq (t : Tank) : tankOctets t =
    let d := t.definition.getD { capacity := 0, high := 0, trip := 0 }
    [flag t.definition.isSome] ++ le4 d.capacity ++ le2 d.high ++ le2 d.trip ++
      (if t.estimate = none then le4 0 ++ le4 0
      else le4 (d.capacity * d.high / 1000) ++ le4 (d.capacity * d.trip / 1000)) ++
      le4? t.contents ++ le2 t.age ++ le4 t.credited ++
      le4 (t.estimate.getD 0) ++ le2 (t.fill.getD 0) ++ le4 (t.room.getD 0) ++
      [gaugeCode t.status, oct ((if t.highCrossed then 1 else 0) + (if t.overTrip then 2 else 0)),
        engagedCode t.engaged] := by
  unfold tankOctets
  cases he : t.estimate with
  | none =>
    have hn : t.fill = none ∧ t.room = none := by
      constructor
      · unfold Tank.fill; rw [he]; cases t.definition <;> rfl
      · unfold Tank.room; rw [he]; cases t.definition <;> rfl
    obtain ⟨hf, hr⟩ := hn
    rw [hf, hr]
    rfl
  | some e =>
    obtain ⟨d, hd, hf, hr⟩ := fill_room_of_estimate he
    rw [hd, hf, hr]
    rfl

/-! ### Instruments (R155, R198) -/

/-- Three outcomes are sent, those that are missing as 0 (R198). -/
theorem take_outcomes (l : List PollOutcome) :
    (l.map outcomeCode ++ [0#8, 0#8, 0#8]).take 3 = [0, 1, 2].map fun k => (l[k]?.map outcomeCode).getD 0#8 := by
  match l with
  | [] | [_] | [_, _] | _ :: _ :: _ :: _ => rfl

/-! ### Settings (R176, R196) -/

/-- A number from 1 on names the place of the list whose number is one less. -/
theorem code?_eq_find {m n : Nat} {l : List (Fin m)} (hl : ∀ i, i ∈ l) :
    code? m n = l.find? fun i => i.val + 1 = n := by
  cases h : l.find? fun i => decide (i.val + 1 = n) with
  | some i =>
    have hi : i.val + 1 = n := by simpa using List.find?_some h
    exact code?_eq_some.2 hi.symm
  | none =>
    refine Option.eq_none_iff_forall_ne_some.2 fun i hi => ?_
    exact absurd (decide_eq_true (code?_eq_some.1 hi).symm) (List.find?_eq_none.1 h i (hl i))

theorem settingOf_above {s : State} {code index : Byte} (h : 0x17 ≤ code.toNat) : settingOf s code index = none := by
  unfold settingOf
  generalize code.toNat = n at h
  obtain ⟨k, rfl⟩ := Nat.exists_eq_add_of_le' h
  rfl

/-- The codes of the settings of one word (R170, R176). -/
theorem settingOf_word {s : State} {code index : Byte} (h : 1 ≤ code.toNat ∧ code.toNat ≤ 0x0E) :
    settingOf s code index =
      [s.ret.settings.rmax, s.ret.settings.rmin, s.ret.settings.u, s.ret.settings.tstop, s.ret.settings.cb,
        s.ret.settings.rundown, s.ret.settings.topen, s.ret.settings.tclose, s.ret.settings.confirm,
        s.ret.settings.settle, s.ret.settings.silence.barge, s.ret.settings.silence.ship,
        s.ret.settings.silence.survey, pollCode s.ret.settings.poll][code.toNat - 1]?.map
        fun v => (some .barge, le2 v) := by
  unfold settingOf
  generalize code.toNat = n at h
  obtain ⟨hl, hh⟩ := h
  interval_cases n <;> rfl

/-- The codes behind the configurations, with their owners (R171, R176). -/
theorem settingOf_owned {s : State} {code index : Byte} (h : 0x11 ≤ code.toNat ∧ code.toNat ≤ 0x16) :
    settingOf s code index =
      [(some Station.ship, s.ret.settings.stale), (some .survey, s.ret.settings.weight),
        (some .survey, s.ret.settings.noFlow), (none, rateCode (s.link .barge).rate),
        (none, rateCode (s.link .ship).rate), (none, rateCode (s.link .survey).rate)][code.toNat - 0x11]?.map
        fun v => (v.1, le2 v.2) := by
  unfold settingOf
  generalize code.toNat = n at h
  obtain ⟨hl, hh⟩ := h
  interval_cases n <;> rfl

theorem settingOf_agent {s : State} {code index : Byte} (h : code.toNat = 0x0F) : settingOf s code index =
    (([0, 1, 2, 3] : List (Fin 4)).find? fun i => i.val + 1 = index.toNat).map
      fun i => (some .barge, agentConfigOctets (s.agentConfig i)) := by
  unfold settingOf
  rw [h, ← code?_eq_find (by decide)]
  rfl

theorem settingOf_line {s : State} {code index : Byte} (h : code.toNat = 0x10) : settingOf s code index =
    (([0, 1, 2, 3, 4, 5] : List (Fin 6)).find? fun n => n.val + 1 = index.toNat).map
      fun n => (some .barge, lineConfigOctets (s.lineConfig n)) := by
  unfold settingOf
  rw [h, ← code?_eq_find (by decide)]
  rfl

theorem settingOf_zero {s : State} {code index : Byte} (h : code.toNat = 0) : settingOf s code index = none := by
  unfold settingOf
  rw [h]
  rfl

/-- Settles O13: the reads and what they clear, then the octets of what they send. -/
theorem readsAnswerItems : Obligations.ReadsAnswerItems := by
  refine ⟨fun s link tag => ⟨fun ht => ⟨exec_readStep ht, exec_reads rfl ht rfl, exec_reads rfl ht rfl,
      exec_reads rfl ht rfl, exec_readTanks ht, exec_reads rfl ht rfl⟩, exec_getSetting⟩,
    fun s link tag => ⟨fun ht => ⟨exec_readCounters ht, exec_readLines ht⟩,
      fun ht => exec_clears (f := clearFlags link) rfl ht rfl rfl⟩,
    ⟨fun n => ⟨rfl, rfl, rfl, rfl, rfl⟩, rfl, rfl, rfl, rfl,
      ⟨fun r => getLsbD_twoMembers _ _, getLsbD_notifyCode, getLsbD_engagedCode, fun l => getLsbD_twoMembers _ _⟩,
      rfl, rfl, rfl, rfl, rfl, rfl, rfl, rfl, rfl, rfl, rfl, rfl, rfl, rfl, rfl, rfl, rfl, rfl, rfl, rfl⟩,
    ⟨fun t st src => ⟨rfl, rfl, rfl⟩, fun n f tr t => rfl, fun t j => rfl⟩,
    fun p r => ⟨rfl, length_stepOctets p r⟩, fun s link => ?_⟩
  intro m id marked sums clearer tank stage lineConfig agentConfig
  refine ⟨?_, length_statusData s link, ?_, ?_, ?_, length_holdsData, fun group => ?_, ?_, ?_, rfl, fun st => rfl,
    fun code index => ?_⟩
  · rw [statusData, firstOutCode_eq]
    simp only [List.append_assoc, List.cons_append, List.nil_append]
    rfl
  · rw [listsData]
    cases ha : m.active with
    | none => simp only [List.append_assoc, List.cons_append, List.nil_append]; rfl
    | some r => simp only [List.append_assoc, List.cons_append, List.nil_append]; rfl
  · rfl
  · have hh : holdOctets s = fun h => [sourceCode h.source,
        oct ((if h.cls = .trip then 1 else 0) + (if conditionPresent s h then 2 else 0))] ++ reasonOctets h.reason ++
          le4 h.time ++ [oct h.repeats, clearer h] := by
      funext h
      rw [holdOctets, clearerCode_clearers]
      rfl
    rw [holdsData, hh]
  · have ht (i : Fin 8) : tankOctets (s.tank i) = tank i := tankOctets_eq _
    rw [tanksData]
    split_ifs with h0 h1 h2
    · subst h0
      simp only [List.flatMap_cons, List.flatMap_nil, ht]
      rfl
    · subst h1
      simp only [List.flatMap_cons, List.flatMap_nil, ht]
      rfl
    · subst h2
      rfl
    · obtain ⟨k, hk⟩ := Nat.exists_eq_add_of_le' (show 3 ≤ group.toNat by bv_omega)
      rw [hk]
      rfl
  · rfl
  · have ha (i : Fin 4) : agentOctets (s.agentConfig i) (s.agent i) =
        agentConfig i ++ [oct (s.agent i).history.length] ++
          [0, 1, 2].map (fun k => ((s.agent i).history[k]?.map outcomeCode).getD 0#8) ++
          [agentStateCode (s.agent i).state] ++ le2? (s.agent i).value ++ le2 (s.agent i).age := by
      rw [agentOctets, take_outcomes]
      rfl
    rw [instrumentsData]
    simp only [ha]
    rfl
  · intro t low high
    split_ifs with h1 h2 h3 h4
    · exact settingOf_word h1
    · exact settingOf_agent h2
    · exact settingOf_line h3
    · exact settingOf_owned h4
    · by_cases h0 : code.toNat = 0
      · exact settingOf_zero h0
      · exact settingOf_above (by omega)

end Sys2Proof.Machine
end

