-- ==== Sys2Proof/Proofs/Raises.lean ====
section
/-! What a raise and a recomputation of P leave alone, said once: the blocks they do not reach (R67, R95, R107). -/

namespace Sys2Proof.Machine

/-! ### A raise (R95, R107) -/

section Raise

variable (src : HoldSource) (cls : HoldClass) (reason : HoldReason) (e : Event)

/-- What a raise can change once it is on the list: delivery, and the place of an armed step (R95). -/
theorem deliveryTakesRaise_spec : ∃ agreed active lapsed d g c nf moved arming,
    deliveryTakesRaise src cls e = { e with
      s := { e.s with ret.agreed := agreed, ret.active := active, ret.lapsed := lapsed }.redirect d g c nf,
      moved := moved, arming := arming } := by
  have untouched : ∃ agreed active lapsed d g c nf moved arming, e = { e with
      s := { e.s with ret.agreed := agreed, ret.active := active, ret.lapsed := lapsed }.redirect d g c nf,
      moved := moved, arming := arming } := ⟨_, _, _, _, _, _, _, _, _, rfl⟩
  have closes (u : State) (hu : u = e.s ∨ u = fixCause (.hold src) e.s) :
      ∃ agreed active lapsed d g c nf moved arming, { e with s := enterClosing u } = { e with
        s := { e.s with ret.agreed := agreed, ret.active := active, ret.lapsed := lapsed }.redirect d g c nf,
        moved := moved, arming := arming } := by
    obtain ⟨d, c, h, -⟩ := enterClosing_spec u
    rw [h]
    rcases hu with rfl | rfl <;> exact ⟨_, _, _, _, _, _, _, _, _, rfl⟩
  unfold deliveryTakesRaise
  split
  · cases ha : e.s.ret.active with
    | none =>
      unfold endArming
      rw [ha]
      dsimp only [Event.mod]
      rw [setDelivery_spec _ _ (by decide)]
      exact ⟨_, _, _, _, _, _, _, _, _, rfl⟩
    | some r =>
      rw [endArming_event ha]
      by_cases hf : e.s.controller.armedFrom = some .idle
      · rw [endArming_idle _ e r ha hf]
        exact ⟨_, _, _, _, _, _, _, _, _, rfl⟩
      · rw [endArming_held _ e r ha hf]
        exact ⟨_, _, _, _, _, _, _, _, _, rfl⟩
  · exact closes _ (.inr rfl)
  · cases cls with
    | pause =>
      obtain ⟨d, c, h, -⟩ := enterRundown_spec (fixCause (.hold src) e.s)
      dsimp only [Event.mod]
      rw [h]
      exact ⟨_, _, _, _, _, _, _, _, _, rfl⟩
    | trip => exact closes _ (.inr rfl)
  · cases cls with
    | pause => exact untouched
    | trip => exact closes _ (.inl rfl)
  all_goals exact untouched

/-- The whole of a raise, but for what it makes of delivery: the list, loop OUT and HOLDRAISED (R104, R107, R119). -/
theorem raiseHold_spec : ∃ agreed active lapsed d g c nf moved arming,
    raiseHold src cls reason e = { e with
      s := { e.s with
        ret.holds := raisedList e.s src cls reason, loop.loopOut := loopOutOf (raisedList e.s src cls reason),
        ret.agreed := agreed, ret.active := active, ret.lapsed := lapsed }.redirect d g c nf,
      notes := e.notes ++ [e.s.raisedNotice src cls reason], moved := moved, arming := arming } := by
  obtain ⟨agreed, active, lapsed, d, g, c, nf, moved, arming, h⟩ := deliveryTakesRaise_spec src
    (raisedEntry e.s src cls reason).cls { e with s := e.s.setHolds (raisedList e.s src cls reason) }
  refine ⟨agreed, active, lapsed, d, g, c, nf, moved, arming, ?_⟩
  unfold raiseHold
  dsimp only
  rw [h]
  rfl

@[simp] theorem raiseHold_notes :
    (raiseHold src cls reason e).notes = e.notes ++ [e.s.raisedNotice src cls reason] := by
  obtain ⟨_, _, _, _, _, _, _, _, _, h⟩ := raiseHold_spec src cls reason e; rw [h]

@[simp] theorem raiseHold_late : (raiseHold src cls reason e).late = e.late := by
  obtain ⟨_, _, _, _, _, _, _, _, _, h⟩ := raiseHold_spec src cls reason e; rw [h]

@[simp] theorem raiseHold_holds : (raiseHold src cls reason e).s.ret.holds = raisedList e.s src cls reason := by
  obtain ⟨_, _, _, _, _, _, _, _, _, h⟩ := raiseHold_spec src cls reason e; rw [h]; rfl

@[simp] theorem raiseHold_tanks : (raiseHold src cls reason e).s.ret.tanks = e.s.ret.tanks := by
  obtain ⟨_, _, _, _, _, _, _, _, _, h⟩ := raiseHold_spec src cls reason e; rw [h]; rfl

@[simp] theorem raiseHold_stages : (raiseHold src cls reason e).s.ret.stages = e.s.ret.stages := by
  obtain ⟨_, _, _, _, _, _, _, _, _, h⟩ := raiseHold_spec src cls reason e; rw [h]; rfl

@[simp] theorem raiseHold_settings : (raiseHold src cls reason e).s.ret.settings = e.s.ret.settings := by
  obtain ⟨_, _, _, _, _, _, _, _, _, h⟩ := raiseHold_spec src cls reason e; rw [h]; rfl

@[simp] theorem raiseHold_transfer : (raiseHold src cls reason e).s.ret.transfer = e.s.ret.transfer := by
  obtain ⟨_, _, _, _, _, _, _, _, _, h⟩ := raiseHold_spec src cls reason e; rw [h]; rfl

@[simp] theorem raiseHold_instruments : (raiseHold src cls reason e).s.instruments = e.s.instruments := by
  obtain ⟨_, _, _, _, _, _, _, _, _, h⟩ := raiseHold_spec src cls reason e; rw [h]; rfl

@[simp] theorem raiseHold_tank (i : Fin 8) : (raiseHold src cls reason e).s.tank i = e.s.tank i :=
  congrArg (fun v => at' v i) (raiseHold_tanks src cls reason e)

@[simp] theorem raiseHold_stage (j : Fin 4) : (raiseHold src cls reason e).s.stage j = e.s.stage j :=
  congrArg (fun v => at' v j) (raiseHold_stages src cls reason e)

end Raise

/-! ### A recomputation (R67) -/

section Recompute

variable (s : State)

@[simp] theorem recompute_holds : (recompute s).ret.holds = s.ret.holds := by
  obtain ⟨_, _, _, _, h, -⟩ := recompute_spec s; rw [h]; rfl

@[simp] theorem recompute_tanks : (recompute s).ret.tanks = s.ret.tanks := by
  obtain ⟨_, _, _, _, h, -⟩ := recompute_spec s; rw [h]; rfl

@[simp] theorem recompute_stages : (recompute s).ret.stages = s.ret.stages := by
  obtain ⟨_, _, _, _, h, -⟩ := recompute_spec s; rw [h]; rfl

@[simp] theorem recompute_settings : (recompute s).ret.settings = s.ret.settings := by
  obtain ⟨_, _, _, _, h, -⟩ := recompute_spec s; rw [h]; rfl

@[simp] theorem recompute_instruments : (recompute s).instruments = s.instruments := by
  obtain ⟨_, _, _, _, h, -⟩ := recompute_spec s; rw [h]; rfl

/-- After a recomputation P and the limiting term are those the terms give (R65, R67). -/
theorem recompute_rated : (recompute s).governor.permitted = permittedRate (recompute s) ∧
    (recompute s).governor.term = limitingTerm (recompute s) := by
  obtain ⟨_, _, _, _, h, hp, ht, -⟩ := recompute_spec s; rw [h]; exact ⟨hp, ht⟩

end Recompute

/-! ### The list and the clock -/

/-- What a raise leaves on the list depends on the list and the clock alone (R104, R105). -/
theorem raisedList_congr {s t : State} (hh : t.ret.holds = s.ret.holds)
    (hc : t.ret.transfer.clock = s.ret.transfer.clock) (src : HoldSource) (cls : HoldClass) (reason : HoldReason) :
    raisedList t src cls reason = raisedList s src cls reason ∧
      t.raisedNotice src cls reason = s.raisedNotice src cls reason := by
  have he : raisedEntry t src cls reason = raisedEntry s src cls reason := by
    unfold raisedEntry; rw [hh, hc]
  have hl : raisedList t src cls reason = raisedList s src cls reason := by
    unfold raisedList; rw [hh, he]
  refine ⟨hl, ?_⟩
  unfold State.raisedNotice
  rw [hh, he, hl]

end Sys2Proof.Machine
end

