-- ==== Sys2Proof/Proofs/TankEvaluation.lean ====
section
/-! The evaluation of a tank (R31, R45, R46, R48, R51). -/

namespace Sys2Proof.Machine

/-! ### One tank written twice, or as it stands -/

@[simp] theorem State.setTank_setTank (s : State) (i : Fin 8) (t u : Tank) :
    (s.setTank i t).setTank i u = s.setTank i u := by
  simp [State.setTank, put]

@[simp] theorem State.setTank_tank_self (s : State) (i : Fin 8) : s.setTank i (s.tank i) = s := by
  simp [State.setTank, State.tank, put, at']

theorem mem_allTanks (i : Fin 8) : i ∈ allTanks := by revert i; decide

/-! ### Estimate, fill and room (R31) -/

theorem estimate_of_reported {t : Tank} {d : TankDef} {v : Nat} (hd : t.definition = some d)
    (hc : t.contents = some v) : t.estimate = some (min (v + t.credited) 4294967295) := by
  rw [Tank.estimate, hd, hc]
  rfl

theorem fill_room_of_definition {t : Tank} {d : TankDef} {est : Nat} (hd : t.definition = some d)
    (he : t.estimate = some est) : t.fill = some (d.fillOf est) ∧ t.room = some (d.tripVolume - est) := by
  obtain ⟨d', hd', h⟩ := fill_room_of_estimate he
  cases hd.symm.trans hd'
  exact h

/-- A LEVEL of a tank with an estimate (R48). -/
theorem levelOf_eq {s : State} {i : Fin 8} {d : TankDef} {est : Nat} (hd : (s.tank i).definition = some d)
    (he : (s.tank i).estimate = some est) (kind : LevelKind) :
    levelOf s i kind = levelNotice i kind est (d.fillOf est) (s.tank i).status := by
  rw [levelOf, he, (fill_room_of_definition hd he).1]
  rfl

/-! ### The two crossings (R45, R46) -/

/-- The high-crossed flag follows the estimate, and LEVEL goes out when it sets (R45, R48). -/
theorem evalHigh_eq (i : Fin 8) (est high : Nat) (e : Event) : evalHigh i est high e = { e with
    s := e.s.setTank i { e.s.tank i with highCrossed := decide (high ≤ est) },
    notes := e.notes ++
      if decide (high ≤ est) && !(e.s.tank i).highCrossed then [levelOf e.s i .high] else [] } := by
  unfold evalHigh
  dsimp only
  by_cases h : high ≤ est
  · rw [if_pos h]
    cases hc : (e.s.tank i).highCrossed with
    | true =>
      have hset : ({ e.s.tank i with highCrossed := true } : Tank) = e.s.tank i := by rw [← hc]
      simp [h, hset]
    | false => simp [h, Event.mod, Event.note]
  · simp [h, Event.mod]

/-- The over-trip flag follows the estimate; when it sets, LEVEL goes out and OVERFILL is raised (R46, R48). -/
theorem evalTrip_eq (i : Fin 8) (est trip : Nat) (e : Event) : evalTrip i est trip e =
    let noted : Event := { e with
      s := e.s.setTank i { e.s.tank i with overTrip := decide (trip ≤ est) },
      notes := e.notes ++ if decide (trip ≤ est) && !(e.s.tank i).overTrip then [levelOf e.s i .trip] else [] }
    if decide (trip ≤ est) && !(e.s.tank i).overTrip then raiseHold .overfill .trip (.level i) noted else noted := by
  unfold evalTrip
  dsimp only
  by_cases h : trip ≤ est
  · rw [if_pos h]
    cases hc : (e.s.tank i).overTrip with
    | true =>
      have hset : ({ e.s.tank i with overTrip := true } : Tank) = e.s.tank i := by rw [← hc]
      simp [h, hset]
    | false => simp [h, Event.mod, Event.note]
  · simp [h, Event.mod]

/-! ### The fill stages (R51) -/

theorem evalFillStages_eq (i : Fin 8) (fill : Nat) (s : State) : evalFillStages i fill s =
    s.setTank i { s.tank i with engaged := Vector.ofFn fun j => fillEngaged s (s.tank i) fill j } := by
  have hv : #v[fillEngaged s (s.tank i) fill 0, fillEngaged s (s.tank i) fill 1, fillEngaged s (s.tank i) fill 2,
      fillEngaged s (s.tank i) fill 3] = Vector.ofFn fun j => fillEngaged s (s.tank i) fill j := by
    ext k hk
    interval_cases k <;> simp
  unfold evalFillStages
  dsimp only
  rw [hv]

theorem fillEngaged_eq (s : State) (t : Tank) (fill : Nat) (j : Fin 4) : fillEngaged s t fill j =
    (decide ((s.stage j).input = .tankFill) && (s.stage j).enabled &&
      if t.engaged[j] then decide ((s.stage j).leave ≤ fill) else decide ((s.stage j).enter ≤ fill)) :=
  (Bool.and_assoc ..).symm

/-! ### A tank with an estimate -/

/-- A tank with its two flags against an estimate (R45, R46). -/
def Tank.flagged (t : Tank) (d : TankDef) (est : Nat) : Tank :=
  { t with highCrossed := decide (d.highVolume ≤ est), overTrip := decide (d.tripVolume ≤ est) }

/-- Whether an evaluation sets a tank's over-trip flag (R46). -/
def Tank.trips (t : Tank) (d : TankDef) (est : Nat) : Bool := decide (d.tripVolume ≤ est) && !t.overTrip

/-- The LEVEL notices of an evaluated tank, before its raise (R48). -/
def levelNotes (t : Tank) (i : Fin 8) (d : TankDef) (est : Nat) : List Notice :=
  (if decide (d.highVolume ≤ est) && !t.highCrossed then [levelNotice i .high est (d.fillOf est) t.status] else []) ++
    if t.trips d est then [levelNotice i .trip est (d.fillOf est) t.status] else []

/-- The event of an evaluated tank before its raise: the flags and the LEVEL notices (R45, R46, R48). -/
def levelled (i : Fin 8) (d : TankDef) (est : Nat) (e : Event) : Event :=
  { e with
    s := e.s.setTank i ((e.s.tank i).flagged d est), notes := e.notes ++ levelNotes (e.s.tank i) i d est }

/-- The same with its raise, where the over-trip flag sets (R46). -/
def overfilled (i : Fin 8) (d : TankDef) (est : Nat) (e : Event) : Event :=
  if (e.s.tank i).trips d est then raiseHold .overfill .trip (.level i) (levelled i d est e) else levelled i d est e

/-- The evaluated tank: its flags, then its fill stages (R45, R46, R51). -/
def stagedTank (s : State) (i : Fin 8) (d : TankDef) (est : Nat) : Tank :=
  { (s.tank i).flagged d est with engaged := Vector.ofFn fun j => fillEngaged s (s.tank i) (d.fillOf est) j }

section Evaluated

variable {i : Fin 8} {d : TankDef} {est : Nat} {e : Event}

theorem overfilled_tank (j : Fin 8) :
    (overfilled i d est e).s.tank j = if j = i then (e.s.tank i).flagged d est else e.s.tank j := by
  have hl : (levelled i d est e).s.tank j = if j = i then (e.s.tank i).flagged d est else e.s.tank j :=
    State.setTank_tank ..
  unfold overfilled
  split <;> simpa using hl

theorem overfilled_stage (j : Fin 4) : (overfilled i d est e).s.stage j = e.s.stage j := by
  unfold overfilled
  split
  · rw [raiseHold_stage]; rfl
  · rfl

theorem overfilled_holds : (overfilled i d est e).s.ret.holds =
    if (e.s.tank i).trips d est then raisedList e.s .overfill .trip (.level i) else e.s.ret.holds := by
  unfold overfilled
  split
  · rw [raiseHold_holds]
    exact (raisedList_congr rfl rfl _ _ _).1
  · rfl

theorem overfilled_notes : (overfilled i d est e).notes = e.notes ++ levelNotes (e.s.tank i) i d est ++
    if (e.s.tank i).trips d est then [e.s.raisedNotice .overfill .trip (.level i)] else [] := by
  unfold overfilled
  split
  · rw [raiseHold_notes, (raisedList_congr (s := e.s) rfl rfl _ _ _).2]
    rfl
  · exact (List.append_nil _).symm

/-- The crossings of a tank with an estimate (R45, R46). -/
theorem evalTrip_evalHigh (hd : (e.s.tank i).definition = some d) (he : (e.s.tank i).estimate = some est) :
    evalTrip i est d.tripVolume (evalHigh i est d.highVolume e) = overfilled i d est e := by
  have hlevel (b : Bool) : levelOf (e.s.setTank i { e.s.tank i with highCrossed := b }) i .trip =
      levelNotice i .trip est (d.fillOf est) (e.s.tank i).status := by
    rw [levelOf_eq (d := d) (est := est)]
    · rw [State.setTank_tank_same]
    · rw [State.setTank_tank_same]; exact hd
    · rw [State.setTank_tank_same]; exact he
  rw [evalHigh_eq, evalTrip_eq, levelOf_eq hd he]
  simp only [State.setTank_tank_same, State.setTank_setTank, hlevel, List.append_assoc]
  rfl

/-- The whole event of an evaluated tank (R45, R46, R51). -/
theorem evalTank_eq (hd : (e.s.tank i).definition = some d) (he : (e.s.tank i).estimate = some est) :
    evalTank i e = { overfilled i d est e with s := (overfilled i d est e).s.setTank i (stagedTank e.s i d est) } := by
  have hstages : (fun j => fillEngaged (overfilled i d est e).s ((e.s.tank i).flagged d est) (d.fillOf est) j) =
      fun j => fillEngaged e.s (e.s.tank i) (d.fillOf est) j := by
    funext j
    rw [fillEngaged, overfilled_stage]
    rfl
  unfold evalTank
  rw [hd, he]
  dsimp only
  rw [evalTrip_evalHigh hd he, Event.mod, evalFillStages_eq, overfilled_tank, if_pos rfl, hstages]
  rfl

end Evaluated

/-- A tank without an estimate is left as it is (R31). -/
theorem evalTank_none {i : Fin 8} {e : Event} (h : (e.s.tank i).estimate = none) : evalTank i e = e := by
  unfold evalTank
  rw [h]
  cases (e.s.tank i).definition <;> rfl

/-- Settles O14: the three derived quantities, the order of the tanks, and the evaluation of one tank. -/
theorem tankEvaluationFollowsLevels : Obligations.TankEvaluationFollowsLevels := by
  refine ⟨fun t => ⟨estimate_eq_none, fun d v hd hc => ?_⟩, fun test e => rfl, fun i e =>
    ⟨evalTank_none, fun d v hd hc => ?_⟩⟩
  · have he := estimate_of_reported hd hc
    obtain ⟨hf, hr⟩ := fill_room_of_definition hd he
    exact ⟨he, hf, hr⟩
  · have he := estimate_of_reported hd hc
    intro est fill sets level flagged staged noted raised t
    have hsets : sets = (e.s.tank i).trips d est := rfl
    have hstaged : staged = stagedTank e.s i d est := by
      simp only [staged, stagedTank, fillEngaged_eq]
      rfl
    have hnoted : noted = levelled i d est e := by
      simp only [noted, levelled, levelNotes, ← hsets, List.append_assoc]
      rfl
    have hraised : raised = overfilled i d est e := by
      simp only [raised, overfilled, hnoted, ← hsets]
    have heq : evalTank i e = { raised with s := raised.s.setTank i staged } := by
      rw [hraised, hstaged]
      exact evalTank_eq hd he
    have ht : t = raised.s.setTank i staged := congrArg Event.s heq
    refine ⟨heq, ?_, fun j hj => ?_, ?_, ?_⟩
    · rw [ht, State.setTank_tank_same]
    · rw [ht, State.setTank_tank, if_neg hj, hraised, overfilled_tank, if_neg hj]
    · rw [ht, hsets, State.setTank_ret, hraised]
      exact overfilled_holds
    · rw [heq]
      show raised.notes = _
      rw [hraised, overfilled_notes, levelNotes, hsets]
      cases (e.s.tank i).trips d est <;> simp [level, est, fill, TankDef.fillOf] <;> rfl

end Sys2Proof.Machine
end

