-- ==== Sys2Proof/Proofs/Gauge.lean ====
section
/-! GAUGE (R36, R37): its checks, what its reports leave in the tanks, and the share split's sum (R39). -/

namespace Sys2Proof.Machine

/-- A request carried out by its owner: the reply, then the notices of the owner's event (R192). -/
theorem exec_replied {c : Instr} {link : Station} {type : RequestType} {tag : Byte} {s : State} {e : Event} {a : Answer}
    (h : requestOf c = some (link, type, tag, true)) (ht : s.canTake link type)
    (ho : ownerOf c (s.opened link).begin = (e, a)) :
    exec c s = .next (e.reply link (replyFrame type tag a.result a.data)) := by
  rw [exec_answered h ht ho]
  rfl

/-! ### The share split (R39) -/

/-- Settles O37: the split is the definition's, and its sum is `splitCredits_sum`. -/
theorem sharesAccountForDelivered : Obligations.SharesAccountForDelivered :=
  fun delivered _ _ => ⟨rfl, splitCredits_sum delivered⟩

/-! ### The checks of GAUGE (R36) -/

theorem index?_oct (i : Fin 8) : index? 8 (oct i.val).toNat = some i := by
  rw [index?_eq_some, oct_toNat]
  omega

/-- An entry names a defined tank exactly when some tank it names has a definition (R36). -/
theorem gaugeTank_eq_some {s : State} {g : GaugeEntry} {i : Fin 8} {d : TankDef} :
    gaugeTank s g = some (i, d) ↔ g.tank.toNat = i.val ∧ (s.tank i).definition = some d := by
  unfold gaugeTank
  constructor
  · intro h
    split at h
    · cases h
    · next j hj =>
      obtain ⟨d', hd', hp⟩ := Option.map_eq_some_iff.1 h
      cases hp
      exact ⟨index?_eq_some.1 hj, hd'⟩
  · rintro ⟨hi, hd⟩
    rw [index?_eq_some.2 hi]
    simp [hd]

theorem gaugeAdmitted_eq_false {s : State} {entries : List GaugeEntry}
    (h : ¬(entries.map GaugeEntry.tank).Nodup ∨
      ∃ g ∈ entries, ∀ i : Fin 8, i.val = g.tank.toNat → (s.tank i).definition = none) :
    gaugeAdmitted s entries = false := by
  rcases h with h | ⟨g, hg, hdef⟩
  · simp [gaugeAdmitted, h]
  · have hnone : gaugeTank s g = none := by
      cases ht : gaugeTank s g with
      | none => rfl
      | some p =>
        obtain ⟨hi, hd⟩ := gaugeTank_eq_some (i := p.1) (d := p.2).1 ht
        rw [hdef p.1 hi.symm] at hd
        cases hd
    have hall : entries.all (fun g => (gaugeTank s g).isSome) = false :=
      List.all_eq_false.2 ⟨g, hg, by rw [hnone]; decide⟩
    simp [gaugeAdmitted, hall]

/-! ### The reports (R37) -/

/-- A report of a tank as GAUGE spells it (R196). -/
def spellReport (p : Fin 8 × Word32) : GaugeEntry := { tank := oct p.1.val, contents := p.2 }

/-- A tank with a report applied to it (R37). -/
def Tank.reported (t : Tank) (w : Word32) : Tank :=
  match t.definition with
  | none => t
  | some d => { t with contents := some (min w.toNat d.capacity), credited := 0, age := 0, status := .fresh }

theorem Tank.reported_none {t : Tank} (h : t.definition = none) (w : Word32) : t.reported w = t := by
  rw [Tank.reported, h]

theorem Tank.reported_some {t : Tank} {d : TankDef} (h : t.definition = some d) (w : Word32) : t.reported w =
    { t with contents := some (min w.toNat d.capacity), credited := 0, age := 0, status := .fresh } := by
  rw [Tank.reported, h]

theorem gaugeTank_spell (s : State) (p : Fin 8 × Word32) :
    gaugeTank s (spellReport p) = (s.tank p.1).definition.map fun d => (p.1, d) := by
  unfold gaugeTank spellReport
  dsimp only
  rw [index?_oct]

theorem applyReport_eq (s : State) (p : Fin 8 × Word32) :
    applyReport s (spellReport p) = s.setTank p.1 ((s.tank p.1).reported p.2) := by
  unfold applyReport
  cases hd : (s.tank p.1).definition with
  | none => rw [gaugeTank_spell, hd, Tank.reported_none hd, State.setTank_tank_self]; rfl
  | some d => rw [gaugeTank_spell, hd, Tank.reported_some hd]; rfl

/-- Reports change the tanks alone. -/
theorem applyReports_eq (reports : List (Fin 8 × Word32)) (s : State) :
    (reports.map spellReport).foldl applyReport s =
      { s with ret.tanks := ((reports.map spellReport).foldl applyReport s).ret.tanks } := by
  induction reports generalizing s with
  | nil => rfl
  | cons p rest ih =>
    rw [List.map_cons, List.foldl_cons, applyReport_eq]
    exact ih _

/-- Each tank takes the report that names it; the others keep what they hold (R37). -/
theorem applyReports_tank {reports : List (Fin 8 × Word32)} (hn : (reports.map Prod.fst).Nodup) (s : State)
    (i : Fin 8) :
    ((reports.map spellReport).foldl applyReport s).tank i =
      match reports.find? fun p => decide (p.1 = i) with
      | some p => (s.tank i).reported p.2
      | none => s.tank i := by
  induction reports generalizing s with
  | nil => rfl
  | cons p rest ih =>
    obtain ⟨hp, hn⟩ := List.nodup_cons.1 hn
    rw [List.map_cons, List.foldl_cons, applyReport_eq, ih hn, State.setTank_tank]
    by_cases hi : p.1 = i
    · subst hi
      have hrest : rest.find? (fun q => decide (q.1 = p.1)) = none :=
        List.find?_eq_none.2 fun q hq h => hp (of_decide_eq_true h ▸ List.mem_map_of_mem hq)
      rw [List.find?_cons_of_pos (by simp), hrest]
      simp
    · rw [List.find?_cons_of_neg (by simpa using hi), if_neg (Ne.symm hi)]

/-- Reports of defined tanks, none twice, pass R36. -/
theorem gaugeAdmitted_spell {s : State} {reports : List (Fin 8 × Word32)} (hn : (reports.map Prod.fst).Nodup)
    (hd : ∀ p ∈ reports, (s.tank p.1).definition ≠ none) : gaugeAdmitted s (reports.map spellReport) = true := by
  have hall : (reports.map spellReport).all (fun g => (gaugeTank s g).isSome) = true := by
    rw [List.all_map, List.all_eq_true]
    intro p hp
    rw [Function.comp_apply, gaugeTank_spell, Option.isSome_map]
    exact Option.isSome_iff_ne_none.2 (hd p hp)
  have hinj : Function.Injective fun i : Fin 8 => oct i.val := by decide
  have htank : (reports.map spellReport).map GaugeEntry.tank = (reports.map Prod.fst).map fun i => oct i.val := by
    simp [List.map_map, Function.comp_def, spellReport]
  have hnodup : ((reports.map spellReport).map GaugeEntry.tank).Nodup := by
    rw [htank, List.nodup_map_iff hinj]
    exact hn
  unfold gaugeAdmitted
  rw [hall, decide_eq_true hnodup]
  rfl

theorem any_spellReport (reports : List (Fin 8 × Word32)) (i : Fin 8) :
    ((reports.map spellReport).any fun g => g.tank == oct i.val) = reports.any fun p => decide (p.1 = i) := by
  have hinj : ∀ j : Fin 8, (oct j.val == oct i.val) = decide (j = i) := by revert i; decide
  rw [List.any_map]
  exact congrArg reports.any (funext fun p => hinj p.1)

theorem any_reportClamped (s : State) (reports : List (Fin 8 × Word32)) :
    (reports.map spellReport).any (reportClamped s) =
      reports.any fun p => (s.tank p.1).definition.any fun d => decide (d.capacity < p.2.toNat) := by
  rw [List.any_map]
  refine congrArg reports.any (funext fun p => ?_)
  rw [Function.comp_apply, reportClamped, gaugeTank_spell]
  cases (s.tank p.1).definition <;> rfl

/-! ### GAUGE -/

/-- GAUGE with reports that R36 admits (R37). -/
theorem takeGauge_accepted {e : Event} {entries : List GaugeEntry} (hs : e.s.ret.transfer.state ≠ .vacant)
    (ha : gaugeAdmitted e.s entries = true) : takeGauge entries e =
      ((evalTanks (fun i => entries.any fun g => g.tank == oct i.val)
          (e.mod fun s => entries.foldl applyReport s)).mod recompute,
        { result := if entries.any (reportClamped e.s) then .clamped else .ok, data := [oct entries.length] }) := by
  rw [takeGauge, if_neg hs, if_neg (by simp [ha])]

/-- Settles O15: the two refusals, then the reports, the evaluation and P. -/
theorem gaugeReportsTanks : Obligations.GaugeReportsTanks := by
  refine ⟨fun s tag entries ht h1 h8 => ?_, fun s tag reports ht h1 h8 hs hn hd => ?_⟩
  · have hf : requestOf (.gauge .ship tag entries) = some (.ship, .gauge, tag, true) := by simp [requestOf, h1, h8]
    refine ⟨fun hv => exec_refused hf ht (if_pos hv), fun hv hbad => exec_refused hf ht ?_⟩
    exact (if_neg hv).trans (if_pos (gaugeAdmitted_eq_false (s := s.opened .ship) hbad))
  · have hf : requestOf (.gauge .ship tag (reports.map spellReport)) = some (.ship, .gauge, tag, true) := by
      simp [requestOf, h1, h8]
    refine ⟨((reports.map spellReport).foldl applyReport (s.opened .ship).begin.s).ret.tanks, fun i => ?_, ?_⟩
    · refine (applyReports_tank hn (s.opened .ship).begin.s i).trans ?_
      show (match reports.find? fun p => decide (p.1 = i) with
        | some p => (s.tank i).reported p.2
        | none => s.tank i) = _
      cases reports.find? fun p => decide (p.1 = i) with
      | none => rfl
      | some p =>
        cases hdef : (s.tank i).definition with
        | none => exact Tank.reported_none hdef p.2
        | some d => exact Tank.reported_some hdef p.2
    · have ha := gaugeAdmitted_spell (s := (s.opened .ship).begin.s) hn hd
      refine (exec_replied hf ht (takeGauge_accepted (e := (s.opened .ship).begin) hs ha)).trans ?_
      have hreported : (s.opened .ship).begin.mod (fun u => (reports.map spellReport).foldl applyReport u) =
          (s.opened .ship).begin.mod fun u => { u with
            ret.tanks := ((reports.map spellReport).foldl applyReport (s.opened .ship).begin.s).ret.tanks } :=
        congrArg (fun u => ({ (s.opened .ship).begin with s := u } : Event)) (applyReports_eq reports _)
      rw [hreported, funext (any_spellReport reports), any_reportClamped, List.length_map]
      rfl

end Sys2Proof.Machine
end

