-- ==== Sys2Proof/Proofs/Definitions.lean ====
section
/-! TANKDEF (R32 to R35) and STAGEDEF (R50, R51). -/

namespace Sys2Proof.Machine

/-! ### What TANKDEF looks at (R33, R34) -/

theorem activeNames_eq (s : State) (i : Fin 8) : s.activeNames i = s.ret.active.any fun r => r.names i := by
  unfold State.activeNames
  cases s.ret.active <;> rfl

theorem flowing_eq (d : DeliveryState) : d.flowing = (d matches .opening | .pumping | .rundown) := by
  cases d <;> rfl

theorem redefine_eq (t : Tank) (d : TankDef) : t.redefine d =
    if t.definition = none then { coldTank with definition := some d }
    else { t with definition := some d, contents := t.contents.map fun v => min v d.capacity } := by
  unfold Tank.redefine
  cases t.definition <;> rfl

theorem clampTankDef_eq_raw {c : TankContent} : clampTankDef c = rawTankDef c ↔
    (clampTankDef c).capacity = c.capacity.toNat ∧ (clampTankDef c).high = c.high.toNat ∧
      (clampTankDef c).trip = c.trip.toNat := by
  rw [rawTankDef, ← TankDef.mk.injEq]

/-! ### TANKDEF (R32 to R35) -/

section Tankdef

variable {index : Byte} {c : TankContent} {e : Event} {i : Fin 8}

theorem takeTankdef_outside (h : 8 ≤ index.toNat) : takeTankdef index c e = refuse e .range := by
  have hi : index? 8 index.toNat = none := dif_neg (by omega)
  rw [takeTankdef, hi]

theorem takeTankdef_at (c : TankContent) (e : Event) (i : Fin 8) : takeTankdef (oct i.val) c e =
    if c.flag = 0#8 then undefineTank i e else defineTank i c e := by
  rw [takeTankdef, index?_oct]

/-- The answer to a definition: OK when no value was clamped (R32). -/
def definedResult (c : TankContent) : Result := if clampTankDef c = rawTankDef c then .ok else .clamped

/-- A tank takes a definition that R33 does not refuse, and is evaluated (R35). -/
theorem defineTank_accepted
    (h33 : ¬(inDelivery e.s i && (e.s.tank i).definition.any fun o => raisesLevels o (clampTankDef c)) = true)
    (hnew : ¬(clampTankDef c = rawTankDef c ∧ (e.s.tank i).definition = some (clampTankDef c))) :
    defineTank i c e = ((evalTank i (e.mod fun s => s.setTank i ((s.tank i).redefine (clampTankDef c)))).mod recompute,
      answer (definedResult c)) := by
  unfold defineTank
  dsimp only
  rw [if_neg h33, if_neg hnew]
  rfl

/-- TANKDEF with the flag set, its checks in their order (R32, R33, R35). -/
theorem exec_defineTank {s : State} {tag : Byte} (ht : s.canTake .ship .tankdef)
    (ho : ownerOf (.tankdef .ship tag index c) (s.opened .ship).begin = defineTank i c (s.opened .ship).begin) :
    exec (.tankdef .ship tag index c) s = .next
      (if (inDelivery (s.opened .ship) i &&
          (s.tank i).definition.any fun o => raisesLevels o (clampTankDef c)) = true then
        s.refused .ship .tankdef tag .wrongState
      else if clampTankDef c = rawTankDef c ∧ (s.tank i).definition = some (clampTankDef c) then
        s.refused .ship .tankdef tag .unchanged
      else
        ((evalTank i ((s.opened .ship).begin.mod fun u =>
            u.setTank i ((s.tank i).redefine (clampTankDef c)))).mod recompute).reply .ship
          (replyFrame .tankdef tag (definedResult c) [])) := by
  split_ifs with h33 hunchanged
  · exact exec_refused rfl ht (ho.trans (if_pos h33))
  · exact exec_refused rfl ht (ho.trans ((if_neg h33).trans (if_pos hunchanged)))
  · rw [exec_replied rfl ht (ho.trans (defineTank_accepted h33 hunchanged))]
    rfl

end Tankdef

/-- Settles O16: the index, then the checks of each flag in their order. -/
theorem tankdefDefinesTank : Obligations.TankdefDefinesTank := by
  intro s tag index c ht names
  refine ⟨fun h => exec_refused rfl ht (takeTankdef_outside h), fun i hi => ?_⟩
  subst hi
  refine ⟨fun hflag => ?_, fun hflag => ?_⟩
  · have ho : ownerOf (.tankdef .ship tag (oct i.val) c) (s.opened .ship).begin =
        undefineTank i (s.opened .ship).begin := (takeTankdef_at ..).trans (if_pos hflag)
    by_cases hdef : (s.tank i).definition = none
    · rw [if_pos hdef]
      exact exec_refused rfl ht (ho.trans (if_pos hdef))
    · rw [if_neg hdef]
      by_cases hbusy : (s.ret.proposed ++ s.ret.agreed ++ s.ret.active.toList ++ s.ret.done).any (names i) = true
      · rw [if_pos hbusy]
        exact exec_refused rfl ht (ho.trans ((if_neg hdef).trans (if_pos hbusy)))
      · rw [if_neg hbusy]
        exact exec_replied rfl ht (ho.trans ((if_neg hdef).trans (if_neg hbusy)))
  · intro high d asked
    have ho : ownerOf (.tankdef .ship tag (oct i.val) c) (s.opened .ship).begin =
        defineTank i c (s.opened .ship).begin := (takeTankdef_at ..).trans (if_neg hflag)
    have hasked : asked = true ↔ clampTankDef c = rawTankDef c := decide_eq_true_iff.trans clampTankDef_eq_raw.symm
    refine (exec_defineTank ht ho).trans (congrArg Host.Outcome.next ?_)
    refine if_congr ?_ rfl (if_congr ?_ rfl ?_)
    · rw [inDelivery, activeNames_eq, flowing_eq]
      rfl
    · rw [Bool.and_eq_true, hasked, decide_eq_true_iff]
      rfl
    · have hresult : definedResult c = if asked = true then .ok else .clamped := if_congr hasked.symm rfl rfl
      rw [hresult, redefine_eq]
      rfl

/-! ### STAGEDEF (R50, R51) -/

theorem inputOfCode_inputCode (input : StageInput) : inputOfCode (inputCode input) = some input := by
  cases input with
  | tankFill => rfl
  | role r => cases r <;> rfl

theorem modeOfCode_modeCode (mode : StageMode) : modeOfCode (modeCode mode) = some mode := by
  cases mode <;> rfl

theorem inputOfCode_above {b : Byte} (h : 3 < b.toNat) : inputOfCode b = none := by
  refine List.find?_eq_none.2 fun input _ hb => ?_
  have hle : (inputCode input).toNat ≤ 3 := by
    cases input with
    | tankFill => decide
    | role r => cases r <;> decide
  rw [eq_of_beq hb] at hle
  omega

theorem modeOfCode_above {b : Byte} (h : 1 < b.toNat) : modeOfCode b = none := by
  refine List.find?_eq_none.2 fun mode _ hb => ?_
  have hle : (modeCode mode).toNat ≤ 1 := by cases mode <;> decide
  rw [eq_of_beq hb] at hle
  omega

section Stagedef

variable {index : Byte} {c : StageContent} {e : Event}

theorem takeStagedef_range (h : 4 ≤ index.toNat ∨ 3 < c.input.toNat ∨ 1 < c.mode.toNat) :
    takeStagedef index c e = refuse e .range := by
  unfold takeStagedef
  rcases h with h | h | h
  · have hi : index? 4 index.toNat = none := dif_neg (by omega)
    rw [hi]
  · rw [inputOfCode_above h]
    cases index? 4 index.toNat <;> rfl
  · rw [modeOfCode_above h]
    cases index? 4 index.toNat <;> cases inputOfCode c.input <;> rfl

/-- STAGEDEF with an index and codes in range (R50). -/
theorem takeStagedef_at {j : Fin 4} {input : StageInput} {mode : StageMode} (hj : index = oct j.val)
    (hi : c.input = inputCode input) (hm : c.mode = modeCode mode) : takeStagedef index c e =
      let st := clampStage c input mode
      let same := decide ({ st with instrumentEngaged := (e.s.stage j).instrumentEngaged } = e.s.stage j)
      (if same then e else e.mod fun s => recompute (applyStage j st s),
        answer (if stageClamped c st then .clamped else if same then .unchanged else .ok)) := by
  have hindex : index? 4 (oct j.val).toNat = some j := by
    rw [index?_eq_some, oct_toNat]
    omega
  rw [takeStagedef, hj, hi, hm, hindex, inputOfCode_inputCode, modeOfCode_modeCode]

end Stagedef

/-- Settles O17: the range checks, then the entry that stands and the entry that is new. -/
theorem stagedefSetsStage : Obligations.StagedefSetsStage := by
  intro s tag index c ht
  refine ⟨fun h => exec_refused rfl ht (takeStagedef_range h), fun j input mode hj hi hm => ?_⟩
  intro enter leave k clamped st
  have ho : ownerOf (.stagedef .ship tag index c) (s.opened .ship).begin = _ := takeStagedef_at hj hi hm
  have hst : { clampStage c input mode with instrumentEngaged := (s.stage j).instrumentEngaged } = st := by
    cases input with
    | tankFill => rfl
    | role r => cases r <;> rfl
  have hclamped : stageClamped c (clampStage c input mode) = clamped := by
    cases input with
    | tankFill => rfl
    | role r => cases r <;> rfl
  dsimp only at ho
  rw [hclamped] at ho
  by_cases hsame : st = s.stage j
  · have hs : decide ({ clampStage c input mode with
        instrumentEngaged := ((s.opened .ship).begin.s.stage j).instrumentEngaged } =
        (s.opened .ship).begin.s.stage j) = true := decide_eq_true (hst.trans hsame)
    rw [hs] at ho
    rw [if_pos hsame]
    exact exec_refused rfl ht ho
  · have hs : decide ({ clampStage c input mode with
        instrumentEngaged := ((s.opened .ship).begin.s.stage j).instrumentEngaged } =
        (s.opened .ship).begin.s.stage j) = false := decide_eq_false fun h => hsame (hst.symm.trans h)
    rw [hs] at ho
    rw [if_neg hsame, exec_replied rfl ht ho]
    cases input with
    | tankFill => rfl
    | role r => cases r <;> rfl

end Sys2Proof.Machine
end

