-- ==== Sys2Proof/Proofs/ReportAging.lean ====
section
/-! The gauge status of a report by its age (R42, R44): one tank, several in turn, and the reports that pass a limit. -/

namespace Sys2Proof.Machine

/-! ### One tank's status (R42) -/

/-- A tank with the status its age gives (R42). -/
def Tank.aged (t : Tank) (stale : Nat) : Tank := { t with status := t.agedStatus stale }

theorem agedStatus_eq (t : Tank) (stale : Nat) : t.agedStatus stale =
    if t.contents = none then .none
    else if t.age ≤ stale * 10 then .fresh else if t.age ≤ stale * 20 then .stale else .lost := by
  unfold Tank.agedStatus
  cases t.contents <;> rfl

theorem agedStatus_eq_stale {t : Tank} {stale : Nat} : t.agedStatus stale = .stale ↔
    t.contents ≠ none ∧ stale * 10 < t.age ∧ t.age ≤ stale * 20 := by
  rw [agedStatus_eq]
  split_ifs with hc h10 h20
  · simp [hc]
  · simp only [false_iff]; omega
  · simp [hc, Nat.not_le.1 h10, h20]
  · simp only [false_iff]; omega

theorem agedStatus_eq_lost {t : Tank} {stale : Nat} : t.agedStatus stale = .lost ↔
    t.contents ≠ none ∧ stale * 10 < t.age ∧ stale * 20 < t.age := by
  rw [agedStatus_eq]
  split_ifs with hc h10 h20
  · simp [hc]
  · simp only [false_iff]; omega
  · simp only [false_iff]; omega
  · simp [hc, Nat.not_le.1 h10, Nat.not_le.1 h20]

theorem watching_eq (d : DeliveryState) : d.watching = (d matches .armed | .opening | .pumping | .rundown) := by
  cases d <;> rfl

/-- The LEVEL of a tank that takes a status: its estimate and fill as they stand (R48). -/
def ageNotice (t : Tank) (i : Fin 8) (kind : LevelKind) (status : GaugeStatus) : Notice :=
  levelNotice i kind (t.estimate.getD 0) (t.fill.getD 0) status

theorem levelOf_status (s : State) (i : Fin 8) (t : Tank) (kind : LevelKind) (status : GaugeStatus) :
    levelOf (s.setTank i { t with status := status }) i kind = ageNotice t i kind status := by
  rw [levelOf, State.setTank_tank_same]
  rfl

/-- What a tank's status does when it takes the value its age gives, by that value (R42, R44). -/
def ageTo (watched : Fin 8 → Bool) (i : Fin 8) (t : Tank) (e : Event) : GaugeStatus → Event
  | .none => e.mod fun u => u.setTank i { t with status := .none }
  | .fresh => e.mod fun u => u.setTank i { t with status := .fresh }
  | .stale => (e.mod fun u => u.setTank i { t with status := .stale }).note (ageNotice t i .stale .stale)
  | .lost =>
    let lost := (e.mod fun u => u.setTank i { t with status := .lost }).note (ageNotice t i .lost .lost)
    if watched i then raiseHold .overfill .trip (.gaugeLost i) lost else lost

theorem restatus_eq {watched : Fin 8 → Bool} {i : Fin 8} {e : Event} {t : Tank} {stale : Nat} (ht : e.s.tank i = t)
    (hs : e.s.ret.settings.stale = stale) : restatus watched i e =
      if t.status = t.agedStatus stale then e else ageTo watched i t e (t.agedStatus stale) := by
  unfold restatus
  rw [ht, hs]
  dsimp only [Event.mod]
  refine if_congr Iff.rfl rfl ?_
  cases t.agedStatus stale with
  | none => rfl
  | fresh => rfl
  | stale =>
    dsimp only
    rw [levelOf_status]
    rfl
  | lost =>
    dsimp only
    rw [levelOf_status]
    rfl

theorem ageTo_settings (watched : Fin 8 → Bool) (i : Fin 8) (t : Tank) (e : Event) (status : GaugeStatus) :
    (ageTo watched i t e status).s.ret.settings = e.s.ret.settings := by
  cases status with
  | lost =>
    simp only [ageTo]
    split <;> simp [Event.note]
  | _ => rfl

theorem ageTo_tank (watched : Fin 8 → Bool) (i j : Fin 8) (t : Tank) (e : Event) (status : GaugeStatus) :
    (ageTo watched i t e status).s.tank j = if j = i then { t with status := status } else e.s.tank j := by
  cases status with
  | lost =>
    simp only [ageTo]
    split <;> simp [Event.note, State.setTank_tank]
  | _ => exact State.setTank_tank ..

section Restatus

variable (watched : Fin 8 → Bool) (i : Fin 8) (e : Event)

@[simp] theorem restatus_settings : (restatus watched i e).s.ret.settings = e.s.ret.settings := by
  rw [restatus_eq rfl rfl]
  split
  · rfl
  · exact ageTo_settings ..

/-- The tank takes its status; the others keep theirs. -/
theorem restatus_tank (j : Fin 8) : (restatus watched i e).s.tank j =
    if j = i then (e.s.tank i).aged e.s.ret.settings.stale else e.s.tank j := by
  rw [restatus_eq rfl rfl]
  split
  · next h =>
    have haged : (e.s.tank i).aged e.s.ret.settings.stale = e.s.tank i := by rw [Tank.aged, ← h]
    by_cases hj : j = i
    · rw [if_pos hj, haged, hj]
    · rw [if_neg hj]
  · exact ageTo_tank ..

end Restatus

/-! ### Several tanks in turn (R42, R44) -/

/-- The statuses of the tanks of a list, in its order. -/
def restatusEach (watched : Fin 8 → Bool) (l : List (Fin 8)) (e : Event) : Event :=
  l.foldl (fun e' i => restatus watched i e') e

theorem restatusEach_settings (watched : Fin 8 → Bool) (l : List (Fin 8)) (e : Event) :
    (restatusEach watched l e).s.ret.settings = e.s.ret.settings := by
  induction l generalizing e with
  | nil => rfl
  | cons i rest ih => exact (ih _).trans (restatus_settings watched i e)

/-- Each tank of a list that names none twice takes the status its age gives. -/
theorem restatusEach_tank {watched : Fin 8 → Bool} {l : List (Fin 8)} (hn : l.Nodup) (e : Event) (j : Fin 8) :
    (restatusEach watched l e).s.tank j =
      if j ∈ l then (e.s.tank j).aged e.s.ret.settings.stale else e.s.tank j := by
  induction l generalizing e with
  | nil => rfl
  | cons i rest ih =>
    obtain ⟨hi, hn⟩ := List.nodup_cons.1 hn
    refine (ih hn (restatus watched i e)).trans ?_
    rw [restatus_settings, restatus_tank]
    by_cases hj : j = i
    · subst hj
      simp [hi]
    · simp [hj]

/-- Tanks taken in turn are each found as the event found them, so that a step may be given tank by tank. -/
theorem restatusEach_congr {watched : Fin 8 → Bool} {f : Event → Fin 8 → Event} {s : State} {stale : Nat}
    {l : List (Fin 8)} (hn : l.Nodup)
    (hf : ∀ j ∈ l, ∀ e, e.s.tank j = s.tank j → e.s.ret.settings.stale = stale → restatus watched j e = f e j)
    (e : Event) (ht : ∀ j ∈ l, e.s.tank j = s.tank j) (hs : e.s.ret.settings.stale = stale) :
    restatusEach watched l e = l.foldl f e := by
  induction l generalizing e with
  | nil => rfl
  | cons i rest ih =>
    obtain ⟨hi, hn⟩ := List.nodup_cons.1 hn
    have hstep := hf i List.mem_cons_self e (ht i List.mem_cons_self) hs
    rw [List.foldl_cons, ← hstep]
    refine ih hn (fun j hj => hf j (List.mem_cons_of_mem i hj)) _ (fun j hj => ?_) ?_
    · have hji : j ≠ i := fun h => hi (h ▸ hj)
      rw [restatus_tank, if_neg hji]
      exact ht j (List.mem_cons_of_mem i hj)
    · rw [restatus_settings]
      exact hs

/-! ### Reports past their limits (R42, R44) -/

theorem staleDue_eq {s : State} {i : Fin 8} (hc : (s.tank i).contents ≠ none) : staleDue s i = true ↔
    (s.tank i).status = .fresh ∧ s.ret.settings.stale * 10 < (s.tank i).age ∧
      (s.tank i).age ≤ s.ret.settings.stale * 20 := by
  rw [staleDue, decide_eq_true_iff, agedStatus_eq_stale]
  exact and_congr_right fun _ => and_iff_right hc

theorem lostDue_eq (s : State) (i : Fin 8) : lostDue s i =
    ((s.tank i).contents.isSome && decide ((s.tank i).status ≠ .lost) &&
      decide (s.ret.settings.stale * 10 < (s.tank i).age) && decide (s.ret.settings.stale * 20 < (s.tank i).age)) := by
  rw [Bool.eq_iff_iff, lostDue, decide_eq_true_iff, agedStatus_eq_lost]
  simp only [Bool.and_eq_true, decide_eq_true_iff, Option.isSome_iff_ne_none]
  tauto

/-- Settles O18: the one report that becomes STALE, then those that are LOST together, tank by tank. -/
theorem reportAgesPastLimit : Obligations.ReportAgesPastLimit := by
  intro s i v hr hc limit level due lose
  have hdue : due = lostDue s := (funext (lostDue_eq s)).symm
  constructor
  · have hstale := staleDue_eq (s := s) (i := i) (by rw [hc]; exact Option.some_ne_none v)
    show execReportStale i s = _
    unfold execReportStale
    by_cases h : staleDue s i = true
    · have hage : (s.tank i).agedStatus s.ret.settings.stale = .stale := (of_decide_eq_true h).2
      have hne : ¬(s.tank i).status = .stale := by rw [(hstale.1 h).1]; decide
      rw [if_pos h, if_pos (hstale.1 h), event_running hr,
        restatus_eq (t := s.tank i) (stale := s.ret.settings.stale) rfl rfl, hage]
      dsimp only
      rw [if_neg hne]
      rfl
    · rw [if_neg h, if_neg (mt hstale.2 h)]
  · show execReportLost i s = _
    unfold execReportLost
    rw [hdue]
    by_cases h : lostDue s i = true
    · rw [if_pos h, if_pos h, event_running hr]
      have hturn : restatusAll (lostDue s) s.begin = (allTanks.filter (lostDue s)).foldl lose s.begin := by
        refine restatusEach_congr (s := s) (stale := limit) (List.Nodup.filter _ (by decide)) (fun j hj e ht hs => ?_) _
          (fun _ _ => rfl) rfl
        obtain ⟨hne, hage⟩ := of_decide_eq_true (List.mem_filter.1 hj).2
        rw [restatus_eq ht hs, hage, if_neg hne]
        simp only [ageTo, lose, Event.mod, ht, State.watches, activeNames_eq, watching_eq]
        rfl
      rw [hturn]
      rfl
    · rw [if_neg h, if_neg h]

end Sys2Proof.Machine
end

