-- ==== Sys2Proof/Proofs/SetTimes.lean ====
section
/-! SET of the timer settings, of W, of NO-FLOW and of S (R42, R44, R127, R128, R170, R171, R175). -/

namespace Sys2Proof.Machine

/-! ### SET of a number (R171) -/

/-- The reply to a SET of a number that changes no other setting (R196). -/
def setFrame (tag code index : Byte) (v : Nat) (res : Result) : Frame :=
  replyFrame .set tag res ([code, index] ++ le2 v ++ [0#8])

theorem setResult_unchanged {asked taken standing : Nat} :
    setResult asked taken standing = .unchanged ↔ taken = asked ∧ taken = standing := by
  unfold setResult
  split_ifs with h1 h2
  · simp [h1]
  · simp [not_not.1 h1, ← h2]
  · simp [h2]

theorem setResult_changed {asked taken standing : Nat} (h : ¬(taken = asked ∧ taken = standing)) :
    setResult asked taken standing = if taken = asked then .ok else .clamped := by
  unfold setResult
  by_cases ha : taken = asked
  · rw [if_neg (not_not.2 ha), if_neg fun hs => h ⟨ha, hs⟩, if_pos ha]
  · rw [if_pos ha, if_neg ha]

section Set

variable {c : Instr} {link : Station} {tag code index : Byte} {s : State} {asked taken standing : Nat}

/-- A SET answered by its owner: the value that stands is UNCHANGED, any other is taken (R171). -/
theorem exec_set {e' : Event} (h : requestOf c = some (link, .set, tag, true)) (ht : s.canTake link .set)
    (ho : ownerOf c (s.opened link).begin =
      (if setResult asked taken standing = .unchanged then (s.opened link).begin else e',
        { result := setResult asked taken standing, data := setReply code index (le2 taken) [] })) :
    exec c s = .next
      (if taken = asked ∧ taken = standing then
        (s.opened link).queueReply link (setFrame tag code index taken .unchanged)
      else e'.reply link (setFrame tag code index taken (if taken = asked then .ok else .clamped))) := by
  rw [exec_replied h ht ho]
  by_cases hu : taken = asked ∧ taken = standing
  · rw [if_pos hu, setResult_unchanged.2 hu, if_pos rfl, Event.reply, State.begin_notices]
    rfl
  · rw [if_neg hu, if_neg (mt setResult_unchanged.1 hu), setResult_changed hu]
    rfl

/-- A SET that changes a setting and nothing that causes a notice (R171, R175). -/
theorem exec_setQuiet {f : State → State} (h : requestOf c = some (link, .set, tag, true)) (ht : s.canTake link .set)
    (hd : (f (s.opened link)).ret.delivery = s.ret.delivery)
    (ho : ownerOf c (s.opened link).begin =
      (if setResult asked taken standing = .unchanged then (s.opened link).begin else (s.opened link).begin.mod f,
        { result := setResult asked taken standing, data := setReply code index (le2 taken) [] })) :
    exec c s = .next
      (if taken = asked ∧ taken = standing then
        (s.opened link).queueReply link (setFrame tag code index taken .unchanged)
      else (f (s.opened link)).queueReply link
        (setFrame tag code index taken (if taken = asked then .ok else .clamped))) := by
  rw [exec_set h ht ho, Event.reply, Event.notices_eq_notes hd.symm rfl rfl]
  rfl

end Set

/-! ### POLL (R146) -/

theorem pollOfCode_pollCode (p : PollCycle) : pollOfCode (pollCode p) = some p := by cases p <;> rfl

theorem pollOfCode_above {v : Nat} (h : 4 < v) : pollOfCode v = none := by
  refine List.find?_eq_none.2 fun p _ hp => ?_
  have hle : pollCode p ≤ 4 := by cases p <;> decide
  rw [eq_of_beq hp] at hle
  omega

theorem takeSetTimer_taken {which : TimerSetting} {index : Byte} {value : Word16} {e : Event} {v : Nat}
    (h : clampTimer which value.toNat = some v) : takeSetTimer .barge which index value e =
      (if setResult value.toNat v (e.s.ret.settings.timer which) = .unchanged then e else e.mod (applyTimer which v),
        { result := setResult value.toNat v (e.s.ret.settings.timer which),
          data := setReply (timerCode which) index (le2 v) [] }) := by
  rw [takeSetTimer, if_neg (by decide), h]

theorem applyTimer_delivery (which : TimerSetting) (v : Nat) (s : State) :
    (applyTimer which v s).ret.delivery = s.ret.delivery := by
  unfold applyTimer
  dsimp only
  split <;> rfl

/-- SET of a timer setting by its owner (R171, R175). -/
theorem exec_setTimer {which : TimerSetting} {tag index : Byte} {value : Word16} {s : State} {v : Nat}
    (ht : s.canTake .barge .set) (h : clampTimer which value.toNat = some v) :
    exec (.setTimerSetting .barge tag which index value) s = .next
      (if v = value.toNat ∧ v = s.ret.settings.timer which then
        (s.opened .barge).queueReply .barge (setFrame tag (timerCode which) index v .unchanged)
      else (applyTimer which v (s.opened .barge)).queueReply .barge
        (setFrame tag (timerCode which) index v (if v = value.toNat then .ok else .clamped))) :=
  exec_setQuiet rfl ht (applyTimer_delivery ..) (takeSetTimer_taken h)

/-! ### S (R42, R44) -/

/-- An event with other tanks, and nothing else changed. -/
def Event.withTanks (e : Event) (v : Vector Tank 8) : Event := e.mod fun u => { u with ret.tanks := v }

/-- Whether a tank takes its status without a notice: it has it already, or becomes FRESH or NONE (R42). -/
def Tank.agesSilently (t : Tank) (stale : Nat) : Prop :=
  t.agedStatus stale = t.status ∨ t.agedStatus stale = .fresh ∨ t.agedStatus stale = .none

theorem restatus_silent {watched : Fin 8 → Bool} {i : Fin 8} {e : Event}
    (hq : (e.s.tank i).agesSilently e.s.ret.settings.stale) : ∃ v, restatus watched i e = e.withTanks v := by
  rw [restatus_eq rfl rfl]
  rcases hq with h | h | h
  · rw [if_pos h.symm]
    exact ⟨e.s.ret.tanks, rfl⟩
  all_goals
    rw [h]
    split
    · exact ⟨e.s.ret.tanks, rfl⟩
    · exact ⟨_, rfl⟩

/-- Tanks none of which becomes STALE or LOST take their statuses without a notice (R42). -/
theorem restatusEach_silent {watched : Fin 8 → Bool} {l : List (Fin 8)} (hn : l.Nodup) {e : Event}
    (hq : ∀ j ∈ l, (e.s.tank j).agesSilently e.s.ret.settings.stale) :
    ∃ v, restatusEach watched l e = e.withTanks v := by
  induction l generalizing e with
  | nil => exact ⟨e.s.ret.tanks, rfl⟩
  | cons i rest ih =>
    obtain ⟨hi, hn⟩ := List.nodup_cons.1 hn
    obtain ⟨v, hv⟩ := restatus_silent (watched := watched) (hq i List.mem_cons_self)
    obtain ⟨w, hw⟩ := ih hn (e := restatus watched i e) fun j hj => by
      have hji : j ≠ i := fun h => hi (h ▸ hj)
      rw [restatus_tank, if_neg hji, restatus_settings]
      exact hq j (List.mem_cons_of_mem i hj)
    refine ⟨w, hw.trans ?_⟩
    rw [hv]
    rfl

/-- Two tables of tanks with the same tanks. -/
theorem tanks_ext {v w : Vector Tank 8} (h : ∀ i, at' v i = at' w i) : v = w :=
  Vector.ext fun k hk => h ⟨k, hk⟩

/-- All tanks take their statuses, none becoming STALE or LOST (R42). -/
theorem restatusAll_silent {e : Event} (hq : ∀ j, (e.s.tank j).agesSilently e.s.ret.settings.stale)
    (watched : Fin 8 → Bool) :
    restatusEach watched allTanks e =
      e.withTanks (mapTable (fun t => t.aged e.s.ret.settings.stale) e.s.ret.tanks) := by
  obtain ⟨v, hv⟩ := restatusEach_silent (watched := watched) (l := allTanks) (by decide) fun j _ => hq j
  have htanks : v = mapTable (fun t => t.aged e.s.ret.settings.stale) e.s.ret.tanks := tanks_ext fun i => by
    have htank := restatusEach_tank (watched := watched) (l := allTanks) (by decide) e i
    rw [hv, if_pos (mem_allTanks i)] at htank
    rw [at'_mapTable]
    exact htank
  rw [hv, htanks]

/-- SET of S by its owner (R42, R171). -/
theorem exec_setS {tag index : Byte} {value : Word16} {s : State} (ht : s.canTake .ship .set) :
    exec (.setS .ship tag index value) s = .next
      (if clamp 10 600 value.toNat = value.toNat ∧ clamp 10 600 value.toNat = s.ret.settings.stale then
        (s.opened .ship).queueReply .ship (setFrame tag 0x11#8 index (clamp 10 600 value.toNat) .unchanged)
      else (applyStale (clamp 10 600 value.toNat) (s.opened .ship).begin).reply .ship
        (setFrame tag 0x11#8 index (clamp 10 600 value.toNat)
          (if clamp 10 600 value.toNat = value.toNat then .ok else .clamped))) :=
  exec_set (c := .setS .ship tag index value) rfl ht rfl

/-- The event of a request that finds another stale limit (R42). -/
def State.staleSet (s : State) (v : Nat) : Event :=
  (s.opened .ship).begin.mod fun u => { u with ret.settings.stale := v }

theorem applyStale_eq (v : Nat) (s : State) : applyStale v (s.opened .ship).begin =
    (restatusEach (s.staleSet v).s.watches allTanks (s.staleSet v)).mod recompute := rfl

/-- What a SET of S leaves of the settings and the tanks (R42). -/
theorem applyStale_keeps (v : Nat) (s : State) (f : Frame) :
    ((applyStale v (s.opened .ship).begin).reply .ship f).ret.settings = { s.ret.settings with stale := v } ∧
      ∀ i, ((applyStale v (s.opened .ship).begin).reply .ship f).tank i = (s.tank i).aged v := by
  have hsettings := restatusEach_settings (s.staleSet v).s.watches allTanks (s.staleSet v)
  have htank (i : Fin 8) := restatusEach_tank (watched := (s.staleSet v).s.watches) (l := allTanks) (by decide)
    (s.staleSet v) i
  rw [applyStale_eq]
  generalize restatusEach (s.staleSet v).s.watches allTanks (s.staleSet v) = aged at hsettings htank
  obtain ⟨ls, hls⟩ := (aged.mod recompute).reply_eq .ship f
  rw [hls]
  refine ⟨(recompute_settings aged.s).trans hsettings, fun i => ?_⟩
  refine (congrArg (fun w => at' w i) (recompute_tanks aged.s)).trans ((htank i).trans ?_)
  rw [if_pos (mem_allTanks i)]
  rfl

theorem takeSetNoFlow_survey (index : Byte) (value : Word16) (e : Event) : takeSetNoFlow .survey index value e =
    (if setResult value.toNat (clamp 5 120 value.toNat) e.s.ret.settings.noFlow = .unchanged then e
      else e.mod fun s => { s with ret.settings.noFlow := clamp 5 120 value.toNat },
      { result := setResult value.toNat (clamp 5 120 value.toNat) e.s.ret.settings.noFlow,
        data := setReply 0x13#8 index (le2 (clamp 5 120 value.toNat)) [] }) := rfl

theorem takeSetW_opened {index : Byte} {value : Word16} {e : Event}
    (h : e.s.ret.transfer.state = .opened ∨ e.s.ret.transfer.state = .joined) :
    takeSetW .survey index value e = refuse e .wrongState := if_pos h

theorem takeSetW_survey {index : Byte} {value : Word16} {e : Event}
    (h : ¬(e.s.ret.transfer.state = .opened ∨ e.s.ret.transfer.state = .joined)) : takeSetW .survey index value e =
    (if setResult value.toNat (clamp 1 10 value.toNat) e.s.ret.settings.weight = .unchanged then e
      else e.mod fun s => { s with ret.settings.weight := clamp 1 10 value.toNat },
      { result := setResult value.toNat (clamp 1 10 value.toNat) e.s.ret.settings.weight,
        data := setReply 0x12#8 index (le2 (clamp 1 10 value.toNat)) [] }) := if_neg h

/-- Settles O46: the timer settings, W and NO-FLOW by one lemma; then S, where no tank becomes STALE or LOST,
and whole. -/
theorem setTimesWeightAndStaleLimit : Obligations.SetTimesWeightAndStaleLimit := by
  refine ⟨fun s link tag index value ht => ?_, fun s link tag index value ht => ?_⟩
  · intro t reply answers within o
    refine ⟨fun hl which => exec_refused rfl ht (if_pos hl), fun hl => ?_,
      fun hl => ⟨exec_refused rfl ht (if_pos hl), exec_refused rfl ht (if_pos hl)⟩,
      fun hl => ⟨fun hs => ?_, fun hs => ?_, ?_⟩⟩
    · subst hl
      refine ⟨exec_setTimer ht rfl, exec_setTimer ht rfl, exec_setTimer ht rfl, exec_setTimer ht rfl,
        exec_setTimer ht rfl, exec_setTimer ht rfl, exec_setTimer ht rfl, fun hv => ?_, fun p hp => ?_⟩
      · refine exec_refused rfl ht ?_
        show takeSetTimer .barge .poll index value _ = _
        rw [takeSetTimer, if_neg (by decide), clampTimer, pollOfCode_above hv]
        rfl
      · have hv : clampTimer .poll value.toNat = some (pollCode p) := by
          rw [clampTimer, hp, pollOfCode_pollCode]
          rfl
        have happly : applyTimer .poll (pollCode p) o =
            { o with ret.settings.poll := p, instruments.shortNext := false } := by
          rw [applyTimer, setTimer, pollOfCode_pollCode]
          rfl
        rw [exec_setTimer ht hv, happly]
        rfl
    · subst hl
      exact exec_refused rfl ht (takeSetW_opened hs)
    · subst hl
      have hopen : ¬(s.ret.transfer.state = .opened ∨ s.ret.transfer.state = .joined) := by
        rcases hs with hs | hs <;> rw [hs] <;> decide
      exact exec_setQuiet (c := .setW .survey tag index value) rfl ht rfl (takeSetW_survey hopen)
    · subst hl
      exact exec_setQuiet (c := .setNoFlow .survey tag index value) rfl ht rfl (takeSetNoFlow_survey ..)
  · refine ⟨fun hl => exec_refused rfl ht (if_pos hl), fun hl => ?_⟩
    subst hl
    intro v status reply
    have hstatus : status = fun tank => tank.agedStatus v := (funext fun tank => agedStatus_eq tank v).symm
    refine ⟨fun h1 h2 => (exec_setS ht).trans (congrArg _ (if_pos ⟨h1, h2⟩)), fun h => ?_⟩
    have hnew : ¬(v = value.toNat ∧ v = s.ret.settings.stale) := by tauto
    have hexec : exec (.setS .ship tag index value) s = .next ((applyStale v (s.opened .ship).begin).reply .ship
        (reply (if v = value.toNat then .ok else .clamped))) := (exec_setS ht).trans (congrArg _ (if_neg hnew))
    rw [hexec, hstatus]
    refine ⟨⟨_, rfl, applyStale_keeps v s _⟩, fun hq => ?_, ?_⟩
    · have hsilent := restatusAll_silent (e := s.staleSet v) hq (s.staleSet v).s.watches
      rw [applyStale_eq, hsilent]
      rfl
    · intro pass
      have hturn : restatusEach (s.staleSet v).s.watches allTanks (s.staleSet v) =
          allTanks.foldl pass (s.staleSet v) := by
        refine restatusEach_congr (s := s) (stale := v) (by decide) (fun j _ e htank hstale => ?_) _
          (fun _ _ => rfl) rfl
        rw [restatus_eq htank hstale]
        simp only [pass, Event.mod, htank]
        refine if_congr Iff.rfl rfl ?_
        cases (s.tank j).agedStatus v with
        | none => rfl
        | fresh => rfl
        | stale => rfl
        | lost =>
          simp only [ageTo, Event.mod, State.watches, activeNames_eq, watching_eq]
          rfl
      rw [applyStale_eq, hturn]
      rfl

end Sys2Proof.Machine
end

