-- ==== Sys2Proof/Proofs/HoldRemoval.lean ====
section
/-! RELEASE and CLEAR (R114 to R117, R122): the clearers of a source, the conditions of holds (R47, R113), and
the removal. -/

namespace Sys2Proof.Machine

/-! ### Source codes (R195) -/

theorem sourceOfCode_sourceCode (src : HoldSource) : sourceOfCode (sourceCode src) = some src := by
  cases src with
  | line n => revert n; decide
  | _ => decide

theorem sourceCode_range (src : HoldSource) : 1 ≤ (sourceCode src).toNat ∧ (sourceCode src).toNat ≤ 18 := by
  cases src with
  | line n => revert n; decide
  | _ => decide

theorem sourceOfCode_outside {b : Byte} (h : b.toNat = 0 ∨ 18 < b.toNat) : sourceOfCode b = none := by
  refine List.find?_eq_none.2 fun src _ hb => ?_
  have hrange := sourceCode_range src
  rw [eq_of_beq hb] at hrange
  omega

/-! ### The clearers (R115, R116) -/

/-- A source without an entry has the clearers of its kind; an entry alone names a LINE source's (R116, log 28). -/
theorem notClearer_none {l : List HoldEntry} {src : HoldSource} (hf : findHold l src = none) (link : Station) :
    notClearer l src link =
      match src with
      | .line _ => false
      | _ => !(HoldEntry.clearers
          { source := src, cls := .pause, reason := .lost, time := 0, repeats := 0 }).contains link := by
  unfold notClearer
  rw [hf]
  cases src <;> rfl

theorem notClearer_some {l : List HoldEntry} {src : HoldSource} {h : HoldEntry} (hf : findHold l src = some h)
    (link : Station) : notClearer l src link = !h.clearers.contains link := by
  unfold notClearer
  rw [hf]
  cases src <;> rfl

theorem clearers_line {h : HoldEntry} {n : Fin 6} {f : LineFunction} {trigger : Trigger} (hs : h.source = .line n)
    (hr : h.reason = .line f trigger) : h.clearers = f.clearers := by
  unfold HoldEntry.clearers
  rw [hs, hr]

/-- Away from the lines an entry's clearers are those of its source, whatever else it holds (R115). -/
theorem clearers_source {h k : HoldEntry} (hs : h.source = k.source) (hl : ∀ n, k.source ≠ .line n) :
    h.clearers = k.clearers := by
  unfold HoldEntry.clearers
  rw [hs]
  cases hk : k.source with
  | line n => exact absurd hk (hl n)
  | _ => rfl

/-- Away from the lines a source's clearers do not depend on the list (R115). -/
theorem notClearer_source {l : List HoldEntry} {src : HoldSource} (hl : ∀ n, src ≠ .line n) (link : Station) :
    notClearer l src link = !(HoldEntry.clearers
      { source := src, cls := .pause, reason := .lost, time := 0, repeats := 0 }).contains link := by
  cases hf : findHold l src with
  | none =>
    rw [notClearer_none hf]
    cases src with
    | line n => exact absurd rfl (hl n)
    | _ => rfl
  | some h =>
    have hs : h.source = src := (findHold_some hf).2
    rw [notClearer_some hf,
      clearers_source (k := { source := src, cls := .pause, reason := .lost, time := 0, repeats := 0 }) hs hl]

/-- The clearers of a line's function (R116). -/
theorem mem_function_clearers (f : LineFunction) (link : Station) : (!f.clearers.contains link) = false ↔
    f = .levelSwitch ∧ link = .ship ∨ (f ≠ .levelSwitch ∧ f ≠ .unused) ∧ link = .barge := by
  cases f <;> cases link <;> decide

/-! ### The conditions (R47, R113) -/

theorem overfillCondition_iff (s : State) : overfillCondition s = true ↔
    ∃ i : Fin 8, (s.tank i).definition ≠ none ∧ (s.tank i).overTrip = true ∨
      (s.tank i).status = .lost ∧ ∃ r, s.ret.active = some r ∧ ∃ e ∈ r.tanks, e.tank = i := by
  have hnames (i : Fin 8) : s.activeNames i = true ↔ ∃ r, s.ret.active = some r ∧ ∃ e ∈ r.tanks, e.tank = i := by
    rw [activeNames_eq]
    simp [Option.any_eq_true, Step.names]
  unfold overfillCondition
  rw [List.any_eq_true]
  refine ⟨fun ⟨i, _, h⟩ => ⟨i, ?_⟩, fun ⟨i, h⟩ => ⟨i, mem_allTanks i, ?_⟩⟩
  · simpa [Option.isSome_iff_ne_none, hnames, and_comm] using h
  · simpa [Option.isSome_iff_ne_none, hnames, and_comm] using h

theorem conditionPresent_line {s : State} {h : HoldEntry} {n : Fin 6} (hs : h.source = .line n) :
    conditionPresent s h = true ↔ (∃ f, h.reason = .line f .level) ∧ (s.line n).active = true := by
  unfold conditionPresent
  rw [hs]
  cases hr : h.reason with
  | line f trigger => cases trigger <;> simp
  | _ => simp

/-! ### The removal (R117, R122) -/

/-- The state once a source's entry has left the list (R117). -/
def State.unheld (s : State) (src : HoldSource) : State :=
  s.setHolds (s.ret.holds.filter fun h => decide (h.source ≠ src))

/-- The state and the reply of an accepted RELEASE or CLEAR (R117). -/
def State.removed (s : State) (link : Station) (type : RequestType) (tag : Byte) (src : HoldSource) : State :=
  ((s.opened link).unheld src).answered link type tag .ok []
    [holdClearedNotice src link ((s.opened link).unheld src).ret.holds ((s.opened link).unheld src).loop.loopOut]

section Removal

variable {c : Instr} {link : Station} {type : RequestType} {tag : Byte} {s : State} {src : HoldSource}

/-- A removal is answered OK, and HOLDCLEARED follows the reply (R117, R122). -/
theorem exec_removes (h : requestOf c = some (link, type, tag, true)) (ht : s.canTake link type)
    (ho : ownerOf c (s.opened link).begin = (removeHold src link (s.opened link).begin, answer .ok)) :
    exec c s = .next (s.removed link type tag src) := by
  have hn : (removeHold src link (s.opened link).begin).notices =
      [holdClearedNotice src link ((s.opened link).unheld src).ret.holds ((s.opened link).unheld src).loop.loopOut] :=
    Event.notices_eq_notes rfl rfl rfl
  rw [exec_answered h ht ho, hn]
  rfl

end Removal

section Requests

variable {link : Station} {src : HoldSource} {e : Event}

theorem takeRelease_station {st : Station} (hs : src.station? = some st) (hst : stationSource st = src) :
    takeRelease link (sourceCode src) e =
      if src ≠ stationSource link then refuse e .notOwner
      else if ∀ h ∈ e.s.ret.holds, h.source ≠ src then refuse e .unchanged
      else (removeHold src link e, answer .ok) := by
  have howner : st ≠ link ↔ src ≠ stationSource link := by
    rw [← hst]
    cases st <;> cases link <;> decide
  have hheld : findHold e.s.ret.holds src = none ↔ ∀ h ∈ e.s.ret.holds, h.source ≠ src := by
    simp [findHold]
  unfold takeRelease
  rw [sourceOfCode_sourceCode, Option.bind_some, hs]
  dsimp only
  rw [hst]
  exact if_congr howner rfl (if_congr hheld rfl rfl)

theorem takeRelease_other (hs : src.station? = none) : takeRelease link (sourceCode src) e = refuse e .range := by
  unfold takeRelease
  rw [sourceOfCode_sourceCode, Option.bind_some, hs]

theorem takeClear_station (hs : src.station?.isSome = true) : takeClear link (sourceCode src) e = refuse e .range := by
  unfold takeClear
  rw [sourceOfCode_sourceCode]
  exact if_pos hs

theorem takeClear_other (hs : src.station?.isSome = false) : takeClear link (sourceCode src) e =
    if notClearer e.s.ret.holds src link then refuse e .notOwner
    else
      match findHold e.s.ret.holds src with
      | none => refuse e .unchanged
      | some h => if conditionPresent e.s h then refuse e .persists else (removeHold src link e, answer .ok) := by
  unfold takeClear
  rw [sourceOfCode_sourceCode]
  exact if_neg (by rw [hs]; decide)

end Requests

section Executions

variable {link : Station} {tag : Byte} {s : State} {src : HoldSource}

theorem exec_releaseStation {st : Station} (ht : s.canTake link .release) (hs : src.station? = some st)
    (hst : stationSource st = src) : exec (.release link tag (sourceCode src)) s = .next
      (if src ≠ stationSource link then s.refused link .release tag .notOwner
      else if ∀ h ∈ s.ret.holds, h.source ≠ src then s.refused link .release tag .unchanged
      else s.removed link .release tag src) := by
  have ho : ownerOf (.release link tag (sourceCode src)) (s.opened link).begin = _ := takeRelease_station hs hst
  split_ifs with h1 h2
  · exact exec_refused rfl ht (ho.trans (if_pos h1))
  · exact exec_refused rfl ht (ho.trans ((if_neg h1).trans (if_pos h2)))
  · exact exec_removes rfl ht (ho.trans ((if_neg h1).trans (if_neg h2)))

theorem exec_clearOther (ht : s.canTake link .clear) (hs : src.station?.isSome = false) :
    exec (.clear link tag (sourceCode src)) s = .next
      (if notClearer s.ret.holds src link then s.refused link .clear tag .notOwner
      else
        match findHold s.ret.holds src with
        | none => s.refused link .clear tag .unchanged
        | some h =>
          if conditionPresent (s.opened link) h then s.refused link .clear tag .persists
          else s.removed link .clear tag src) := by
  have ho : ownerOf (.clear link tag (sourceCode src)) (s.opened link).begin = _ := takeClear_other hs
  by_cases h1 : notClearer s.ret.holds src link = true
  · rw [if_pos h1]
    exact exec_refused rfl ht (ho.trans (if_pos h1))
  · rw [if_neg h1]
    have ho' := ho.trans (if_neg h1)
    cases hf : findHold s.ret.holds src with
    | none =>
      rw [State.opened_begin, State.opened_ret, hf] at ho'
      exact exec_refused rfl ht ho'
    | some h =>
      rw [State.opened_begin, State.opened_ret, hf] at ho'
      dsimp only at ho' ⊢
      split_ifs with h2
      · exact exec_refused rfl ht (ho'.trans (if_pos h2))
      · exact exec_removes rfl ht (ho'.trans (if_neg h2))

end Executions

/-- Settles O33: the two requests by source, the clearers, then the conditions. -/
theorem releaseAndClearRemoveEntry : Obligations.ReleaseAndClearRemoveEntry := by
  refine ⟨fun s link tag src => ⟨fun ht => ?_, fun ht => ?_, fun code hc => ⟨fun ht => ?_, fun ht => ?_⟩⟩,
    fun l link => ⟨fun n h f trigger hf hr => ?_, fun n hf => notClearer_none hf link, fun src hl => ?_⟩,
    fun s h => ?_⟩
  · have hrange (hs : src.station? = none) :
        exec (.release link tag (sourceCode src)) s = .next (s.refused link .release tag .range) :=
      exec_refused rfl ht (takeRelease_other hs)
    cases src with
    | barge => exact exec_releaseStation (st := .barge) ht rfl rfl
    | ship => exact exec_releaseStation (st := .ship) ht rfl rfl
    | survey => exact exec_releaseStation (st := .survey) ht rfl rfl
    | _ => exact hrange rfl
  · have hrange (hs : src.station?.isSome = true) :
        exec (.clear link tag (sourceCode src)) s = .next (s.refused link .clear tag .range) :=
      exec_refused rfl ht (takeClear_station hs)
    have hcleared := exec_clearOther (tag := tag) (src := src) ht
    cases src with
    | barge | ship | survey => exact hrange rfl
    | _ => exact hcleared rfl
  · refine exec_refused rfl ht ?_
    show takeRelease link code _ = _
    rw [takeRelease, sourceOfCode_outside hc]
    rfl
  · refine exec_refused rfl ht ?_
    show takeClear link code _ = _
    rw [takeClear, sourceOfCode_outside hc]
  · rw [notClearer_some hf, clearers_line (findHold_some hf).2 hr]
    exact mem_function_clearers f link
  · rw [notClearer_source hl]
    cases src with
    | line n => exact absurd rfl (hl n)
    | _ => cases link <;> decide
  · cases hs : h.source with
    | line n => exact conditionPresent_line hs
    | overfill =>
      rw [conditionPresent, hs]
      exact overfillCondition_iff s
    | linkBarge | linkShip =>
      rw [conditionPresent, hs]
      exact decide_eq_true_iff
    | _ => simp [conditionPresent, hs]

end Sys2Proof.Machine
end

