-- ==== Sys2Proof/Proofs/Roles.lean ====
section
/-! The roles derived from their agents and handed on (R51, R52, R75, R150 to R154). -/

namespace Sys2Proof.Machine

/-! ### The highest and the lowest of a list -/

theorem highest_eq_some {l : List Nat} {v : Nat} : highest l = some v ↔ v ∈ l ∧ ∀ u ∈ l, u ≤ v := by
  have hl : highest l = l.max? := by cases l <;> rfl
  rw [hl, List.max?_eq_some_iff]

theorem lowest_eq_some {l : List Nat} {v : Nat} : lowest l = some v ↔ v ∈ l ∧ ∀ u ∈ l, v ≤ u := by
  have hl : lowest l = l.min? := by cases l <;> rfl
  rw [hl, List.min?_eq_some_iff]

theorem atLimit_iff {value limit : Option Nat} :
    atLimit value limit = true ↔ ∃ v l, value = some v ∧ limit = some l ∧ l ≤ v := by
  cases value <;> cases limit <;> simp [atLimit]

/-! ### A role from its agents (R150, R151) -/

/-- An enabled agent of a role. -/
def State.assigned (s : State) (r : Role) (a : Fin 4) : Prop :=
  (s.agentConfig a).enabled = true ∧ (s.agentConfig a).role = some r

/-- An agent that contributes a value to a role (R150). -/
def State.live (s : State) (r : Role) (a : Fin 4) (v : Nat) : Prop :=
  s.assigned r a ∧ ((s.agent a).state = .present ∨ (s.agent a).state = .suspect) ∧ (s.agent a).value = some v

/-- The agents that contribute to a role (R150). -/
def liveAgents (s : State) (r : Role) : List (Fin 4) := (roleAgents s r).filter fun i => contributes (s.agent i)

section Derived

variable {s : State} {r : Role}

theorem mem_roleAgents {a : Fin 4} : a ∈ roleAgents s r ↔ s.assigned r a := by
  have hall : a ∈ allAgents := by revert a; decide
  simp [roleAgents, hall, State.assigned]

theorem mem_liveAgents {a : Fin 4} : a ∈ liveAgents s r ↔ ∃ v, s.live r a v := by
  simp only [liveAgents, List.mem_filter, mem_roleAgents, contributes, decide_eq_true_iff, Option.isSome_iff_exists,
    State.live, exists_and_left]

/-- What holds of the numbers of the live agents holds of each live agent's number. -/
theorem forall_mem_live {f : Fin 4 → Nat} {P : Nat → Prop} :
    (∀ u ∈ (liveAgents s r).map f, P u) ↔ ∀ a v, s.live r a v → P (f a) := by
  simp only [List.mem_map, mem_liveAgents, forall_exists_index, and_imp]
  exact ⟨fun h a v hl => h _ a v hl rfl, fun h u a v hl hu => hu ▸ h a v hl⟩

theorem mem_map_live {f : Fin 4 → Nat} {w : Nat} :
    w ∈ (liveAgents s r).map f ↔ ∃ a v, s.live r a v ∧ f a = w := by
  simp only [List.mem_map, mem_liveAgents]
  exact ⟨fun ⟨a, ⟨v, hl⟩, hw⟩ => ⟨a, v, hl, hw⟩, fun ⟨a, v, hl, hw⟩ => ⟨a, ⟨v, hl⟩, hw⟩⟩

theorem live_value {a : Fin 4} {v : Nat} (h : s.live r a v) : (s.agent a).value.getD 0 = v := by
  rw [h.2.2]
  rfl

theorem derived_value {v : Nat} : (deriveRole s r).value = some v ↔
    (∃ a, s.live r a v) ∧ ∀ a u, s.live r a u → u ≤ v := by
  refine highest_eq_some.trans ?_
  refine and_congr (mem_map_live.trans ⟨fun ⟨a, u, hl, hu⟩ => ⟨a, ?_⟩, fun ⟨a, hl⟩ => ⟨a, v, hl, live_value hl⟩⟩)
    (forall_mem_live.trans ⟨fun h a u hl => ?_, fun h a u hl => ?_⟩)
  · rw [← hu, live_value hl]
    exact hl
  · rw [← live_value hl]
    exact h a u hl
  · rw [live_value hl]
    exact h a u hl

/-- The lowest of a number of the live agents (R150). -/
theorem lowest_live {f : Fin 4 → Nat} {w : Nat} : lowest ((liveAgents s r).map f) = some w ↔
    (∃ a v, s.live r a v ∧ f a = w) ∧ ∀ a v, s.live r a v → w ≤ f a := by
  rw [lowest_eq_some, mem_map_live, forall_mem_live]

theorem derived_blind : (deriveRole s r).blind = true ↔ ∀ a, s.assigned r a → (s.agent a).state ≠ .present := by
  show (!(roleAgents s r).any fun i => decide ((s.agent i).state = .present)) = true ↔ _
  simp [mem_roleAgents]

end Derived

/-! ### The raises of tripped roles (R152) -/

/-- The roles whose tripped flag sets (R152). -/
def trippedRoles (old new : Instruments) : List Role :=
  allRoles.filter fun r => (new.role r).tripped && !(old.role r).tripped

/-- The raise of one tripped role. -/
def raiseRole (e : Event) (r : Role) : Event := raiseHold (roleSource r) .trip (.role r) e

/-- The list and the notices after one tripped role's raise. -/
def turnRole (p : State × List Notice) (r : Role) : State × List Notice :=
  ({ p.1 with ret.holds := raisedList p.1 (roleSource r) .trip (.role r) },
    p.2 ++ [p.1.raisedNotice (roleSource r) .trip (.role r)])

theorem foldl_tripRole (old : Instruments) (l : List Role) (e : Event) : l.foldl (tripRole old) e =
    (l.filter fun r => (e.s.instruments.role r).tripped && !(old.role r).tripped).foldl raiseRole e := by
  induction l generalizing e with
  | nil => rfl
  | cons r rest ih =>
    have hi : (tripRole old e r).s.instruments = e.s.instruments := by
      unfold tripRole
      split
      · exact raiseHold_instruments ..
      · rfl
    rw [List.foldl_cons, ih, hi, List.filter_cons, tripRole]
    split <;> rfl

section RaiseRoles

variable (l : List Role) (e : Event)

theorem raiseRoles_instruments : (l.foldl raiseRole e).s.instruments = e.s.instruments := by
  induction l generalizing e with
  | nil => rfl
  | cons r rest ih => exact (ih _).trans (raiseHold_instruments ..)

theorem raiseRoles_stages : (l.foldl raiseRole e).s.ret.stages = e.s.ret.stages := by
  induction l generalizing e with
  | nil => rfl
  | cons r rest ih => exact (ih _).trans (raiseHold_stages ..)

theorem raiseRoles_late : (l.foldl raiseRole e).late = e.late := by
  induction l generalizing e with
  | nil => rfl
  | cons r rest ih => exact (ih _).trans (raiseHold_late ..)

/-- The list and the notices of several raises, found turn by turn from the list and the clock alone (R104, R121). -/
theorem raiseRoles_turn {s : State} {ns : List Notice} (hh : e.s.ret.holds = s.ret.holds)
    (hc : e.s.ret.transfer.clock = s.ret.transfer.clock) (hn : e.notes = ns) :
    (l.foldl raiseRole e).s.ret.holds = (l.foldl turnRole (s, ns)).1.ret.holds ∧
      (l.foldl raiseRole e).notes = (l.foldl turnRole (s, ns)).2 := by
  induction l generalizing e s ns with
  | nil => exact ⟨hh, hn⟩
  | cons r rest ih =>
    obtain ⟨hl, hr⟩ := raisedList_congr hh hc (roleSource r) .trip (.role r)
    refine ih (raiseRole e r) ?_ ?_ ?_
    · exact (raiseHold_holds ..).trans hl
    · exact (congrArg Transfer.clock (raiseHold_transfer ..)).trans hc
    · exact (raiseHold_notes ..).trans (by rw [hn, hr])

end RaiseRoles

/-! ### The roles handed on (R153) -/

/-- The event with its roles derived afresh and the tripped ones raised (R150, R152). -/
def rolesRaised (e : Event) : Event :=
  (trippedRoles e.s.instruments (deriveRoles e.s).instruments).foldl raiseRole (e.mod deriveRoles)

/-- The state before the recomputation: the stages on changed roles evaluated, and no-rise (R52, R75). -/
def rolesStaged (e : Event) : State := deriveNoRise (evalInstrumentStages e.s.instruments (rolesRaised e).s)

theorem handOnRoles_eq (i : Fin 4) (prev : AgentState) (was : Option Role) (e : Event) : handOnRoles i prev was e =
    { rolesRaised e with
      s := recompute (rolesStaged e),
      late := (rolesRaised e).late ++ agentNotices i prev was (recompute (rolesStaged e)) ++
        limitNotices e.s.instruments (recompute (rolesStaged e)) } := by
  unfold handOnRoles
  dsimp only
  rw [foldl_tripRole]
  rfl

section HandOn

variable (e : Event)

theorem rolesRaised_instruments : (rolesRaised e).s.instruments = (deriveRoles e.s).instruments :=
  raiseRoles_instruments ..

theorem rolesRaised_stages : (rolesRaised e).s.ret.stages = e.s.ret.stages := raiseRoles_stages ..

theorem rolesRaised_late : (rolesRaised e).late = e.late := raiseRoles_late ..

theorem handOn_instruments : (recompute (rolesStaged e)).instruments = (deriveRoles e.s).instruments :=
  (recompute_instruments _).trans (rolesRaised_instruments e)

theorem derived_role (r : Role) : (deriveRoles e.s).instruments.role r = deriveRole e.s r := by cases r <;> rfl

/-- The role records after the event are those the agents give (R150). -/
theorem handOn_role (r : Role) : (recompute (rolesStaged e)).instruments.role r = deriveRole e.s r := by
  rw [handOn_instruments, derived_role]

theorem handOn_agent (i : Fin 4) : (recompute (rolesStaged e)).agent i = e.s.agent i := by
  unfold State.agent
  rw [handOn_instruments]
  rfl

/-- Each instrument stage on a role whose value or blindness changed is evaluated (R52). -/
theorem handOn_stage (j : Fin 4) : (recompute (rolesStaged e)).stage j =
    match (e.s.stage j).input with
    | .tankFill => e.s.stage j
    | .role r =>
      if roleChanged e.s.instruments (recompute (rolesStaged e)) r then
        evalInstrumentStage ((recompute (rolesStaged e)).instruments.role r) (e.s.stage j)
      else e.s.stage j := by
  have hstages : (recompute (rolesStaged e)).ret.stages =
      (evalInstrumentStages e.s.instruments (rolesRaised e).s).ret.stages := recompute_stages _
  have hi : (recompute (rolesStaged e)).instruments = (rolesRaised e).s.instruments := recompute_instruments _
  have hstage : at' (rolesRaised e).s.ret.stages j = e.s.stage j := congrArg (fun v => at' v j) (rolesRaised_stages e)
  unfold State.stage roleChanged
  rw [hstages, hi]
  refine (at'_mapTable ..).trans ?_
  rw [hstage]
  rfl

end HandOn

theorem evalInstrumentStage_eq (rec : RoleRecord) (st : Stage) : evalInstrumentStage rec st =
    { st with
      instrumentEngaged := st.enabled && (rec.blind ||
        match rec.value with
        | none => false
        | some v => if st.instrumentEngaged then decide (st.leave ≤ v) else decide (st.enter ≤ v)) } := by
  unfold evalInstrumentStage hysteresis
  cases rec.value with
  | none => rfl
  | some v => cases st.enabled <;> rfl

theorem roleChanged_eq_false {old : Instruments} {s : State} {r : Role} : roleChanged old s r = false ↔
    (s.instruments.role r).value = (old.role r).value ∧ (s.instruments.role r).blind = (old.role r).blind := by
  simp [roleChanged]

/-- Settles O40: the derived records, then the holds, the notices, the stages and P in R153's order. -/
theorem rolesFollowAgents : Obligations.RolesFollowAgents := by
  intro i prev was e after t assigned live roles source trips turn raised
  have hafter : after = _ := handOnRoles_eq i prev was e
  have ht : t = recompute (rolesStaged e) := congrArg Event.s hafter
  have hrole (r : Role) : t.instruments.role r = deriveRole e.s r := by rw [ht]; exact handOn_role e r
  have hsource : source = roleSource := funext fun r => by cases r <;> rfl
  have htrips : trips = trippedRoles e.s.instruments (deriveRoles e.s).instruments := by
    simp only [trips, trippedRoles, hrole, derived_role]
    rfl
  have hraised : raised = rolesRaised e := by
    have hderived : (e.mod fun u => { u with
        instruments.hose := t.instruments.hose, instruments.manifold := t.instruments.manifold,
        instruments.tension := t.instruments.tension }) = e.mod deriveRoles := by
      have hhose : t.instruments.hose = deriveRole e.s .hosePressure := hrole .hosePressure
      have hmanifold : t.instruments.manifold = deriveRole e.s .manifoldPressure := hrole .manifoldPressure
      have htension : t.instruments.tension = deriveRole e.s .tension := hrole .tension
      rw [hhose, hmanifold, htension]
      rfl
    simp only [raised, hderived, htrips, hsource]
    rfl
  have hturn : raised.s.ret.holds = turn.1.ret.holds ∧ raised.notes = turn.2 := by
    rw [hraised]
    simp only [turn, htrips, hsource]
    exact raiseRoles_turn _ (e.mod deriveRoles) rfl rfl rfl
  refine ⟨fun r => ?_, ?_, ?_, fun j => ?_, ?_, ?_, ?_⟩
  · rw [hrole]
    exact ⟨derived_blind, fun v => derived_value, fun w => lowest_live, fun w => lowest_live, atLimit_iff, atLimit_iff⟩
  · rw [ht, recompute_holds, ← hturn.1, hraised]
    rfl
  · rw [hafter, ← hturn.2, hraised]
  · rw [ht, handOn_stage]
    cases (e.s.stage j).input with
    | tankFill => rfl
    | role r =>
      dsimp only
      by_cases hc : roleChanged e.s.instruments (recompute (rolesStaged e)) r = true
      · rw [if_pos hc, if_neg fun h => absurd (roleChanged_eq_false.2 h) (by simp [hc])]
        exact evalInstrumentStage_eq _ _
      · rw [if_neg hc, if_pos (roleChanged_eq_false.1 (by simpa using hc))]
  · rw [ht]
    exact (recompute_rated _).1
  · rw [ht]
    exact (recompute_rated _).2
  · have hstages : t.ret.stages = (rolesStaged e).ret.stages := by rw [ht]; exact recompute_stages _
    have hinstruments : t.instruments = (rolesRaised e).s.instruments := by rw [ht]; exact recompute_instruments _
    have hnotices : agentNotices i prev was t =
        if prev = (e.s.agent i).state then []
        else [agentNotice i prev (e.s.agent i).state was (was.map t.instruments.role)] := by
      rw [agentNotices, ht, handOn_agent]
    have hstate : recompute { (rolesRaised e).s with
        ret.stages := t.ret.stages,
        governor.noRise := t.instruments.hose.warned || t.instruments.manifold.warned } = t := by
      rw [hstages, hinstruments, ht]
      rfl
    rw [hafter, hraised, hstate, ← hnotices, ← ht, rolesRaised_late]
    rfl

end Sys2Proof.Machine
end

