-- ==== Sys2Proof/Proofs/StartRaises.lean ====
section
/-! The raises at a start (R124): what they leave of the hold list and loop OUT, and the orders they may come in. -/

namespace Sys2Proof.Machine

/-! ### The list after raises (R104, R105) -/

/-- A raise at a start, but for loop OUT. -/
def listRaise (s : State) (r : Raise) : State := { s with ret.holds := raisedList s r.source r.cls r.reason }

/-- The list after raises at a start. -/
def raisedHolds (rs : List Raise) (s : State) : List HoldEntry := (rs.foldl listRaise s).ret.holds

theorem foldl_listRaise_eq (rs : List Raise) (s : State) :
    rs.foldl listRaise s = { s with ret.holds := raisedHolds rs s } := by
  induction rs generalizing s with
  | nil => rfl
  | cons r rest ih => exact ih (listRaise s r)

theorem raisedHolds_congr {s t : State} (hh : t.ret.holds = s.ret.holds)
    (hc : t.ret.transfer.clock = s.ret.transfer.clock) (rs : List Raise) : raisedHolds rs t = raisedHolds rs s := by
  induction rs generalizing s t with
  | nil => exact hh
  | cons r rest ih => exact ih (s := listRaise s r) (t := listRaise t r) (raisedList_congr hh hc _ _ _).1 hc

theorem raisedHolds_append (rs qs : List Raise) (s : State) :
    raisedHolds (rs ++ qs) s = raisedHolds qs { s with ret.holds := raisedHolds rs s } := by
  rw [raisedHolds, List.foldl_append, foldl_listRaise_eq rs s]
  rfl

/-- A raise leaves its own source's entry with the reason raised, and at TRIP when it is raised so (R104, R105). -/
theorem raised_mem (s : State) (src : HoldSource) (reason : HoldReason) :
    ∃ h ∈ raisedList s src .trip reason, h.source = src ∧ h.cls = .trip ∧ h.reason = reason := by
  unfold raisedList
  split
  · next h hf =>
    obtain ⟨hm, hs⟩ := findHold_some hf
    have hcls : escalate h.cls .trip = .trip := by cases h.cls <;> rfl
    exact ⟨h.again .trip reason, List.mem_map.2 ⟨h, hm, if_pos hs⟩, hs, hcls, rfl⟩
  · next hf =>
    have he : raisedEntry s src .trip reason =
        { source := src, cls := .trip, reason := reason, time := s.ret.transfer.clock, repeats := 0 } := by
      rw [raisedEntry, hf]
    exact ⟨_, List.mem_append_right _ List.mem_cons_self, by rw [he], by rw [he], by rw [he]⟩

/-- A raise leaves the entries of the other sources (R104). -/
theorem raised_mem_other {s : State} {src : HoldSource} {cls : HoldClass} {reason : HoldReason} {h : HoldEntry}
    (hm : h ∈ s.ret.holds) (hs : h.source ≠ src) : h ∈ raisedList s src cls reason := by
  unfold raisedList
  split
  · exact List.mem_map.2 ⟨h, hm, if_neg hs⟩
  · exact List.mem_append_left _ hm

/-- A raise leaves every entry with its source and its time (R105). -/
theorem raised_keeps {s : State} {src : HoldSource} {cls : HoldClass} {reason : HoldReason} {h : HoldEntry}
    (hm : h ∈ s.ret.holds) : ∃ k ∈ raisedList s src cls reason, k.source = h.source ∧ k.time = h.time := by
  unfold raisedList
  split
  · refine ⟨_, List.mem_map_of_mem hm, ?_⟩
    split <;> exact ⟨rfl, rfl⟩
  · exact ⟨h, List.mem_append_left _ hm, rfl, rfl⟩

theorem raisedHolds_mem_other {rs : List Raise} {s : State} {h : HoldEntry} (hm : h ∈ s.ret.holds)
    (hs : ∀ r ∈ rs, h.source ≠ r.source) : h ∈ raisedHolds rs s := by
  induction rs generalizing s with
  | nil => exact hm
  | cons r rest ih =>
    exact ih (raised_mem_other hm (hs r List.mem_cons_self)) fun q hq => hs q (List.mem_cons_of_mem r hq)

theorem raisedHolds_keeps {rs : List Raise} {s : State} {h : HoldEntry} (hm : h ∈ s.ret.holds) :
    ∃ k ∈ raisedHolds rs s, k.source = h.source ∧ k.time = h.time := by
  induction rs generalizing s h with
  | nil => exact ⟨h, hm, rfl, rfl⟩
  | cons r rest ih =>
    obtain ⟨k, hk, hks, hkt⟩ := raised_keeps (src := r.source) (cls := r.cls) (reason := r.reason) hm
    obtain ⟨l, hl, hls, hlt⟩ := ih (s := listRaise s r) hk
    exact ⟨l, hl, hls.trans hks, hlt.trans hkt⟩

/-- A TRIP entry of another source than LOOP keeps loop OUT open (R119). -/
theorem loopOutOf_opened {l : List HoldEntry} {h : HoldEntry} (hm : h ∈ l) (hc : h.cls = .trip)
    (hs : h.source ≠ .loop) : loopOutOf l = .opened :=
  if_pos (List.any_eq_true.2 ⟨h, hm, decide_eq_true ⟨hc, hs⟩⟩)

/-- While a POWER entry at TRIP stands, raises of other sources leave the open loop OUT open (R119, R124). -/
theorem foldl_startRaise_power {rs : List Raise} {s : State} {h : HoldEntry} (hm : h ∈ s.ret.holds)
    (hsrc : h.source = .power) (hcls : h.cls = .trip) (hr : ∀ r ∈ rs, r.source ≠ .power)
    (hl : s.loop.loopOut = .opened) : rs.foldl startRaise s = rs.foldl listRaise s := by
  induction rs generalizing s with
  | nil => rfl
  | cons r rest ih =>
    have hm' : h ∈ raisedList s r.source r.cls r.reason :=
      raised_mem_other hm (hsrc ▸ (hr r List.mem_cons_self).symm)
    have hloop : loopOutOf (raisedList s r.source r.cls r.reason) = s.loop.loopOut :=
      (loopOutOf_opened hm' hcls (by rw [hsrc]; decide)).trans hl.symm
    have hstep : startRaise s r = listRaise s r := by
      unfold startRaise State.setHolds
      rw [hloop]
      rfl
    rw [List.foldl_cons, List.foldl_cons, hstep]
    exact ih hm' (fun q hq => hr q (List.mem_cons_of_mem r hq)) hl

/-! ### The order of three blocks' raises (R124, log 9) -/

section Interleave

variable (schedule : List RaisingBlock) (ws vs ls : List Raise)

theorem interleave_perm : (interleave schedule ws vs ls).Perm (ws ++ vs ++ ls) := by
  fun_induction interleave schedule ws vs ls with
  | case1 rest w ws vs ls ih => exact ih.cons w
  | case2 rest ws v vs ls ih =>
    rw [List.append_assoc, List.cons_append] at *
    exact (ih.cons v).trans List.perm_middle.symm
  | case3 rest ws vs l ls ih => exact (ih.cons l).trans List.perm_middle.symm
  | case4 | case5 | case6 => assumption
  | case7 => exact .refl _

theorem interleave_watch : ws.Sublist (interleave schedule ws vs ls) := by
  fun_induction interleave schedule ws vs ls with
  | case1 rest w ws vs ls ih => exact ih.cons_cons w
  | case2 rest ws v vs ls ih => exact ih.cons v
  | case3 rest ws vs l ls ih => exact ih.cons l
  | case4 | case5 | case6 => assumption
  | case7 ws vs ls => exact (List.sublist_append_left ws vs).trans (List.sublist_append_left _ ls)

theorem interleave_valve : vs.Sublist (interleave schedule ws vs ls) := by
  fun_induction interleave schedule ws vs ls with
  | case1 rest w ws vs ls ih => exact ih.cons w
  | case2 rest ws v vs ls ih => exact ih.cons_cons v
  | case3 rest ws vs l ls ih => exact ih.cons l
  | case4 | case5 | case6 => assumption
  | case7 ws vs ls => exact (List.sublist_append_right ws vs).trans (List.sublist_append_left _ ls)

theorem interleave_lines : ls.Sublist (interleave schedule ws vs ls) := by
  fun_induction interleave schedule ws vs ls with
  | case1 rest w ws vs ls ih => exact ih.cons w
  | case2 rest ws v vs ls ih => exact ih.cons v
  | case3 rest ws vs l ls ih => exact ih.cons_cons l
  | case4 | case5 | case6 => assumption
  | case7 ws vs ls => exact List.sublist_append_right (ws ++ vs) ls

end Interleave

end Sys2Proof.Machine
end

