-- ==== Sys2Proof/Proofs/WarmStart.lean ====
section
/-! A warm start (R55, R102, R124, R178): what is sampled, the step in its place, the Watch's tanks, and the raises. -/

namespace Sys2Proof.Machine

/-! ### Sampling (R181, R182) -/

theorem senseContact_start (microamps : Nat) : senseContact false microamps = decide (5000 ≤ microamps) := by
  unfold senseContact Config.assertedAt
  by_cases h : 5000 ≤ microamps
  · rw [if_pos h, decide_eq_true h]
  · rw [if_neg h, decide_eq_false h, ite_self]

theorem senseLoop_start (microamps : Nat) :
    senseLoop .opened microamps = if 12000 ≤ microamps then .closed else .opened := by
  unfold senseLoop
  rw [ite_self]
  rfl

theorem strappedRate_eq (straps : Bool × Bool) : strappedRate straps =
    match straps with
    | (false, false) => .b9600
    | (true, false) => .b19200
    | (false, true) => .b38400
    | (true, true) => .b57600 := by
  obtain ⟨a, b⟩ := straps
  cases a <;> cases b <;> rfl

/-- The controller of a start: the stroke is timed unless the valve stands CLOSED (R101). -/
theorem controllerAtStart_eq (settings : Settings) (sample : InputSample) : controllerAtStart settings sample =
    let openLimit := decide (5000 ≤ sample.openLimit)
    let closedLimit := decide (5000 ≤ sample.closedLimit)
    { armedFrom := none, stopCause := none, confirm := none, rundown := none, settle := none,
      stroke := if closedLimit && !openLimit then none else some (10 * settings.tclose),
      command := .closed, openLimit := openLimit, closedLimit := closedLimit } := by
  unfold controllerAtStart
  rw [senseContact_start, senseContact_start]
  cases decide (5000 ≤ sample.openLimit) <;> cases decide (5000 ≤ sample.closedLimit) <;> rfl

theorem loopAtStart_eq (sample : InputSample) : loopAtStart sample =
    { loopOut := .opened, rawIn := if 12000 ≤ sample.loopIn then .closed else .opened,
      loopIn := if 12000 ≤ sample.loopIn then .closed else .opened, count := 0 } := by
  rw [loopAtStart, senseLoop_start]

theorem lineAtStart_eq (c : LineConfig) (microamps : Nat) : lineAtStart c microamps =
    { raw := decide (5000 ≤ microamps), active := decide (5000 ≤ microamps) != c.inverted, count := 0,
      latch := false } := by
  rw [lineAtStart, senseContact_start]
  rfl

/-! ### The step in its place (R102) -/

theorem Retained.placed_eq (m : Retained) : m.placed = { m with
    active := m.active.map (powerStep m.delivery), delivery := if m.active = none then .idle else .held,
    lapsed := m.placed.lapsed } := by
  cases ha : m.active with
  | none => rw [Retained.placed_none ha]; simp [ha]
  | some r => rw [Retained.placed_some ha]; simp

theorem Retained.mem_placed_lapsed (m : Retained) (n : Nat) : n ∈ m.placed.lapsed ↔
    n ∈ m.lapsed ∨ m.delivery = .armed ∧ ∃ r, m.active = some r ∧ r.number = n := by
  cases ha : m.active with
  | none => rw [Retained.placed_none ha]; simp
  | some r =>
    rw [Retained.placed_some ha]
    by_cases hd : m.delivery = .armed
    · simp only [hd, if_true, mem_insertNumber, Option.some.injEq, exists_eq_left', true_and]
      tauto
    · simp [hd]

/-! ### The Watch (R55) -/

/-- A report at a start is past S × 10 ticks, and its status follows (R55, R42). -/
theorem agedAtStart_eq (stale : Nat) (t : Tank) : agedAtStart stale t = { t with
    age := if t.contents = none then t.age else max t.age (stale * 10 + 1),
    status :=
      if t.contents = none then .none
      else if max t.age (stale * 10 + 1) ≤ stale * 20 then .stale else .lost } := by
  unfold agedAtStart
  cases hc : t.contents with
  | none => simp [agedStatus_eq, hc]
  | some v =>
    have hage : (if t.age ≤ stale * 10 then stale * 10 + 1 else t.age) = max t.age (stale * 10 + 1) := by
      split <;> omega
    have hnew : ¬max t.age (stale * 10 + 1) ≤ stale * 10 := by omega
    simp only [Option.isSome_some, if_true, hage, agedStatus_eq, reduceCtorEq, if_false, hnew]

theorem flagsAtStart_spec (t : Tank) : ∃ high tripped,
    flagsAtStart t = { t with highCrossed := high, overTrip := tripped } := by
  unfold flagsAtStart
  split
  · exact ⟨_, _, rfl⟩
  · exact ⟨t.highCrossed, t.overTrip, rfl⟩

theorem flagsAtStart_none {t : Tank} (h : t.estimate = none) : flagsAtStart t = t := by
  unfold flagsAtStart
  rw [h]
  cases t.definition <;> rfl

theorem flagsAtStart_some {t : Tank} {d : TankDef} {est : Nat} (hd : t.definition = some d)
    (he : t.estimate = some est) : flagsAtStart t = t.flagged d est := by
  unfold flagsAtStart
  rw [hd, he]
  exact congrArg (fun x => { t.flagged d est with definition := x }) hd.symm

/-- What a start leaves of a tank's record: all but the report's age and status, and the two flags (R55). -/
theorem tankAtStart_keeps (stale : Nat) (t : Tank) : ∃ high tripped, flagsAtStart (agedAtStart stale t) = { t with
    age := if t.contents = none then t.age else max t.age (stale * 10 + 1),
    status :=
      if t.contents = none then .none else if max t.age (stale * 10 + 1) ≤ stale * 20 then .stale else .lost,
    highCrossed := high, overTrip := tripped } := by
  obtain ⟨high, tripped, h⟩ := flagsAtStart_spec (agedAtStart stale t)
  exact ⟨high, tripped, by rw [h, agedAtStart_eq]⟩

theorem agedAtStart_same (stale : Nat) (t : Tank) : (agedAtStart stale t).definition = t.definition ∧
    (agedAtStart stale t).estimate = t.estimate ∧ (agedAtStart stale t).highCrossed = t.highCrossed ∧
    (agedAtStart stale t).overTrip = t.overTrip := by
  rw [agedAtStart_eq]
  exact ⟨rfl, rfl, rfl, rfl⟩

/-- A tank at a start: its report no longer fresh, its flags evaluated anew where it has an estimate (R55). -/
theorem tankAtStart_spec (stale : Nat) (t : Tank) :
    let u := flagsAtStart (agedAtStart stale t)
    u.definition = t.definition ∧ u.contents = t.contents ∧ u.credited = t.credited ∧ u.engaged = t.engaged ∧
      (t.contents ≠ none → u.age = max t.age (stale * 10 + 1)) ∧ u.status ≠ .fresh ∧
      (t.contents = none → u.age = t.age ∧ u.status = .none) ∧
      (t.contents ≠ none → u.status = if max t.age (stale * 10 + 1) ≤ stale * 20 then .stale else .lost) ∧
      (t.estimate = none → u.highCrossed = t.highCrossed ∧ u.overTrip = t.overTrip) ∧
      ∀ d est, t.definition = some d → t.estimate = some est →
        u.highCrossed = decide (d.highVolume ≤ est) ∧ u.overTrip = decide (d.tripVolume ≤ est) := by
  intro u
  obtain ⟨high, tripped, (hu : u = _)⟩ := tankAtStart_keeps stale t
  obtain ⟨hdef, hest, hhigh, htrip⟩ := agedAtStart_same stale t
  have hage : u.age = if t.contents = none then t.age else max t.age (stale * 10 + 1) := congrArg Tank.age hu
  have hstatus : u.status = if t.contents = none then .none
      else if max t.age (stale * 10 + 1) ≤ stale * 20 then .stale else .lost := congrArg Tank.status hu
  refine ⟨by rw [hu], by rw [hu], by rw [hu], by rw [hu], fun hc => hage.trans (if_neg hc), ?_,
    fun hc => ⟨hage.trans (if_pos hc), hstatus.trans (if_pos hc)⟩, fun hc => hstatus.trans (if_neg hc), fun he => ?_,
    fun d est hd he => ?_⟩
  · rw [hstatus]
    split_ifs <;> decide
  · have hflags : u = agedAtStart stale t := flagsAtStart_none (hest.trans he)
    exact ⟨(congrArg Tank.highCrossed hflags).trans hhigh, (congrArg Tank.overTrip hflags).trans htrip⟩
  · have hflags : u = (agedAtStart stale t).flagged d est := flagsAtStart_some (hdef.trans hd) (hest.trans he)
    exact ⟨congrArg Tank.highCrossed hflags, congrArg Tank.overTrip hflags⟩

theorem stageAtStart_eq (st : Stage) : stageAtStart st =
    if st.input = .tankFill then st else { st with instrumentEngaged := st.enabled } := by
  unfold stageAtStart
  cases st.input with
  | tankFill => rfl
  | role r => exact (if_neg (by simp)).symm

/-! ### The state resumed (R178) -/

/-- The state a start resumes, before any raise (R55, R102, R178). -/
def State.resumed (s : State) (sample : InputSample) : State :=
  watchStarts { sampled s.ret s.ret sample s with ret := s.ret.placed }

/-- LOOP, where loop IN is sampled OPEN (R124). -/
def loopRaises (u : State) : List Raise :=
  if u.loop.loopIn = .opened then [{ source := .loop, cls := .trip, reason := .opened }] else []

/-- The raises of the three blocks in a state, against the tanks found (R124). -/
def laterRaises (schedule : List RaisingBlock) (found : Vector Tank 8) (u : State) : List Raise :=
  interleave schedule (watchRaises found u.ret.tanks) (valveRaises u) (lineRaises u)

/-- The raises of a warm start in order: POWER and LOOP, then those of the three blocks (R124). -/
def State.startRaises (s : State) (sample : InputSample) (schedule : List RaisingBlock) : List Raise :=
  ownRaises .warm (s.resumed sample) ++ laterRaises schedule s.ret.tanks (s.resumed sample)

/-- A start in its stages: the step placed, the own raises, the Watch and P, then the raises of the blocks (R124). -/
theorem startFrom_of {memory prior : Retained} {reason : HoldReason} {sample : InputSample}
    {schedule : List RaisingBlock} {s u v w : State} (hu : placeStep (sampled memory prior sample s) = u)
    (hv : (ownRaises reason u).foldl startRaise u = v) (hw : recompute (watchStarts v) = w) :
    startFrom memory prior reason sample schedule s =
      (laterRaises schedule v.ret.tanks w).foldl startRaise w := by
  subst hu hv hw
  rfl

theorem mem_loopRaises {u : State} {r : Raise} (h : r ∈ loopRaises u) : r.source ≠ .power ∧ r.cls = .trip := by
  unfold loopRaises at h
  split at h
  · rw [List.mem_singleton.1 h]
    exact ⟨by simp, rfl⟩
  · cases h

theorem mem_laterRaises {schedule : List RaisingBlock} {found : Vector Tank 8} {u : State} {r : Raise}
    (h : r ∈ laterRaises schedule found u) : r.source ≠ .power ∧ r.cls = .trip := by
  have hm := (interleave_perm ..).mem_iff.1 h
  simp only [List.mem_append, watchRaises, valveRaises, lineRaises, List.mem_map] at hm
  rcases hm with (⟨i, -, rfl⟩ | hv) | ⟨n, -, rfl⟩
  · exact ⟨by simp, rfl⟩
  · split at hv
    · rw [List.mem_singleton.1 hv]
      exact ⟨by simp, rfl⟩
    · cases hv
  · exact ⟨by simp, rfl⟩

/-- POWER is raised first, and the list stands as raised; loop OUT stays open throughout (R119, R124). -/
theorem foldl_startRaise_own (reason : HoldReason) (u : State) (hl : u.loop.loopOut = .opened) :
    (ownRaises reason u).foldl startRaise u = { u with ret.holds := raisedHolds (ownRaises reason u) u } ∧
      ∃ h ∈ raisedHolds (ownRaises reason u) u, h.source = .power ∧ h.cls = .trip ∧ h.reason = reason := by
  obtain ⟨h, hm, hs, hc, hr⟩ := raised_mem u .power reason
  have hfirst : startRaise u { source := .power, cls := .trip, reason := reason } =
      listRaise u { source := .power, cls := .trip, reason := reason } := by
    unfold startRaise State.setHolds
    rw [(loopOutOf_opened hm hc (by rw [hs]; decide)).trans hl.symm]
    rfl
  constructor
  · rw [← foldl_listRaise_eq, ownRaises, List.foldl_cons, List.foldl_cons, hfirst]
    exact foldl_startRaise_power hm hs hc (fun r hr => (mem_loopRaises hr).1) hl
  · exact ⟨h, raisedHolds_mem_other (s := listRaise u { source := .power, cls := .trip, reason := reason }) hm
      fun r hr => hs ▸ (mem_loopRaises hr).1.symm, hs, hc, hr⟩

theorem Retained.placed_same (m : Retained) : m.placed.tanks = m.tanks ∧ m.placed.stages = m.stages ∧
    m.placed.holds = m.holds ∧ m.placed.transfer = m.transfer ∧ m.placed.settings = m.settings := by
  rw [m.placed_eq]
  exact ⟨rfl, rfl, rfl, rfl, rfl⟩

/-- What a warm start leaves: the state resumed, P as the terms give it, and the raises on the list (R124, R178). -/
theorem startFrom_warm (sample : InputSample) (schedule : List RaisingBlock) (s : State) :
    startFrom s.ret s.ret .warm sample schedule s =
      { (s.resumed sample).rated with ret.holds := raisedHolds (s.startRaises sample schedule) s } ∧
    ∃ h ∈ raisedHolds (s.startRaises sample schedule) s, h.source = .power ∧ h.cls = .trip ∧ h.reason = .warm := by
  obtain ⟨htanks, -, hholds, htransfer, -⟩ := s.ret.placed_same
  let u : State := { sampled s.ret s.ret sample s with ret := s.ret.placed }
  obtain ⟨hown, h, hm, hs, hc, hr⟩ := foldl_startRaise_own .warm u rfl
  let v : State := { u with ret.holds := raisedHolds (ownRaises .warm u) u }
  have hidle : (watchStarts v).ret.delivery ≠ .pumping := by
    rcases s.ret.placed_delivery with hd | hd <;> exact fun hp => absurd (hd.symm.trans hp) (by decide)
  let later : List Raise := laterRaises schedule s.ret.tanks (s.resumed sample)
  have hlater : ∀ r ∈ later, r.source ≠ .power := fun r hr => (mem_laterRaises hr).1
  have hstart : startFrom s.ret s.ret .warm sample schedule s = later.foldl startRaise (watchStarts v).rated := by
    have hfound : v.ret.tanks = s.ret.tanks := htanks
    rw [startFrom_of (placeStep_eq _) hown (recompute_idle _ hidle), hfound]
    rfl
  have hown' : raisedHolds (ownRaises .warm u) u = raisedHolds (ownRaises .warm u) s :=
    raisedHolds_congr hholds (congrArg Transfer.clock htransfer) _
  have hall : raisedHolds later (watchStarts v).rated = raisedHolds (s.startRaises sample schedule) s := by
    refine Eq.trans ?_ (raisedHolds_append (ownRaises .warm u) later s).symm
    exact raisedHolds_congr (s := { s with ret.holds := raisedHolds (ownRaises .warm u) s })
      (t := (watchStarts v).rated) hown' (congrArg Transfer.clock htransfer) later
  refine ⟨?_, h, ?_, hs, hc, hr⟩
  · rw [hstart, foldl_startRaise_power (h := h) (by exact hm) hs hc hlater rfl, foldl_listRaise_eq, hall]
    rfl
  · rw [← hall]
    exact raisedHolds_mem_other (by exact hm) fun r hr => hs ▸ (hlater r hr).symm

/-! ### The fields of the state resumed -/

section Resumed

variable (s : State) (sample : InputSample)

theorem resumed_tank (i : Fin 8) :
    (s.resumed sample).tank i = flagsAtStart (agedAtStart s.ret.settings.stale (s.tank i)) := by
  obtain ⟨htanks, -, -, -, hsettings⟩ := s.ret.placed_same
  refine (at'_mapTable ..).trans ?_
  show flagsAtStart (agedAtStart s.ret.placed.settings.stale (at' s.ret.placed.tanks i)) = _
  rw [htanks, hsettings]
  rfl

theorem resumed_stage (j : Fin 4) : (s.resumed sample).stage j = stageAtStart (s.stage j) := by
  obtain ⟨-, hstages, -⟩ := s.ret.placed_same
  refine (at'_mapTable ..).trans ?_
  show stageAtStart (at' s.ret.placed.stages j) = _
  rw [hstages]
  rfl

theorem resumed_lineConfig (n : Fin 6) : (s.resumed sample).lineConfig n = s.lineConfig n := by
  obtain ⟨-, -, -, -, hsettings⟩ := s.ret.placed_same
  show at' s.ret.placed.settings.lines n = _
  rw [hsettings]
  rfl

theorem resumed_line (n : Fin 6) : (s.resumed sample).line n = lineAtStart (s.lineConfig n) (at' sample.lines n) :=
  at'_zipTable ..

/-- The retained part of the state resumed (R102, R55). -/
theorem resumed_ret : (s.resumed sample).ret = { s.ret with
    active := s.ret.active.map (powerStep s.ret.delivery), delivery := if s.ret.active = none then .idle else .held,
    lapsed := s.ret.placed.lapsed, tanks := (s.resumed sample).ret.tanks,
    stages := (s.resumed sample).ret.stages } := by
  show { s.ret.placed with
    tanks := (s.resumed sample).ret.tanks, stages := (s.resumed sample).ret.stages } = _
  rw [s.ret.placed_eq]

theorem resumed_instruments : (s.resumed sample).instruments = { startInstruments with
    pollTimer := (match s.ret.settings.poll with
      | .quarter => 3
      | .half => 5
      | .one => 10
      | .two => 20
      | .four => 40),
    shortNext := decide (s.ret.settings.poll = .quarter) } := by
  show { startInstruments with
    pollTimer := (pollTicks s.ret.settings.poll false).1, shortNext := (pollTicks s.ret.settings.poll false).2 } = _
  cases s.ret.settings.poll <;> rfl

/-! ### The raises of a warm start (R124) -/

/-- A raise by its source and reason. -/
def Raise.pair (r : Raise) : HoldSource × HoldReason := (r.source, r.reason)

/-- The list after raises that are all at TRIP, by their sources and reasons. -/
theorem raisedHolds_pairs {rs : List Raise} (h : ∀ r ∈ rs, r.cls = .trip) (u : State) : raisedHolds rs u =
    ((rs.map Raise.pair).foldl
      (fun (u : State) p => { u with ret.holds := raisedList u p.1 .trip p.2 }) u).ret.holds := by
  induction rs generalizing u with
  | nil => rfl
  | cons r rest ih =>
    have hr : raisedList u r.source r.cls r.reason = raisedList u r.source .trip r.reason := by
      rw [h r List.mem_cons_self]
    refine (ih (fun q hq => h q (List.mem_cons_of_mem r hq)) (listRaise u r)).trans ?_
    rw [List.map_cons, List.foldl_cons, listRaise, hr]
    rfl

theorem trips_eq (f : LineFunction) : f.trips = (f matches .esdPush | .levelSwitch | .breakaway) := by
  cases f <;> rfl

theorem valveOf_closed_jammed (closedLimit openLimit : Bool) :
    valveOf .closed closedLimit openLimit = .jammed ↔ (openLimit && closedLimit) = true := by
  cases closedLimit <;> cases openLimit <;> decide

theorem resumed_jammed : (s.resumed sample).valve = .jammed ↔
    (decide (5000 ≤ sample.openLimit) && decide (5000 ≤ sample.closedLimit)) = true := by
  show valveOf (controllerAtStart s.ret.settings sample).command (controllerAtStart s.ret.settings sample).closedLimit
    (controllerAtStart s.ret.settings sample).openLimit = .jammed ↔ _
  rw [controllerAtStart_eq]
  exact valveOf_closed_jammed _ _

theorem valveRaises_resumed : (valveRaises (s.resumed sample)).map Raise.pair =
    if decide (5000 ≤ sample.openLimit) && decide (5000 ≤ sample.closedLimit) then [(.valve, .bothLimits)] else [] := by
  unfold valveRaises
  rw [apply_ite (List.map Raise.pair)]
  exact if_congr (resumed_jammed s sample) rfl rfl

theorem lineRaises_resumed : (lineRaises (s.resumed sample)).map Raise.pair =
    (allLines.filter fun n => (s.lineConfig n).function.trips &&
        (decide (5000 ≤ at' sample.lines n) != (s.lineConfig n).inverted)).map fun n =>
      (.line n, .line (s.lineConfig n).function (s.lineConfig n).trigger) := by
  simp only [lineRaises, resumed_lineConfig, resumed_line, lineAtStart_eq, List.map_map]
  rfl

end Resumed

/-! ### The warm start (R178) -/

theorem exec_warmStart {sample : InputSample} {schedule : List RaisingBlock} {s : State} (hm : s.ret.marker = true)
    (hc : s.ret.checkCorrect = true) (hlo : 18000 ≤ sample.power.supply) (hhi : sample.power.supply ≤ 32000)
    (hr : sample.power.resetAsserted = false) :
    exec (.warmStart sample schedule) s = .next (startFrom s.ret s.ret .warm sample schedule s) := by
  have hstarts : startsPart sample.power = true := by
    simp [startsPart, Config.operatingLow, Config.operatingHigh, hlo, hhi, hr]
  have hvalid : s.ret.valid = true := by simp [Retained.valid, hm, hc]
  show execWarmStart sample schedule s = _
  rw [execWarmStart, if_pos hstarts, startPart, if_pos hvalid]

/-- The raises of a warm start are at TRIP. -/
theorem startRaises_trip {s : State} {sample : InputSample} {schedule : List RaisingBlock} :
    ∀ r ∈ s.startRaises sample schedule, r.cls = .trip := by
  intro r hr
  rcases List.mem_append.1 hr with hr | hr
  · rcases List.mem_cons.1 hr with rfl | hr
    · rfl
    · exact (mem_loopRaises hr).2
  · exact (mem_laterRaises hr).2

/-- The raises of a warm start by source and reason: POWER, LOOP where loop IN is sampled OPEN, the blocks' (R124). -/
theorem startRaises_pairs (s : State) (sample : InputSample) (schedule : List RaisingBlock) :
    (s.startRaises sample schedule).map Raise.pair = (.power, .warm) ::
      ((if (if 12000 ≤ sample.loopIn then LoopState.closed else .opened) = .opened then [(.loop, .opened)] else []) ++
        (laterRaises schedule s.ret.tanks (s.resumed sample)).map Raise.pair) := by
  have hin : (s.resumed sample).loop.loopIn = if 12000 ≤ sample.loopIn then .closed else .opened :=
    congrArg StopLoop.loopIn (loopAtStart_eq sample)
  rw [State.startRaises, List.map_append, ownRaises, hin, List.map_cons, apply_ite (List.map Raise.pair)]
  rfl

/-- Settles O52: each clause is read off the state resumed and the raises. -/
theorem warmStartResumes : Obligations.WarmStartResumes := by
  intro sample schedule s hm hc hlo hhi hr loopIn openLimit closedLimit made active link role
  obtain ⟨hstart, hpower⟩ := startFrom_warm sample schedule s
  let rs := s.startRaises sample schedule
  let t : State := { (s.resumed sample).rated with ret.holds := raisedHolds rs s }
  have htank (i : Fin 8) : t.tank i = flagsAtStart (agedAtStart s.ret.settings.stale (s.tank i)) :=
    resumed_tank s sample i
  have hlink (straps : Bool × Bool) : linkAtStart straps = link straps := by
    rw [linkAtStart, strappedRate_eq]
    rfl
  refine ⟨t, (exec_warmStart hm hc hlo hhi hr).trans (congrArg _ hstart), rfl, rfl, rfl, ?_,
    s.ret.mem_placed_lapsed, fun i => ?_, fun j => ?_, hpower, fun h hh => raisedHolds_keeps hh, ?_,
    loopAtStart_eq sample, rfl, rfl, rfl, rfl, rfl, controllerAtStart_eq .., rfl, ?_, fun n => ?_, ?_, rfl, rfl⟩
  · show { (s.resumed sample).ret with holds := raisedHolds rs s } = _
    rw [resumed_ret]
    rfl
  · rw [htank]
    exact tankAtStart_spec s.ret.settings.stale (s.tank i)
  · exact (resumed_stage s sample j).trans (stageAtStart_eq _)
  · intro overfull jam lines
    let ws := watchRaises s.ret.tanks (s.resumed sample).ret.tanks
    let vs := valveRaises (s.resumed sample)
    let ls := lineRaises (s.resumed sample)
    have hws : ws.map Raise.pair = overfull := List.map_map
    have hvs : vs.map Raise.pair = jam := valveRaises_resumed s sample
    have hls : ls.map Raise.pair = lines := by
      refine (lineRaises_resumed s sample).trans ?_
      simp only [trips_eq]
      rfl
    refine ⟨(laterRaises schedule s.ret.tanks (s.resumed sample)).map Raise.pair, ?_, ?_, ?_, ?_, ?_⟩
    · rw [← hws, ← hvs, ← hls, ← List.map_append, ← List.map_append]
      exact (interleave_perm ..).map _
    · rw [← hws]
      exact (interleave_watch ..).map _
    · rw [← hvs]
      exact (interleave_valve ..).map _
    · rw [← hls]
      exact (interleave_lines ..).map _
    · rw [← startRaises_pairs]
      exact raisedHolds_pairs startRaises_trip s
  · exact resumed_instruments s sample
  · exact (resumed_line s sample n).trans (lineAtStart_eq ..)
  · show ({ barge := linkAtStart sample.straps.barge, ship := linkAtStart sample.straps.ship,
            survey := linkAtStart sample.straps.survey } : PerStation Link) = _
    rw [hlink, hlink, hlink]

end Sys2Proof.Machine
end

