-- ==== Sys2Proof/Proofs/DeliverySound.lean ====
section
/-! What every step keeps of delivery (R72, R73, R79): the valve command and the demand with the delivery state. -/

namespace Sys2Proof.Machine

/-! ### Delivery states in which the valve is commanded open (R79) -/

theorem flowing_iff {d : DeliveryState} : d.flowing = true ↔ d = .opening ∨ d = .pumping ∨ d = .rundown := by
  cases d <;> decide

/-- Outside PUMPING a running part is sound when the command follows the delivery state and the demand is 0 (R72, R79). -/
theorem deliverySound_unpumped {s : State} (hr : s.running = true) (hp : s.ret.delivery ≠ .pumping)
    (hc : s.controller.command = .opened ↔ s.ret.delivery.flowing = true) (hd : s.governor.demand = 0)
    (hm : s.governor.ramp = none) : s.deliverySound :=
  ⟨hc.trans (by rw [flowing_iff, hr]; simp), fun _ => ⟨hd, hm⟩, fun _ h => absurd h hp⟩

/-- In PUMPING it is sound when the command is OPEN, the ramp runs and the demand lies between Rmin and P (R72, R73). -/
theorem deliverySound_pumped {s : State} (hr : s.running = true) (hp : s.ret.delivery = .pumping)
    (hc : s.controller.command = .opened) (hm : s.governor.ramp ≠ none)
    (hlo : s.ret.settings.rmin ≤ s.governor.demand) (hhi : s.governor.demand ≤ s.governor.permitted) :
    s.deliverySound :=
  ⟨by simp [hr, hp, hc], fun h => absurd ⟨hr, hp⟩ h, fun _ _ => ⟨hlo, hhi, hm⟩⟩

/-- The soundness of delivery with the demand's bounds left open: what a recomputation needs of the state it finds. -/
def State.deliveryPlaced (s : State) : Prop :=
  s.running = true ∧ (s.controller.command = .opened ↔ s.ret.delivery.flowing = true) ∧
    (s.ret.delivery ≠ .pumping → s.governor.demand = 0 ∧ s.governor.ramp = none) ∧
    (s.ret.delivery = .pumping → s.governor.ramp ≠ none)

theorem State.deliverySound.placed {s : State} (h : s.deliverySound) (hr : s.running = true) : s.deliveryPlaced := by
  obtain ⟨hc, hoff, hon⟩ := h
  exact ⟨hr, hc.trans (by rw [flowing_iff, hr]; simp), fun hp => hoff fun hn => hp hn.2, fun hp => (hon hr hp).2.2⟩

section Sound

variable {s : State} (hs : s.deliverySound) (hr : s.running = true)
include hs hr

theorem command_of_flowing (hd : s.ret.delivery.flowing = true) : s.controller.command = .opened :=
  (hs.placed hr).2.1.2 hd

theorem command_of_not_flowing (hd : s.ret.delivery.flowing = false) : s.controller.command = .closed := by
  cases hc : s.controller.command with
  | closed => rfl
  | opened => exact absurd ((hs.placed hr).2.1.1 hc) (by simp [hd])

end Sound

/-- A delivery state that leaves the valve closed, entered with the command CLOSED (R72, R79). -/
theorem deliverySound_shut {s t : State} {d : DeliveryState} {g : Governor} {c : Controller} {nf : NoFlow}
    (ht : t = s.redirect d g c nf) (hr : s.running = true) (hd : d.flowing = false) (hc : c.command = .closed)
    (hg : g.demand = 0 ∧ g.ramp = none) : t.deliverySound := by
  subst ht
  refine deliverySound_unpumped hr ?_ ?_ hg.1 hg.2
  · show d ≠ .pumping
    rintro rfl
    cases hd
  · show c.command = .opened ↔ d.flowing = true
    simp [hc, hd]

/-- What the end of a step leaves of delivery: RUNDOWN with the command OPEN, or CLOSING or SETTLING with it CLOSED. -/
theorem deliverySound_ended {s t : State} {d : DeliveryState} {g : Governor} {c : Controller} {nf : NoFlow}
    (ht : t = s.redirect d g c nf) (hr : s.running = true) (hs : s.controller.command = .opened)
    (hg : g.demand = 0 ∧ g.ramp = none)
    (hd : d = .rundown ∧ c.command = s.controller.command ∨ (d = .closing ∨ d = .settling) ∧ c.command = .closed) :
    t.deliverySound := by
  subst ht
  have hc : c.command = .opened ↔ d.flowing = true := by
    rcases hd with ⟨rfl, hc⟩ | ⟨rfl | rfl, hc⟩ <;> simp [hc, hs, DeliveryState.flowing]
  refine deliverySound_unpumped hr ?_ hc hg.1 hg.2
  rcases hd with ⟨rfl, -⟩ | ⟨rfl | rfl, -⟩ <;> exact fun h => by cases h

/-! ### The recomputation (R67, R68, R74) -/

/-- A recomputation leaves delivery as it should be but for Rmin: a demand below Rmin stays where it is no more than
lowered to P. -/
theorem recompute_placed {s : State} (h : s.deliveryPlaced) :
    (recompute s).deliverySound ∨
      (recompute s).deliveryPlaced ∧ (recompute s).ret.delivery = .pumping ∧
        (recompute s).ret.settings.rmin ≤ (recompute s).governor.permitted ∧
        (recompute s).governor.demand = min s.governor.demand (recompute s).governor.permitted := by
  obtain ⟨hr, hc, hoff, hon⟩ := h
  by_cases hp : s.ret.delivery = .pumping
  · have hopen : s.controller.command = .opened := hc.2 (by rw [hp]; rfl)
    obtain ⟨d, g, c, nf, he, -, -, -, -, -, -, -, hcase⟩ := recompute_spec s
    rcases hcase hp with ⟨rfl, hle, hdem, hramp, rfl⟩ | ⟨-, hdem, hramp, hd⟩
    · rw [he]
      exact .inr ⟨⟨hr, by simp [State.redirect, hopen, DeliveryState.flowing], fun hn => absurd rfl hn,
        fun _ => by rw [State.redirect, hramp]; exact hon hp⟩, rfl, hle, hdem⟩
    · exact .inl (deliverySound_ended he hr hopen ⟨hdem, hramp⟩ hd)
  · rw [recompute_idle s hp]
    exact .inl (deliverySound_unpumped hr hp hc (hoff hp).1 (hoff hp).2)

/-- A recomputation keeps delivery sound (R67, R68, R74). -/
theorem recompute_deliverySound {s : State} (hs : s.deliverySound) (hr : s.running = true) :
    (recompute s).deliverySound := by
  rcases recompute_placed (hs.placed hr) with h | ⟨⟨hr', hc, -, hon⟩, hp, hle, hdem⟩
  · exact h
  · have hp0 : s.ret.delivery = .pumping := by
      by_contra hn
      rw [recompute_idle s hn] at hp
      exact hn hp
    refine deliverySound_pumped hr' hp (hc.2 (by rw [hp]; rfl)) (hon hp) ?_ ?_
    · rw [hdem]
      refine Nat.le_min.2 ⟨?_, hle⟩
      rw [recompute_settings]
      exact (hs.2.2 hr hp0).1
    · rw [hdem]
      exact Nat.min_le_right _ _

/-- The effects of a SET of a rate limit leave delivery sound, though Rmin may have risen above the demand (R76). -/
theorem limitsAct_deliverySound (which : RateLimit) {s : State} (h : s.deliveryPlaced) :
    (limitsAct which s).deliverySound := by
  have hlift : (liftDemand (recompute s)).deliverySound := by
    unfold liftDemand
    rcases recompute_placed h with hs | ⟨⟨hr, hc, -, hon⟩, hp, hle, hdem⟩
    · by_cases hd : (recompute s).ret.delivery = .pumping ∧
          (recompute s).governor.demand < (recompute s).ret.settings.rmin
      · exact absurd (hs.2.2 ((alike_recompute s).1.trans h.1) hd.1).1 (Nat.not_le.2 hd.2)
      · rw [if_neg hd]
        exact hs
    · have hopen := hc.2 (by rw [hp]; rfl)
      split
      · rw [evalNoFlow_eq]
        exact deliverySound_pumped hr hp hopen (hon hp) (Nat.le_refl _) hle
      · next hn =>
        refine deliverySound_pumped hr hp hopen (hon hp) (Nat.not_lt.1 fun hlt => hn ⟨hp, hlt⟩) ?_
        rw [hdem]
        exact Nat.min_le_right _ _
  unfold limitsAct
  dsimp only
  split
  · obtain ⟨ov, ho⟩ := evalOverspeed_spec (liftDemand (recompute s))
    rw [ho]
    exact hlift
  · exact hlift

/-! ### Every move (R72, R73, R79) -/

/-- The core has all that soundness of delivery speaks of. -/
theorem deliverySound_congr {s t : State} (h : coreOf t = coreOf s) (hs : s.deliverySound) : t.deliverySound := by
  have hrun : t.running = s.running := congrArg Core.running h
  have hdel : t.ret.delivery = s.ret.delivery := congrArg Core.delivery h
  have hcmd : t.controller.command = s.controller.command := congrArg Core.command h
  have hdem : t.governor.demand = s.governor.demand := congrArg Core.demand h
  have hper : t.governor.permitted = s.governor.permitted := congrArg Core.permitted h
  have hmin : t.ret.settings.rmin = s.ret.settings.rmin := congrArg Core.rmin h
  have hruns : t.governor.ramp.isSome = s.governor.ramp.isSome := congrArg Core.rampRuns h
  have hramp : t.governor.ramp = none ↔ s.governor.ramp = none := by
    rw [← Option.not_isSome_iff_eq_none, ← Option.not_isSome_iff_eq_none, hruns]
  simpa only [State.deliverySound, hrun, hdel, hcmd, hdem, hper, hmin, hramp, ne_eq] using hs

theorem rampDemand_bounds {s : State} {m : Nat} (hlo : m ≤ s.governor.demand)
    (hhi : s.governor.demand ≤ s.governor.permitted) : m ≤ rampDemand s ∧ rampDemand s ≤ s.governor.permitted := by
  unfold rampDemand
  split
  · split
    · exact ⟨hlo, hhi⟩
    · omega
  · omega

theorem armStep_deliverySound {r : Step} {e : Event} (hs : e.s.deliverySound) (hr : e.s.running = true)
    (hc : candidate e.s = some r) : (armStep r e).s.deliverySound := by
  have hclosed : e.s.controller.command = .closed := by
    refine command_of_not_flowing hs hr ?_
    unfold candidate at hc
    split at hc
    · next hd => rw [hd]; rfl
    · next hd => rw [hd]; rfl
    all_goals cases hc
  unfold armStep
  dsimp only
  refine recompute_deliverySound ?_ ?_
  · refine deliverySound_shut (setDelivery_spec _ _ (by decide)) ?_ rfl ?_ ⟨rfl, rfl⟩
    · dsimp only
      split <;> exact hr
    · dsimp only
      split <;> exact hclosed
  · rw [setDelivery_spec _ _ (by decide)]
    dsimp only [State.redirect]
    split <;> exact hr

/-- Every move keeps delivery sound. -/
theorem Move.keeps_deliverySound {s t : State} (h : Move s t) (hs : s.deliverySound) : t.deliverySound := by
  cases h with
  | quiet _ _ hc => exact deliverySound_congr hc hs
  | closing _ hr hd =>
    obtain ⟨d, c, he, hdc, hc, -⟩ := enterClosing_spec s
    exact deliverySound_shut he hr (by rcases hdc with rfl | rfl <;> rfl) hc ⟨rfl, rfl⟩
  | rundown _ hr hd =>
    obtain ⟨d, c, he, hdc, -⟩ := enterRundown_spec s
    exact deliverySound_ended he hr (command_of_flowing hs hr (by rw [hd]; rfl)) ⟨rfl, rfl⟩ hdc
  | settling _ hr hd =>
    exact deliverySound_shut (enterSettling_spec s) hr rfl (command_of_not_flowing hs hr (by rw [hd]; rfl)) ⟨rfl, rfl⟩
  | pumping _ hr hd =>
    have hopen := command_of_flowing hs hr (by rw [hd]; rfl)
    obtain ⟨d, g, c, nf, he, -, -, -, -, -, -, ⟨rfl, hle, hdem, hramp, hc⟩ | ⟨-, hdem, hramp, hdc⟩⟩ :=
      enterPumping_spec s
    · rw [he]
      exact deliverySound_pumped hr rfl (hc.trans hopen) (by simp [State.redirect, hramp]) (Nat.le_of_eq hdem.symm)
        (Nat.le_trans (Nat.le_of_eq hdem) hle)
    · exact deliverySound_ended he hr hopen ⟨hdem, hramp⟩ hdc
  | rate _ hr => exact recompute_deliverySound hs hr
  | limits _ which v hr =>
    have h := hs.placed hr
    exact limitsAct_deliverySound which h
  | stopTime _ which v hr => cases which <;> exact hs
  | arming e how hr hd =>
    have hclosed := command_of_not_flowing hs hr (by rw [hd]; rfl)
    cases ha : e.s.ret.active with
    | none => exact deliverySound_shut (endArming_none how e ha) hr rfl hclosed ⟨rfl, rfl⟩
    | some r =>
      by_cases hf : e.s.controller.armedFrom = some .idle
      · exact deliverySound_shut (endArming_idle how e r ha hf) hr rfl hclosed ⟨rfl, rfl⟩
      · exact deliverySound_shut (endArming_held how e r ha hf) hr rfl hclosed ⟨rfl, rfl⟩
  | arm e r hr hn hc => exact armStep_deliverySound hs hr hc
  | opening _ r hr hd ha =>
    unfold openingEffect
    rw [setDelivery_spec _ _ (by decide), setCommand_eq]
    exact deliverySound_unpumped hr (by simp [State.redirect]) (by simp [State.redirect, DeliveryState.flowing]) rfl rfl
  | finish e cause r hr hd ha =>
    have hclosed := command_of_not_flowing hs hr (by rcases hd with hd | hd <;> rw [hd] <;> rfl)
    exact deliverySound_shut (finishStep_spec cause r e) hr rfl hclosed ⟨rfl, rfl⟩
  | hold _ last r hr hd ha =>
    exact deliverySound_shut (holdStep_spec last r s) hr rfl (command_of_not_flowing hs hr (by rw [hd]; rfl)) ⟨rfl, rfl⟩
  | unheld _ hr hd ha =>
    have hclosed := command_of_not_flowing hs hr (by rw [hd]; rfl)
    exact deliverySound_shut (setDelivery_spec _ _ (by decide)) hr rfl hclosed ⟨rfl, rfl⟩
  | unslotted _ hr hd ha =>
    have hclosed := command_of_not_flowing hs hr (by rw [hd]; rfl)
    exact deliverySound_shut (setDelivery_spec _ _ (by decide)) hr rfl hclosed ⟨rfl, rfl⟩
  | ramp _ hr hd =>
    obtain ⟨hlo, hhi, -⟩ := hs.2.2 hr hd
    obtain ⟨hlo', hhi'⟩ := rampDemand_bounds hlo hhi
    have hopen := command_of_flowing hs hr (by rw [hd]; rfl)
    rw [evalNoFlow_eq]
    exact deliverySound_pumped hr hd hopen (by simp) hlo' hhi'
  | openTransfer _ id gs hr => exact recompute_deliverySound (s := { s with
      ret.transfer := { state := .opened, id := some id, grades := gs, nextStep := some 1, clock := 0 },
      ret.totals := mapTable (fun _ => { litres := 0, steps := 0 }) s.ret.totals,
      ret.unassigned := 0, ret.metered := 0, ret.lapsed := [],
      ret.tanks := mapTable clearReading s.ret.tanks, tickCount := 0 }) hs hr
  | _ => exact hs

/-! ### Starts (R101, R102, R178) -/

/-- The state a start leaves, its raises apart: P computed on a Governor and a controller at rest, delivery IDLE with an
empty slot or HELD with a step in it (R77, R101, R102). -/
theorem startFrom_rated (memory prior : Retained) (reason : HoldReason) (sample : InputSample)
    (schedule : List RaisingBlock) (s : State) : ∃ (u : State) (holds : List HoldEntry) (loop : StopLoop),
    startFrom memory prior reason sample schedule s = { u.rated with ret.holds := holds, loop := loop } ∧
      u.running = true ∧ u.governor = startGovernor ∧ u.controller = controllerAtStart memory.settings sample ∧
      (u.ret.delivery = .idle ∧ u.ret.active = none ∨ u.ret.delivery = .held ∧ u.ret.active ≠ none) := by
  have hplaced (m : Retained) : m.placed.delivery = .idle ∧ m.placed.active = none ∨
      m.placed.delivery = .held ∧ m.placed.active ≠ none := by
    cases ha : m.active <;> simp [Retained.placed, ha]
  unfold startFrom
  rw [placeStep_eq]
  obtain ⟨h1, l1, e1⟩ := foldl_startRaise_eq
    (ownRaises reason { sampled memory prior sample s with ret := (sampled memory prior sample s).ret.placed })
    { sampled memory prior sample s with ret := (sampled memory prior sample s).ret.placed }
  dsimp only
  rw [e1]
  have hd := hplaced (sampled memory prior sample s).ret
  rw [recompute_idle]
  · generalize interleave schedule _ _ _ = raises
    obtain ⟨h2, l2, e2⟩ := foldl_startRaise_eq raises (watchStarts { sampled memory prior sample s with
        ret := { (sampled memory prior sample s).ret.placed with holds := h1 }, loop := l1 }).rated
    rw [e2]
    exact ⟨_, h2, l2, rfl, rfl, rfl, rfl, hd⟩
  · show (sampled memory prior sample s).ret.placed.delivery ≠ .pumping
    rcases hd with ⟨hd, -⟩ | ⟨hd, -⟩ <;> rw [hd] <;> decide

theorem startPart_rated (memory : Retained) (sample : InputSample) (schedule : List RaisingBlock) (s : State) :
    ∃ (u : State) (settings : Settings) (holds : List HoldEntry) (loop : StopLoop),
      startPart memory sample schedule s = { u.rated with ret.holds := holds, loop := loop } ∧
      u.running = true ∧ u.governor = startGovernor ∧ u.controller = controllerAtStart settings sample ∧
      (u.ret.delivery = .idle ∧ u.ret.active = none ∨ u.ret.delivery = .held ∧ u.ret.active ≠ none) := by
  unfold startPart
  split
  all_goals
    obtain ⟨u, holds, loop, h⟩ := startFrom_rated _ _ _ sample schedule s
    exact ⟨u, _, holds, loop, h⟩

theorem startPart_deliverySound (memory : Retained) (sample : InputSample) (schedule : List RaisingBlock) (s : State) :
    (startPart memory sample schedule s).deliverySound := by
  obtain ⟨u, settings, holds, loop, he, hr, hg, hc, hd⟩ := startPart_rated memory sample schedule s
  have hcmd : u.controller.command = .closed := by rw [hc]; rfl
  rw [he]
  refine deliverySound_unpumped hr ?_ ?_ (congrArg Governor.demand hg) (congrArg Governor.ramp hg)
  · show u.ret.delivery ≠ .pumping
    rcases hd with ⟨hd, -⟩ | ⟨hd, -⟩ <;> rw [hd] <;> decide
  · show u.controller.command = .opened ↔ u.ret.delivery.flowing = true
    rcases hd with ⟨hd, -⟩ | ⟨hd, -⟩ <;> rw [hd, hcmd] <;> decide

/-- Every step keeps the command and the demand with the delivery state (R72, R73, R79). -/
theorem step_keeps_deliverySound {s t : State} (hs : s.deliverySound) (h : step s = .next t) : t.deliverySound := by
  refine step_keeps (P := State.deliverySound) (fun _ _ h => h) (fun _ _ h => h)
    (fun _ _ hm => hm.keeps_deliverySound) (fun s m _ _ => ?_) (fun s m sample schedule _ _ => ?_) hs h
  · exact ⟨by simp [stopped, startController], fun _ => ⟨rfl, rfl⟩, fun hr => by cases hr⟩
  · exact startPart_deliverySound m sample schedule s

end Sys2Proof.Machine
end

