-- ==== Sys2Proof/Proofs/Follows.lean ====
section
/-! What an operation carries: R78's items in their delivery states, and P as the terms give it (R65, R67, R78, R93). An
operation that changes what a term reads carries the first alone, until a recomputation of P ends it. -/

namespace Sys2Proof.Machine

/-! ### R78's items by the delivery state -/

/-- The delivery state, and which of the slot and R78's items are filled. -/
structure DeliveryItems where
  delivery : DeliveryState
  slot : Bool
  stopCause : Bool
  armedFrom : Bool
  confirm : Bool
  rundown : Bool
  settle : Bool

def itemsOf (s : State) : DeliveryItems :=
  { delivery := s.ret.delivery, slot := s.ret.active.isSome, stopCause := s.controller.stopCause.isSome,
    armedFrom := s.controller.armedFrom.isSome, confirm := s.controller.confirm.isSome,
    rundown := s.controller.rundown.isSome, settle := s.controller.settle.isSome }

/-- Each item is present in its own delivery states alone, and the slot is empty in IDLE alone (R20, R78, R93). -/
def DeliveryItems.sound (c : DeliveryItems) : Prop :=
  c.slot = decide (c.delivery ≠ .idle) ∧ c.stopCause = c.delivery.stopping ∧
    c.armedFrom = decide (c.delivery = .armed) ∧ c.confirm = decide (c.delivery = .armed) ∧
    c.rundown = decide (c.delivery = .rundown) ∧ c.settle = decide (c.delivery = .settling)

def State.timed (s : State) : Prop := (itemsOf s).sound

/-- R78's items at a delivery state that is known (R20, R78, R93). -/
theorem State.timed.at {s : State} {d : DeliveryState} (h : s.timed) (hd : s.ret.delivery = d) :
    s.ret.active.isSome = decide (d ≠ .idle) ∧ s.controller.stopCause.isSome = d.stopping ∧
      s.controller.armedFrom.isSome = decide (d = .armed) ∧ s.controller.confirm.isSome = decide (d = .armed) ∧
      s.controller.rundown.isSome = decide (d = .rundown) ∧ s.controller.settle.isSome = decide (d = .settling) :=
  hd ▸ h

/-- A step that can be stopped: it has a stop cause, and neither an arming nor a settling is under way (R93). -/
def DeliveryItems.stoppable (c : DeliveryItems) : Prop :=
  c.slot = true ∧ c.stopCause = true ∧ c.armedFrom = false ∧ c.confirm = false ∧ c.settle = false

theorem stopping_iff {d : DeliveryState} : d.stopping = true ↔ d = .rundown ∨ d = .closing ∨ d = .settling := by
  cases d <;> decide

/-- The items of a running part with its pool whole are R78's (R20, R78, R93). -/
theorem timed_iff {s : State} (hr : s.running = true) :
    s.timed ↔ s.timersSound ∧ (s.ret.delivery = .idle ↔ s.ret.active = none) := by
  have item {α : Type} (o : Option α) (p : Prop) [Decidable p] : o.isSome = decide p ↔ (o ≠ none ↔ p) := by
    rw [Bool.eq_iff_iff, decide_eq_true_iff, Option.isSome_iff_ne_none]
  have cause : s.controller.stopCause.isSome = s.ret.delivery.stopping ↔ (s.controller.stopCause ≠ none ↔
      s.ret.delivery = .rundown ∨ s.ret.delivery = .closing ∨ s.ret.delivery = .settling) := by
    rw [Bool.eq_iff_iff, stopping_iff, Option.isSome_iff_ne_none]
  have slot : s.ret.active.isSome = decide (s.ret.delivery ≠ .idle) ↔
      (s.ret.delivery = .idle ↔ s.ret.active = none) :=
    (item _ _).trans (not_iff_not.trans ⟨Iff.symm, Iff.symm⟩)
  constructor
  · rintro ⟨hslot, hcause, harmed, hconfirm, hrundown, hsettle⟩
    exact ⟨⟨fun _ => ⟨cause.1 hcause, (item _ _).1 harmed, (item _ _).1 hconfirm, (item _ _).1 hrundown,
      (item _ _).1 hsettle⟩, fun hn => by simp [hr] at hn⟩, slot.1 hslot⟩
  · rintro ⟨⟨h, -⟩, hslot⟩
    obtain ⟨hcause, harmed, hconfirm, hrundown, hsettle⟩ := h hr
    exact ⟨slot.2 hslot, cause.2 hcause, (item _ _).2 harmed, (item _ _).2 hconfirm, (item _ _).2 hrundown,
      (item _ _).2 hsettle⟩

/-! ### What the terms read (R58 to R66) -/

/-- What the terms read of a tank (R60, R62, R63). -/
def Tank.termView (t : Tank) : Option Nat × GaugeStatus × Vector Bool 4 := (t.room, t.status, t.engaged)

/-- A step with what no term reads of it left out. -/
def Step.termView (r : Step) : Step := { r with startTime := none, holdCount := 0, lastStop := none }

/-- P and the limiting term as they stand, and all that the terms read. -/
structure RateView where
  permitted : Nat
  term : LimitTerm
  slot : Option Step
  rmax : Nat
  rmin : Nat
  tstop : Nat
  cb : Nat
  stages : Vector Stage 4
  blind : Bool
  tanks : Fin 8 → Option Nat × GaugeStatus × Vector Bool 4

def rateViewOf (s : State) : RateView :=
  { permitted := s.governor.permitted, term := s.governor.term, slot := s.ret.active.map Step.termView,
    rmax := s.ret.settings.rmax, rmin := s.ret.settings.rmin, tstop := s.ret.settings.tstop, cb := s.ret.settings.cb,
    stages := s.ret.stages, blind := s.instruments.hose.blind, tanks := fun i => (s.tank i).termView }

/-- P and the limiting term stand as the terms give them (R65, R66). -/
def State.rateStands (s : State) : Prop :=
  s.governor.permitted = permittedRate s ∧ s.governor.term = limitingTerm s

section Congr

variable {s t : State} (h : rateViewOf t = rateViewOf s)
include h

theorem stage_congr (j : Fin 4) : t.stage j = s.stage j := congrArg (fun v => at' (RateView.stages v) j) h

theorem termView_congr (i : Fin 8) : (t.tank i).termView = (s.tank i).termView := congrArg (fun v => RateView.tanks v i) h

theorem baseRate_congr : baseRate t = baseRate s := by
  have hmax : t.ret.settings.rmax = s.ret.settings.rmax := congrArg RateView.rmax h
  have hmin : t.ret.settings.rmin = s.ret.settings.rmin := congrArg RateView.rmin h
  funext r
  simp only [baseRate, hmax, hmin]

theorem quantityTerm_congr : quantityTerm t = quantityTerm s := by
  have hmax : t.ret.settings.rmax = s.ret.settings.rmax := congrArg RateView.rmax h
  have hstop : t.ret.settings.tstop = s.ret.settings.tstop := congrArg RateView.tstop h
  funext r
  simp only [quantityTerm, hmax, hstop]

theorem tankRate_congr : tankRate t = tankRate s := by
  have hmax : t.ret.settings.rmax = s.ret.settings.rmax := congrArg RateView.rmax h
  have hstop : t.ret.settings.tstop = s.ret.settings.tstop := congrArg RateView.tstop h
  have hroom (i : Fin 8) : (t.tank i).room = (s.tank i).room := congrArg (·.1) (termView_congr h i)
  funext e
  simp only [tankRate, hmax, hstop, hroom]

theorem projectionTerm_congr : projectionTerm t = projectionTerm s := by
  have hmax : t.ret.settings.rmax = s.ret.settings.rmax := congrArg RateView.rmax h
  funext r
  simp only [projectionTerm, tankRate_congr h, hmax]

theorem fillStage_congr : fillStage t = fillStage s := by
  have hengaged (i : Fin 8) : (t.tank i).engaged = (s.tank i).engaged := congrArg (·.2.2) (termView_congr h i)
  funext i
  simp only [fillStage, stage_congr h, hengaged]

theorem tankStageRate_congr : tankStageRate t = tankStageRate s := by
  funext r i
  simp only [tankStageRate, fillStage_congr h, baseRate_congr h, stage_congr h]

theorem instrumentStage_congr : instrumentStage t = instrumentStage s := by
  simp only [instrumentStage, stage_congr h]

theorem stageTerm_congr : stageTerm t = stageTerm s := by
  funext r
  simp only [stageTerm, tankStageRate_congr h, instrumentStageRate, instrumentStage_congr h, baseRate_congr h,
    stage_congr h]

theorem status_congr (i : Fin 8) : (t.tank i).status = (s.tank i).status := congrArg (·.2.1) (termView_congr h i)

theorem degradeTerm_congr : degradeTerm t = degradeTerm s := by
  funext r
  simp only [degradeTerm, degradeRate, enabledFillRates, status_congr h, baseRate_congr h, stage_congr h]

theorem blindTerm_congr : blindTerm t = blindTerm s := by
  have hcb : t.ret.settings.cb = s.ret.settings.cb := congrArg RateView.cb h
  have hblind : t.instruments.hose.blind = s.instruments.hose.blind := congrArg RateView.blind h
  funext r
  simp only [blindTerm, hcb, hblind, baseRate_congr h]

theorem stepPermitted_congr : stepPermitted t = stepPermitted s := by
  funext r
  simp only [stepPermitted, baseRate_congr h, quantityTerm_congr h, projectionTerm_congr h, stageTerm_congr h,
    degradeTerm_congr h, blindTerm_congr h]

theorem stepTerm_congr : stepTerm t = stepTerm s := by
  have hlimit : stageLimit t = stageLimit s := by
    funext r p
    simp only [stageLimit, tankStageRate_congr h, fillStage_congr h, instrumentStage_congr h, stage_congr h]
  have hdegrade : degradeLimit t = degradeLimit s := by
    funext r
    simp only [degradeLimit, status_congr h]
  funext r
  simp only [stepTerm, stepPermitted_congr h, baseRate_congr h, quantityTerm_congr h, projectionTerm_congr h,
    tankRate_congr h, stageTerm_congr h, degradeTerm_congr h, hlimit, hdegrade]

end Congr

theorem permittedRate_termView (s : State) :
    permittedRate s = ((s.ret.active.map Step.termView).map (stepPermitted s)).getD 0 := by
  unfold permittedRate
  cases s.ret.active <;> rfl

theorem limitingTerm_termView (s : State) :
    limitingTerm s = ((s.ret.active.map Step.termView).map (stepTerm s)).getD .none := by
  unfold limitingTerm
  cases s.ret.active <;> rfl

/-- P and the limiting term stand in every state with the same view. -/
theorem rateStands_congr {s t : State} (h : rateViewOf t = rateViewOf s) (hs : s.rateStands) : t.rateStands := by
  have hslot : t.ret.active.map Step.termView = s.ret.active.map Step.termView := congrArg RateView.slot h
  obtain ⟨hsp, hst⟩ := hs
  rw [permittedRate_termView] at hsp
  rw [limitingTerm_termView] at hst
  refine ⟨?_, ?_⟩
  · rw [permittedRate_termView, hslot, stepPermitted_congr h, ← hsp]
    exact congrArg RateView.permitted h
  · rw [limitingTerm_termView, hslot, stepTerm_congr h, ← hst]
    exact congrArg RateView.term h

/-- With an empty slot P is 0 with no limiting term (R65). -/
theorem rateStands_empty {s : State} (ha : s.ret.active = none) (hp : s.governor.permitted = 0)
    (ht : s.governor.term = .none) : s.rateStands := by
  simp [State.rateStands, permittedRate, limitingTerm, ha, hp, ht]

/-! ### What an operation carries -/

/-- A state that follows another: it runs alike, R78's items stay in their delivery states and, where `rated` holds, P
stays as the terms give it. -/
def State.follows (rated : Bool) (s t : State) : Prop :=
  t.running = s.running ∧ (s.timed → t.timed) ∧ (rated = true → s.rateStands → t.rateStands)

section Follows

variable {b : Bool} {s t u : State}

theorem State.follows_refl (b : Bool) (s : State) : s.follows b s := ⟨rfl, id, fun _ => id⟩

theorem State.follows.trans (h : s.follows b t) (h' : t.follows b u) : s.follows b u := by
  obtain ⟨hr, ht, hp⟩ := h
  obtain ⟨hr', ht', hp'⟩ := h'
  exact ⟨hr'.trans hr, ht' ∘ ht, fun hb => hp' hb ∘ hp hb⟩

/-- A change of neither view. -/
theorem follows_of_views (hr : t.running = s.running) (hc : itemsOf t = itemsOf s) (hv : rateViewOf t = rateViewOf s) :
    s.follows b t :=
  ⟨hr, fun h => by rw [State.timed, hc]; exact h, fun _ => rateStands_congr hv⟩

/-- A change of what the terms read, before P is recomputed. -/
theorem unrated_of_items (hr : t.running = s.running) (hc : itemsOf t = itemsOf s) : s.follows false t :=
  ⟨hr, fun h => by rw [State.timed, hc]; exact h, fun h => by cases h⟩

/-- A move of the Delivery Controller, by what it makes of R78's items. -/
theorem follows_of_timed (hr : t.running = s.running) (ht : s.timed → t.timed) (hv : rateViewOf t = rateViewOf s) :
    s.follows b t :=
  ⟨hr, ht, fun _ => rateStands_congr hv⟩

end Follows

/-- Operations that follow one another over a list follow as a whole. -/
theorem foldl_follows {α : Type} {b : Bool} (f : Event → α → Event)
    (hf : ∀ (e : Event) a, e.s.follows b (f e a).s) (l : List α) (e : Event) : e.s.follows b (l.foldl f e).s := by
  induction l generalizing e with
  | nil => exact e.s.follows_refl b
  | cons a rest ih => exact (hf e a).trans (ih _)

theorem foldl_state_follows {α : Type} {b : Bool} (f : State → α → State) (hf : ∀ (s : State) a, s.follows b (f s a))
    (l : List α) (s : State) : s.follows b (l.foldl f s) := by
  induction l generalizing s with
  | nil => exact s.follows_refl b
  | cons a rest ih => exact (hf s a).trans (ih _)

/-! ### The Delivery Controller's moves (R91 to R98) -/

/-- A state redirected, with R78's items named. -/
theorem timed_redirect {s : State} {d : DeliveryState} {g : Governor} {c : Controller} {nf : NoFlow}
    (hslot : s.ret.active.isSome = decide (d ≠ .idle)) (hcause : c.stopCause.isSome = d.stopping)
    (harmed : c.armedFrom.isSome = decide (d = .armed)) (hconfirm : c.confirm.isSome = decide (d = .armed))
    (hrundown : c.rundown.isSome = decide (d = .rundown)) (hsettle : c.settle.isSome = decide (d = .settling)) :
    (s.redirect d g c nf).timed :=
  ⟨hslot, hcause, harmed, hconfirm, hrundown, hsettle⟩

theorem timed_stoppable {s : State} (h : s.timed) (hd : s.ret.delivery.flowing = true) (c : StopCause) :
    (itemsOf (fixCause c s)).stoppable := by
  rcases flowing_iff.1 hd with hd | hd | hd
  all_goals
    obtain ⟨hslot, -, harmed, hconfirm, -, hsettle⟩ := h.at hd
    exact ⟨hslot, rfl, harmed, hconfirm, hsettle⟩

theorem timed_rundown_stoppable {s : State} (h : s.timed) (hd : s.ret.delivery = .rundown) : (itemsOf s).stoppable := by
  obtain ⟨hslot, hcause, harmed, hconfirm, -, hsettle⟩ := h.at hd
  exact ⟨hslot, hcause, harmed, hconfirm, hsettle⟩

theorem enterClosing_timed {s : State} (h : (itemsOf s).stoppable) : (enterClosing s).timed := by
  obtain ⟨hslot, hcause, harmed, hconfirm, hsettle⟩ := h
  rw [enterClosing_eq]
  split
  · rw [enterSettling_spec]
    exact timed_redirect hslot hcause harmed hconfirm rfl rfl
  · exact timed_redirect hslot hcause harmed hconfirm rfl hsettle

theorem enterRundown_timed {s : State} (h : (itemsOf s).stoppable) : (enterRundown s).timed := by
  rw [enterRundown_eq]
  split
  · exact enterClosing_timed h
  · obtain ⟨hslot, hcause, harmed, hconfirm, hsettle⟩ := h
    exact timed_redirect hslot hcause harmed hconfirm rfl hsettle

/-- An end decision takes its stop cause from the step in the slot (R68, R69). -/
theorem endDecision_timed {s : State} (h : s.timed) (hd : s.ret.delivery = .pumping) : (endDecision s).timed := by
  refine enterRundown_timed ?_
  obtain ⟨hslot, -, harmed, hconfirm, -, hsettle⟩ := h.at hd
  exact ⟨hslot, by simpa [itemsOf] using hslot, harmed, hconfirm, hsettle⟩

theorem recompute_timed {s : State} (h : s.timed) : (recompute s).timed := by
  by_cases hd : s.ret.delivery = .pumping
  · rcases governorAct_pumping s.rated hd with ⟨-, he⟩ | ⟨-, nf, he⟩
    · exact (congrArg State.timed he).mpr (endDecision_timed (s := s.rated) h hd)
    · refine (congrArg State.timed he).mpr ?_
      obtain ⟨hslot, hcause, harmed, hconfirm, hrundown, hsettle⟩ := h.at hd
      exact timed_redirect hslot hcause harmed hconfirm hrundown hsettle
  · rw [recompute_idle s hd]
    exact h

/-- A recomputation of P ends whatever it follows with P as the terms give it (R67). -/
theorem State.follows.recomputed {b b' : Bool} {s t : State} (h : s.follows b t) : s.follows b' (recompute t) :=
  ⟨(alike_recompute t).1.trans h.1, fun hs => recompute_timed (h.2.1 hs), fun _ _ => recompute_rated t⟩

theorem enterClosing_view (s : State) : rateViewOf (enterClosing s) = rateViewOf s := by
  obtain ⟨d, c, h, -⟩ := enterClosing_spec s; rw [h]; rfl

theorem enterRundown_view (s : State) : rateViewOf (enterRundown s) = rateViewOf s := by
  obtain ⟨d, c, h, -⟩ := enterRundown_spec s; rw [h]; rfl

theorem enterPumping_view (s : State) : rateViewOf (enterPumping s) = rateViewOf s := by
  obtain ⟨d, g, c, nf, h, hp, ht, -⟩ := enterPumping_spec s
  simp only [rateViewOf, h, State.redirect, State.tank, hp, ht]

theorem enterClosing_follows (b : Bool) {s : State} (h : s.timed → (itemsOf s).stoppable) :
    s.follows b (enterClosing s) :=
  follows_of_timed (alike_enterClosing s).1 (fun hs => enterClosing_timed (h hs)) (enterClosing_view s)

theorem fixCause_closing_follows (b : Bool) {s : State} (c : StopCause) (hd : s.ret.delivery.flowing = true) :
    s.follows b (enterClosing (fixCause c s)) :=
  follows_of_timed (alike_enterClosing (fixCause c s)).1 (fun hs => enterClosing_timed (timed_stoppable hs hd c))
    (enterClosing_view (fixCause c s))

theorem fixCause_rundown_follows (b : Bool) {s : State} (c : StopCause) (hd : s.ret.delivery.flowing = true) :
    s.follows b (enterRundown (fixCause c s)) :=
  follows_of_timed (alike_enterRundown (fixCause c s)).1 (fun hs => enterRundown_timed (timed_stoppable hs hd c))
    (enterRundown_view (fixCause c s))

theorem enterSettling_follows (b : Bool) {s : State} (hd : s.ret.delivery = .closing) : s.follows b (enterSettling s) := by
  refine follows_of_timed (alike_enterSettling s).1 (fun hs => ?_) (by rw [enterSettling_spec]; rfl)
  obtain ⟨hslot, hcause, harmed, hconfirm, hrundown, -⟩ := hs.at hd
  rw [enterSettling_spec]
  exact timed_redirect hslot hcause harmed hconfirm hrundown rfl

theorem enterPumping_follows (b : Bool) {s : State} (hd : s.ret.delivery = .opening) : s.follows b (enterPumping s) := by
  refine follows_of_timed (alike_enterPumping s).1 (fun hs => ?_) (enterPumping_view s)
  obtain ⟨hslot, hcause, harmed, hconfirm, hrundown, hsettle⟩ := hs.at hd
  rw [enterPumping_eq]
  split
  · exact enterRundown_timed ⟨hslot, by simpa [itemsOf] using hslot, harmed, hconfirm, hsettle⟩
  · exact ⟨hslot, hcause, harmed, hconfirm, hrundown, hsettle⟩

/-- The end of an arming (R21, R88). -/
theorem endArming_follows (b : Bool) (how : ArmingEnd) {e : Event} (hd : e.s.ret.delivery = .armed) :
    e.s.follows b (endArming how e).s := by
  refine ⟨(alike_endArming how e).1, fun hs => ?_, fun _ hp => ?_⟩
  · obtain ⟨hslot, hcause, -, -, hrundown, hsettle⟩ := hs.at hd
    cases ha : e.s.ret.active with
    | none => simp [ha] at hslot
    | some r =>
      by_cases hf : e.s.controller.armedFrom = some .idle
      · rw [endArming_idle how e r ha hf]
        exact timed_redirect rfl hcause rfl rfl hrundown hsettle
      · rw [endArming_held how e r ha hf]
        exact timed_redirect hslot hcause rfl rfl hrundown hsettle
  · cases ha : e.s.ret.active with
    | none => rw [endArming_none how e ha]; exact hp
    | some r =>
      by_cases hf : e.s.controller.armedFrom = some .idle
      · rw [endArming_idle how e r ha hf]
        exact rateStands_empty rfl rfl rfl
      · rw [endArming_held how e r ha hf]
        refine rateStands_congr (s := e.s) ?_ hp
        rfl

/-- The arming of a step (R86). -/
theorem armStep_follows (b : Bool) {r : Step} {e : Event} (hc : candidate e.s = some r) :
    e.s.follows b (armStep r e).s := by
  refine State.follows.recomputed (b := false) ⟨?_, fun hs => ?_, fun h => by cases h⟩
  · rw [setDelivery_spec _ _ (by decide)]
    dsimp only [State.redirect]
    split <;> rfl
  · rw [setDelivery_spec _ _ (by decide)]
    unfold candidate at hc
    split at hc
    · next hd =>
      obtain ⟨-, hcause, -, -, hrundown, hsettle⟩ := hs.at hd
      simp only [hd, reduceCtorEq, if_false]
      exact timed_redirect rfl hcause rfl rfl hrundown hsettle
    · next hd =>
      obtain ⟨hslot, hcause, -, -, hrundown, hsettle⟩ := hs.at hd
      simp only [hd, if_true]
      exact timed_redirect hslot hcause rfl rfl hrundown hsettle
    all_goals cases hc

/-- The valve commanded open for the armed step (R91). -/
theorem openingEffect_follows (b : Bool) {r : Step} {s : State} (hd : s.ret.delivery = .armed)
    (ha : s.ret.active = some r) : s.follows b (openingEffect r s) := by
  unfold openingEffect
  rw [setDelivery_spec _ _ (by decide), setCommand_eq]
  refine follows_of_timed rfl (fun hs => ?_) ?_
  · obtain ⟨-, hcause, -, -, hrundown, hsettle⟩ := hs.at hd
    exact ⟨rfl, hcause, rfl, rfl, hrundown, hsettle⟩
  · simp only [rateViewOf, State.redirect, State.tank, ha]
    rfl

/-- A step that leaves the slot from HELD, or from SETTLING with its stop cause and its timer discarded (R18, R23). -/
theorem finishStep_follows (b : Bool) (cause : EndCause) (r : Step) {e : Event} {s : State}
    (hrun : e.s.running = s.running)
    (h : s.timed → e.s.controller.stopCause.isSome = false ∧ e.s.controller.armedFrom.isSome = false ∧
      e.s.controller.confirm.isSome = false ∧ e.s.controller.rundown.isSome = false ∧
      e.s.controller.settle.isSome = false) : s.follows b (finishStep cause r e).s := by
  rw [finishStep_spec]
  refine ⟨hrun, fun hs => ?_, fun _ _ => rateStands_empty rfl rfl rfl⟩
  obtain ⟨hcause, harmed, hconfirm, hrundown, hsettle⟩ := h hs
  exact timed_redirect rfl hcause harmed hconfirm hrundown hsettle

/-! ### The hold list (R95, R107, R117) -/

theorem deliveryTakesRaise_follows (b : Bool) (src : HoldSource) (cls : HoldClass) (e : Event) :
    e.s.follows b (deliveryTakesRaise src cls e).s := by
  unfold deliveryTakesRaise
  split
  · next hd => exact endArming_follows b _ hd
  · next hd => exact fixCause_closing_follows b _ (by rw [hd]; rfl)
  · next hd =>
    cases cls with
    | pause => exact fixCause_rundown_follows b _ (by rw [hd]; rfl)
    | trip => exact fixCause_closing_follows b _ (by rw [hd]; rfl)
  · next hd =>
    cases cls with
    | pause => exact e.s.follows_refl b
    | trip => exact enterClosing_follows b fun hs => timed_rundown_stoppable hs hd
  all_goals exact e.s.follows_refl b

theorem setHolds_follows (b : Bool) (s : State) (l : List HoldEntry) : s.follows b (s.setHolds l) :=
  follows_of_views rfl rfl rfl

theorem raiseHold_follows (b : Bool) (src : HoldSource) (cls : HoldClass) (reason : HoldReason) (e : Event) :
    e.s.follows b (raiseHold src cls reason e).s :=
  (setHolds_follows b e.s _).trans
    (deliveryTakesRaise_follows b src _ { e with s := e.s.setHolds (raisedList e.s src cls reason) })

theorem removeHold_follows (b : Bool) (src : HoldSource) (by_ : Station) (e : Event) :
    e.s.follows b (removeHold src by_ e).s :=
  setHolds_follows b e.s _

end Sys2Proof.Machine
end

