-- ==== Sys2Proof/Proofs/OwnersFollow.lean ====
section
/-! What each operation of the blocks carries: chapters 02 and 06 to 08, and the owners of the requests. -/

namespace Sys2Proof.Machine

/-! ### The Watch (R37 to R52) -/

theorem setTank_unrated (s : State) (i : Fin 8) (t : Tank) : s.follows false (s.setTank i t) := unrated_of_items rfl rfl

theorem evalHigh_unrated (i : Fin 8) (est high : Nat) (e : Event) : e.s.follows false (evalHigh i est high e).s := by
  unfold evalHigh
  dsimp only
  split
  · split
    · exact e.s.follows_refl _
    · exact setTank_unrated _ _ _
  · exact setTank_unrated _ _ _

theorem evalTrip_unrated (i : Fin 8) (est trip : Nat) (e : Event) : e.s.follows false (evalTrip i est trip e).s := by
  unfold evalTrip
  dsimp only
  split
  · split
    · exact e.s.follows_refl _
    · refine State.follows.trans ?_ (raiseHold_follows _ _ _ _ _)
      exact setTank_unrated _ _ _
  · exact setTank_unrated _ _ _

theorem evalTank_unrated (i : Fin 8) (e : Event) : e.s.follows false (evalTank i e).s := by
  unfold evalTank
  split
  · exact ((evalHigh_unrated _ _ _ e).trans (evalTrip_unrated _ _ _ _)).trans (setTank_unrated _ _ _)
  · exact e.s.follows_refl _

theorem evalTanks_unrated (test : Fin 8 → Bool) (e : Event) : e.s.follows false (evalTanks test e).s :=
  foldl_follows _ (fun e i => evalTank_unrated i e) _ e

theorem applyReport_unrated (s : State) (g : GaugeEntry) : s.follows false (applyReport s g) := by
  unfold applyReport
  split
  · exact s.follows_refl _
  · exact setTank_unrated _ _ _

theorem takeGauge_follows (entries : List GaugeEntry) (e : Event) : e.s.follows true (takeGauge entries e).1.s := by
  unfold takeGauge
  split
  · exact e.s.follows_refl _
  · split
    · exact e.s.follows_refl _
    · have reported := foldl_state_follows applyReport applyReport_unrated entries e.s
      exact (reported.trans (evalTanks_unrated (fun i => entries.any fun g => g.tank == oct i.val)
        (e.mod fun s => entries.foldl applyReport s))).recomputed

theorem takeTankdef_follows (index : Byte) (c : TankContent) (e : Event) :
    e.s.follows true (takeTankdef index c e).1.s := by
  unfold takeTankdef
  split
  · exact e.s.follows_refl _
  · next i _ =>
    split
    · unfold undefineTank
      split
      · exact e.s.follows_refl _
      · split
        · exact e.s.follows_refl _
        · exact (setTank_unrated e.s i coldTank).recomputed
    · unfold defineTank
      dsimp only
      split
      · exact e.s.follows_refl _
      · split
        · exact e.s.follows_refl _
        · exact ((setTank_unrated e.s i _).trans (evalTank_unrated i (e.mod fun s =>
            s.setTank i ((s.tank i).redefine (clampTankDef c))))).recomputed

theorem takeStagedef_follows (index : Byte) (c : StageContent) (e : Event) :
    e.s.follows true (takeStagedef index c e).1.s := by
  unfold takeStagedef
  split
  · next j input mode _ _ _ =>
    dsimp only
    split
    · exact e.s.follows_refl _
    · exact (unrated_of_items rfl rfl : e.s.follows false (applyStage j (clampStage c input mode) e.s)).recomputed
  · exact e.s.follows_refl _

theorem restatus_unrated (watched : Fin 8 → Bool) (i : Fin 8) (e : Event) :
    e.s.follows false (restatus watched i e).s := by
  unfold restatus
  dsimp only
  split
  · exact e.s.follows_refl _
  · have marked := setTank_unrated e.s i { e.s.tank i with status := (e.s.tank i).agedStatus e.s.ret.settings.stale }
    split
    · exact marked
    · exact marked
    · exact marked
    · split
      · refine State.follows.trans ?_ (raiseHold_follows _ _ _ _ _)
        exact marked
      · exact marked

theorem restatusAll_unrated (test : Fin 8 → Bool) (e : Event) : e.s.follows false (restatusAll test e).s :=
  foldl_follows _ (fun e' i => restatus_unrated e.s.watches i e') _ e

/-! ### Credits (R40, R130, R131) -/

theorem carryCredits_unrated (old new : List TankEntry) (s : State) : s.follows false (carryCredits old new s) := by
  induction old generalizing new s with
  | nil => cases new <;> exact s.follows_refl _
  | cons o olds ih =>
    cases new with
    | nil => exact s.follows_refl _
    | cons n news => exact (setTank_unrated _ _ _).trans (ih _ _)

theorem creditPulse_follows {r : Step} {e : Event} (ha : e.s.ret.active = some r) :
    e.s.follows true (creditPulse r e).s := by
  let w := e.s.ret.settings.weight
  have credited : e.s.follows false (creditEffect r w e.s) := unrated_of_items rfl (by simp [itemsOf, creditEffect, ha])
  have carried := credited.trans (carryCredits_unrated r.tanks (r.credited w).tanks _)
  exact (carried.trans (evalTanks_unrated (creditChanged r.tanks (r.credited w).tanks)
    { e with s := carryCredits r.tanks (r.credited w).tanks (creditEffect r w e.s) })).recomputed

theorem unassignPulse_follows (e : Event) : e.s.follows true (unassignPulse e).s := by
  unfold unassignPulse
  dsimp only
  split <;> exact follows_of_views rfl rfl rfl

theorem tallyPulse_follows (e : Event) : e.s.follows true (tallyPulse e).s := by
  unfold tallyPulse
  split
  · split
    · next ha => exact creditPulse_follows ha
    · exact unassignPulse_follows e
  · exact unassignPulse_follows e

/-! ### Instruments (R145, R150 to R153) -/

theorem tripRole_unrated (old : Instruments) (e : Event) (r : Role) : e.s.follows false (tripRole old e r).s := by
  unfold tripRole
  split
  · exact raiseHold_follows _ _ _ _ e
  · exact e.s.follows_refl _

/-- The roles handed on end with a recomputation, whatever was changed of the agents before (R153). -/
theorem handOnRoles_follows {s : State} (i : Fin 4) (prev : AgentState) (role : Option Role) (e : Event)
    (h : s.follows false e.s) : s.follows true (handOnRoles i prev role e).s := by
  have derived : s.follows false (e.mod deriveRoles).s := h.trans (unrated_of_items rfl rfl)
  let tripped := allRoles.foldl (tripRole e.s.instruments) (e.mod deriveRoles)
  have raised : s.follows false tripped.s := derived.trans (foldl_follows _ (tripRole_unrated _) allRoles _)
  have staged : tripped.s.follows false (deriveNoRise (evalInstrumentStages e.s.instruments tripped.s)) :=
    unrated_of_items rfl rfl
  have rated : s.follows true (recompute (deriveNoRise (evalInstrumentStages e.s.instruments tripped.s))) :=
    (raised.trans staged).recomputed
  exact rated

theorem restartAgent_unrated (i : Fin 4) (s : State) : s.follows false (restartAgent i s) := by
  unfold restartAgent
  dsimp only
  split <;> exact unrated_of_items rfl rfl

theorem takeSetAgent_follows (link : Station) (address : Byte) (c : AgentContent) (e : Event) :
    e.s.follows true (takeSetAgent link address c e).1.s := by
  unfold takeSetAgent
  split
  · exact e.s.follows_refl _
  · split
    · next i role use _ _ _ =>
      dsimp only
      split
      · exact e.s.follows_refl _
      · refine handOnRoles_follows _ _ _ _ ?_
        rw [Event.mod_s]
        split
        · refine (restartAgent_unrated i e.s).trans ?_
          exact unrated_of_items rfl rfl
        · exact unrated_of_items rfl rfl
    · exact e.s.follows_refl _

/-! ### Lines (R160 to R165) -/

theorem setLine_follows (b : Bool) (s : State) (n : Fin 6) (l : LineService) : s.follows b (s.setLine n l) :=
  follows_of_views rfl rfl rfl

theorem raiseMissingPermits_follows (b : Bool) (e : Event) : e.s.follows b (raiseMissingPermits e).s :=
  foldl_follows _ (fun e _ => raiseHold_follows b _ _ _ e) _ e

theorem lineActive_follows (n : Fin 6) (e : Event) : e.s.follows true (lineActive n e).s := by
  unfold lineActive
  dsimp only
  have latched := setLine_follows true e.s n { e.s.line n with active := true, count := 0, latch := true }
  split
  · refine State.follows.trans ?_ (raiseHold_follows _ _ _ _ _)
    exact latched
  · exact latched

theorem lineInactive_follows (n : Fin 6) (e : Event) : e.s.follows true (lineInactive n e).s := by
  unfold lineInactive
  dsimp only
  have released := setLine_follows true e.s n { e.s.line n with active := false, count := 0 }
  split
  · refine State.follows.trans ?_ (raiseHold_follows _ _ _ _ _)
    exact released
  · exact released

theorem lineFollows_follows (n : Fin 6) (e : Event) : e.s.follows true (lineFollows n e).s := by
  unfold lineFollows
  split
  · exact lineActive_follows n e
  · exact lineInactive_follows n e

theorem takeSetLine_follows (link : Station) (line : Byte) (c : LineContent) (e : Event) :
    e.s.follows true (takeSetLine link line c e).1.s := by
  unfold takeSetLine
  split
  · exact e.s.follows_refl _
  · split
    · dsimp only
      split
      · exact e.s.follows_refl _
      · unfold applyLine
        dsimp only
        split
        · refine State.follows.trans ?_ (raiseHold_follows _ _ _ _ _)
          exact follows_of_views rfl rfl rfl
        · split
          · refine State.follows.trans ?_ (raiseHold_follows _ _ _ _ _)
            exact follows_of_views rfl rfl rfl
          · exact follows_of_views rfl rfl rfl
    · exact e.s.follows_refl _

/-! ### The plan's requests (R3 to R24) -/

theorem takeOpen_follows (id : Word16) (grades : List Byte) (e : Event) : e.s.follows true (takeOpen id grades e).1.s := by
  have accepted (gs : List (Fin 4)) : e.s.follows true (openEffects id.toNat gs e.s) := by
    refine State.follows.recomputed (b := false) ?_
    exact unrated_of_items rfl rfl
  have checked : e.s.follows true (match openGrades grades with
      | none => refuse e .range
      | some gs =>
        if id.toNat = 0 then refuse e .range
        else ((e.mod (openEffects id.toNat gs)).plan (.transfer .opened), answer .ok)).1.s := by
    split
    · exact e.s.follows_refl _
    · split
      · exact e.s.follows_refl _
      · exact accepted _
  unfold takeOpen
  split
  · exact e.s.follows_refl _
  · exact e.s.follows_refl _
  all_goals
    split
    · exact e.s.follows_refl _
    · exact checked

theorem takeJoin_follows (e : Event) : e.s.follows true (takeJoin e).1.s := by
  unfold takeJoin
  split
  · exact follows_of_views rfl rfl rfl
  all_goals exact e.s.follows_refl _

theorem takeClose_follows (e : Event) : e.s.follows true (takeClose e).1.s := by
  unfold takeClose
  split
  · exact e.s.follows_refl _
  · exact e.s.follows_refl _
  all_goals
    split
    · exact e.s.follows_refl _
    · exact follows_of_views rfl rfl rfl

theorem takePropose_follows (link : Station) (c : StepContent) (e : Event) :
    e.s.follows true (takePropose link c e).1.s := by
  unfold takePropose
  split
  · exact e.s.follows_refl _
  · split
    · exact e.s.follows_refl _
    · split
      · exact e.s.follows_refl _
      · split <;> exact follows_of_views rfl rfl rfl

theorem takeAmend_follows (link : Station) (number : Byte) (c : StepContent) (e : Event) :
    e.s.follows true (takeAmend link number c e).1.s := by
  unfold takeAmend
  split
  · exact e.s.follows_refl _
  · split
    any_goals exact e.s.follows_refl _
    split
    · exact e.s.follows_refl _
    · exact follows_of_views rfl rfl rfl

theorem takeAgree_follows (link : Station) (number : Byte) (e : Event) :
    e.s.follows true (takeAgree link number e).1.s := by
  unfold takeAgree
  split
  · exact e.s.follows_refl _
  · split
    any_goals exact e.s.follows_refl _
    split
    · exact e.s.follows_refl _
    · exact follows_of_views rfl rfl rfl

theorem takeRevise_follows (link : Station) (number operand : Byte) (e : Event) :
    e.s.follows true (takeRevise link number operand e).1.s := by
  unfold takeRevise
  split
  · exact e.s.follows_refl _
  · split
    any_goals exact e.s.follows_refl _
    split
    · exact e.s.follows_refl _
    · exact follows_of_views rfl rfl rfl

theorem takeWithdraw_follows (link : Station) (number : Byte) (e : Event) :
    e.s.follows true (takeWithdraw link number e).1.s := by
  unfold takeWithdraw
  split
  · exact e.s.follows_refl _
  · split
    · exact e.s.follows_refl _
    · exact follows_of_views rfl rfl rfl
    · exact follows_of_views rfl rfl rfl
    · next hm =>
      split
      · next hd =>
        exact finishStep_follows _ _ _ rfl fun hs => (hs.at hd).2
      · exact e.s.follows_refl _
    · exact e.s.follows_refl _

theorem takeTake_follows (link : Station) (e : Event) : e.s.follows true (takeTake link e).1.s := by
  unfold takeTake
  split <;> exact follows_of_views rfl rfl rfl

/-! ### START, LINED and STOP (R85 to R99) -/

theorem takeStart_follows (e : Event) : e.s.follows true (takeStart e).1.s := by
  unfold takeStart
  split
  · exact e.s.follows_refl _
  · exact e.s.follows_refl _
  · next hc => exact armStep_follows _ hc

theorem takeLined_follows (number : Byte) (e : Event) : e.s.follows true (takeLined number e).1.s := by
  unfold takeLined
  split
  · next r hm =>
    split at hm
    · next hd =>
      have ha : e.s.ret.active = some r := by simpa using (findStep_some hm).1
      have opened : e.s.follows true (e.mod (openingEffect r)).s := openingEffect_follows _ hd ha
      have entered := opened.trans (raiseMissingPermits_follows true (e.mod (openingEffect r)))
      rw [enterOpening_eq]
      split
      · next hc => exact entered.trans (enterPumping_follows _ hc.1)
      · exact entered
    · cases hm
  · split <;> exact e.s.follows_refl _

theorem takeStop_follows (link : Station) (e : Event) : e.s.follows true (takeStop link e).1.s := by
  unfold takeStop
  split
  · next hd => exact endArming_follows _ _ hd
  · next hd => exact fixCause_closing_follows _ _ (by rw [hd]; rfl)
  · next hd => exact fixCause_rundown_follows _ _ (by rw [hd]; rfl)
  all_goals exact e.s.follows_refl _

/-! ### The hold requests (R108 to R117) -/

theorem takeHold_follows (link : Station) (cls reason : Byte) (e : Event) :
    e.s.follows true (takeHold link cls reason e).1.s := by
  unfold takeHold
  split
  · exact e.s.follows_refl _
  · exact raiseHold_follows _ _ _ _ e

theorem takeRelease_follows (link : Station) (source : Byte) (e : Event) :
    e.s.follows true (takeRelease link source e).1.s := by
  unfold takeRelease
  split
  · exact e.s.follows_refl _
  · split
    · exact e.s.follows_refl _
    · split
      · exact e.s.follows_refl _
      · exact removeHold_follows _ _ _ e

theorem takeClear_follows (link : Station) (source : Byte) (e : Event) :
    e.s.follows true (takeClear link source e).1.s := by
  unfold takeClear
  split
  · exact e.s.follows_refl _
  · split
    · exact e.s.follows_refl _
    · split
      · exact e.s.follows_refl _
      · split
        · exact e.s.follows_refl _
        · split
          · exact e.s.follows_refl _
          · exact removeHold_follows _ _ _ e

/-! ### SET (R171 to R175) -/

theorem evalNoFlow_follows (b : Bool) (s : State) : s.follows b (evalNoFlow s) := by
  obtain ⟨nf, h⟩ := evalNoFlow_spec s; rw [h]; exact follows_of_views rfl rfl rfl

theorem evalOverspeed_follows (b : Bool) (s : State) : s.follows b (evalOverspeed s) := by
  obtain ⟨ov, h⟩ := evalOverspeed_spec s; rw [h]; exact follows_of_views rfl rfl rfl

theorem liftDemand_follows (b : Bool) (s : State) : s.follows b (liftDemand s) := by
  unfold liftDemand
  split
  · refine State.follows.trans ?_ (evalNoFlow_follows _ _)
    exact follows_of_views rfl rfl rfl
  · exact s.follows_refl _

theorem takeSetLimit_follows (link : Station) (which : RateLimit) (index : Byte) (v : Word16) (e : Event) :
    e.s.follows true (takeSetLimit link which index v e).1.s := by
  unfold takeSetLimit
  split
  · exact e.s.follows_refl _
  · dsimp only
    split
    · exact e.s.follows_refl _
    · let u : State := { e.s with
        ret.settings := setLimit e.s.ret.settings which (clampLimit e.s.ret.settings which v.toNat) }
      have set : e.s.follows false u := unrated_of_items rfl rfl
      have lifted : e.s.follows true (liftDemand (recompute u)) := set.recomputed.trans (liftDemand_follows _ _)
      show e.s.follows true (limitsAct which u)
      unfold limitsAct
      dsimp only
      split
      · exact lifted.trans (evalOverspeed_follows _ _)
      · exact lifted

theorem takeSetStopTime_follows (link : Station) (which : StopTime) (index : Byte) (v : Word16) (e : Event) :
    e.s.follows true (takeSetStopTime link which index v e).1.s := by
  unfold takeSetStopTime
  split
  · exact e.s.follows_refl _
  · dsimp only
    split
    · exact e.s.follows_refl _
    · refine State.follows.recomputed (b := false) ?_
      exact unrated_of_items rfl rfl

theorem takeSetTimer_follows (link : Station) (which : TimerSetting) (index : Byte) (v : Word16) (e : Event) :
    e.s.follows true (takeSetTimer link which index v e).1.s := by
  unfold takeSetTimer
  split
  · exact e.s.follows_refl _
  · split
    · exact e.s.follows_refl _
    · dsimp only
      split
      · exact e.s.follows_refl _
      · cases which <;> exact follows_of_views rfl rfl rfl

theorem applyStale_follows (v : Nat) (e : Event) : e.s.follows true (applyStale v e).s := by
  have limited : e.s.follows false { e.s with ret.settings.stale := v } := unrated_of_items rfl rfl
  have restated := limited.trans
    (restatusAll_unrated (fun _ => true) (e.mod fun s => { s with ret.settings.stale := v }))
  rw [applyStale, Event.mod_s]
  exact restated.recomputed

theorem takeSetS_follows (link : Station) (index : Byte) (v : Word16) (e : Event) :
    e.s.follows true (takeSetS link index v e).1.s := by
  unfold takeSetS
  split
  · exact e.s.follows_refl _
  · dsimp only
    split
    · exact e.s.follows_refl _
    · exact applyStale_follows _ e

theorem takeSetW_follows (link : Station) (index : Byte) (v : Word16) (e : Event) :
    e.s.follows true (takeSetW link index v e).1.s := by
  unfold takeSetW
  split
  · exact e.s.follows_refl _
  · split
    · exact e.s.follows_refl _
    · dsimp only
      split
      · exact e.s.follows_refl _
      · exact follows_of_views rfl rfl rfl

theorem takeSetNoFlow_follows (link : Station) (index : Byte) (v : Word16) (e : Event) :
    e.s.follows true (takeSetNoFlow link index v e).1.s := by
  unfold takeSetNoFlow
  split
  · exact e.s.follows_refl _
  · dsimp only
    split
    · exact e.s.follows_refl _
    · exact follows_of_views rfl rfl rfl

/-! ### Every request (R192) -/

/-- The owner of a request keeps R78's items in their delivery states and P as the terms give it. -/
theorem ownerOf_follows {c : Instr} {q : Station × RequestType × Byte × Bool} (h : requestOf c = some q) (e : Event) :
    e.s.follows true (ownerOf c e).1.s := by
  cases c with
  | openTransfer => exact takeOpen_follows _ _ e
  | joinTransfer => exact takeJoin_follows e
  | closeTransfer => exact takeClose_follows e
  | propose => exact takePropose_follows _ _ e
  | amend => exact takeAmend_follows _ _ _ e
  | agree => exact takeAgree_follows _ _ e
  | revise => exact takeRevise_follows _ _ _ e
  | withdraw => exact takeWithdraw_follows _ _ e
  | startStep => exact takeStart_follows e
  | lined => exact takeLined_follows _ e
  | stopStep => exact takeStop_follows _ e
  | hold => exact takeHold_follows _ _ _ e
  | release => exact takeRelease_follows _ _ e
  | clear => exact takeClear_follows _ _ e
  | gauge => exact takeGauge_follows _ e
  | tankdef => exact takeTankdef_follows _ _ e
  | stagedef => exact takeStagedef_follows _ _ e
  | setRateLimits => exact takeSetLimit_follows _ _ _ _ e
  | setStopTimes => exact takeSetStopTime_follows _ _ _ _ e
  | setTimerSetting => exact takeSetTimer_follows _ _ _ _ e
  | setS => exact takeSetS_follows _ _ _ e
  | setW => exact takeSetW_follows _ _ _ e
  | setNoFlow => exact takeSetNoFlow_follows _ _ _ e
  | setAgentConfiguration => exact takeSetAgent_follows _ _ _ e
  | setLineConfiguration => exact takeSetLine_follows _ _ _ e
  | getSetting _ _ code index =>
    show e.s.follows true (takeGet code index e).1.s
    rw [takeGet_state]
    exact e.s.follows_refl _
  | readStep _ _ number =>
    show e.s.follows true (takeReadStep number e).1.s
    rw [takeReadStep_state]
    exact e.s.follows_refl _
  | readTanks =>
    unfold ownerOf
    dsimp only
    split <;> exact e.s.follows_refl _
  | readLines =>
    unfold ownerOf takeReadLines
    dsimp only
    split <;> exact follows_of_views rfl rfl rfl
  | readCounters => exact follows_of_views rfl rfl rfl
  | take => exact takeTake_follows _ e
  | status => exact follows_of_views rfl rfl rfl
  | _ => exact e.s.follows_refl _

end Sys2Proof.Machine
end

