-- ==== Sys2Proof/Proofs/CommandsFollow.lean ====
section
/-! What each command carries: requests, the receiver, expiries, inputs and the tick (R2, R41, R185 to R193). -/

namespace Sys2Proof.Machine

/-! ### The three kinds of event -/

/-- What a command that is no start and no stop leads to: nothing, or a state that follows the running part. -/
def State.evolves (s t : State) : Prop := t = s ∨ s.running = true ∧ s.follows true t

theorem State.evolves_refl (s : State) : s.evolves s := .inl rfl

theorem next_evolves {s t : State} (h : (.next s : Host.Outcome State Fault Refusal) = .next t) : s.evolves t := by
  cases h; exact s.evolves_refl

theorem noted_follows (b : Bool) (s : State) : s.follows b s.noted := follows_of_views rfl rfl rfl

theorem setLink_follows (b : Bool) (s : State) (k : Station) (l : Link) : s.follows b (s.setLink k l) :=
  follows_of_views rfl rfl rfl

theorem links_follows (b : Bool) (s : State) (ls : PerStation Link) : s.follows b { s with links := ls } :=
  follows_of_views rfl rfl rfl

theorem opened_follows (b : Bool) (s : State) (k : Station) : s.follows b (s.opened k) :=
  (noted_follows b s).trans (setLink_follows b _ _ _)

theorem finish_follows {s : State} {e : Event} (h : s.noted.follows true e.s) : s.follows true e.finish := by
  obtain ⟨ls, hl, -⟩ := e.s.postAll_spec e.notices
  rw [Event.finish, hl]
  exact ((noted_follows _ s).trans h).trans (links_follows _ _ _)

theorem event_evolves {s t : State} {f : Event → Event} (h : event s f = .next t)
    (hf : s.noted.follows true (f s.begin).s) : s.evolves t := by
  rcases event_cases h with ⟨-, rfl⟩ | ⟨hr, rfl⟩
  · exact t.evolves_refl
  · exact .inr ⟨hr, finish_follows hf⟩

theorem quietEvent_evolves {s t : State} {f : State → State} (h : quietEvent s f = .next t)
    (hf : s.noted.follows true (f s.noted)) : s.evolves t := by
  rcases quietEvent_cases h with ⟨-, rfl⟩ | ⟨hr, rfl⟩
  · exact t.evolves_refl
  · exact .inr ⟨hr, (noted_follows _ s).trans hf⟩

theorem request_evolves {s t : State} {link : Station} {type : RequestType} {tag : Byte} {formed : Bool}
    {owner : Event → Event × Answer} (h : request link type tag formed owner s = .next t)
    (ho : ∀ e : Event, e.s.follows true (owner e).1.s) : s.evolves t := by
  have opened := opened_follows true s link
  rcases request_cases h with ⟨-, rfl⟩ | ⟨hr, rfl⟩ | ⟨hr, -, f, rfl⟩ | ⟨⟨hr, -⟩, -, f, rfl⟩
  · exact t.evolves_refl
  · exact .inr ⟨hr, opened.trans (setLink_follows _ _ _ _)⟩
  · exact .inr ⟨hr, opened.trans (setLink_follows _ _ _ _)⟩
  · obtain ⟨ls, hls⟩ := (owner (s.opened link).begin).1.reply_eq link f
    rw [hls]
    have owned : (s.opened link).noted.follows true (owner (s.opened link).begin).1.s := ho (s.opened link).begin
    exact .inr ⟨hr, ((opened.trans (noted_follows _ _)).trans owned).trans (links_follows _ _ _)⟩

theorem exec_request_evolves {c : Instr} {s t : State} {q : Station × RequestType × Byte × Bool}
    (hc : requestOf c = some q) (h : exec c s = .next t) : s.evolves t := by
  obtain ⟨link, type, tag, formed⟩ := q
  rw [exec_eq_request hc] at h
  exact request_evolves h (ownerOf_follows hc)

/-! ### Links (R185 to R191) -/

theorem execUnknownRequest_evolves {link : Station} {tag type : Byte} {s t : State}
    (h : execUnknownRequest link tag type s = .next t) : s.evolves t := by
  unfold execUnknownRequest at h
  split at h
  · exact next_evolves h
  · refine quietEvent_evolves h ?_
    have up : s.noted.follows true (s.noted.frameTaken link) := setLink_follows _ _ _ _
    dsimp only
    split <;> exact up.trans (setLink_follows _ _ _ _)

theorem haltEffect_follows (link : Station) (e : Event) : e.s.follows true (haltEffect link e).s :=
  (setLink_follows true e.s link _).trans (raiseHold_follows _ _ _ _ _)

theorem lostHold_follows (link : Station) (e : Event) : e.s.follows true (lostHold link e).s := by
  unfold lostHold
  split
  · split
    · exact raiseHold_follows _ _ _ _ e
    · exact raiseHold_follows _ _ _ _ e
    · exact e.s.follows_refl _
  · exact e.s.follows_refl _

theorem execSilenceExpiry_evolves {link : Station} {s t : State} (h : execSilenceExpiry link s = .next t) :
    s.evolves t := by
  unfold execSilenceExpiry at h
  split at h
  · exact event_evolves h ((setLink_follows true s.noted link _).trans (lostHold_follows link _))
  · exact next_evolves h

/-! ### The receiver (R185, R193, R196)

A frame of a known type spells one request command, or is a request of its type that its owner refuses. -/

/-- An outcome that a frame of a known type can have. -/
def State.spells (s : State) (out : Host.Outcome State Fault Refusal) : Prop :=
  (∃ c q, requestOf c = some q ∧ out = exec c s) ∨
    ∃ link type tag formed owner, (∀ e : Event, (owner e).1 = e) ∧ out = request link type tag formed owner s

theorem State.spells_exec {s : State} (c : Instr) {q : Station × RequestType × Byte × Bool} (h : requestOf c = some q) :
    s.spells (exec c s) := .inl ⟨c, q, h, rfl⟩

theorem spells_malformed (link : Station) (type : RequestType) (tag : Byte) (s : State) :
    s.spells (malformed link type tag s) := .inr ⟨link, type, tag, false, _, fun _ => rfl, rfl⟩

theorem spells_setOther (link : Station) (tag code : Byte) (s : State) :
    s.spells (request link .set tag true (takeSetOther code) s) :=
  .inr ⟨link, .set, tag, true, _, takeSetOther_state code, rfl⟩

theorem State.spells.evolves {s t : State} {out : Host.Outcome State Fault Refusal} (h : s.spells out)
    (ho : out = .next t) : s.evolves t := by
  rcases h with ⟨c, q, hc, rfl⟩ | ⟨link, type, tag, formed, owner, hid, rfl⟩
  · exact exec_request_evolves hc ho
  · exact request_evolves ho fun e => by rw [hid]; exact e.s.follows_refl _

theorem takeSetNumber_spells (link : Station) (tag code index : Byte) (v : Word16) (s : State) :
    s.spells (takeSetNumber link tag code index v s) := by
  have limit (w : RateLimit) : s.spells (execSetRateLimits link tag w index v s) :=
    s.spells_exec (.setRateLimits link tag w index v) rfl
  have stopTime (w : StopTime) : s.spells (execSetStopTimes link tag w index v s) :=
    s.spells_exec (.setStopTimes link tag w index v) rfl
  have timer (w : TimerSetting) : s.spells (execSetTimerSetting link tag w index v s) :=
    s.spells_exec (.setTimerSetting link tag w index v) rfl
  unfold takeSetNumber
  split
  exacts [limit _, limit _, timer _, stopTime _, limit _, stopTime _, timer _, stopTime _, timer _, timer _, timer _,
    timer _, timer _, timer _, s.spells_exec (.setS link tag index v) rfl, s.spells_exec (.setW link tag index v) rfl,
    s.spells_exec (.setNoFlow link tag index v) rfl, spells_setOther ..]

theorem takeSetFrame_spells (link : Station) (tag : Byte) (data : List Byte) (s : State) :
    s.spells (takeSetFrame link tag data s) := by
  unfold takeSetFrame
  split
  · split
    · split
      · exact spells_setOther ..
      · exact spells_malformed ..
    · split
      · split
        · exact s.spells_exec (.setAgentConfiguration ..) rfl
        · exact spells_malformed ..
      · split
        · split
          · exact s.spells_exec (.setLineConfiguration ..) rfl
          · exact spells_malformed ..
        · split
          · exact takeSetNumber_spells ..
          · exact spells_malformed ..
  · exact spells_malformed ..

theorem takeReadFrame_spells (link : Station) (tag : Byte) (data : List Byte) (s : State) :
    s.spells (takeReadFrame link tag data s) := by
  unfold takeReadFrame
  split
  · split
    · exact s.spells_exec (.readLists ..) rfl
    · exact s.spells_exec (.readTotals ..) rfl
    · exact s.spells_exec (.readHolds ..) rfl
    · exact s.spells_exec (.readLines ..) rfl
    · exact s.spells_exec (.readInstruments ..) rfl
    · exact s.spells_exec (.readCounters ..) rfl
    · exact spells_malformed ..
  · split
    · exact s.spells_exec (.readStep ..) rfl
    · exact s.spells_exec (.readTanks ..) rfl
    · exact spells_malformed ..
  · exact spells_malformed ..

/-- The octets of a frame are taken apart as far as the layout of its type reaches (R196). -/
theorem takeTypedFrame_spells (link : Station) (tag : Byte) (type : RequestType) (data : List Byte) (s : State) :
    s.spells (takeTypedFrame link tag type data s) := by
  have bad : s.spells (malformed link type tag s) := spells_malformed ..
  have exec (c : Instr) {q} (h : requestOf c = some q) := s.spells_exec c h
  cases type with
  | openTransfer =>
    rcases data with _ | ⟨a, _ | ⟨b, _ | ⟨n, grades⟩⟩⟩
    case cons.cons.cons =>
      change s.spells (if grades.length = n.toNat then execOpen link tag (word2 a b) grades s
        else malformed link .openTransfer tag s)
      split
      · exact exec (.openTransfer link tag (word2 a b) grades) rfl
      · exact bad
    all_goals exact bad
  | propose =>
    change s.spells (match contentOf data with
      | some c => execPropose link tag c s
      | none => malformed link .propose tag s)
    split
    · exact exec (.propose link tag _) rfl
    · exact bad
  | amend =>
    rcases data with _ | ⟨n, data⟩
    · exact bad
    · change s.spells (match contentOf data with
        | some c => execAmend link tag n c s
        | none => malformed link .amend tag s)
      split
      · exact exec (.amend link tag n _) rfl
      · exact bad
  | gauge =>
    rcases data with _ | ⟨n, rest⟩
    · exact bad
    · change s.spells (if rest.length = 5 * n.toNat then execGauge link tag (gaugesOf rest) s
        else malformed link .gauge tag s)
      split
      · exact exec (.gauge link tag (gaugesOf rest)) rfl
      · exact bad
  | tankdef =>
    rcases data with
      _ | ⟨i, _ | ⟨f, _ | ⟨a, _ | ⟨b, _ | ⟨c, _ | ⟨d, _ | ⟨hl, _ | ⟨hh, _ | ⟨tl, _ | ⟨th, _ | ⟨x, rest⟩⟩⟩⟩⟩⟩⟩⟩⟩⟩⟩
    iterate 10 exact bad
    · exact exec (.tankdef link tag i
        { flag := f, capacity := word4 a b c d, high := word2 hl hh, trip := word2 tl th }) rfl
    · exact bad
  | stagedef =>
    rcases data with
      _ | ⟨i, _ | ⟨en, _ | ⟨inp, _ | ⟨el, _ | ⟨eh, _ | ⟨ll, _ | ⟨lh, _ | ⟨m, _ | ⟨k, _ | ⟨x, rest⟩⟩⟩⟩⟩⟩⟩⟩⟩⟩
    iterate 9 exact bad
    · exact exec (.stagedef link tag i
        { enabled := en, input := inp, enter := word2 el eh, leave := word2 ll lh, mode := m, k := k }) rfl
    · exact bad
  | set => exact takeSetFrame_spells ..
  | read => exact takeReadFrame_spells ..
  | joinTransfer => cases data; exacts [exec (.joinTransfer link tag) rfl, bad]
  | closeTransfer => cases data; exacts [exec (.closeTransfer link tag) rfl, bad]
  | startStep => cases data; exacts [exec (.startStep link tag) rfl, bad]
  | stopStep => cases data; exacts [exec (.stopStep link tag) rfl, bad]
  | take => cases data; exacts [exec (.take link tag) rfl, bad]
  | status => cases data; exacts [exec (.status link tag) rfl, bad]
  | agree => rcases data with _ | ⟨x, _ | ⟨y, rest⟩⟩; exacts [bad, exec (.agree link tag x) rfl, bad]
  | withdraw => rcases data with _ | ⟨x, _ | ⟨y, rest⟩⟩; exacts [bad, exec (.withdraw link tag x) rfl, bad]
  | lined => rcases data with _ | ⟨x, _ | ⟨y, rest⟩⟩; exacts [bad, exec (.lined link tag x) rfl, bad]
  | release => rcases data with _ | ⟨x, _ | ⟨y, rest⟩⟩; exacts [bad, exec (.release link tag x) rfl, bad]
  | clear => rcases data with _ | ⟨x, _ | ⟨y, rest⟩⟩; exacts [bad, exec (.clear link tag x) rfl, bad]
  | revise =>
    rcases data with _ | ⟨x, _ | ⟨y, _ | ⟨z, rest⟩⟩⟩
    exacts [bad, bad, exec (.revise link tag x y) rfl, bad]
  | hold =>
    rcases data with _ | ⟨x, _ | ⟨y, _ | ⟨z, rest⟩⟩⟩
    exacts [bad, bad, exec (.hold link tag x y) rfl, bad]
  | get =>
    rcases data with _ | ⟨x, _ | ⟨y, _ | ⟨z, rest⟩⟩⟩
    exacts [bad, bad, exec (.getSetting link tag x y) rfl, bad]

theorem takeFrame_evolves {link : Station} {type tag : Byte} {data : List Byte} {s t : State}
    (h : takeFrame link type tag data s = .next t) : s.evolves t := by
  unfold takeFrame at h
  split at h
  · exact (takeTypedFrame_spells ..).evolves h
  · exact execUnknownRequest_evolves h

/-- A quiet event that sets one link. -/
theorem quietLink_evolves {s t : State} {k : Station} {f : State → Link}
    (h : quietEvent s (fun s => s.setLink k (f s)) = .next t) : s.evolves t :=
  quietEvent_evolves h (setLink_follows _ _ _ _)

theorem ignored_evolves {s t : State} (h : quietEvent s id = .next t) : s.evolves t :=
  quietEvent_evolves h (s.noted.follows_refl _)

theorem takeOctet_evolves {link : Station} {v : Byte} {s t : State} (h : takeOctet link v s = .next t) :
    s.evolves t := by
  unfold takeOctet at h
  dsimp only at h
  split at h
  · exact ignored_evolves h
  · split at h
    · exact quietLink_evolves h
    · exact quietLink_evolves h
  · exact quietLink_evolves h
  · exact quietLink_evolves h
  · split at h
    · unfold takeCorrect at h
      split at h
      · exact takeFrame_evolves h
      · exact quietLink_evolves h
    · exact quietLink_evolves h

theorem execReceiverOctet_evolves {link : Station} {octet : Byte} {good : Bool} {s t : State}
    (h : execReceiverOctet link octet good s = .next t) : s.evolves t := by
  unfold execReceiverOctet at h
  split at h
  · exact next_evolves h
  · split at h
    · split at h
      · exact ignored_evolves h
      · exact quietLink_evolves h
    · split at h
      · exact event_evolves h (haltEffect_follows link s.begin)
      · unfold takeGoodOctet at h
        dsimp only at h
        split at h
        · split at h
          · exact quietLink_evolves h
          · exact ignored_evolves h
        · split at h
          · split at h
            · exact takeOctet_evolves h
            · exact quietLink_evolves h
          · split at h
            · exact quietLink_evolves h
            · split at h
              · exact quietLink_evolves h
              · exact takeOctet_evolves h

/-! ### Delivery's expiries and the limit switches (R82 to R98) -/

theorem execConfirmExpiry_evolves {s t : State} (h : execConfirmExpiry s = .next t) : s.evolves t := by
  unfold execConfirmExpiry at h
  split at h
  · next hd => exact event_evolves h (endArming_follows _ _ (e := s.begin) hd.1)
  · exact next_evolves h

theorem execStrokeTimerExpiry_evolves {s t : State} (h : execStrokeTimerExpiry s = .next t) : s.evolves t := by
  unfold execStrokeTimerExpiry at h
  split at h
  · refine event_evolves h (State.follows.trans ?_ (raiseHold_follows _ _ _ _ _))
    exact follows_of_views rfl rfl rfl
  · exact next_evolves h

theorem execRundownExpiry_evolves {s t : State} (h : execRundownExpiry s = .next t) : s.evolves t := by
  unfold execRundownExpiry at h
  split at h
  · next hd =>
    exact event_evolves h (enterClosing_follows (s := s.noted) true fun hs => timed_rundown_stoppable hs hd.1)
  · exact next_evolves h

/-- SETTLING with its timer and its stop cause discarded (R98). -/
def State.unsettled (s : State) : State := { s with controller.settle := none, controller.stopCause := none }

/-- SETTLING left for HELD, or for IDLE with an empty slot, with the settle timer and the stop cause discarded (R98). -/
theorem leaveSettling_follows {s u : State} {d : DeliveryState} (hd : s.ret.delivery = .settling)
    (hd' : d = .held ∨ d = .idle) (hr : u.running = s.running) (hc : u.controller = s.unsettled.controller)
    (hv : rateViewOf u = rateViewOf s) (hslot : u.ret.active.isSome = decide (d ≠ .idle)) :
    s.follows true (setDelivery d u) := by
  have hne : d ≠ .pumping := by rcases hd' with rfl | rfl <;> decide
  rw [setDelivery_spec _ _ hne]
  refine follows_of_timed hr (fun hs => ?_) hv
  obtain ⟨-, -, harmed, hconfirm, hrundown, -⟩ := hs.at hd
  rw [hc]
  rcases hd' with rfl | rfl <;> exact timed_redirect hslot rfl harmed hconfirm hrundown rfl

/-- The step settled: it completes or is held (R22, R23, R98). -/
theorem settleStep_follows {s : State} {r : Step} {cause : StopCause} {e : Event} (he : e.s = s.unsettled)
    (hd : s.ret.delivery = .settling) (ha : s.ret.active = some r) : s.follows true (settleStep r cause e).s := by
  have finished (c : EndCause) : s.follows true (finishStep c r e).s := by
    refine finishStep_follows true c r (by rw [he]; rfl) fun hs => ?_
    obtain ⟨-, -, harmed, hconfirm, hrundown, -⟩ := hs.at hd
    rw [he]
    exact ⟨rfl, harmed, hconfirm, hrundown, rfl⟩
  have held (last : LastStop) : s.follows true (holdStep last r e.s) := by
    rw [he]
    refine leaveSettling_follows hd (.inl rfl) rfl rfl ?_ rfl
    simp only [rateViewOf, ha]
    rfl
  cases cause with
  | quantity => exact finished _
  | topped => exact finished _
  | stopped => exact held _
  | hold => exact held _

theorem execSettleExpiry_evolves {s t : State} (h : execSettleExpiry s = .next t) : s.evolves t := by
  unfold execSettleExpiry at h
  split at h
  · next hd =>
    refine event_evolves h ?_
    have left {d : DeliveryState} (hd' : d = .held ∨ d = .idle) (hslot : s.ret.active.isSome = decide (d ≠ .idle)) :
        s.noted.follows true (setDelivery d s.noted.unsettled) :=
      leaveSettling_follows (s := s.noted) hd.1 hd' rfl rfl rfl hslot
    dsimp only
    split
    · next ha _ => exact settleStep_follows (s := s.noted) rfl hd.1 ha
    · next ha _ => exact left (.inl rfl) (congrArg Option.isSome ha)
    · next ha => exact left (.inr rfl) (congrArg Option.isSome ha)
  · exact next_evolves h

theorem execRampSecond_evolves {s t : State} (h : execRampSecond s = .next t) : s.evolves t := by
  unfold execRampSecond at h
  split at h
  · refine quietEvent_evolves h (State.follows.trans ?_ (evalNoFlow_follows _ _))
    exact follows_of_views rfl rfl rfl
  · exact next_evolves h

theorem valveFault_follows (before : ValveState) (e : Event) : e.s.follows true (valveFault before e).s := by
  unfold valveFault
  split
  · exact raiseHold_follows _ _ _ _ e
  · split
    · exact raiseHold_follows _ _ _ _ e
    · exact e.s.follows_refl _

theorem valveEnd_follows (before : ValveState) (s : State) : s.follows true (valveEnd before s) := by
  unfold valveEnd
  split
  · next hd => exact enterPumping_follows _ hd.2.2
  · split
    · next hd => exact enterSettling_follows _ hd.2.2
    · exact s.follows_refl _

theorem execLimitSwitchChange_evolves {w : LimitSwitch} {current : Nat} {s t : State}
    (h : execLimitSwitchChange w current s = .next t) : s.evolves t := by
  unfold execLimitSwitchChange at h
  dsimp only at h
  split at h
  · exact next_evolves h
  · refine event_evolves h (State.follows.trans (State.follows.trans ?_ (valveFault_follows _ _)) (valveEnd_follows _ _))
    cases w <;> exact follows_of_views rfl rfl rfl

/-! ### The tally (R129 to R139) -/

theorem execRateSecond_evolves {s t : State} (h : execRateSecond s = .next t) : s.evolves t := by
  unfold execRateSecond at h
  split at h
  · have shifted : s.noted.follows true (shiftBins s.noted) := follows_of_views rfl rfl rfl
    have ended : (shiftBins s.noted).follows true (rateEndsRundown (shiftBins s.noted)) := by
      unfold rateEndsRundown
      split
      · next hd => exact enterClosing_follows _ fun hs => timed_rundown_stoppable hs hd.1
      · exact (shiftBins s.noted).follows_refl _
    exact event_evolves h (((shifted.trans ended).trans (evalNoFlow_follows _ _)).trans (evalOverspeed_follows _ _))
  · exact next_evolves h

theorem execNoFlowExpiry_evolves {s t : State} (h : execNoFlowExpiry s = .next t) : s.evolves t := by
  unfold execNoFlowExpiry at h
  split at h
  · refine event_evolves h (State.follows.trans ?_ (raiseHold_follows _ _ _ _ _))
    exact follows_of_views rfl rfl rfl
  · exact next_evolves h

theorem execOverspeedExpiry_evolves {s t : State} (h : execOverspeedExpiry s = .next t) : s.evolves t := by
  unfold execOverspeedExpiry at h
  split at h
  · refine event_evolves h (State.follows.trans ?_ (raiseHold_follows _ _ _ _ _))
    exact follows_of_views rfl rfl rfl
  · exact next_evolves h

theorem execMeterPulse_evolves {s t : State} (h : execMeterPulse s = .next t) : s.evolves t := by
  refine event_evolves h ?_
  have binned : s.noted.follows true (s.begin.mod binPulse).s := follows_of_views rfl rfl rfl
  dsimp only
  split
  · exact binned
  · split
    · exact binned
    · exact binned.trans (tallyPulse_follows _)

/-! ### The tick, the reports and the polls (R2, R41, R42, R146) -/

/-- A tick counts timers and ages reports: it fills and empties nothing, and no term reads an age (R2, R41). -/
theorem tickState_follows (s : State) : s.follows true (tickState s) := by
  have clock (o : Option Nat) : (countDown o).isSome = o.isSome := by cases o <;> rfl
  have aged (t : Tank) : (ageTank t).termView = t.termView := by
    unfold ageTank
    split <;> rfl
  have htank (v : Vector Tank 8) : (fun i => (at' (mapTable ageTank v) i).termView) = fun i => (at' v i).termView :=
    funext fun i => by rw [at'_mapTable, aged]
  have hclock : ∃ n c, clockTick s = { s with tickCount := n, ret.transfer.clock := c } := by
    unfold clockTick
    split
    · exact ⟨s.tickCount, s.ret.transfer.clock, rfl⟩
    · split
      · exact ⟨_, s.ret.transfer.clock, rfl⟩
      · exact ⟨_, _, rfl⟩
  obtain ⟨n, c, hn⟩ := hclock
  unfold tickState
  rw [hn]
  refine follows_of_views rfl ?_ ?_
  · simp only [itemsOf, clock]
  · simp only [rateViewOf, State.tank, htank]

theorem execTick_evolves {s t : State} (h : execTick s = .next t) : s.evolves t :=
  quietEvent_evolves h (tickState_follows _)

theorem execTransferClockSecond_evolves {s t : State} (h : execTransferClockSecond s = .next t) : s.evolves t := by
  unfold execTransferClockSecond at h
  split at h
  · exact execTick_evolves h
  · exact next_evolves h

theorem execReportStale_evolves {i : Fin 8} {s t : State} (h : execReportStale i s = .next t) : s.evolves t := by
  unfold execReportStale at h
  split at h
  · exact event_evolves h (restatus_unrated s.watches i s.begin).recomputed
  · exact next_evolves h

theorem execReportLost_evolves {i : Fin 8} {s t : State} (h : execReportLost i s = .next t) : s.evolves t := by
  unfold execReportLost at h
  split at h
  · exact event_evolves h (restatusAll_unrated (lostDue s) s.begin).recomputed
  · exact next_evolves h

theorem execPollCycleExpiry_evolves {s t : State} (h : execPollCycleExpiry s = .next t) : s.evolves t := by
  unfold execPollCycleExpiry at h
  split at h
  · exact quietEvent_evolves h (follows_of_views rfl rfl rfl)
  · exact next_evolves h

theorem execTransactionEnd_evolves {reply : List Byte} {s t : State} (h : execTransactionEnd reply s = .next t) :
    s.evolves t := by
  have polled (n : Nat) (u : State) : u.follows true (pollFrom n u) := follows_of_views rfl rfl rfl
  unfold execTransactionEnd at h
  split at h
  · exact next_evolves h
  · refine event_evolves h (State.follows.trans ?_ (polled _ _))
    split
    · exact s.noted.follows_refl _
    · refine handOnRoles_follows _ _ _ _ ?_
      exact unrated_of_items rfl rfl

/-! ### Debounced inputs (R111, R161) -/

theorem settleLine_follows (n : Fin 6) (s : State) : s.follows true (settleLine n s) := by
  unfold settleLine
  split
  · exact foldl_state_follows lineEvent (fun s n => finish_follows (lineFollows_follows n s.begin)) _ s
  · exact s.follows_refl _

theorem settleLoop_follows (s : State) : s.follows true (settleLoop s) := by
  unfold settleLoop
  split
  · refine finish_follows ?_
    have followed : s.noted.follows true
        (s.begin.mod fun s => { s with loop.loopIn := s.loop.rawIn, loop.count := 0 }).s := follows_of_views rfl rfl rfl
    unfold loopFollows
    dsimp only
    split
    · exact followed.trans (raiseHold_follows _ _ _ _ _)
    · exact followed
  · exact s.follows_refl _

theorem senseLine_follows (n : Fin 6) (current : Nat) (e : Event) : e.s.follows true (senseLine n current e).s := by
  unfold senseLine
  dsimp only
  have sensed := setLine_follows true e.s n { e.s.line n with raw := senseContact (e.s.line n).raw current }
  split
  · exact sensed.trans (setLine_follows _ _ _ _)
  · split
    · exact sensed.trans (lineFollows_follows n _)
    · exact sensed

/-- What was taken first, and the event behind it. -/
theorem evolves_after {s u t : State} (hr : s.running = true) (h : s.follows true u) (hu : u.evolves t) : s.evolves t := by
  rcases hu with rfl | ⟨-, ht⟩
  · exact .inr ⟨hr, h⟩
  · exact .inr ⟨hr, h.trans ht⟩

theorem execRawLineChange_evolves {n : Fin 6} {current : Nat} {s t : State}
    (h : execRawLineChange n current s = .next t) : s.evolves t := by
  unfold execRawLineChange at h
  split at h
  · next hr =>
    exact evolves_after hr (settleLine_follows n s) (event_evolves h (senseLine_follows n current (settleLine n s).begin))
  · exact next_evolves h

theorem execLineDebounceComplete_evolves {n : Fin 6} {s t : State} (h : execLineDebounceComplete n s = .next t) :
    s.evolves t := by
  unfold execLineDebounceComplete at h
  split at h
  · next hr => exact evolves_after hr (settleLine_follows n s) (next_evolves h)
  · exact next_evolves h

theorem execLoopInRawChange_evolves {current : Nat} {s t : State} (h : execLoopInRawChange current s = .next t) :
    s.evolves t := by
  unfold execLoopInRawChange at h
  split at h
  · next hr =>
    exact evolves_after hr (settleLoop_follows s) (quietEvent_evolves h (follows_of_views rfl rfl rfl))
  · exact next_evolves h

theorem execLoopInDebounceComplete_evolves {s t : State} (h : execLoopInDebounceComplete s = .next t) :
    s.evolves t := by
  unfold execLoopInDebounceComplete at h
  split at h
  · next hr => exact evolves_after hr (settleLoop_follows s) (next_evolves h)
  · exact next_evolves h

/-! ### Commands and steps -/

/-- All that a command can do: evolve, stop the part or start it. -/
theorem exec_evolves {c : Instr} {s t : State} (h : exec c s = .next t) :
    s.evolves t ∨ (∃ m, t = stopped m s) ∨ ∃ m sample schedule, t = startPart m sample schedule s := by
  cases hc : requestOf c with
  | some q => exact .inl (exec_request_evolves hc h)
  | none =>
    cases c with
    | unknownRequest => exact .inl (execUnknownRequest_evolves h)
    | overrun =>
      unfold exec execOverrun at h
      dsimp only at h
      split at h
      · exact .inl (quietEvent_evolves h ((setLink_follows _ _ _ _).trans (setLink_follows _ _ _ _)))
      · exact .inl (next_evolves h)
    | frameDiscard => exact .inl (quietEvent_evolves h (setLink_follows _ _ _ _))
    | halt link => exact .inl (event_evolves h (haltEffect_follows link s.begin))
    | transmissionEnd =>
      unfold exec execTransmissionEnd at h
      dsimp only at h
      split at h
      · exact .inl (quietLink_evolves h)
      · exact .inl (next_evolves h)
    | silenceExpiry => exact .inl (execSilenceExpiry_evolves h)
    | confirmExpiry => exact .inl (execConfirmExpiry_evolves h)
    | strokeTimerExpiry => exact .inl (execStrokeTimerExpiry_evolves h)
    | rundownExpiry => exact .inl (execRundownExpiry_evolves h)
    | settleExpiry => exact .inl (execSettleExpiry_evolves h)
    | rampSecond => exact .inl (execRampSecond_evolves h)
    | rateSecond => exact .inl (execRateSecond_evolves h)
    | noFlowExpiry => exact .inl (execNoFlowExpiry_evolves h)
    | overspeedExpiry => exact .inl (execOverspeedExpiry_evolves h)
    | pollCycleExpiry => exact .inl (execPollCycleExpiry_evolves h)
    | transactionEnd => exact .inl (execTransactionEnd_evolves h)
    | tick => exact .inl (execTick_evolves h)
    | transferClockSecond => exact .inl (execTransferClockSecond_evolves h)
    | reportStale => exact .inl (execReportStale_evolves h)
    | reportLost => exact .inl (execReportLost_evolves h)
    | limitSwitchChange => exact .inl (execLimitSwitchChange_evolves h)
    | meterPulse => exact .inl (execMeterPulse_evolves h)
    | rawLineChange => exact .inl (execRawLineChange_evolves h)
    | lineDebounceComplete => exact .inl (execLineDebounceComplete_evolves h)
    | loopInRawChange => exact .inl (execLoopInRawChange_evolves h)
    | loopInDebounceComplete => exact .inl (execLoopInDebounceComplete_evolves h)
    | receiverOctet => exact .inl (execReceiverOctet_evolves h)
    | coldStart loss sample schedule =>
      unfold exec execColdStart at h
      dsimp only at h
      split at h
      · exact .inr (.inr ⟨_, sample, schedule, (Host.Outcome.next.inj h).symm⟩)
      · exact .inl (next_evolves h)
    | warmStart sample schedule =>
      unfold exec execWarmStart at h
      dsimp only at h
      split at h
      · exact .inr (.inr ⟨_, sample, schedule, (Host.Outcome.next.inj h).symm⟩)
      · exact .inl (next_evolves h)
    | partStops stop =>
      unfold exec execPartStops at h
      dsimp only at h
      split at h
      · exact .inr (.inl ⟨_, (Host.Outcome.next.inj h).symm⟩)
      · exact .inl (next_evolves h)
    | _ => cases hc

end Sys2Proof.Machine
end

