-- ==== Sys2Proof/Proofs/RateTerms.lean ====
section
/-! The terms of the permitted rate, the limiting term and the end cause (R58 to R66, R69). -/

namespace Sys2Proof.Machine

/-! ### The lowest index for which a test holds -/

/-- The first of a rising list for which a test holds is the lowest of it. -/
theorem find?_rising {n : Nat} {l : List (Fin n)} (hl : l.Pairwise (· < ·)) {test : Fin n → Bool} {i : Fin n} :
    l.find? test = some i ↔ i ∈ l ∧ test i = true ∧ ∀ k ∈ l, test k = true → i ≤ k := by
  induction l with
  | nil => simp
  | cons a rest ih =>
    obtain ⟨ha, hrest⟩ := List.pairwise_cons.1 hl
    rw [List.find?_cons]
    cases hta : test a with
    | true =>
      constructor
      · intro h
        cases h
        refine ⟨List.mem_cons_self .., hta, fun k hk _ => ?_⟩
        rcases List.mem_cons.1 hk with rfl | hk
        · exact Nat.le_refl _
        · exact Nat.le_of_lt (ha k hk)
      · rintro ⟨hi, -, hle⟩
        rcases List.mem_cons.1 hi with rfl | hi
        · rfl
        · exact absurd (hle a (List.mem_cons_self ..) hta) (Nat.not_le.2 (ha i hi))
    | false =>
      show rest.find? test = some i ↔ _
      rw [ih hrest]
      have hne {k : Fin n} (hk : test k = true) : k ≠ a := fun he => by rw [he, hta] at hk; cases hk
      constructor
      · rintro ⟨hi, ht, hle⟩
        exact ⟨List.mem_cons_of_mem _ hi, ht, fun k hk htk => hle k ((List.mem_cons.1 hk).resolve_left (hne htk)) htk⟩
      · rintro ⟨hi, ht, hle⟩
        exact ⟨(List.mem_cons.1 hi).resolve_left (hne ht), ht, fun k hk => hle k (List.mem_cons_of_mem _ hk)⟩

theorem mem_allStages (j : Fin 4) : j ∈ allStages := by revert j; decide

theorem find?_allTanks {test : Fin 8 → Bool} {i : Fin 8} :
    allTanks.find? test = some i ↔ test i = true ∧ ∀ k, test k = true → i ≤ k := by
  rw [find?_rising (by decide)]
  simp [mem_allTanks]

theorem find?_allStages {test : Fin 4 → Bool} {j : Fin 4} :
    allStages.find? test = some j ↔ test j = true ∧ ∀ k, test k = true → j ≤ k := by
  rw [find?_rising (by decide)]
  simp [mem_allStages]

theorem lowestTank_eq_some {r : Step} {test : TankEntry → Bool} {i : Fin 8} : lowestTank r test = some i ↔
    (∃ e ∈ r.tanks, e.tank = i ∧ test e = true) ∧ ∀ e ∈ r.tanks, test e = true → i ≤ e.tank := by
  rw [lowestTank, find?_allTanks]
  simp only [List.any_eq_true, Bool.and_eq_true, decide_eq_true_eq]
  exact and_congr_right fun _ =>
    ⟨fun h e he ht => h e.tank ⟨e, he, rfl, ht⟩, fun h k ⟨e, he, hk, ht⟩ => hk ▸ h e he ht⟩

theorem lowestTank_eq_none {r : Step} {test : TankEntry → Bool} :
    lowestTank r test = none ↔ ∀ e ∈ r.tanks, test e = false := by
  rw [lowestTank, List.find?_eq_none]
  simp only [List.any_eq_true, Bool.and_eq_true, decide_eq_true_eq, not_exists, not_and, Bool.not_eq_true]
  exact ⟨fun h e he => h e.tank (mem_allTanks _) e he rfl, fun h i _ e he _ => h e he⟩

/-! ### The terms (R58 to R64) -/

/-- The lowest of a first value and a value for each element of a list. -/
theorem foldl_min_spec {α : Type} (f : α → Nat) (b : Nat) (l : List α) :
    l.foldl (fun m e => min m (f e)) b ≤ b ∧ (∀ e ∈ l, l.foldl (fun m e => min m (f e)) b ≤ f e) ∧
      (l.foldl (fun m e => min m (f e)) b = b ∨ ∃ e ∈ l, l.foldl (fun m e => min m (f e)) b = f e) := by
  have hl : lowest (b :: l.map f) = some (l.foldl (fun m e => min m (f e)) b) := congrArg some List.foldl_map
  obtain ⟨hm, hle⟩ := lowest_eq_some.1 hl
  refine ⟨hle b (List.mem_cons_self ..), fun e he => hle _ (List.mem_cons_of_mem _ (List.mem_map_of_mem he)), ?_⟩
  rcases List.mem_cons.1 hm with h | h
  · exact .inl h
  · obtain ⟨e, he, hv⟩ := List.mem_map.1 h
    exact .inr ⟨e, he, hv.symm⟩

section Terms

variable (s : State) (r : Step)

theorem baseRate_eq : baseRate s r = match r.rateCap with
    | none => s.ret.settings.rmax
    | some cap => min (max cap s.ret.settings.rmin) s.ret.settings.rmax := rfl

theorem baseRate_le_rmax : baseRate s r ≤ s.ret.settings.rmax := by
  rw [baseRate_eq]
  split
  · exact Nat.le_refl _
  · exact Nat.min_le_right _ _

theorem quantityTerm_eq : quantityTerm s r = if r.quantity ≤ r.delivered then 0
    else min ((r.quantity - r.delivered) * 18 / (5 * s.ret.settings.tstop)) s.ret.settings.rmax := by
  rw [quantityTerm, ← ite_not]
  simp only [Nat.not_lt]

theorem tankRate_eq {e : TankEntry} {d : TankDef} {v : Nat} (hd : (s.tank e.tank).definition = some d)
    (hv : (s.tank e.tank).contents = some v) : tankRate s e =
      min ((d.capacity * d.trip / 1000 - min (v + (s.tank e.tank).credited) 4294967295) * 360 /
        (e.share * s.ret.settings.tstop)) s.ret.settings.rmax := by
  simp only [tankRate, Tank.room, Tank.estimate, hd, hv]
  rfl

theorem projectionTerm_le {e : TankEntry} (he : e ∈ r.tanks) : projectionTerm s r ≤ tankRate s e :=
  (foldl_min_spec (tankRate s) _ r.tanks).2.1 e he

/-- The projection term is Rmax or a tank rate (R60). -/
theorem projectionTerm_attained :
    projectionTerm s r = s.ret.settings.rmax ∨ ∃ e ∈ r.tanks, projectionTerm s r = tankRate s e :=
  (foldl_min_spec (tankRate s) _ r.tanks).2.2

theorem projectionTerm_of_tanks (h : r.tanks ≠ []) : ∃ e ∈ r.tanks, projectionTerm s r = tankRate s e := by
  rcases projectionTerm_attained s r with hm | he
  · obtain ⟨e, he⟩ := List.exists_mem_of_ne_nil _ h
    exact ⟨e, he, Nat.le_antisymm (projectionTerm_le s r he) (hm ▸ Nat.min_le_right _ _)⟩
  · exact he

theorem fillStage_eq_some {i : Fin 8} {j : Fin 4} : fillStage s i = some j ↔
    (s.stage j).input = .tankFill ∧ (s.tank i).engaged[j] = true ∧
      ∀ k : Fin 4, (s.stage k).input = .tankFill → (s.tank i).engaged[k] = true → j ≤ k := by
  rw [fillStage, find?_allStages]
  simp only [Bool.and_eq_true, decide_eq_true_eq, and_imp, and_assoc]
  exact Iff.rfl

theorem tankStageRate_eq_some {i : Fin 8} {n : Nat} : tankStageRate s r i = some n ↔
    ∃ j, fillStage s i = some j ∧ stageRate (baseRate s r) (s.stage j) = n := Option.map_eq_some_iff

theorem instrumentStage_eq_some {j : Fin 4} : instrumentStage s = some j ↔
    (s.stage j).input ≠ .tankFill ∧ (s.stage j).instrumentEngaged = true ∧
      ∀ k, (s.stage k).input ≠ .tankFill → (s.stage k).instrumentEngaged = true → j ≤ k := by
  rw [instrumentStage, find?_allStages]
  simp only [Bool.and_eq_true, decide_eq_true_eq, and_imp, and_assoc]

theorem instrumentStageRate_eq_some {n : Nat} : instrumentStageRate s r = some n ↔
    ∃ j, instrumentStage s = some j ∧ stageRate (baseRate s r) (s.stage j) = n := Option.map_eq_some_iff

theorem lower_spec (m : Nat) (o : Option Nat) :
    lower m o ≤ m ∧ (∀ n, o = some n → lower m o ≤ n) ∧ (lower m o = m ∨ o = some (lower m o)) := by
  cases o with
  | none => exact ⟨Nat.le_refl _, fun n (h : none = some n) => (by cases h), .inl rfl⟩
  | some k =>
    refine ⟨Nat.min_le_left _ _, fun n h => by cases h; exact Nat.min_le_right _ _, ?_⟩
    rcases Nat.le_total m k with h | h
    · exact .inl (Nat.min_eq_left h)
    · exact .inr (congrArg some (Nat.min_eq_right h).symm)

/-- The lowest of a first rate and of those that are not absent. -/
theorem foldl_lower_spec {α : Type} (f : α → Option Nat) (b : Nat) (l : List α) :
    l.foldl (fun m e => lower m (f e)) b ≤ b ∧
      (∀ e ∈ l, ∀ n, f e = some n → l.foldl (fun m e => lower m (f e)) b ≤ n) ∧
      (l.foldl (fun m e => lower m (f e)) b = b ∨ ∃ e ∈ l, f e = some (l.foldl (fun m e => lower m (f e)) b)) := by
  induction l generalizing b with
  | nil => exact ⟨Nat.le_refl _, fun e he => (by cases he), .inl rfl⟩
  | cons a rest ih =>
    obtain ⟨hb, hle, hat⟩ := ih (lower b (f a))
    obtain ⟨hlb, hla, hlat⟩ := lower_spec b (f a)
    rw [List.foldl_cons]
    refine ⟨hb.trans hlb, fun e he n hn => ?_, ?_⟩
    · rcases List.mem_cons.1 he with rfl | he
      · exact hb.trans (hla n hn)
      · exact hle e he n hn
    · rcases hat with hat | ⟨e, he, hat⟩
      · rw [hat]
        rcases hlat with h | h
        · exact .inl h
        · exact .inr ⟨a, List.mem_cons_self .., h⟩
      · exact .inr ⟨e, List.mem_cons_of_mem _ he, hat⟩

/-- The stage term is the lowest of the base rate, the step's tank stage rates and the instrument stage rate (R62). -/
theorem stageTerm_spec : stageTerm s r ≤ baseRate s r ∧
    (∀ e ∈ r.tanks, ∀ n, tankStageRate s r e.tank = some n → stageTerm s r ≤ n) ∧
    (∀ n, instrumentStageRate s r = some n → stageTerm s r ≤ n) ∧
    (stageTerm s r = baseRate s r ∨ instrumentStageRate s r = some (stageTerm s r) ∨
      ∃ e ∈ r.tanks, tankStageRate s r e.tank = some (stageTerm s r)) := by
  obtain ⟨htop, hle, hat⟩ := foldl_lower_spec (fun e : TankEntry => tankStageRate s r e.tank) (baseRate s r) r.tanks
  obtain ⟨hlm, hln, hlat⟩ := lower_spec
    (r.tanks.foldl (fun m e => lower m (tankStageRate s r e.tank)) (baseRate s r)) (instrumentStageRate s r)
  refine ⟨hlm.trans htop, fun e he n hn => hlm.trans (hle e he n hn), hln, ?_⟩
  rcases hlat with h | h
  · have hst : stageTerm s r = r.tanks.foldl (fun m e => lower m (tankStageRate s r e.tank)) (baseRate s r) := h
    rw [hst]
    rcases hat with hat | hat
    · exact .inl hat
    · exact .inr (.inr hat)
  · exact .inr (.inl h)

theorem degraded_iff {g : GaugeStatus} : g.degraded = true ↔ g = .stale ∨ g = .lost := by
  cases g <;> decide

theorem degradeTerm_fresh (h : ∀ e ∈ r.tanks, (s.tank e.tank).status ≠ .stale ∧ (s.tank e.tank).status ≠ .lost) :
    degradeTerm s r = baseRate s r := by
  refine if_neg fun hany => ?_
  obtain ⟨e, he, hd⟩ := List.any_eq_true.1 hany
  exact (degraded_iff.1 hd).elim (h e he).1 (h e he).2

theorem degradeTerm_degraded (h : ∃ e ∈ r.tanks, (s.tank e.tank).status = .stale ∨ (s.tank e.tank).status = .lost) :
    degradeTerm s r = degradeRate s (baseRate s r) := by
  obtain ⟨e, he, hd⟩ := h
  exact if_pos (List.any_eq_true.2 ⟨e, he, degraded_iff.2 hd⟩)

theorem mem_enabledFillRates {b n : Nat} : n ∈ enabledFillRates s b ↔
    ∃ j, ((s.stage j).enabled = true ∧ (s.stage j).input = .tankFill) ∧ stageRate b (s.stage j) = n := by
  simp [enabledFillRates, mem_allStages]

/-- The degrade rate is the lowest enabled fill stage rate, or half the base rate where no fill stage is enabled (R63). -/
theorem degradeRate_spec (b : Nat) :
    (enabledFillRates s b = [] ∧ degradeRate s b = b / 2) ∨
      degradeRate s b ∈ enabledFillRates s b ∧ ∀ n ∈ enabledFillRates s b, degradeRate s b ≤ n := by
  unfold degradeRate
  cases hl : enabledFillRates s b with
  | nil => exact .inl ⟨rfl, rfl⟩
  | cons x rest => exact .inr (lowest_eq_some.1 rfl)

end Terms

/-! ### P and the limiting term (R65, R66) -/

/-- P of a step is below each of its six terms (R65). -/
theorem stepPermitted_le (s : State) (r : Step) :
    stepPermitted s r ≤ baseRate s r ∧ stepPermitted s r ≤ quantityTerm s r ∧ stepPermitted s r ≤ projectionTerm s r ∧
      stepPermitted s r ≤ stageTerm s r ∧ stepPermitted s r ≤ degradeTerm s r ∧ stepPermitted s r ≤ blindTerm s r := by
  simp [stepPermitted]

/-- When a limiting term names P: the first in R66's order that equals it, with its tank, stage or role. -/
def limitNames (s : State) (r : Step) (p : Nat) : LimitTerm → Prop
  | .none => False
  | .base => baseRate s r = p
  | .quantity => p < baseRate s r ∧ quantityTerm s r = p
  | .projection i => p < baseRate s r ∧ p < quantityTerm s r ∧ (∃ e ∈ r.tanks, e.tank = i ∧ tankRate s e = p) ∧
      ∀ e ∈ r.tanks, tankRate s e = p → i ≤ e.tank
  | .stageTank j i => p < baseRate s r ∧ p < quantityTerm s r ∧ p < projectionTerm s r ∧ fillStage s i = some j ∧
      (∃ e ∈ r.tanks, e.tank = i) ∧ tankStageRate s r i = some p ∧
      ∀ e ∈ r.tanks, tankStageRate s r e.tank = some p → i ≤ e.tank
  | .stageRole j role => p < baseRate s r ∧ p < quantityTerm s r ∧ p < projectionTerm s r ∧
      (∀ e ∈ r.tanks, tankStageRate s r e.tank ≠ some p) ∧ instrumentStage s = some j ∧
      (s.stage j).input = .role role ∧ instrumentStageRate s r = some p
  | .degrade i => p < baseRate s r ∧ p < quantityTerm s r ∧ p < projectionTerm s r ∧ p < stageTerm s r ∧
      degradeTerm s r = p ∧ (∃ e ∈ r.tanks, e.tank = i) ∧
      ((s.tank i).status = .stale ∧ (∀ e ∈ r.tanks, (s.tank e.tank).status = .stale → i ≤ e.tank) ∨
        (s.tank i).status = .lost ∧ (∀ e ∈ r.tanks, (s.tank e.tank).status ≠ .stale) ∧
          ∀ e ∈ r.tanks, (s.tank e.tank).status = .lost → i ≤ e.tank)
  | .blind => p < baseRate s r ∧ p < quantityTerm s r ∧ p < projectionTerm s r ∧ p < stageTerm s r ∧ p < degradeTerm s r

section Limit

variable {s : State} {r : Step} {p : Nat}

/-- Where the stage term gives P, below the base rate, its name is that of a fill stage or of an instrument stage. -/
theorem stageLimit_names (hbase : p < baseRate s r) (hquantity : p < quantityTerm s r)
    (hprojection : p < projectionTerm s r) (hstage : stageTerm s r = p) : limitNames s r p (stageLimit s r p) := by
  unfold stageLimit
  split
  · next i hi =>
    obtain ⟨⟨e, he, rfl, hp⟩, hle⟩ := lowestTank_eq_some.1 hi
    simp only [beq_iff_eq] at hp hle
    obtain ⟨j, hj, -⟩ := (tankStageRate_eq_some s r).1 hp
    rw [hj]
    exact ⟨hbase, hquantity, hprojection, hj, ⟨e, he, rfl⟩, hp, hle⟩
  · next hnone =>
    have hfill : ∀ e ∈ r.tanks, tankStageRate s r e.tank ≠ some p := fun e he => by
      simpa using lowestTank_eq_none.1 hnone e he
    have hrate : instrumentStageRate s r = some p := by
      rcases (stageTerm_spec s r).2.2.2 with h | h | ⟨e, he, h⟩
      · exact absurd (hstage.symm.trans h) (Nat.ne_of_lt hbase)
      · exact hstage ▸ h
      · exact absurd (hstage ▸ h) (hfill e he)
    obtain ⟨j, hj, -⟩ := (instrumentStageRate_eq_some s r).1 hrate
    obtain ⟨hinput, -⟩ := (instrumentStage_eq_some s).1 hj
    rw [hj]
    dsimp only
    cases hi : (s.stage j).input with
    | tankFill => exact absurd hi hinput
    | role role => exact ⟨hbase, hquantity, hprojection, hfill, hj, hi, hrate⟩

/-- Where the degrade term gives P, below the base rate, a tank of the step is STALE or LOST (log 13). -/
theorem degradeLimit_names (hbase : p < baseRate s r) (hquantity : p < quantityTerm s r)
    (hprojection : p < projectionTerm s r) (hstage : p < stageTerm s r) (hdegrade : degradeTerm s r = p) :
    limitNames s r p (degradeLimit s r) := by
  unfold degradeLimit
  split
  · next i hi =>
    obtain ⟨⟨e, he, rfl, hstale⟩, hle⟩ := lowestTank_eq_some.1 hi
    simp only [decide_eq_true_eq] at hstale hle
    exact ⟨hbase, hquantity, hprojection, hstage, hdegrade, ⟨e, he, rfl⟩, .inl ⟨hstale, hle⟩⟩
  · next hnone =>
    have hfresh : ∀ e ∈ r.tanks, (s.tank e.tank).status ≠ .stale := fun e he => by
      simpa using lowestTank_eq_none.1 hnone e he
    split
    · next i hi =>
      obtain ⟨⟨e, he, rfl, hlost⟩, hle⟩ := lowestTank_eq_some.1 hi
      simp only [decide_eq_true_eq] at hlost hle
      exact ⟨hbase, hquantity, hprojection, hstage, hdegrade, ⟨e, he, rfl⟩, .inr ⟨hlost, hfresh, hle⟩⟩
    · next hlost =>
      have h := degradeTerm_fresh s r fun e he =>
        ⟨hfresh e he, by simpa using lowestTank_eq_none.1 hlost e he⟩
      exact absurd (hdegrade.symm.trans h) (Nat.ne_of_lt hbase)

/-- The limiting term of a step names its P. -/
theorem stepTerm_names (s : State) (r : Step) : limitNames s r (stepPermitted s r) (stepTerm s r) := by
  obtain ⟨hb, hq, hpj, hst, hdg, -⟩ := stepPermitted_le s r
  have less {x : Nat} (h : stepPermitted s r ≤ x) (hne : ¬x = stepPermitted s r) : stepPermitted s r < x :=
    Nat.lt_of_le_of_ne h (Ne.symm hne)
  unfold stepTerm
  dsimp only
  split
  · next h => exact h
  next hnb =>
  split
  · next h => exact ⟨less hb hnb, h⟩
  next hnq =>
  split
  · next h =>
    obtain ⟨e, he, hrate⟩ : ∃ e ∈ r.tanks, tankRate s e = stepPermitted s r := by
      rcases projectionTerm_attained s r with hm | ⟨e, he, hm⟩
      · exact absurd (Nat.le_antisymm ((baseRate_le_rmax s r).trans (Nat.le_of_eq (hm.symm.trans h))) hb) hnb
      · exact ⟨e, he, hm.symm.trans h⟩
    split
    · next i hi =>
      obtain ⟨hex, hle⟩ := lowestTank_eq_some.1 hi
      simp only [beq_iff_eq] at hex hle
      exact ⟨less hb hnb, less hq hnq, hex, hle⟩
    · next hnone => exact absurd hrate (by simpa using lowestTank_eq_none.1 hnone e he)
  next hnp =>
  split
  · next h => exact stageLimit_names (less hb hnb) (less hq hnq) (less hpj hnp) h
  next hns =>
  split
  · next h => exact degradeLimit_names (less hb hnb) (less hq hnq) (less hpj hnp) (less hst hns) h
  · next hnd => exact ⟨less hb hnb, less hq hnq, less hpj hnp, less hst hns, less hdg hnd⟩

/-- The limiting term of a step is the one that names its P (R66). -/
theorem stepTerm_eq_iff {x : LimitTerm} : stepTerm s r = x ↔ limitNames s r (stepPermitted s r) x := by
  refine ⟨fun h => h ▸ stepTerm_names s r, fun h => ?_⟩
  obtain ⟨-, -, hpj, hst, -, -⟩ := stepPermitted_le s r
  obtain ⟨-, hfills, hinstrument, -⟩ := stageTerm_spec s r
  unfold stepTerm
  dsimp only
  cases x with
  | none => exact h.elim
  | base => exact if_pos h
  | quantity =>
    obtain ⟨hb, hq⟩ := h
    rw [if_neg hb.ne', if_pos hq]
  | projection i =>
    obtain ⟨hb, hq, ⟨e, he, hi, hrate⟩, hle⟩ := h
    have hp : projectionTerm s r = stepPermitted s r :=
      Nat.le_antisymm ((projectionTerm_le s r he).trans (Nat.le_of_eq hrate)) hpj
    have hlow : lowestTank r (fun e => tankRate s e == stepPermitted s r) = some i :=
      lowestTank_eq_some.2 ⟨⟨e, he, hi, by simpa using hrate⟩, by simpa using hle⟩
    rw [if_neg hb.ne', if_neg hq.ne', if_pos hp, hlow]
  | stageTank j i =>
    obtain ⟨hb, hq, hp, hj, ⟨e, he, rfl⟩, hrate, hle⟩ := h
    have hs : stageTerm s r = stepPermitted s r := Nat.le_antisymm (hfills e he _ hrate) hst
    have hlow : lowestTank r (fun e => tankStageRate s r e.tank == some (stepPermitted s r)) = some e.tank :=
      lowestTank_eq_some.2 ⟨⟨e, he, rfl, by simpa using hrate⟩, by simpa using hle⟩
    rw [if_neg hb.ne', if_neg hq.ne', if_neg hp.ne', if_pos hs, stageLimit, hlow]
    dsimp only
    rw [hj]
  | stageRole j role =>
    obtain ⟨hb, hq, hp, hnone, hj, hrole, hrate⟩ := h
    have hs : stageTerm s r = stepPermitted s r := Nat.le_antisymm (hinstrument _ hrate) hst
    have hlow : lowestTank r (fun e => tankStageRate s r e.tank == some (stepPermitted s r)) = none :=
      lowestTank_eq_none.2 (by simpa using hnone)
    rw [if_neg hb.ne', if_neg hq.ne', if_neg hp.ne', if_pos hs, stageLimit, hlow, hj]
    dsimp only
    rw [hrole]
  | degrade i =>
    obtain ⟨hb, hq, hp, hs, hd, ⟨e, he, rfl⟩, hcase⟩ := h
    rw [if_neg hb.ne', if_neg hq.ne', if_neg hp.ne', if_neg hs.ne', if_pos hd, degradeLimit]
    rcases hcase with ⟨hstale, hle⟩ | ⟨hlost, hfresh, hle⟩
    · have hlow : lowestTank r (fun e => decide ((s.tank e.tank).status = .stale)) = some e.tank :=
        lowestTank_eq_some.2 ⟨⟨e, he, rfl, by simpa using hstale⟩, by simpa using hle⟩
      rw [hlow]
    · have hnone : lowestTank r (fun e => decide ((s.tank e.tank).status = .stale)) = none :=
        lowestTank_eq_none.2 (by simpa using hfresh)
      have hlow : lowestTank r (fun e => decide ((s.tank e.tank).status = .lost)) = some e.tank :=
        lowestTank_eq_some.2 ⟨⟨e, he, rfl, by simpa using hlost⟩, by simpa using hle⟩
      rw [hnone, hlow]
  | blind =>
    obtain ⟨hb, hq, hp, hs, hd⟩ := h
    rw [if_neg hb.ne', if_neg hq.ne', if_neg hp.ne', if_neg hs.ne', if_neg hd.ne']

/-- P of a step is one of its six terms (R65). -/
theorem stepPermitted_mem (s : State) (r : Step) : stepPermitted s r ∈
    [baseRate s r, quantityTerm s r, projectionTerm s r, stageTerm s r, degradeTerm s r, blindTerm s r] := by
  have hl : lowest [blindTerm s r, degradeTerm s r, stageTerm s r, projectionTerm s r, quantityTerm s r, baseRate s r] =
      some (stepPermitted s r) := by
    simp only [lowest, List.foldl_cons, List.foldl_nil, stepPermitted, Option.some.injEq]
    omega
  have hm := (lowest_eq_some.1 hl).1
  simp only [List.mem_cons, List.not_mem_nil, or_false] at hm ⊢
  tauto

end Limit

/-- Settles O19: P and its name by the six terms, and each term by its rule. -/
theorem permittedRateIsLowestTerm : Obligations.PermittedRateIsLowestTerm := by
  intro s
  refine ⟨fun ha => by simp [permittedRate, limitingTerm, ha], fun r ha => ?_⟩
  have hp : permittedRate s = stepPermitted s r := by simp [permittedRate, ha]
  have ht : limitingTerm s = stepTerm s r := by simp [limitingTerm, ha]
  obtain ⟨hb, hq, hpj, hst, hdg, hbl⟩ := stepPermitted_le s r
  obtain ⟨hstb, hstf, hsti, hstat⟩ := stageTerm_spec s r
  intro p terms t rateOf fills
  have hrate (st : Stage) : stageRate (baseRate s r) st = rateOf st := rfl
  have hpv : p = stepPermitted s r := hp
  refine ⟨⟨hpv.symm ▸ stepPermitted_mem s r, ?_, hpv.symm ▸ hb.trans (baseRate_le_rmax s r), ?_, ?_, fun i => ?_, fun j i => ?_,
    fun j role => ?_, fun i => ?_, ?_⟩, baseRate_eq s r, quantityTerm_eq s r, fun e d v => tankRate_eq s,
    fun e he => projectionTerm_le s r he, projectionTerm_of_tanks s r, fun i j => fillStage_eq_some s,
    fun i n => tankStageRate_eq_some s r, fun j => instrumentStage_eq_some s, fun n => instrumentStageRate_eq_some s r,
    hstb, hstf, hsti, hstat, degradeTerm_fresh s r, fun h => ?_, rfl⟩
  · rw [hpv]
    simp only [terms, List.forall_mem_cons]
    exact ⟨hb, hq, hpj, hst, hdg, hbl, fun x hx => (by cases hx)⟩
  iterate 7
    rw [ht, hpv]
    exact stepTerm_eq_iff
  · rw [degradeTerm_degraded s r h]
    have hmem {j : Fin 4} (hj : fills (s.stage j)) : rateOf (s.stage j) ∈ enabledFillRates s (baseRate s r) :=
      (mem_enabledFillRates s).2 ⟨j, hj, rfl⟩
    rcases degradeRate_spec s (baseRate s r) with ⟨hnil, hhalf⟩ | ⟨hin, hle⟩
    · have hno (j : Fin 4) : ¬fills (s.stage j) := fun hj => by
        have := hmem hj
        rw [hnil] at this
        cases this
      exact ⟨fun _ => hhalf, fun j hj => absurd hj (hno j), fun ⟨j, hj⟩ => absurd hj (hno j)⟩
    · obtain ⟨j, hj, hr⟩ := (mem_enabledFillRates s).1 hin
      exact ⟨fun hno => absurd hj (hno j), fun j hj => hle _ (hmem hj), fun _ => ⟨j, hj, hr.symm⟩⟩

/-! ### The end cause (R69) -/

theorem below_iff {m : Option Nat} {n : Nat} : below m n = true ↔ ∃ k, m = some k ∧ k < n := by
  cases m <;> simp [below]

/-- Settles O21: the lowest of the short tanks, else the first entry's. -/
theorem endCauseNamesTank : Obligations.EndCauseNamesTank := by
  intro s r low
  have hlow (e : TankEntry) : (decide (tankRate s e < s.ret.settings.rmin) ||
      below (tankStageRate s r e.tank) s.ret.settings.rmin) = true ↔ low e := by
    rw [Bool.or_eq_true, decide_eq_true_eq, below_iff]
  refine ⟨fun h => if_pos h, fun hq hex => ?_, fun e rest ht hq hno => ?_⟩
  · obtain ⟨e0, he0, hl0⟩ := hex
    cases hf : lowestTank r fun e =>
        decide (tankRate s e < s.ret.settings.rmin) || below (tankStageRate s r e.tank) s.ret.settings.rmin with
    | none => exact absurd ((hlow e0).2 hl0) (by rw [lowestTank_eq_none.1 hf e0 he0]; decide)
    | some i =>
      obtain ⟨⟨e, he, rfl, hl⟩, hle⟩ := lowestTank_eq_some.1 hf
      refine ⟨e, he, (hlow e).1 hl, ?_, fun e' he' hl' => hle e' he' ((hlow e').2 hl')⟩
      rw [endCauseNow, if_neg (Nat.not_lt.2 hq), hf]
  · have hf := lowestTank_eq_none.2 fun e' he' => Bool.eq_false_iff.2 fun h => hno e' he' ((hlow e').1 h)
    rw [endCauseNow, if_neg (Nat.not_lt.2 hq), hf, ht]

end Sys2Proof.Machine
end

