-- ==== Sys2Proof/Proofs/StepInvariants.lean ====
section
/-! What every step keeps of the delivery timers and of P (R65, R67, R78, R93), and that a stop always fits (R59, R60). -/

namespace Sys2Proof.Machine

/-- After a start none of R78's items is present, and P is as the terms give it (R65, R77, R102). -/
theorem startPart_sound (memory : Retained) (sample : InputSample) (schedule : List RaisingBlock) (s : State) :
    (startPart memory sample schedule s).timersSound ∧ (startPart memory sample schedule s).rateCurrent := by
  obtain ⟨u, settings, holds, loop, he, hr, hg, hc, hd⟩ := startPart_rated memory sample schedule s
  rw [he]
  let v : State := { u.rated with ret.holds := holds, loop := loop }
  have hrated : v.rateStands := rateStands_congr (s := u.rated) rfl ⟨rfl, rfl⟩
  have htimed : v.timed := by
    have hcv : v.controller = controllerAtStart settings sample := hc
    have hdv : v.ret.delivery = .idle ∧ v.ret.active = none ∨ v.ret.delivery = .held ∧ v.ret.active ≠ none := hd
    unfold State.timed DeliveryItems.sound itemsOf
    rw [hcv]
    rcases hdv with ⟨hdv, ha⟩ | ⟨hdv, ha⟩
    · rw [hdv, ha]
      exact ⟨rfl, rfl, rfl, rfl, rfl, rfl⟩
    · rw [hdv]
      exact ⟨Option.isSome_iff_ne_none.2 ha, rfl, rfl, rfl, rfl, rfl⟩
  exact ⟨((timed_iff hr).1 htimed).1, fun _ => hrated⟩

/-- Every step keeps R78's items in their delivery states, given the step that the pool gives delivery. -/
theorem step_keeps_timersSound {s t : State} (hp : s.poolWhole) (hs : s.timersSound) (h : step s = .next t) :
    t.timersSound := by
  unfold step at h
  split at h
  · cases h; exact hs
  · next c rest _ =>
    rcases exec_evolves h with (rfl | ⟨hr, hrun, htimed, -⟩) | ⟨m, rfl⟩ | ⟨m, sample, schedule, rfl⟩
    · exact hs
    · have hslot : s.ret.delivery = .idle ↔ s.ret.active = none := hp.1.2
      have hstarts : { s with pending := rest }.timed := (timed_iff hr).2 ⟨hs, hslot⟩
      exact ((timed_iff (hrun.trans hr)).1 (htimed hstarts)).1
    · exact ⟨fun hr => (by cases hr), fun _ => ⟨rfl, rfl, rfl, rfl, rfl⟩⟩
    · exact (startPart_sound m sample schedule _).1

/-- Settles O58: the command and the demand by every move, R78's items by every operation. -/
theorem stepKeepsDeliverySound : Obligations.StepKeepsDeliverySound :=
  ⟨fun _ _ hs h => step_keeps_deliverySound hs h, fun _ _ hp hs h => step_keeps_timersSound hp hs h⟩

/-- Settles O59: what a term reads changes only where a recomputation follows, or a start computes P afresh. -/
theorem stepKeepsRateCurrent : Obligations.StepKeepsRateCurrent := by
  intro s t hs h
  unfold step at h
  split at h
  · cases h; exact hs
  · next c rest _ =>
    rcases exec_evolves h with (rfl | ⟨hr, -, -, hrate⟩) | ⟨m, rfl⟩ | ⟨m, sample, schedule, rfl⟩
    · exact hs
    · exact fun _ => hrate rfl (hs hr)
    · exact fun hr => by cases hr
    · exact (startPart_sound m sample schedule _).2

/-! ### A stop always fits (R59, R60, R72) -/

/-- A demand within the quantity term passes no more in a stop than is left to deliver (R59). -/
theorem fits_quantity {s : State} {r : Step} {n : Nat} (h : n ≤ quantityTerm s r) :
    n * (5 * s.ret.settings.tstop) ≤ (r.quantity - r.delivered) * 18 := by
  unfold quantityTerm at h
  split at h
  · exact Nat.mul_le_of_le_div _ _ _ (Nat.le_min.1 h).1
  · rw [Nat.le_zero.1 h, Nat.zero_mul]
    exact Nat.zero_le _

/-- A demand within a tank rate passes no more in a stop, at the tank's share, than the tank has room for (R60). -/
theorem fits_tank {s : State} {e : TankEntry} {n : Nat} (h : n ≤ tankRate s e) :
    n * (e.share * s.ret.settings.tstop) ≤ ((s.tank e.tank).room.getD 0) * 360 :=
  Nat.mul_le_of_le_div _ _ _ (Nat.le_min.1 h).1

/-- A demand that P supports fits: P is at most the quantity term and each tank rate. -/
theorem stopFits_of_sound {s : State} (hd : s.deliverySound) (hr : s.rateCurrent) : s.stopFits := by
  intro hrun hp r ha
  have hdemand : s.governor.demand ≤ stepPermitted s r := by
    obtain ⟨-, hle, -⟩ := hd.2.2 hrun hp
    rw [(hr hrun).1, permittedRate, Option.mem_def.1 ha] at hle
    exact hle
  obtain ⟨-, hquantity, hprojection, -⟩ := stepPermitted_le s r
  refine ⟨fits_quantity (hdemand.trans hquantity), fun e he => fits_tank ?_⟩
  exact (hdemand.trans hprojection).trans (projectionTerm_le s r he)

/-- Settles O60: after the step the demand is at most P, and P is as the terms give it. -/
theorem stopAlwaysFits : Obligations.StopAlwaysFits := fun s t hd hr h =>
  stopFits_of_sound (step_keeps_deliverySound hd h) (stepKeepsRateCurrent s t hr h)

end Sys2Proof.Machine
end

