-- ==== Sys2Proof/Proofs/DemandRules.lean ====
section
/-! The recomputation of P, the ramp second and SET of a rate limit (R67 to R76, R136, R138, R171 to R174). -/

namespace Sys2Proof.Machine

/-! ### The recomputation (R67, R68, R74) -/

/-- In PUMPING a P below Rmin ends the step (R68). -/
theorem recompute_below {s : State} (hp : s.ret.delivery = .pumping) (hlt : permittedRate s < s.ret.settings.rmin) :
    recompute s = enterRundown { s.rated with controller.stopCause := s.ret.active.map (endCauseNow s) } :=
  (if_pos (c := s.rated.ret.delivery = .pumping) hp).trans (if_pos hlt)

/-- In PUMPING a P from Rmin up lowers a demand above it (R74). -/
theorem recompute_above {s : State} (hp : s.ret.delivery = .pumping) (hle : s.ret.settings.rmin ≤ permittedRate s) :
    recompute s = if permittedRate s < s.governor.demand then
        evalNoFlow { s.rated with governor.demand := permittedRate s }
      else s.rated :=
  (if_pos (c := s.rated.ret.delivery = .pumping) hp).trans (if_neg (Nat.not_lt.2 hle))

/-- Settles O20: the two comparisons of a recomputation, each by its equation. -/
theorem recomputationActsOnDemand : Obligations.RecomputationActsOnDemand := by
  intro s
  obtain ⟨d, g, c, nf, he, hper, hterm, -⟩ := recompute_spec s
  refine ⟨?_, ?_, recompute_idle s, fun hp hlt => ⟨recompute_below hp hlt, ?_⟩, fun hp hle hlt => ?_, fun hp hle hge => ?_⟩
  · rw [he]; exact hper
  · rw [he]; exact hterm
  · obtain ⟨d', c', he', hd', -⟩ := enterRundown_spec
      { s.rated with controller.stopCause := s.ret.active.map (endCauseNow s) }
    rw [recompute_below hp hlt, he']
    refine ⟨?_, rfl⟩
    rcases hd' with ⟨rfl, -⟩ | ⟨rfl | rfl, -⟩ <;> exact fun h => by cases h
  · rw [recompute_above hp hle, if_pos hlt, evalNoFlow_eq]
    exact ⟨rfl, rfl⟩
  · rw [recompute_above hp hle, if_neg (Nat.not_lt.2 hge)]

/-! ### The ramp second (R73) -/

theorem rampDemand_eq (s : State) : rampDemand s =
    if s.governor.permitted ≤ s.governor.demand then s.governor.permitted
    else if s.governor.noRise then s.governor.demand
    else min s.governor.permitted (s.governor.demand + s.ret.settings.u) := by
  rw [rampDemand, ← ite_not]
  simp only [Nat.not_lt]

/-- In PUMPING the no-flow detector looks at the rate and the demand alone (R136). -/
theorem evalNoFlow_pumping {s : State} (hp : s.ret.delivery = .pumping) : evalNoFlow s = { s with
    meter.noFlow :=
      if s.meter.rate < s.governor.demand / 4 then
        match s.meter.noFlow with
        | .quiet => .timing (10 * s.ret.settings.noFlow)
        | .timing n => .timing n
      else .quiet } := by
  rw [evalNoFlow_eq, noFlowAfter]
  simp only [noFlowCondition, hp, true_and, decide_eq_true_eq]
  rfl

/-- Settles O22: the demand by `rampDemand_eq`, the detector by `evalNoFlow_pumping`. -/
theorem rampSecondMovesDemand : Obligations.RampSecondMovesDemand := by
  intro s hr
  refine ⟨fun hp hz => ?_, fun h => if_neg fun hc => h.elim (fun hn => hn hc.1) fun hn => hn hc.2⟩
  intro demand
  have hd : rampDemand s.noted = demand := rampDemand_eq s.noted
  refine (if_pos ⟨hp, hz⟩).trans ((quietEvent_running hr).trans (congrArg _ ?_))
  rw [hd]
  exact evalNoFlow_pumping (s := { s.noted with
    governor.ramp := some Config.ticksPerSecond, governor.demand := demand }) hp

/-! ### SET of a rate limit (R76, R138, R171, R172, R174) -/

/-- A raised Rmin lifts a lower demand in PUMPING, and the no-flow condition is evaluated against it (R76, R136). -/
theorem liftDemand_eq (s : State) : liftDemand s =
    if s.ret.delivery = .pumping ∧ s.governor.demand < s.ret.settings.rmin then
      { s with
        governor.demand := s.ret.settings.rmin,
        meter.noFlow :=
          if s.meter.rate < s.ret.settings.rmin / 4 then
            match s.meter.noFlow with
            | .quiet => .timing (10 * s.ret.settings.noFlow)
            | .timing n => .timing n
          else .quiet }
    else s := by
  unfold liftDemand
  split
  · next h => exact evalNoFlow_pumping (s := { s with governor.demand := s.ret.settings.rmin }) h.1
  · rfl

theorem evalOverspeed_eq (s : State) : evalOverspeed s = { s with
    meter.overspeed :=
      if s.ret.settings.rmax * 5 / 4 < s.meter.rate then
        match s.meter.overspeed with
        | .quiet => .timing 50
        | .timing n => .timing n
        | .latched => .latched
      else .quiet } := by
  unfold evalOverspeed
  by_cases h : s.ret.settings.rmax * 5 / 4 < s.meter.rate
  · rw [if_pos (by simpa [overspeedCondition] using h), if_pos h]
    cases ho : s.meter.overspeed with
    | quiet => rfl
    | timing n => dsimp only; rw [← ho]
    | latched => dsimp only; rw [← ho]
  · rw [if_neg (by simpa [overspeedCondition] using h), if_neg h]

/-- The reply to a SET of a rate limit (R196). -/
def limitFrame (tag index : Byte) (which : RateLimit) (v : Nat) (res : Result) (changes : List (Byte × Nat)) : Frame :=
  replyFrame .set tag res (setReply (limitCode which) index (le2 v) changes)

/-- The changes listed: Rmin, then Cb, where it changed and is not the limit set (R172). -/
theorem limitChanges_eq (old new : Settings) (which : RateLimit) : limitChanges old new which =
    (if new.rmin ≠ old.rmin ∧ which ≠ .rmin then [(0x02#8, new.rmin)] else []) ++
      (if new.cb ≠ old.cb ∧ which ≠ .cb then [(0x05#8, new.cb)] else []) := by
  have listed (l : RateLimit) :
      (([l].filter fun l => decide (l ≠ which ∧ old.rateLimit l ≠ new.rateLimit l)).map fun l =>
        (limitCode l, new.rateLimit l)) =
      if new.rateLimit l ≠ old.rateLimit l ∧ which ≠ l then [(limitCode l, new.rateLimit l)] else [] := by
    simp only [List.filter_cons, List.filter_nil, decide_eq_true_eq]
    by_cases h : new.rateLimit l ≠ old.rateLimit l ∧ which ≠ l
    · rw [if_pos h, if_pos ⟨h.2.symm, h.1.symm⟩]
      rfl
    · rw [if_neg h, if_neg fun hn => h ⟨hn.2.symm, hn.1.symm⟩]
      rfl
  show (([RateLimit.rmin] ++ [RateLimit.cb]).filter fun l => decide (l ≠ which ∧ old.rateLimit l ≠ new.rateLimit l)).map
    (fun l => (limitCode l, new.rateLimit l)) = _
  rw [List.filter_append, List.map_append, listed, listed]
  rfl

/-- SET of a rate limit by its owner: the value that stands is UNCHANGED, any other is taken (R171, R172). -/
theorem exec_setLimit {which : RateLimit} {tag index : Byte} {value : Word16} {s : State} (ht : s.canTake .barge .set)
    {v : Nat} (hv : v = clampLimit s.ret.settings which value.toNat) :
    exec (.setRateLimits .barge tag which index value) s = .next
      (if v = value.toNat ∧ v = s.ret.settings.rateLimit which then
        (s.opened .barge).queueReply .barge (limitFrame tag index which v .unchanged [])
      else
        ((s.opened .barge).begin.mod fun u =>
            limitsAct which { u with ret.settings := setLimit s.ret.settings which v }).reply .barge
          (limitFrame tag index which v (if v = value.toNat then .ok else .clamped)
            (limitChanges s.ret.settings (setLimit s.ret.settings which v) which))) := by
  subst hv
  let v := clampLimit s.ret.settings which value.toNat
  let res := setResult value.toNat v (s.ret.settings.rateLimit which)
  have ho : ownerOf (.setRateLimits .barge tag which index value) (s.opened .barge).begin =
      (if res = .unchanged then (s.opened .barge).begin else (s.opened .barge).begin.mod fun u =>
          limitsAct which { u with ret.settings := setLimit s.ret.settings which v },
        { result := res, data := setReply (limitCode which) index (le2 v)
            (if res = .unchanged then [] else limitChanges s.ret.settings (setLimit s.ret.settings which v) which) }) := rfl
  rw [exec_replied rfl ht ho]
  by_cases hu : v = value.toNat ∧ v = s.ret.settings.rateLimit which
  · have hres : res = .unchanged := setResult_unchanged.2 hu
    rw [if_pos hu, if_pos hres, if_pos hres, hres, Event.reply, State.begin_notices]
    rfl
  · have hres : res ≠ .unchanged := mt setResult_unchanged.1 hu
    have hcode : res = if v = value.toNat then .ok else .clamped := setResult_changed hu
    rw [if_neg hu, if_neg hres, if_neg hres, hcode]
    rfl

/-- Settles O44: the settings, the changes listed and what is done at once, limit by limit. -/
theorem setRateLimitsKeepsOrder : Obligations.SetRateLimitsKeepsOrder := by
  intro s link tag which index value ht
  refine ⟨fun hl => exec_refused rfl ht (if_pos hl), fun hl => ?_⟩
  subst hl
  intro t v rmax rmin cb code standing others reply lifted speed acted
  have hlift : lifted = liftDemand := funext fun u => (liftDemand_eq u).symm
  have hspeed : speed = evalOverspeed := funext fun u => (evalOverspeed_eq u).symm
  have hacted : acted = limitsAct which := by
    funext u
    cases which <;> simp only [acted, hlift, hspeed] <;> rfl
  have hv : v = clampLimit t which value.toNat := by cases which <;> rfl
  have hstanding : standing = t.rateLimit which := by cases which <;> rfl
  have hsettings : setLimit t which v = { t with rmax := rmax, rmin := rmin, cb := cb } := by cases which <;> rfl
  have hothers : limitChanges t (setLimit t which v) which = others := by
    rw [hsettings]
    exact limitChanges_eq ..
  have hreply (res : Result) (changes : List (Byte × Nat)) :
      limitFrame tag index which v res changes = reply res changes := by cases which <;> rfl
  rw [exec_setLimit ht hv, hreply, hreply, hothers, hacted, hsettings, hstanding]
  rfl

end Sys2Proof.Machine
end

