-- ==== Sys2Proof/Proofs/HoldList.lean ====
section
/-! What every step keeps of the hold list (R104, R119, R120), by the moves: one entry a source, and loop OUT as the list
gives it. -/

namespace Sys2Proof.Machine

/-! ### The list and loop OUT (R104, R119, R120) -/

/-- Loop OUT is open exactly while a TRIP entry of another source than LOOP stands (R119). -/
theorem loopOutOf_eq_opened {l : List HoldEntry} :
    loopOutOf l = .opened ↔ ∃ h ∈ l, h.cls = .trip ∧ h.source ≠ .loop := by
  unfold loopOutOf
  split
  · next h => simpa using h
  · next h => simpa using h

/-- One entry a source, in the memory noted too, and loop OUT as the list gives it, or open in a stopped part. -/
def State.listSound (s : State) : Prop :=
  (s.ret.holds.map HoldEntry.source).Nodup ∧ (s.prior.holds.map HoldEntry.source).Nodup ∧
    (s.running = true → s.loop.loopOut = loopOutOf s.ret.holds) ∧ (s.running = false → s.loop.loopOut = .opened)

/-- Two states with one hold list, one memory noted before the latest event and one loop OUT; the links stay sound. -/
def State.sameList (s t : State) : Prop :=
  t.ret.holds = s.ret.holds ∧ t.prior = s.prior ∧ t.loop.loopOut = s.loop.loopOut ∧
    ∀ k, (s.link k).sound → (t.link k).sound

theorem sameList_of_eq {s t : State} (hh : t.ret.holds = s.ret.holds) (hp : t.prior = s.prior)
    (hl : t.loop.loopOut = s.loop.loopOut) (hk : t.links = s.links) : s.sameList t :=
  ⟨hh, hp, hl, fun k h => by rw [State.link, hk]; exact h⟩

theorem State.sameList.trans {s t u : State} (h : s.sameList t) (h' : t.sameList u) : s.sameList u := by
  obtain ⟨hh, hp, hl, hk⟩ := h
  obtain ⟨hh', hp', hl', hk'⟩ := h'
  exact ⟨hh'.trans hh, hp'.trans hp, hl'.trans hl, fun k => hk' k ∘ hk k⟩

theorem sameList_redirect {s t : State} {d : DeliveryState} {g : Governor} {c : Controller} {nf : NoFlow}
    (h : t = s.redirect d g c nf) : s.sameList t := by
  subst h; exact sameList_of_eq rfl rfl rfl rfl

theorem sameList_evalNoFlow (s : State) : s.sameList (evalNoFlow s) := by
  rw [evalNoFlow_eq]; exact sameList_of_eq rfl rfl rfl rfl

theorem sameList_recompute (s : State) : s.sameList (recompute s) := by
  obtain ⟨_, _, _, _, h, -⟩ := recompute_spec s; exact sameList_redirect h

theorem sameList_setDelivery (d : DeliveryState) (s : State) : s.sameList (setDelivery d s) :=
  State.sameList.trans (t := { s with ret.delivery := d, governor.demand := 0, governor.ramp := none })
    (sameList_of_eq rfl rfl rfl rfl)
    (sameList_evalNoFlow _)

theorem sameList_limitsAct (which : RateLimit) (s : State) : s.sameList (limitsAct which s) := by
  have lifted : s.sameList (liftDemand (recompute s)) := by
    refine (sameList_recompute s).trans ?_
    rw [liftDemand_eq]
    split <;> exact sameList_of_eq rfl rfl rfl rfl
  unfold limitsAct
  dsimp only
  split
  · refine lifted.trans ?_
    rw [evalOverspeed_eq]
    exact sameList_of_eq rfl rfl rfl rfl
  · exact lifted

theorem sameList_endArming (how : ArmingEnd) (e : Event) : e.s.sameList (endArming how e).s := by
  cases ha : e.s.ret.active with
  | none => exact sameList_redirect (endArming_none how e ha)
  | some r =>
    by_cases hf : e.s.controller.armedFrom = some .idle
    · rw [endArming_idle how e r ha hf]; exact sameList_of_eq rfl rfl rfl rfl
    · rw [endArming_held how e r ha hf]; exact sameList_of_eq rfl rfl rfl rfl

theorem sameList_armStep (r : Step) (e : Event) : e.s.sameList (armStep r e).s := by
  unfold armStep
  dsimp only
  refine State.sameList.trans (State.sameList.trans ?_ (sameList_setDelivery _ _)) (sameList_recompute _)
  by_cases h : e.s.ret.delivery = .held
  · rw [if_pos h]; exact sameList_of_eq rfl rfl rfl rfl
  · rw [if_neg h]; exact sameList_of_eq rfl rfl rfl rfl

/-- A move takes a note of the memory, replaces the list, or leaves list and loop OUT alone. -/
theorem Move.list_cases {s t : State} (h : Move s t) : t = s.noted ∨
    (∃ l, t = s.setHolds l ∧ s.running = true ∧
      ((s.ret.holds.map HoldEntry.source).Nodup → (l.map HoldEntry.source).Nodup)) ∨ s.sameList t := by
  cases h with
  | note => exact .inl rfl
  | holds _ l hr hn => exact .inr (.inl ⟨l, rfl, hr, hn⟩)
  | quiet _ _ hc hp hl => exact .inr (.inr ⟨congrArg Core.holds hc, hp, congrArg Core.loopOut hc, hl⟩)
  | closing => obtain ⟨_, _, h, -⟩ := enterClosing_spec s; exact .inr (.inr (sameList_redirect h))
  | rundown => obtain ⟨_, _, h, -⟩ := enterRundown_spec s; exact .inr (.inr (sameList_redirect h))
  | settling => exact .inr (.inr (sameList_redirect (enterSettling_spec s)))
  | pumping => obtain ⟨_, _, _, _, h, -⟩ := enterPumping_spec s; exact .inr (.inr (sameList_redirect h))
  | rate => exact .inr (.inr (sameList_recompute s))
  | limits _ which v =>
    refine .inr (.inr (State.sameList.trans ?_ (sameList_limitsAct which _)))
    exact sameList_of_eq rfl rfl rfl rfl
  | arming e how => exact .inr (.inr (sameList_endArming how e))
  | arm e r => exact .inr (.inr (sameList_armStep r e))
  | opening _ r =>
    refine .inr (.inr ?_)
    unfold openingEffect
    rw [setDelivery_spec _ _ (by decide), setCommand_eq]
    exact sameList_of_eq rfl rfl rfl rfl
  | finish e cause r => rw [finishStep_spec]; exact .inr (.inr (sameList_of_eq rfl rfl rfl rfl))
  | hold _ last r => rw [holdStep_spec]; exact .inr (.inr (sameList_of_eq rfl rfl rfl rfl))
  | unheld => exact .inr (.inr (sameList_setDelivery _ s))
  | unslotted => exact .inr (.inr (sameList_setDelivery _ s))
  | ramp => rw [evalNoFlow_eq]; exact .inr (.inr (sameList_of_eq rfl rfl rfl rfl))
  | openTransfer _ id gs =>
    refine .inr (.inr (State.sameList.trans ?_ (sameList_recompute _)))
    exact sameList_of_eq rfl rfl rfl rfl
  | _ => exact .inr (.inr (sameList_of_eq rfl rfl rfl rfl))

/-- Every move keeps the list and loop OUT sound. -/
theorem Move.keeps_listSound {s t : State} (h : Move s t) (hs : s.listSound) : t.listSound := by
  obtain ⟨hn, hp, hrun, hstop⟩ := hs
  have hr : t.running = s.running := h.alike.1
  rcases h.list_cases with rfl | ⟨l, rfl, hl, hnl⟩ | ⟨hh, hpp, hlo, -⟩
  · exact ⟨hn, hn, hrun, hstop⟩
  · exact ⟨hnl hn, hp, fun _ => rfl, fun hr' => by simp [hl] at hr'⟩
  · unfold State.listSound
    rw [hh, hpp, hlo, hr]
    exact ⟨hn, hp, hrun, hstop⟩

/-- Every move keeps the links sound (R188, R190). -/
theorem Move.keeps_linksSound {s t : State} (h : Move s t) (hs : s.linksSound) : t.linksSound := by
  rcases h.list_cases with rfl | ⟨l, rfl, -, -⟩ | ⟨-, -, -, hk⟩
  · exact hs
  · exact hs
  · exact fun k => hk k (hs k)

/-! ### Starts (R120, R124) -/

/-- One entry a source, and loop OUT as the list gives it. -/
def State.listRaised (s : State) : Prop :=
  (s.ret.holds.map HoldEntry.source).Nodup ∧ s.loop.loopOut = loopOutOf s.ret.holds

theorem startRaise_listRaised {s : State} (h : (s.ret.holds.map HoldEntry.source).Nodup) (r : Raise) :
    (startRaise s r).listRaised :=
  ⟨raisedList_nodup s _ _ _ h, rfl⟩

theorem foldl_startRaise_listRaised {s : State} (h : s.listRaised) (rs : List Raise) :
    (rs.foldl startRaise s).listRaised := by
  induction rs generalizing s with
  | nil => exact h
  | cons r rest ih => exact ih (startRaise_listRaised h.1 r)

/-- The POWER raise that every start makes derives loop OUT from the list (R119, R124). -/
theorem startFrom_listRaised {memory : Retained} (h : (memory.holds.map HoldEntry.source).Nodup) (prior : Retained)
    (reason : HoldReason) (sample : InputSample) (schedule : List RaisingBlock) (s : State) :
    (startFrom memory prior reason sample schedule s).listRaised := by
  let u := placeStep (sampled memory prior sample s)
  have hu : (u.ret.holds.map HoldEntry.source).Nodup := by
    have he : u.ret.holds = memory.holds := by
      show (placeStep (sampled memory prior sample s)).ret.holds = _
      rw [placeStep_eq]
      exact (Retained.placed_same _).2.2.1
    rw [he]
    exact h
  have own : ((ownRaises reason u).foldl startRaise u).listRaised :=
    foldl_startRaise_listRaised (startRaise_listRaised hu _) _
  have watched : (recompute (watchStarts ((ownRaises reason u).foldl startRaise u))).listRaised := by
    obtain ⟨hh, -, hl, -⟩ := sameList_recompute (watchStarts ((ownRaises reason u).foldl startRaise u))
    unfold State.listRaised
    rw [hh, hl]
    exact own
  exact foldl_startRaise_listRaised watched _

theorem startPart_listSound {memory : Retained} (h : (memory.holds.map HoldEntry.source).Nodup) (sample : InputSample)
    (schedule : List RaisingBlock) (s : State) : (startPart memory sample schedule s).listSound := by
  obtain ⟨-, -, -, -, -, -, hprior, -⟩ := startPart_spec memory sample schedule s
  obtain ⟨u, _, _, _, he, hr, -⟩ := startPart_rated memory sample schedule s
  have hrun : (startPart memory sample schedule s).running = true := by rw [he]; exact hr
  obtain ⟨hn, hl⟩ : (startPart memory sample schedule s).listRaised := by
    unfold startPart
    split
    · exact startFrom_listRaised h _ _ _ _ _
    · exact startFrom_listRaised (by exact List.nodup_nil) _ _ _ _ _
  exact ⟨hn, by rw [hprior]; exact h, fun _ => hl, fun hn' => by simp [hrun] at hn'⟩

/-- Every step keeps the list and loop OUT sound (R104, R119, R120). -/
theorem step_keeps_listSound {s t : State} (hs : s.listSound) (h : step s = .next t) : t.listSound := by
  refine step_keeps (P := State.listSound) (fun _ _ h => h) (fun _ _ h => h) (fun _ _ hm => hm.keeps_listSound)
    (fun s m hm hs => ?_) (fun s m sample schedule hm hs => ?_) hs h
  · have hn : (m.holds.map HoldEntry.source).Nodup := by
      rcases hm with rfl | rfl
      · exact hs.1
      · exact hs.2.1
    exact ⟨hn, hn, fun hr => (by cases hr), fun _ => rfl⟩
  · refine startPart_listSound ?_ sample schedule s
    rcases hm with rfl | ⟨loss, rfl⟩
    · exact hs.1
    · cases loss with
      | markerLost => exact List.nodup_nil
      | checkIncorrect => exact hs.1

end Sys2Proof.Machine
end

