-- ==== Sys2Proof/Proofs/Orderly.lean ====
section
/-! What each operation within an event leaves to the links and to the hold list: the frames that wait on a link stay
(R190), and no hold comes to stand in ARMED, OPENING and PUMPING (R86, R95), for every raise takes delivery out of them. -/

namespace Sys2Proof.Machine

/-! ### Delivery states in which no hold stands (R86, R95) -/

/-- A start is refused while a hold stands, and a raise ends what it began: the states in between have no hold. -/
def DeliveryState.holdFree : DeliveryState → Bool
  | .armed | .opening | .pumping => true
  | .idle | .rundown | .closing | .settling | .held => false

theorem holdFree_iff {d : DeliveryState} : d.holdFree = true ↔ d = .armed ∨ d = .opening ∨ d = .pumping := by
  cases d <;> decide

/-- No hold stands in ARMED, OPENING and PUMPING. -/
def State.holdsClear (s : State) : Prop := s.ret.delivery.holdFree = true → s.ret.holds = []

/-- A link's state and the frames that wait on it (R188, R190). -/
def Link.outbound (l : Link) : LinkState × List Frame := (l.state, l.queue)

/-- An operation within an event: what waits on the links stays, and no hold comes to stand where none may. -/
def State.orderly (s t : State) : Prop :=
  (∀ k, (t.link k).outbound = (s.link k).outbound) ∧ (s.holdsClear → t.holdsClear)

section Orderly

variable {s t u : State}

theorem State.orderly.trans (h : s.orderly t) (h' : t.orderly u) : s.orderly u := by
  obtain ⟨hl, hc⟩ := h
  obtain ⟨hl', hc'⟩ := h'
  exact ⟨fun k => (hl' k).trans (hl k), hc' ∘ hc⟩

/-- A change of neither links, delivery state nor hold list. -/
theorem orderly_of_same (hl : t.links = s.links) (hd : t.ret.delivery = s.ret.delivery)
    (hh : t.ret.holds = s.ret.holds) : s.orderly t := by
  refine ⟨fun k => by rw [State.link, State.link, hl], fun h => ?_⟩
  rw [State.holdsClear, hd, hh]
  exact h

theorem State.orderly_refl (s : State) : s.orderly s := orderly_of_same rfl rfl rfl

/-- A move of the Delivery Controller into a state with no hold comes from one. -/
theorem orderly_redirect {d : DeliveryState} {g : Governor} {c : Controller} {nf : NoFlow} (h : t = s.redirect d g c nf)
    (hd : d.holdFree = true → s.ret.delivery.holdFree = true) : s.orderly t := by
  subst h
  exact ⟨fun _ => rfl, fun hs hf => hs (hd hf)⟩

end Orderly

theorem foldl_orderly {α : Type} (f : Event → α → Event) (hf : ∀ (e : Event) a, e.s.orderly (f e a).s) (l : List α)
    (e : Event) : e.s.orderly (l.foldl f e).s := by
  induction l generalizing e with
  | nil => exact e.s.orderly_refl
  | cons a rest ih => exact (hf e a).trans (ih _)

theorem foldl_state_orderly {α : Type} (f : State → α → State) (hf : ∀ (s : State) a, s.orderly (f s a)) (l : List α)
    (s : State) : s.orderly (l.foldl f s) := by
  induction l generalizing s with
  | nil => exact s.orderly_refl
  | cons a rest ih => exact (hf s a).trans (ih _)

/-! ### The Delivery Controller's moves (R91 to R98) -/

/-- What the end of a step leaves: RUNDOWN, CLOSING or SETTLING. -/
theorem not_holdFree_of_ending {d : DeliveryState} {p q : Prop} (h : d = .rundown ∧ p ∨ (d = .closing ∨ d = .settling) ∧ q) :
    d.holdFree = false := by
  rcases h with ⟨rfl, -⟩ | ⟨rfl | rfl, -⟩ <;> rfl

theorem setDelivery_orderly (d : DeliveryState) (s : State) (h : d.holdFree = false) : s.orderly (setDelivery d s) := by
  refine orderly_redirect (setDelivery_spec d s ?_) (fun hd => by simp [h] at hd)
  rintro rfl
  cases h

theorem enterClosing_orderly (s : State) : s.orderly (enterClosing s) := by
  obtain ⟨d, c, h, hd, -⟩ := enterClosing_spec s
  exact orderly_redirect h fun hf => by rcases hd with rfl | rfl <;> cases hf

theorem enterRundown_orderly (s : State) : s.orderly (enterRundown s) := by
  obtain ⟨d, c, h, hd, -⟩ := enterRundown_spec s
  exact orderly_redirect h fun hf => by simp [not_holdFree_of_ending hd] at hf

theorem enterSettling_orderly (s : State) : s.orderly (enterSettling s) :=
  orderly_redirect (enterSettling_spec s) fun hf => by cases hf

theorem enterPumping_orderly {s : State} (hd : s.ret.delivery = .opening) : s.orderly (enterPumping s) := by
  obtain ⟨d, g, c, nf, h, -⟩ := enterPumping_spec s
  exact orderly_redirect h fun _ => by rw [hd]; rfl

theorem recompute_orderly (s : State) : s.orderly (recompute s) := by
  obtain ⟨d, g, c, nf, h, -, -, -, -, -, -, hidle, -⟩ := recompute_spec s
  refine orderly_redirect h fun hf => ?_
  by_cases hp : s.ret.delivery = .pumping
  · rw [hp]; rfl
  · rw [← (hidle hp).1]; exact hf

/-- A recomputation of P ends an operation as it found it. -/
theorem State.orderly.recomputed {s t : State} (h : s.orderly t) : s.orderly (recompute t) :=
  h.trans (recompute_orderly t)

theorem endArming_links (how : ArmingEnd) (e : Event) : (endArming how e).s.links = e.s.links := by
  cases ha : e.s.ret.active with
  | none => rw [endArming_none how e ha]; rfl
  | some r =>
    by_cases hf : e.s.controller.armedFrom = some .idle
    · rw [endArming_idle how e r ha hf]; rfl
    · rw [endArming_held how e r ha hf]; rfl

/-- An arming ends in IDLE or HELD (R21, R88). -/
theorem endArming_delivery (how : ArmingEnd) (e : Event) :
    (endArming how e).s.ret.delivery = .idle ∨ (endArming how e).s.ret.delivery = .held := by
  cases ha : e.s.ret.active with
  | none => rw [endArming_none how e ha]; exact .inl rfl
  | some r =>
    by_cases hf : e.s.controller.armedFrom = some .idle
    · rw [endArming_idle how e r ha hf]; exact .inl rfl
    · rw [endArming_held how e r ha hf]; exact .inr rfl

theorem endArming_orderly (how : ArmingEnd) (e : Event) : e.s.orderly (endArming how e).s := by
  refine ⟨fun k => by rw [State.link, State.link, endArming_links], fun _ hf => ?_⟩
  rcases endArming_delivery how e with h | h <;> rw [h] at hf <;> cases hf

/-- An arming finds no hold on the list (R85, R86). -/
theorem armStep_orderly {r : Step} {e : Event} (hn : startRefusal e.s = none) : e.s.orderly (armStep r e).s := by
  have hh : e.s.ret.holds = [] := by
    by_contra hne
    unfold startRefusal at hn
    split at hn
    · cases hn
    · cases hn
  unfold armStep
  dsimp only
  refine State.orderly.recomputed ?_
  rw [setDelivery_spec _ _ (by decide)]
  refine ⟨fun k => ?_, fun _ _ => ?_⟩
  · dsimp only [State.redirect]
    split <;> rfl
  · dsimp only [State.redirect]
    split <;> exact hh

theorem openingEffect_orderly {r : Step} {s : State} (hd : s.ret.delivery = .armed) :
    s.orderly (openingEffect r s) := by
  unfold openingEffect
  rw [setDelivery_spec _ _ (by decide), setCommand_eq]
  exact ⟨fun _ => rfl, fun hs _ => hs (by rw [hd]; rfl)⟩

theorem finishStep_orderly (cause : EndCause) (r : Step) (e : Event) : e.s.orderly (finishStep cause r e).s := by
  rw [finishStep_spec]
  exact ⟨fun _ => rfl, fun _ hf => by cases hf⟩

theorem holdStep_orderly (last : LastStop) (r : Step) (s : State) : s.orderly (holdStep last r s) := by
  rw [holdStep_spec]
  exact ⟨fun _ => rfl, fun _ hf => by cases hf⟩

/-! ### The hold list (R95, R107, R117) -/

/-- A raise leaves ARMED, OPENING and PUMPING (R95). -/
theorem deliveryTakesRaise_leaves (src : HoldSource) (cls : HoldClass) (e : Event) :
    (deliveryTakesRaise src cls e).s.ret.delivery.holdFree = false := by
  have closes (s : State) : (enterClosing s).ret.delivery.holdFree = false := by
    rcases enterClosing_delivery s with h | h <;> rw [h] <;> rfl
  unfold deliveryTakesRaise
  split
  · rcases endArming_delivery (.hold src) e with h | h <;> rw [h] <;> rfl
  · exact closes _
  · cases cls with
    | pause =>
      obtain ⟨d, c, h, hd, -⟩ := enterRundown_spec (fixCause (.hold src) e.s)
      rw [Event.mod_s, h]
      exact not_holdFree_of_ending hd
    | trip => exact closes _
  · next hd =>
    cases cls with
    | pause => rw [hd]; rfl
    | trip => exact closes _
  all_goals
    next hd => rw [hd]; rfl

theorem raiseHold_orderly (src : HoldSource) (cls : HoldClass) (reason : HoldReason) (e : Event) :
    e.s.orderly (raiseHold src cls reason e).s := by
  refine ⟨fun k => ?_, fun _ hf => ?_⟩
  · obtain ⟨_, _, _, _, _, _, _, _, _, h⟩ := raiseHold_spec src cls reason e
    rw [h]
    rfl
  · exact absurd hf (by
      rw [Bool.not_eq_true]
      exact deliveryTakesRaise_leaves src _ { e with s := e.s.setHolds (raisedList e.s src cls reason) })

theorem removeHold_orderly (src : HoldSource) (by_ : Station) (e : Event) : e.s.orderly (removeHold src by_ e).s := by
  refine ⟨fun _ => rfl, fun hs hf => ?_⟩
  show e.s.ret.holds.filter _ = []
  rw [hs hf]
  rfl

/-! ### The Watch (R37 to R52) -/

theorem setTank_orderly (s : State) (i : Fin 8) (t : Tank) : s.orderly (s.setTank i t) := orderly_of_same rfl rfl rfl

theorem evalHigh_orderly (i : Fin 8) (est high : Nat) (e : Event) : e.s.orderly (evalHigh i est high e).s := by
  unfold evalHigh
  dsimp only
  split
  · split
    · exact e.s.orderly_refl
    · exact setTank_orderly _ _ _
  · exact setTank_orderly _ _ _

theorem evalTrip_orderly (i : Fin 8) (est trip : Nat) (e : Event) : e.s.orderly (evalTrip i est trip e).s := by
  unfold evalTrip
  dsimp only
  split
  · split
    · exact e.s.orderly_refl
    · refine State.orderly.trans ?_ (raiseHold_orderly _ _ _ _)
      exact setTank_orderly _ _ _
  · exact setTank_orderly _ _ _

theorem evalTank_orderly (i : Fin 8) (e : Event) : e.s.orderly (evalTank i e).s := by
  unfold evalTank
  split
  · exact ((evalHigh_orderly _ _ _ e).trans (evalTrip_orderly _ _ _ _)).trans (setTank_orderly _ _ _)
  · exact e.s.orderly_refl

theorem evalTanks_orderly (test : Fin 8 → Bool) (e : Event) : e.s.orderly (evalTanks test e).s :=
  foldl_orderly _ (fun e i => evalTank_orderly i e) _ e

theorem applyReport_orderly (s : State) (g : GaugeEntry) : s.orderly (applyReport s g) := by
  unfold applyReport
  split
  · exact s.orderly_refl
  · exact setTank_orderly _ _ _

theorem takeGauge_orderly (entries : List GaugeEntry) (e : Event) : e.s.orderly (takeGauge entries e).1.s := by
  unfold takeGauge
  split
  · exact e.s.orderly_refl
  · split
    · exact e.s.orderly_refl
    · have reported := foldl_state_orderly applyReport applyReport_orderly entries e.s
      exact (reported.trans (evalTanks_orderly (fun i => entries.any fun g => g.tank == oct i.val)
        (e.mod fun s => entries.foldl applyReport s))).recomputed

theorem takeTankdef_orderly (index : Byte) (c : TankContent) (e : Event) :
    e.s.orderly (takeTankdef index c e).1.s := by
  unfold takeTankdef
  split
  · exact e.s.orderly_refl
  · next i _ =>
    split
    · unfold undefineTank
      split
      · exact e.s.orderly_refl
      · split
        · exact e.s.orderly_refl
        · exact (setTank_orderly e.s i coldTank).recomputed
    · unfold defineTank
      dsimp only
      split
      · exact e.s.orderly_refl
      · split
        · exact e.s.orderly_refl
        · exact ((setTank_orderly e.s i _).trans (evalTank_orderly i (e.mod fun s =>
            s.setTank i ((s.tank i).redefine (clampTankDef c))))).recomputed

theorem takeStagedef_orderly (index : Byte) (c : StageContent) (e : Event) :
    e.s.orderly (takeStagedef index c e).1.s := by
  unfold takeStagedef
  split
  · next j input mode _ _ _ =>
    dsimp only
    split
    · exact e.s.orderly_refl
    · exact (orderly_of_same rfl rfl rfl : e.s.orderly (applyStage j (clampStage c input mode) e.s)).recomputed
  · exact e.s.orderly_refl

theorem restatus_orderly (watched : Fin 8 → Bool) (i : Fin 8) (e : Event) : e.s.orderly (restatus watched i e).s := by
  unfold restatus
  dsimp only
  split
  · exact e.s.orderly_refl
  · have marked := setTank_orderly e.s i { e.s.tank i with status := (e.s.tank i).agedStatus e.s.ret.settings.stale }
    split
    · exact marked
    · exact marked
    · exact marked
    · split
      · refine State.orderly.trans ?_ (raiseHold_orderly _ _ _ _)
        exact marked
      · exact marked

theorem restatusAll_orderly (test : Fin 8 → Bool) (e : Event) : e.s.orderly (restatusAll test e).s :=
  foldl_orderly _ (fun e' i => restatus_orderly e.s.watches i e') _ e

/-! ### Credits (R40, R130, R131) -/

theorem carryCredits_orderly (old new : List TankEntry) (s : State) : s.orderly (carryCredits old new s) := by
  induction old generalizing new s with
  | nil => cases new <;> exact s.orderly_refl
  | cons o olds ih =>
    cases new with
    | nil => exact s.orderly_refl
    | cons n news => exact (setTank_orderly _ _ _).trans (ih _ _)

theorem creditPulse_orderly (r : Step) (e : Event) : e.s.orderly (creditPulse r e).s := by
  let w := e.s.ret.settings.weight
  have credited : e.s.orderly (creditEffect r w e.s) := orderly_of_same rfl rfl rfl
  have carried := credited.trans (carryCredits_orderly r.tanks (r.credited w).tanks _)
  exact (carried.trans (evalTanks_orderly (creditChanged r.tanks (r.credited w).tanks)
    { e with s := carryCredits r.tanks (r.credited w).tanks (creditEffect r w e.s) })).recomputed

theorem tallyPulse_orderly (e : Event) : e.s.orderly (tallyPulse e).s := by
  have unassigned : e.s.orderly (unassignPulse e).s := by
    unfold unassignPulse
    dsimp only
    split <;> exact orderly_of_same rfl rfl rfl
  unfold tallyPulse
  split
  · split
    · exact creditPulse_orderly _ e
    · exact unassigned
  · exact unassigned

/-! ### Instruments (R145, R150 to R153) -/

theorem tripRole_orderly (old : Instruments) (e : Event) (r : Role) : e.s.orderly (tripRole old e r).s := by
  unfold tripRole
  split
  · exact raiseHold_orderly _ _ _ e
  · exact e.s.orderly_refl

theorem handOnRoles_orderly (i : Fin 4) (prev : AgentState) (role : Option Role) (e : Event) :
    e.s.orderly (handOnRoles i prev role e).s := by
  have derived : e.s.orderly (e.mod deriveRoles).s := orderly_of_same rfl rfl rfl
  let tripped := allRoles.foldl (tripRole e.s.instruments) (e.mod deriveRoles)
  have raised : e.s.orderly tripped.s := derived.trans (foldl_orderly _ (tripRole_orderly _) allRoles _)
  have staged : tripped.s.orderly (deriveNoRise (evalInstrumentStages e.s.instruments tripped.s)) :=
    orderly_of_same rfl rfl rfl
  exact (raised.trans staged).recomputed

theorem takeSetAgent_orderly (link : Station) (address : Byte) (c : AgentContent) (e : Event) :
    e.s.orderly (takeSetAgent link address c e).1.s := by
  unfold takeSetAgent
  split
  · exact e.s.orderly_refl
  · split
    · dsimp only
      split
      · exact e.s.orderly_refl
      · refine State.orderly.trans ?_ (handOnRoles_orderly _ _ _ _)
        rw [Event.mod_s]
        unfold restartAgent
        dsimp only
        split
        · split <;> exact orderly_of_same rfl rfl rfl
        · exact orderly_of_same rfl rfl rfl
    · exact e.s.orderly_refl

/-! ### Lines (R160 to R165) -/

theorem setLine_orderly (s : State) (n : Fin 6) (l : LineService) : s.orderly (s.setLine n l) :=
  orderly_of_same rfl rfl rfl

theorem raiseMissingPermits_orderly (e : Event) : e.s.orderly (raiseMissingPermits e).s :=
  foldl_orderly _ (fun e _ => raiseHold_orderly _ _ _ e) _ e

theorem lineFollows_orderly (n : Fin 6) (e : Event) : e.s.orderly (lineFollows n e).s := by
  unfold lineFollows
  split
  · have latched := setLine_orderly e.s n { e.s.line n with active := true, count := 0, latch := true }
    unfold lineActive
    dsimp only
    split
    · refine State.orderly.trans ?_ (raiseHold_orderly _ _ _ _)
      exact latched
    · exact latched
  · have released := setLine_orderly e.s n { e.s.line n with active := false, count := 0 }
    unfold lineInactive
    dsimp only
    split
    · refine State.orderly.trans ?_ (raiseHold_orderly _ _ _ _)
      exact released
    · exact released

theorem takeSetLine_orderly (link : Station) (line : Byte) (c : LineContent) (e : Event) :
    e.s.orderly (takeSetLine link line c e).1.s := by
  unfold takeSetLine
  split
  · exact e.s.orderly_refl
  · split
    · dsimp only
      split
      · exact e.s.orderly_refl
      · unfold applyLine
        dsimp only
        split
        · refine State.orderly.trans ?_ (raiseHold_orderly _ _ _ _)
          exact orderly_of_same rfl rfl rfl
        · split
          · refine State.orderly.trans ?_ (raiseHold_orderly _ _ _ _)
            exact orderly_of_same rfl rfl rfl
          · exact orderly_of_same rfl rfl rfl
    · exact e.s.orderly_refl

/-! ### The plan's requests (R3 to R24): they change records, and no delivery state but by a WITHDRAW in HELD -/

theorem takeOpen_orderly (id : Word16) (grades : List Byte) (e : Event) : e.s.orderly (takeOpen id grades e).1.s := by
  have accepted (gs : List (Fin 4)) : e.s.orderly (openEffects id.toNat gs e.s) := by
    refine State.orderly.recomputed ?_
    exact orderly_of_same rfl rfl rfl
  unfold takeOpen
  repeat' split
  any_goals exact e.s.orderly_refl
  all_goals exact accepted _

theorem takeJoin_orderly (e : Event) : e.s.orderly (takeJoin e).1.s := by
  unfold takeJoin
  split <;> exact orderly_of_same rfl rfl rfl

theorem takeClose_orderly (e : Event) : e.s.orderly (takeClose e).1.s := by
  unfold takeClose
  repeat' split
  all_goals exact orderly_of_same rfl rfl rfl

theorem takePropose_orderly (link : Station) (c : StepContent) (e : Event) :
    e.s.orderly (takePropose link c e).1.s := by
  unfold takePropose
  repeat' split
  all_goals exact orderly_of_same rfl rfl rfl

theorem takeAmend_orderly (link : Station) (number : Byte) (c : StepContent) (e : Event) :
    e.s.orderly (takeAmend link number c e).1.s := by
  unfold takeAmend
  repeat' split
  all_goals exact orderly_of_same rfl rfl rfl

theorem takeAgree_orderly (link : Station) (number : Byte) (e : Event) :
    e.s.orderly (takeAgree link number e).1.s := by
  unfold takeAgree
  repeat' split
  all_goals exact orderly_of_same rfl rfl rfl

theorem takeRevise_orderly (link : Station) (number operand : Byte) (e : Event) :
    e.s.orderly (takeRevise link number operand e).1.s := by
  unfold takeRevise
  split
  · exact e.s.orderly_refl
  · split
    any_goals exact e.s.orderly_refl
    split <;> exact orderly_of_same rfl rfl rfl

theorem takeWithdraw_orderly (link : Station) (number : Byte) (e : Event) :
    e.s.orderly (takeWithdraw link number e).1.s := by
  unfold takeWithdraw
  split
  · exact e.s.orderly_refl
  · split
    · exact e.s.orderly_refl
    · exact orderly_of_same rfl rfl rfl
    · exact orderly_of_same rfl rfl rfl
    · split
      · exact finishStep_orderly _ _ e
      · exact e.s.orderly_refl
    · exact e.s.orderly_refl

theorem takeTake_orderly (link : Station) (e : Event) : e.s.orderly (takeTake link e).1.s := by
  unfold takeTake
  split <;> exact orderly_of_same rfl rfl rfl

/-! ### START, LINED and STOP (R85 to R99) -/

theorem takeStart_orderly (e : Event) : e.s.orderly (takeStart e).1.s := by
  unfold takeStart
  split
  · exact e.s.orderly_refl
  · exact e.s.orderly_refl
  · next hn _ => exact armStep_orderly hn

theorem takeLined_orderly (number : Byte) (e : Event) : e.s.orderly (takeLined number e).1.s := by
  unfold takeLined
  split
  · next r hm =>
    split at hm
    · next hd =>
      have opened : e.s.orderly (e.mod (openingEffect r)).s := openingEffect_orderly hd
      have entered := opened.trans (raiseMissingPermits_orderly (e.mod (openingEffect r)))
      rw [enterOpening_eq]
      split
      · next hc => exact entered.trans (enterPumping_orderly hc.1)
      · exact entered
    · cases hm
  · split <;> exact e.s.orderly_refl

theorem takeStop_orderly (link : Station) (e : Event) : e.s.orderly (takeStop link e).1.s := by
  have fixed : e.s.orderly (fixCause (.stopped link) e.s) := orderly_of_same rfl rfl rfl
  unfold takeStop
  split
  · exact endArming_orderly _ e
  · exact fixed.trans (enterClosing_orderly _)
  · exact fixed.trans (enterRundown_orderly _)
  all_goals exact e.s.orderly_refl

/-! ### The hold requests (R108 to R117) -/

theorem takeHold_orderly (link : Station) (cls reason : Byte) (e : Event) :
    e.s.orderly (takeHold link cls reason e).1.s := by
  unfold takeHold
  split
  · exact e.s.orderly_refl
  · exact raiseHold_orderly _ _ _ e

theorem takeRelease_orderly (link : Station) (source : Byte) (e : Event) :
    e.s.orderly (takeRelease link source e).1.s := by
  unfold takeRelease
  repeat' split
  any_goals exact e.s.orderly_refl
  exact removeHold_orderly _ _ e

theorem takeClear_orderly (link : Station) (source : Byte) (e : Event) :
    e.s.orderly (takeClear link source e).1.s := by
  unfold takeClear
  repeat' split
  any_goals exact e.s.orderly_refl
  exact removeHold_orderly _ _ e

/-! ### SET (R171 to R175) -/

theorem evalNoFlow_orderly (s : State) : s.orderly (evalNoFlow s) := by
  rw [evalNoFlow_eq]; exact orderly_of_same rfl rfl rfl

theorem evalOverspeed_orderly (s : State) : s.orderly (evalOverspeed s) := by
  rw [evalOverspeed_eq]; exact orderly_of_same rfl rfl rfl

theorem limitsAct_orderly (which : RateLimit) (s : State) : s.orderly (limitsAct which s) := by
  have lifted : s.orderly (liftDemand (recompute s)) := by
    refine (recompute_orderly s).trans ?_
    rw [liftDemand_eq]
    split <;> exact orderly_of_same rfl rfl rfl
  unfold limitsAct
  dsimp only
  split
  · exact lifted.trans (evalOverspeed_orderly _)
  · exact lifted

theorem takeSetLimit_orderly (link : Station) (which : RateLimit) (index : Byte) (v : Word16) (e : Event) :
    e.s.orderly (takeSetLimit link which index v e).1.s := by
  unfold takeSetLimit
  split
  · exact e.s.orderly_refl
  · dsimp only
    split
    · exact e.s.orderly_refl
    · refine State.orderly.trans ?_ (limitsAct_orderly which _)
      exact orderly_of_same rfl rfl rfl

theorem takeSetStopTime_orderly (link : Station) (which : StopTime) (index : Byte) (v : Word16) (e : Event) :
    e.s.orderly (takeSetStopTime link which index v e).1.s := by
  unfold takeSetStopTime
  split
  · exact e.s.orderly_refl
  · dsimp only
    split
    · exact e.s.orderly_refl
    · refine State.orderly.recomputed ?_
      exact orderly_of_same rfl rfl rfl

theorem takeSetTimer_orderly (link : Station) (which : TimerSetting) (index : Byte) (v : Word16) (e : Event) :
    e.s.orderly (takeSetTimer link which index v e).1.s := by
  unfold takeSetTimer
  split
  · exact e.s.orderly_refl
  · split
    · exact e.s.orderly_refl
    · dsimp only
      split
      · exact e.s.orderly_refl
      · cases which <;> exact orderly_of_same rfl rfl rfl

theorem takeSetS_orderly (link : Station) (index : Byte) (v : Word16) (e : Event) :
    e.s.orderly (takeSetS link index v e).1.s := by
  unfold takeSetS
  split
  · exact e.s.orderly_refl
  · dsimp only
    split
    · exact e.s.orderly_refl
    · have limited : e.s.orderly { e.s with ret.settings.stale := clamp 10 600 v.toNat } := orderly_of_same rfl rfl rfl
      rw [applyStale, Event.mod_s]
      exact (limited.trans (restatusAll_orderly (fun _ => true)
        (e.mod fun s => { s with ret.settings.stale := clamp 10 600 v.toNat }))).recomputed

theorem takeSetW_orderly (link : Station) (index : Byte) (v : Word16) (e : Event) :
    e.s.orderly (takeSetW link index v e).1.s := by
  unfold takeSetW
  dsimp only
  repeat' split
  all_goals exact orderly_of_same rfl rfl rfl

theorem takeSetNoFlow_orderly (link : Station) (index : Byte) (v : Word16) (e : Event) :
    e.s.orderly (takeSetNoFlow link index v e).1.s := by
  unfold takeSetNoFlow
  dsimp only
  repeat' split
  all_goals exact orderly_of_same rfl rfl rfl

/-! ### Every request (R192) -/

/-- A change of a link that leaves its state and its queue alone. -/
theorem setLink_orderly {s : State} {k : Station} {l : Link} (h : l.outbound = (s.link k).outbound) :
    s.orderly (s.setLink k l) := by
  refine ⟨fun j => ?_, id⟩
  rw [State.setLink_link]
  split
  · next hj => rw [hj, h]
  · rfl

/-- Every owner leaves what waits on the links, and no hold where none may stand. -/
theorem ownerOf_orderly (c : Instr) (e : Event) : e.s.orderly (ownerOf c e).1.s := by
  cases c with
  | openTransfer => exact takeOpen_orderly _ _ e
  | joinTransfer => exact takeJoin_orderly e
  | closeTransfer => exact takeClose_orderly e
  | propose => exact takePropose_orderly _ _ e
  | amend => exact takeAmend_orderly _ _ _ e
  | agree => exact takeAgree_orderly _ _ e
  | revise => exact takeRevise_orderly _ _ _ e
  | withdraw => exact takeWithdraw_orderly _ _ e
  | startStep => exact takeStart_orderly e
  | lined => exact takeLined_orderly _ e
  | stopStep => exact takeStop_orderly _ e
  | hold => exact takeHold_orderly _ _ _ e
  | release => exact takeRelease_orderly _ _ e
  | clear => exact takeClear_orderly _ _ e
  | gauge => exact takeGauge_orderly _ e
  | tankdef => exact takeTankdef_orderly _ _ e
  | stagedef => exact takeStagedef_orderly _ _ e
  | setRateLimits => exact takeSetLimit_orderly _ _ _ _ e
  | setStopTimes => exact takeSetStopTime_orderly _ _ _ _ e
  | setTimerSetting => exact takeSetTimer_orderly _ _ _ _ e
  | setS => exact takeSetS_orderly _ _ _ e
  | setW => exact takeSetW_orderly _ _ _ e
  | setNoFlow => exact takeSetNoFlow_orderly _ _ _ e
  | setAgentConfiguration => exact takeSetAgent_orderly _ _ _ e
  | setLineConfiguration => exact takeSetLine_orderly _ _ _ e
  | getSetting _ _ code index =>
    show e.s.orderly (takeGet code index e).1.s
    rw [takeGet_state]
    exact e.s.orderly_refl
  | readStep _ _ number =>
    show e.s.orderly (takeReadStep number e).1.s
    rw [takeReadStep_state]
    exact e.s.orderly_refl
  | readTanks =>
    unfold ownerOf
    dsimp only
    split <;> exact e.s.orderly_refl
  | readLines =>
    unfold ownerOf takeReadLines
    dsimp only
    split <;> exact orderly_of_same rfl rfl rfl
  | readCounters => exact setLink_orderly (s := { e.s with starvation := _ }) rfl
  | take => exact takeTake_orderly _ e
  | status => exact setLink_orderly rfl
  | _ => exact e.s.orderly_refl

end Sys2Proof.Machine
end

