-- ==== Sys2Proof/Proofs/HoldsAndLinks.lean ====
section
/-! Every command that neither stops nor starts the part is a chain of moves, its reply and notices among them, and leaves
no hold where none may stand; so every step keeps the hold list and the links sound (R86, R95, R104, R119, R120, R188,
R190). -/

namespace Sys2Proof.Machine

/-! ### The three kinds of event -/

/-- What a command that is no start and no stop does. -/
def State.proceeds (s t : State) : Prop := Reach s t ∧ (s.holdsClear → t.holdsClear)

theorem State.proceeds_refl (s : State) : s.proceeds s := ⟨.refl s, id⟩

theorem State.proceeds.trans {s t u : State} (h : s.proceeds t) (h' : t.proceeds u) : s.proceeds u :=
  ⟨h.1.trans h'.1, h'.2 ∘ h.2⟩

theorem next_proceeds {s t : State} (h : (.next s : Host.Outcome State Fault Refusal) = .next t) : s.proceeds t := by
  cases h; exact s.proceeds_refl

/-- Ending an event queues frames alone. -/
theorem finish_holdsClear {e : Event} (h : e.s.holdsClear) : e.finish.holdsClear := by
  obtain ⟨ls, hl, -⟩ := e.s.postAll_spec e.notices
  rw [Event.finish, hl]
  exact h

theorem event_proceeds {s t : State} {f : Event → Event} (h : event s f = .next t) (hr : Reach s t)
    (hf : s.noted.holdsClear → (f s.begin).s.holdsClear) : s.proceeds t := by
  refine ⟨hr, fun hs => ?_⟩
  rcases event_cases h with ⟨-, rfl⟩ | ⟨-, rfl⟩
  · exact hs
  · exact finish_holdsClear (hf hs)

theorem quietEvent_proceeds {s t : State} {f : State → State} (h : quietEvent s f = .next t) (hr : Reach s t)
    (hf : s.noted.holdsClear → (f s.noted).holdsClear) : s.proceeds t := by
  refine ⟨hr, fun hs => ?_⟩
  rcases quietEvent_cases h with ⟨-, rfl⟩ | ⟨-, rfl⟩
  · exact hs
  · exact hf hs

/-- A quiet event that sets one link, and keeps it sound. -/
theorem quietLink_proceeds {s t : State} {k : Station} {f : State → Link}
    (h : quietEvent s (fun s => s.setLink k (f s)) = .next t) (hf : (s.link k).sound → (f s.noted).sound) :
    s.proceeds t :=
  quietEvent_proceeds h (quietEvent_reach h fun _ => (quiet_setLink s.noted k (f s.noted) hf).reach) fun hs => hs

theorem ignored_proceeds {s t : State} (h : quietEvent s id = .next t) : s.proceeds t :=
  quietEvent_proceeds h (quietEvent_reach h fun _ => .refl _) id

/-- The reply joins a queue that its owner left with room, on a link that it left UP (R190, R191). -/
theorem reply_proceeds {s : State} {e : Event} {link : Station} {f : Frame} (h : s.proceeds e.s)
    (hu : (e.s.link link).state = .up) (hq : (e.s.link link).queue.length < Config.queueCapacity) :
    s.proceeds (e.reply link f) := by
  obtain ⟨hr, hc⟩ := h
  refine ⟨(hr.tail (quiet_queueReply _ _ _ hu hq)).tail (quiet_postAll _ _), fun hs => ?_⟩
  obtain ⟨ls, hls⟩ := e.reply_eq link f
  rw [hls]
  exact hc hs

theorem opened_proceeds (s : State) (link : Station) : s.proceeds (s.opened link) := ⟨opened_reach s link, id⟩

theorem request_proceeds {s t : State} {link : Station} {type : RequestType} {tag : Byte} {formed : Bool}
    {owner : Event → Event × Answer} (h : request link type tag formed owner s = .next t)
    (ho : formed = true → type.permits link = true → ∀ e : Event, e.s.running = true → Reach e.s (owner e).1.s)
    (hord : ∀ e : Event, e.s.orderly (owner e).1.s) : s.proceeds t := by
  have opened := opened_proceeds s link
  rcases request_cases h with ⟨-, rfl⟩ | ⟨-, rfl⟩ | ⟨-, hq, f, rfl⟩ | ⟨⟨hr, hq, hp⟩, hf, f, rfl⟩
  · exact t.proceeds_refl
  · exact opened.trans ⟨(quiet_overrun _ _).reach, id⟩
  · refine opened.trans ⟨(quiet_queueReply _ _ _ (opened_link_up s link) ?_).reach, id⟩
    rw [opened_link_queue]
    exact hq
  · obtain ⟨hlinks, hclear⟩ : (s.opened link).orderly (owner (s.opened link).begin).1.s := hord (s.opened link).begin
    have hlink := hlinks link
    simp only [Link.outbound, Prod.mk.injEq] at hlink
    have noted : (s.opened link).proceeds (s.opened link).noted := ⟨(Move.note _).reach, id⟩
    refine reply_proceeds (opened.trans (noted.trans ⟨ho hf hp (s.opened link).begin hr, hclear⟩)) ?_ ?_
    · rw [hlink.1, opened_link_up]
    · rw [hlink.2, opened_link_queue]
      exact hq

theorem exec_request_proceeds {c : Instr} {s t : State} {q : Station × RequestType × Byte × Bool}
    (hc : requestOf c = some q) (h : exec c s = .next t) : s.proceeds t := by
  obtain ⟨link, type, tag, formed⟩ := q
  rw [exec_eq_request hc] at h
  refine request_proceeds h (fun hf hp e hr => ?_) (ownerOf_orderly c)
  subst hf
  exact ownerOf_reach hc hp e hr

/-! ### The receiver (R185, R193, R196) -/

theorem execFrameDiscard_proceeds {link : Station} {cause : DiscardCause} {s t : State}
    (h : execFrameDiscard link cause s = .next t) : s.proceeds t :=
  quietLink_proceeds h id

theorem State.spells.proceeds {s t : State} {out : Host.Outcome State Fault Refusal} (h : s.spells out)
    (ho : out = .next t) : s.proceeds t := by
  rcases h with ⟨c, q, hc, rfl⟩ | ⟨link, type, tag, formed, owner, hid, rfl⟩
  · exact exec_request_proceeds hc ho
  · exact request_proceeds ho (fun _ _ e _ => by rw [hid]; exact .refl _) fun e => by rw [hid]; exact e.s.orderly_refl

theorem execUnknownRequest_proceeds {link : Station} {tag type : Byte} {s t : State}
    (h : execUnknownRequest link tag type s = .next t) : s.proceeds t := by
  have hr := execUnknownRequest_reach h
  unfold execUnknownRequest at h
  split at h
  · exact next_proceeds h
  · refine quietEvent_proceeds h hr fun hs => ?_
    dsimp only
    split <;> exact hs

theorem takeFrame_proceeds {link : Station} {type tag : Byte} {data : List Byte} {s t : State}
    (h : takeFrame link type tag data s = .next t) : s.proceeds t := by
  unfold takeFrame at h
  split at h
  · exact (takeTypedFrame_spells ..).proceeds h
  · exact execUnknownRequest_proceeds h

theorem takeOctet_proceeds {link : Station} {v : Byte} {s t : State} (h : takeOctet link v s = .next t) :
    s.proceeds t := by
  unfold takeOctet at h
  dsimp only at h
  split at h
  · exact ignored_proceeds h
  · split at h
    · exact quietLink_proceeds h id
    · exact quietLink_proceeds h id
  · exact quietLink_proceeds h id
  · exact quietLink_proceeds h id
  · split at h
    · unfold takeCorrect at h
      split at h
      · exact takeFrame_proceeds h
      · exact quietLink_proceeds h id
    · exact quietLink_proceeds h id

theorem execHalt_proceeds {link : Station} {s t : State} (h : execHalt link s = .next t) : s.proceeds t :=
  event_proceeds h (execHalt_reach h) fun hs => (raiseHold_orderly _ _ _ _).2 hs

theorem execReceiverOctet_proceeds {link : Station} {octet : Byte} {good : Bool} {s t : State}
    (h : execReceiverOctet link octet good s = .next t) : s.proceeds t := by
  unfold execReceiverOctet at h
  split at h
  · exact next_proceeds h
  · split at h
    · split at h
      · exact ignored_proceeds h
      · exact quietLink_proceeds h id
    · split at h
      · exact execHalt_proceeds h
      · unfold takeGoodOctet at h
        dsimp only at h
        split at h
        · split at h
          · exact quietLink_proceeds h id
          · exact ignored_proceeds h
        · split at h
          · split at h
            · exact takeOctet_proceeds h
            · exact quietLink_proceeds h id
          · split at h
            · exact quietLink_proceeds h id
            · split at h
              · exact quietLink_proceeds h id
              · exact takeOctet_proceeds h

/-! ### Expiries and limit switches (R82 to R98, R188) -/

theorem execSilenceExpiry_proceeds {link : Station} {s t : State} (h : execSilenceExpiry link s = .next t) :
    s.proceeds t := by
  have hr := execSilenceExpiry_reach h
  unfold execSilenceExpiry at h
  split at h
  · refine event_proceeds h hr fun hs => ?_
    have lost : (s.begin.mod (loseLink link)).s.holdsClear := hs
    unfold lostHold
    split
    · cases link with
      | barge => exact (raiseHold_orderly _ _ _ _).2 lost
      | ship => exact (raiseHold_orderly _ _ _ _).2 lost
      | survey => exact lost
    · exact lost
  · exact next_proceeds h

theorem execConfirmExpiry_proceeds {s t : State} (h : execConfirmExpiry s = .next t) : s.proceeds t := by
  have hr := execConfirmExpiry_reach h
  unfold execConfirmExpiry at h
  split at h
  · exact event_proceeds h hr (endArming_orderly _ s.begin).2
  · exact next_proceeds h

theorem execStrokeTimerExpiry_proceeds {s t : State} (h : execStrokeTimerExpiry s = .next t) : s.proceeds t := by
  have hr := execStrokeTimerExpiry_reach h
  unfold execStrokeTimerExpiry at h
  split at h
  · exact event_proceeds h hr fun hs => (raiseHold_orderly _ _ _ _).2 hs
  · exact next_proceeds h

theorem execRundownExpiry_proceeds {s t : State} (h : execRundownExpiry s = .next t) : s.proceeds t := by
  have hr := execRundownExpiry_reach h
  unfold execRundownExpiry at h
  split at h
  · exact event_proceeds h hr (enterClosing_orderly s.noted).2
  · exact next_proceeds h

theorem settleStep_orderly (r : Step) (cause : StopCause) (e : Event) : e.s.orderly (settleStep r cause e).s := by
  cases cause with
  | quantity | topped => exact finishStep_orderly _ r e
  | stopped | hold => exact holdStep_orderly _ r e.s

theorem execSettleExpiry_proceeds {s t : State} (h : execSettleExpiry s = .next t) : s.proceeds t := by
  have hr := execSettleExpiry_reach h
  unfold execSettleExpiry at h
  split at h
  · refine event_proceeds h hr ?_
    dsimp only
    split
    · exact fun hs => (settleStep_orderly _ _ _).2 hs
    · exact fun hs => (setDelivery_orderly .held _ rfl).2 hs
    · exact fun hs => (setDelivery_orderly .idle _ rfl).2 hs
  · exact next_proceeds h

theorem execRampSecond_proceeds {s t : State} (h : execRampSecond s = .next t) : s.proceeds t := by
  have hr := execRampSecond_reach h
  unfold execRampSecond at h
  split at h
  · exact quietEvent_proceeds h hr fun hs => (evalNoFlow_orderly _).2 hs
  · exact next_proceeds h

theorem valveFault_orderly (before : ValveState) (e : Event) : e.s.orderly (valveFault before e).s := by
  unfold valveFault
  split
  · exact raiseHold_orderly _ _ _ e
  · split
    · exact raiseHold_orderly _ _ _ e
    · exact e.s.orderly_refl

theorem valveEnd_orderly (before : ValveState) (s : State) : s.orderly (valveEnd before s) := by
  unfold valveEnd
  split
  · next hd => exact enterPumping_orderly hd.2.2
  · split
    · exact enterSettling_orderly s
    · exact s.orderly_refl

theorem execLimitSwitchChange_proceeds {w : LimitSwitch} {current : Nat} {s t : State}
    (h : execLimitSwitchChange w current s = .next t) : s.proceeds t := by
  have hr := execLimitSwitchChange_reach h
  unfold execLimitSwitchChange at h
  dsimp only at h
  split at h
  · exact next_proceeds h
  · refine event_proceeds h hr fun hs => ((valveFault_orderly _ _).trans (valveEnd_orderly _ _)).2 ?_
    cases w <;> exact hs

/-! ### The tally (R129 to R139) -/

theorem execRateSecond_proceeds {s t : State} (h : execRateSecond s = .next t) : s.proceeds t := by
  have hr := execRateSecond_reach h
  unfold execRateSecond at h
  split at h
  · have ended : (shiftBins s.noted).orderly (rateEndsRundown (shiftBins s.noted)) := by
      unfold rateEndsRundown
      split
      · exact enterClosing_orderly _
      · exact State.orderly_refl _
    exact event_proceeds h hr ((ended.trans (evalNoFlow_orderly _)).trans (evalOverspeed_orderly _)).2
  · exact next_proceeds h

theorem execNoFlowExpiry_proceeds {s t : State} (h : execNoFlowExpiry s = .next t) : s.proceeds t := by
  have hr := execNoFlowExpiry_reach h
  unfold execNoFlowExpiry at h
  split at h
  · exact event_proceeds h hr fun hs => (raiseHold_orderly _ _ _ _).2 hs
  · exact next_proceeds h

theorem execOverspeedExpiry_proceeds {s t : State} (h : execOverspeedExpiry s = .next t) : s.proceeds t := by
  have hr := execOverspeedExpiry_reach h
  unfold execOverspeedExpiry at h
  split at h
  · exact event_proceeds h hr fun hs => (raiseHold_orderly _ _ _ _).2 hs
  · exact next_proceeds h

theorem execMeterPulse_proceeds {s t : State} (h : execMeterPulse s = .next t) : s.proceeds t := by
  refine event_proceeds h (execMeterPulse_reach h) fun hs => ?_
  have binned : (s.begin.mod binPulse).s.holdsClear := hs
  dsimp only
  split
  · exact binned
  · split
    · exact binned
    · exact (tallyPulse_orderly _).2 binned

/-! ### The tick, the reports and the polls (R2, R41, R42, R146) -/

theorem tickState_holdsClear {s : State} (hs : s.holdsClear) : (tickState s).holdsClear := by
  unfold tickState clockTick
  split
  · exact hs
  · split <;> exact hs

theorem execTick_proceeds {s t : State} (h : execTick s = .next t) : s.proceeds t :=
  quietEvent_proceeds h (execTick_reach h) tickState_holdsClear

theorem execTransferClockSecond_proceeds {s t : State} (h : execTransferClockSecond s = .next t) : s.proceeds t := by
  unfold execTransferClockSecond at h
  split at h
  · exact execTick_proceeds h
  · exact next_proceeds h

theorem execReportStale_proceeds {i : Fin 8} {s t : State} (h : execReportStale i s = .next t) : s.proceeds t := by
  have hr := execReportStale_reach h
  unfold execReportStale at h
  split at h
  · exact event_proceeds h hr (restatus_orderly s.watches i s.begin).recomputed.2
  · exact next_proceeds h

theorem execReportLost_proceeds {i : Fin 8} {s t : State} (h : execReportLost i s = .next t) : s.proceeds t := by
  have hr := execReportLost_reach h
  unfold execReportLost at h
  split at h
  · exact event_proceeds h hr (restatusAll_orderly (lostDue s) s.begin).recomputed.2
  · exact next_proceeds h

theorem execTransactionEnd_proceeds {reply : List Byte} {s t : State} (h : execTransactionEnd reply s = .next t) :
    s.proceeds t := by
  have hr := execTransactionEnd_reach h
  unfold execTransactionEnd at h
  split at h
  · exact next_proceeds h
  · refine event_proceeds h hr fun hs => ?_
    dsimp only
    split
    · exact hs
    · exact (handOnRoles_orderly _ _ _ _).2 hs

/-! ### Debounced inputs (R111, R161) -/

theorem settleLine_holdsClear (n : Fin 6) {s : State} (hs : s.holdsClear) : (settleLine n s).holdsClear := by
  have taken (l : List (Fin 6)) (s : State) (hs : s.holdsClear) : (l.foldl lineEvent s).holdsClear := by
    induction l generalizing s with
    | nil => exact hs
    | cons n rest ih => exact ih _ (finish_holdsClear ((lineFollows_orderly n s.begin).2 hs))
  unfold settleLine
  split
  · exact taken _ s hs
  · exact hs

theorem settleLoop_holdsClear {s : State} (hs : s.holdsClear) : (settleLoop s).holdsClear := by
  unfold settleLoop
  split
  · refine finish_holdsClear ?_
    unfold loopFollows
    dsimp only
    split
    · exact (raiseHold_orderly _ _ _ _).2 hs
    · exact hs
  · exact hs

theorem senseLine_orderly (n : Fin 6) (current : Nat) (e : Event) : e.s.orderly (senseLine n current e).s := by
  unfold senseLine
  dsimp only
  have sensed := setLine_orderly e.s n { e.s.line n with raw := senseContact (e.s.line n).raw current }
  split
  · exact sensed.trans (setLine_orderly _ _ _)
  · split
    · exact sensed.trans (lineFollows_orderly n _)
    · exact sensed

theorem settleLine_proceeds (n : Fin 6) {s : State} (hr : s.running = true) : s.proceeds (settleLine n s) :=
  ⟨settleLine_reach n s hr, settleLine_holdsClear n⟩

theorem settleLoop_proceeds {s : State} (hr : s.running = true) : s.proceeds (settleLoop s) :=
  ⟨settleLoop_reach s hr, settleLoop_holdsClear⟩

theorem execRawLineChange_proceeds {n : Fin 6} {current : Nat} {s t : State}
    (h : execRawLineChange n current s = .next t) : s.proceeds t := by
  unfold execRawLineChange at h
  split at h
  · next hr =>
    refine (settleLine_proceeds n hr).trans (event_proceeds h ?_ (senseLine_orderly n current (settleLine n s).begin).2)
    exact event_next_reach h fun hr' => senseLine_reach n current (settleLine n s).begin hr'
  · exact next_proceeds h

theorem execLineDebounceComplete_proceeds {n : Fin 6} {s t : State} (h : execLineDebounceComplete n s = .next t) :
    s.proceeds t := by
  unfold execLineDebounceComplete at h
  split at h
  · next hr => exact (settleLine_proceeds n hr).trans (next_proceeds h)
  · exact next_proceeds h

theorem execLoopInRawChange_proceeds {current : Nat} {s t : State} (h : execLoopInRawChange current s = .next t) :
    s.proceeds t := by
  unfold execLoopInRawChange at h
  split at h
  · next hr =>
    refine (settleLoop_proceeds hr).trans (quietEvent_proceeds h (quietEvent_reach h fun _ => ?_) id)
    exact reach_of_core rfl rfl rfl
  · exact next_proceeds h

theorem execLoopInDebounceComplete_proceeds {s t : State} (h : execLoopInDebounceComplete s = .next t) :
    s.proceeds t := by
  unfold execLoopInDebounceComplete at h
  split at h
  · next hr => exact (settleLoop_proceeds hr).trans (next_proceeds h)
  · exact next_proceeds h

/-! ### Commands -/

/-- All that a command can do: proceed, stop the part or start it. -/
theorem exec_proceeds {c : Instr} {s t : State} (h : exec c s = .next t) :
    s.proceeds t ∨ (∃ m, t = stopped m s) ∨ ∃ m sample schedule, t = startPart m sample schedule s := by
  cases hc : requestOf c with
  | some q => exact .inl (exec_request_proceeds hc h)
  | none =>
    cases c with
    | unknownRequest => exact .inl (execUnknownRequest_proceeds h)
    | overrun =>
      have hr := execOverrun_reach h
      unfold exec execOverrun at h
      dsimp only at h
      split at h
      · exact .inl (quietEvent_proceeds h hr id)
      · exact .inl (next_proceeds h)
    | frameDiscard => exact .inl (execFrameDiscard_proceeds h)
    | halt => exact .inl (execHalt_proceeds h)
    | transmissionEnd =>
      have hr := execTransmissionEnd_reach h
      unfold exec execTransmissionEnd at h
      dsimp only at h
      split at h
      · exact .inl (quietEvent_proceeds h hr id)
      · exact .inl (next_proceeds h)
    | silenceExpiry => exact .inl (execSilenceExpiry_proceeds h)
    | confirmExpiry => exact .inl (execConfirmExpiry_proceeds h)
    | strokeTimerExpiry => exact .inl (execStrokeTimerExpiry_proceeds h)
    | rundownExpiry => exact .inl (execRundownExpiry_proceeds h)
    | settleExpiry => exact .inl (execSettleExpiry_proceeds h)
    | rampSecond => exact .inl (execRampSecond_proceeds h)
    | rateSecond => exact .inl (execRateSecond_proceeds h)
    | noFlowExpiry => exact .inl (execNoFlowExpiry_proceeds h)
    | overspeedExpiry => exact .inl (execOverspeedExpiry_proceeds h)
    | pollCycleExpiry =>
      have hr := execPollCycleExpiry_reach h
      unfold exec execPollCycleExpiry at h
      dsimp only at h
      split at h
      · exact .inl (quietEvent_proceeds h hr id)
      · exact .inl (next_proceeds h)
    | transactionEnd => exact .inl (execTransactionEnd_proceeds h)
    | tick => exact .inl (execTick_proceeds h)
    | transferClockSecond => exact .inl (execTransferClockSecond_proceeds h)
    | reportStale => exact .inl (execReportStale_proceeds h)
    | reportLost => exact .inl (execReportLost_proceeds h)
    | limitSwitchChange => exact .inl (execLimitSwitchChange_proceeds h)
    | meterPulse => exact .inl (execMeterPulse_proceeds h)
    | rawLineChange => exact .inl (execRawLineChange_proceeds h)
    | lineDebounceComplete => exact .inl (execLineDebounceComplete_proceeds h)
    | loopInRawChange => exact .inl (execLoopInRawChange_proceeds h)
    | loopInDebounceComplete => exact .inl (execLoopInDebounceComplete_proceeds h)
    | receiverOctet => exact .inl (execReceiverOctet_proceeds h)
    | coldStart loss sample schedule =>
      unfold exec execColdStart at h
      dsimp only at h
      split at h
      · exact .inr (.inr ⟨_, sample, schedule, (Host.Outcome.next.inj h).symm⟩)
      · exact .inl (next_proceeds h)
    | warmStart sample schedule =>
      unfold exec execWarmStart at h
      dsimp only at h
      split at h
      · exact .inr (.inr ⟨_, sample, schedule, (Host.Outcome.next.inj h).symm⟩)
      · exact .inl (next_proceeds h)
    | partStops stop =>
      unfold exec execPartStops at h
      dsimp only at h
      split at h
      · exact .inr (.inl ⟨_, (Host.Outcome.next.inj h).symm⟩)
      · exact .inl (next_proceeds h)
    | _ => cases hc

/-! ### Stops and starts (R102, R179, R183) -/

theorem linkAtStart_sound (straps : Bool × Bool) : (linkAtStart straps).sound :=
  ⟨Nat.zero_le _, fun _ => rfl, ⟨fun h => (by cases h), fun h => absurd rfl h⟩⟩

/-- A stop leaves every link as a start with open straps does (R179). -/
theorem stopped_linksSound (m : Retained) (s : State) : (stopped m s).linksSound := by
  intro k
  have h : (stopped m s).link k = linkAtStart (false, false) := by cases k <;> rfl
  rw [h]
  exact linkAtStart_sound _

/-- A start leaves the links as it samples them: the raises, P and the step's place do not touch them (R183). -/
theorem startFrom_links (memory prior : Retained) (reason : HoldReason) (sample : InputSample)
    (schedule : List RaisingBlock) (s : State) :
    (startFrom memory prior reason sample schedule s).links = (sampled memory prior sample s).links := by
  have raises (rs : List Raise) (u : State) : (rs.foldl startRaise u).links = u.links := by
    obtain ⟨_, _, h⟩ := foldl_startRaise_eq rs u
    rw [h]
  have rated (u : State) : (recompute u).links = u.links := by
    obtain ⟨_, _, _, _, h, -⟩ := recompute_spec u
    rw [h]
    rfl
  rw [startFrom_of rfl rfl rfl, raises, rated]
  show ((ownRaises reason _).foldl startRaise _).links = _
  rw [raises, placeStep_eq]

theorem startPart_linksSound (memory : Retained) (sample : InputSample) (schedule : List RaisingBlock) (s : State) :
    (startPart memory sample schedule s).linksSound := by
  have started (m prior : Retained) (reason : HoldReason) :
      (startFrom m prior reason sample schedule s).linksSound := by
    intro k
    rw [State.link, startFrom_links]
    cases k <;> exact linkAtStart_sound _
  unfold startPart
  split <;> exact started _ _ _

/-- A start leaves delivery IDLE or HELD (R102). -/
theorem startPart_holdsClear (memory : Retained) (sample : InputSample) (schedule : List RaisingBlock) (s : State) :
    (startPart memory sample schedule s).holdsClear := by
  obtain ⟨u, _, _, _, he, -, -, -, hd⟩ := startPart_rated memory sample schedule s
  have hf : u.ret.delivery.holdFree = false := by
    rcases hd with ⟨hd, -⟩ | ⟨hd, -⟩ <;> rw [hd] <;> rfl
  rw [he]
  exact fun h => absurd (hf.symm.trans h) (by decide)

/-! ### Steps -/

/-- The invariant of the holds in its two parts: the list with loop OUT, and the delivery states in which it is empty. -/
theorem holdsSound_iff {s : State} : s.holdsSound ↔ s.listSound ∧ (s.running = true → s.holdsClear) := by
  have loop : (s.loop.loopOut = .opened ↔ ∃ h ∈ s.ret.holds, h.cls = .trip ∧ h.source ≠ .loop) ↔
      s.loop.loopOut = loopOutOf s.ret.holds := by
    rw [← loopOutOf_eq_opened]
    cases s.loop.loopOut <;> cases loopOutOf s.ret.holds <;> decide
  unfold State.holdsSound State.listSound State.holdsClear
  rw [loop, holdFree_iff]
  tauto

theorem step_keeps_holdsClear {s t : State} (hs : s.running = true → s.holdsClear) (h : step s = .next t) :
    t.running = true → t.holdsClear := by
  unfold step at h
  split at h
  · cases h; exact hs
  · next c rest _ =>
    rcases exec_proceeds h with ⟨hr, hc⟩ | ⟨m, rfl⟩ | ⟨m, sample, schedule, rfl⟩
    · have hrun : t.running = s.running := hr.alike.1
      exact fun ht => hc (hs (hrun ▸ ht))
    · exact fun hr => by cases hr
    · exact fun _ => startPart_holdsClear m sample schedule _

theorem step_keeps_linksSound {s t : State} (hs : s.linksSound) (h : step s = .next t) : t.linksSound := by
  unfold step at h
  split at h
  · cases h; exact hs
  · next c rest _ =>
    rcases exec_proceeds h with ⟨hr, -⟩ | ⟨m, rfl⟩ | ⟨m, sample, schedule, rfl⟩
    · exact hr.keeps (P := State.linksSound) (fun _ _ hm => hm.keeps_linksSound) hs
    · exact stopped_linksSound m _
    · exact startPart_linksSound m sample schedule _

/-- Settles O57: the list and loop OUT by every move, the states without holds and the links by every command. -/
theorem stepKeepsHoldsAndLinksSound : Obligations.StepKeepsHoldsAndLinksSound := by
  refine ⟨fun s t hs h => ?_, fun _ _ hs h => step_keeps_linksSound hs h⟩
  obtain ⟨hlist, hclear⟩ := holdsSound_iff.1 hs
  exact holdsSound_iff.2 ⟨step_keeps_listSound hlist h, step_keeps_holdsClear hclear h⟩

end Sys2Proof.Machine
end

