-- ==== Sys2Proof/Proofs/StopAndRaise.lean ====
section
/-! What ends a delivery from outside: STOP (R99), the timers whose expiry raises a hold (R82, R137, R139), and every raise as
the Delivery Controller takes it (R89, R93, R95, R107). -/

namespace Sys2Proof.Machine

/-! ### STOP (R99) -/

/-- Settles O25: the delivery state chooses the branch of the owner's table, and the owner's answer is the reply. -/
theorem stopStopsDelivery : Obligations.StopStopsDelivery := by
  intro s link tag ht began ok fixed
  have replied {e : Event} (ho : takeStop link began = (e, answer .ok)) :
      exec (.stopStep link tag) s = .next (e.reply link ok) := exec_replied (c := .stopStep link tag) rfl ht ho
  have unchanged (ho : takeStop link began = refuse began .unchanged) :
      exec (.stopStep link tag) s = .next (s.refused link .stopStep tag .unchanged) := exec_refused (c := .stopStep link tag) rfl ht ho
  have hb : began.s.ret.delivery = s.ret.delivery := rfl
  unfold takeStop at replied unchanged
  rw [hb] at replied unchanged
  cases hd : s.ret.delivery with
  | armed | opening | pumping => rw [hd] at replied; exact replied rfl
  | idle | rundown | closing | settling | held => rw [hd] at unchanged; exact unchanged rfl

/-! ### The timers that raise (R82, R137, R139) -/

/-- Settles O29: a timer that has expired opens the event of its raise, and any other value of it opens none. -/
theorem timersRaiseHolds : Obligations.TimersRaiseHolds := by
  intro s hr
  refine ⟨fun h => ?_, fun h => ?_, fun h => ?_, fun h => if_neg h, fun h => if_neg h, fun h => if_neg h⟩
  · refine ((if_pos h).trans (event_running hr)).trans ?_
    have command : s.begin.s.controller.command = s.controller.command := rfl
    rw [command]
    cases s.controller.command <;> rfl
  · exact (if_pos h).trans (event_running hr)
  · exact (if_pos h).trans (event_running hr)

/-! ### A raise reaches the Delivery Controller (R95) -/

/-- An entry is a TRIP after a raise by TRIP, or where it was one before (R105). -/
theorem raisedEntry_cls_eq_trip {s : State} {src : HoldSource} {cls : HoldClass} {reason : HoldReason} :
    (raisedEntry s src cls reason).cls = .trip ↔
      cls = .trip ∨ ∃ h, findHold s.ret.holds src = some h ∧ h.cls = .trip := by
  unfold raisedEntry
  cases findHold s.ret.holds src with
  | none => simp
  | some h =>
    show escalate h.cls cls = .trip ↔ _
    cases hc : h.cls <;> simp [escalate, hc]

/-- Settles O31: delivery takes the raise by its table, behind the list; what an arming's end leaves is
`endArming_event`. -/
theorem raiseReachesDelivery : Obligations.RaiseReachesDelivery := by
  intro src cls reason e listed fixed becomes reached
  have taken : deliveryTakesRaise src becomes listed = reached := by
    have hl : listed.s.ret.delivery = e.s.ret.delivery := rfl
    unfold deliveryTakesRaise
    simp only [reached, hl]
    cases e.s.ret.delivery <;> cases becomes <;> rfl
  have hnotes : reached.notes = e.notes := by
    obtain ⟨_, _, _, _, _, _, _, _, _, h⟩ := deliveryTakesRaise_spec src becomes listed
    rw [← taken, h]
  have raised : raiseHold src cls reason e = { reached with notes := e.notes ++ [e.s.raisedNotice src cls reason] } := by
    show (deliveryTakesRaise src becomes listed).note (e.s.raisedNotice src cls reason) = _
    rw [taken, Event.note, hnotes]
  refine ⟨raised, raisedEntry_cls_eq_trip, fun r hd ha => ?_⟩
  have ends : reached = endArming (.hold src) listed := by simp only [reached, hd]
  have ended := endArming_event (how := .hold src) (e := listed) ha
  rw [raised, ends, ended]
  exact ⟨fun hf => by simp [listed, hf], fun hf => by simp [listed, hf]⟩

end Sys2Proof.Machine
end

