-- ==== Sys2Proof/Proofs/LimitSwitch.lean ====
section
/-! The limit switches and what follows a change of one: the valve state, the stroke timer, the holds of a jam and of a
drift, and the valve's two ends (R81 to R84, R92, R97). -/

namespace Sys2Proof.Machine

/-! ### The switches through a raise -/

/-- The end of an arming leaves the limit switches as sensed. -/
theorem endArming_sameSwitches (how : ArmingEnd) (e : Event) :
    e.s.controller.sameSwitches (endArming how e).s.controller := by
  cases ha : e.s.ret.active with
  | none => rw [endArming_none how e ha]; exact ⟨rfl, rfl⟩
  | some r =>
    by_cases hf : e.s.controller.armedFrom = some .idle
    · rw [endArming_idle how e r ha hf]; exact ⟨rfl, rfl⟩
    · rw [endArming_held how e r ha hf]; exact ⟨rfl, rfl⟩

theorem enterClosing_sameSwitches (s : State) : s.controller.sameSwitches (enterClosing s).controller := by
  obtain ⟨d, c, h, -, -, -, -, -, -, hc⟩ := enterClosing_spec s
  rw [h]
  exact hc

theorem enterRundown_sameSwitches (s : State) : s.controller.sameSwitches (enterRundown s).controller := by
  obtain ⟨d, c, h, -, -, -, -, hc⟩ := enterRundown_spec s
  rw [h]
  exact hc

/-- A raise may command the valve closed; the limit switches it leaves as sensed. -/
theorem raiseHold_sameSwitches (src : HoldSource) (cls : HoldClass) (reason : HoldReason) (e : Event) :
    e.s.controller.sameSwitches (raiseHold src cls reason e).s.controller := by
  have taken (cls : HoldClass) (e : Event) :
      e.s.controller.sameSwitches (deliveryTakesRaise src cls e).s.controller := by
    unfold deliveryTakesRaise
    split
    · exact endArming_sameSwitches _ e
    · exact enterClosing_sameSwitches (fixCause (.hold src) e.s)
    · cases cls with
      | pause => exact enterRundown_sameSwitches (fixCause (.hold src) e.s)
      | trip => exact enterClosing_sameSwitches (fixCause (.hold src) e.s)
    · cases cls with
      | pause => exact ⟨rfl, rfl⟩
      | trip => exact enterClosing_sameSwitches e.s
    all_goals exact ⟨rfl, rfl⟩
  exact taken (raisedEntry e.s src cls reason).cls { e with s := e.s.setHolds (raisedList e.s src cls reason) }

/-! ### The valve state (R81) -/

theorem valve_eq_jammed {s : State} :
    s.valve = .jammed ↔ s.controller.closedLimit = true ∧ s.controller.openLimit = true := by
  unfold State.valve
  cases s.controller.closedLimit <;> cases s.controller.openLimit <;> cases s.controller.command <;> decide

theorem valve_eq_opened {s : State} :
    s.valve = .opened ↔
      s.controller.command = .opened ∧ s.controller.closedLimit = false ∧ s.controller.openLimit = true := by
  unfold State.valve
  cases s.controller.closedLimit <;> cases s.controller.openLimit <;> cases s.controller.command <;> decide

theorem valve_eq_closed {s : State} :
    s.valve = .closed ↔
      s.controller.command = .closed ∧ s.controller.closedLimit = true ∧ s.controller.openLimit = false := by
  unfold State.valve
  cases s.controller.closedLimit <;> cases s.controller.openLimit <;> cases s.controller.command <;> decide

/-- With both limit switches asserted, or neither, the valve is at neither end. -/
theorem valveEnd_of_switches_eq {before : ValveState} {s : State}
    (h : s.controller.closedLimit = s.controller.openLimit) : valveEnd before s = s := by
  have ho : s.valve ≠ .opened := fun hv => by
    obtain ⟨-, hc, ho⟩ := valve_eq_opened.1 hv
    rw [hc, ho] at h
    cases h
  have hc : s.valve ≠ .closed := fun hv => by
    obtain ⟨-, hc, ho⟩ := valve_eq_closed.1 hv
    rw [hc, ho] at h
    cases h
  unfold valveEnd
  rw [if_neg fun hv => ho hv.1, if_neg fun hv => hc hv.1]

/-! ### What follows a change (R82 to R84, R92, R97) -/

/-- The stroke timer stops at the end the command names, and starts when a closed valve drifts from its end (R82). -/
theorem strokeAfter_eq (before : ValveState) (s : State) : strokeAfter before s =
    if s.valve = .opened ∧ s.controller.command = .opened ∨ s.valve = .closed ∧ s.controller.command = .closed then none
    else if before = .closed ∧ s.controller.stroke = none ∧ s.controller.command = .closed ∧ s.valve ≠ .closed then
      some (10 * s.ret.settings.tclose)
    else s.controller.stroke := by
  have names : s.valve = s.controller.command.names ↔
      s.valve = .opened ∧ s.controller.command = .opened ∨ s.valve = .closed ∧ s.controller.command = .closed := by
    cases s.controller.command <;> simp [ValveCommand.names]
  have leaves : (before = .closed ∧ s.valve ≠ .closed ∧ s.controller.command = .closed ∧ s.controller.stroke = none) ↔
      before = .closed ∧ s.controller.stroke = none ∧ s.controller.command = .closed ∧ s.valve ≠ .closed := by tauto
  unfold strokeAfter
  simp only [names, leaves]
  rfl

section Change

variable {s : State} {w : LimitSwitch} {current : Nat}

/-- A current that leaves the switch as sensed is no event (log 25). -/
theorem execLimitSwitchChange_same (h : senseContact (s.controller.switch w) current = s.controller.switch w) :
    execLimitSwitchChange w current s = .next s := if_pos h

/-- A switch that changes: the controller takes it, then the jam or the drift, then the valve's end. -/
theorem execLimitSwitchChange_changed (hr : s.running = true)
    (h : senseContact (s.controller.switch w) current ≠ s.controller.switch w) :
    execLimitSwitchChange w current s =
      .next ((valveFault s.valve (s.begin.mod fun u =>
        { setSwitch w (senseContact (s.controller.switch w) current) u with
          controller.stroke := strokeAfter s.valve
            (setSwitch w (senseContact (s.controller.switch w) current) u) })).mod (valveEnd s.valve)).finish :=
  (if_neg h).trans (event_running hr)

end Change

section Follows

/-- The open end in OPENING enters PUMPING (R92). -/
theorem valveEnd_opened {before : ValveState} {s : State} (hv : s.valve = .opened) (hb : before ≠ .opened)
    (hd : s.ret.delivery = .opening) : valveEnd before s = enterPumping s := if_pos ⟨hv, hb, hd⟩

/-- The closed end in CLOSING enters SETTLING (R97). -/
theorem valveEnd_closed {before : ValveState} {s : State} (hv : s.valve = .closed) (hb : before ≠ .closed)
    (hd : s.ret.delivery = .closing) : valveEnd before s = enterSettling s := by
  unfold valveEnd
  rw [if_neg (by rw [hv]; rintro ⟨h, -⟩; cases h), if_pos ⟨hv, hb, hd⟩]

theorem valveEnd_elsewhere {before : ValveState} {s : State} (ho : ¬(s.valve = .opened ∧ s.ret.delivery = .opening))
    (hc : ¬(s.valve = .closed ∧ s.ret.delivery = .closing)) : valveEnd before s = s := by
  unfold valveEnd
  rw [if_neg fun h => ho ⟨h.1, h.2.2⟩, if_neg fun h => hc ⟨h.1, h.2.2⟩]

variable {before : ValveState} {e : Event}

/-- A jam raises VALVE, and moves delivery to no end (R83). -/
theorem valveFollows_jammed (hv : e.s.valve = .jammed) (hb : before ≠ .jammed) :
    (valveFault before e).mod (valveEnd before) = raiseHold .valve .trip .bothLimits e := by
  obtain ⟨hc, ho⟩ := valve_eq_jammed.1 hv
  obtain ⟨ho', hc'⟩ := raiseHold_sameSwitches .valve .trip .bothLimits e
  unfold valveFault
  rw [if_pos ⟨hv, hb⟩, Event.mod, valveEnd_of_switches_eq (by rw [hc', ho', hc, ho])]

/-- A drift from the open end raises VALVE, and moves delivery to no end (R84). -/
theorem valveFollows_drift (hv : e.s.valve = .opening) (hb : before = .opened) (hc : e.s.controller.command = .opened)
    (hsw : e.s.controller.closedLimit = e.s.controller.openLimit) :
    (valveFault before e).mod (valveEnd before) = raiseHold .valve .trip .drift e := by
  obtain ⟨ho', hc'⟩ := raiseHold_sameSwitches .valve .trip .drift e
  unfold valveFault
  rw [if_neg (by rw [hv]; rintro ⟨h, -⟩; cases h), if_pos ⟨hb, hc, hv⟩, Event.mod,
    valveEnd_of_switches_eq (by rw [hc', ho', hsw])]

/-- With neither jam nor drift the valve's end alone follows. -/
theorem valveFollows_sound (hv : e.s.valve ≠ .jammed) (hb : ¬(before = .opened ∧ e.s.controller.command = .opened)) :
    (valveFault before e).mod (valveEnd before) = e.mod (valveEnd before) := by
  unfold valveFault
  rw [if_neg fun h => hv h.1, if_neg fun h => hb ⟨h.1, h.2.1⟩]

end Follows

/-- A switch that changes leaves no jam standing, and no open end but by the open limit. -/
theorem setSwitch_changes {w : LimitSwitch} {on : Bool} {s : State} (h : on ≠ s.controller.switch w) :
    ((setSwitch w on s).valve = .jammed → s.valve ≠ .jammed) ∧
      (s.valve = .opened → (setSwitch w on s).valve ≠ .jammed →
        (setSwitch w on s).controller.closedLimit = (setSwitch w on s).controller.openLimit) := by
  rw [valve_eq_jammed, Ne, valve_eq_jammed, valve_eq_opened, Ne, valve_eq_jammed]
  cases w <;> simp only [Controller.switch, setSwitch] at h ⊢ <;> grind

/-- Settles O28: the change by `execLimitSwitchChange_changed`, the stroke timer by `strokeAfter_eq`, and one lemma for each
thing that can follow. -/
theorem limitSwitchMovesValve : Obligations.LimitSwitchMovesValve := by
  refine ⟨fun s => rfl, ?_⟩
  intro s w current hr was on moved old new stroke began
  have hwas : was = s.controller.switch w := by cases w <;> rfl
  have hon : on = senseContact (s.controller.switch w) current := by rw [← hwas]; rfl
  have hmoved : moved = setSwitch w on s := by cases w <;> rfl
  have hstroke : stroke = strokeAfter s.valve (setSwitch w on s) := by
    rw [← hmoved, strokeAfter_eq]
    cases w <;> rfl
  have hbegan : began = s.begin.mod fun u =>
      { setSwitch w on u with controller.stroke := strokeAfter s.valve (setSwitch w on u) } := by
    simp only [began]
    rw [hstroke, hmoved]
    cases w <;> rfl
  have hvalve : began.s.valve = new := by cases w <;> rfl
  have hcommand : began.s.controller.command = s.controller.command := by cases w <;> rfl
  refine ⟨fun h => execLimitSwitchChange_same (by rw [← hon, h, hwas]), fun h => ?_⟩
  rw [hwas] at h
  have changed : exec (.limitSwitchChange w current) s =
      .next ((valveFault old began).mod (valveEnd old)).finish := by
    rw [hbegan, hon]
    exact execLimitSwitchChange_changed hr (hon ▸ h)
  obtain ⟨jams, drifts⟩ := setSwitch_changes h
  rw [← hmoved] at jams drifts
  rw [changed]
  refine ⟨fun hn => ?_, fun ho hc hn => ?_, fun hn ho hd => ?_, fun hn ho hd => ?_, fun hj hf hp hs => ?_⟩
  · rw [valveFollows_jammed (hvalve.trans hn) (jams hn)]
  · have hsw : began.s.controller.closedLimit = began.s.controller.openLimit :=
      drifts ho (by rw [show moved.valve = .opening from hn]; decide)
    rw [valveFollows_drift (hvalve.trans hn) ho (hcommand.trans hc) hsw]
  · rw [valveFollows_sound (by rw [hvalve, hn]; decide) fun h => ho h.1]
    rw [Event.mod, valveEnd_opened (hvalve.trans hn) ho hd]
    rfl
  · have hc : began.s.controller.command ≠ .opened := by
      rw [(valve_eq_closed.1 (hvalve.trans hn)).1]
      decide
    rw [valveFollows_sound (by rw [hvalve, hn]; decide) fun h => hc h.2, Event.mod,
      valveEnd_closed (hvalve.trans hn) ho hd]
    rfl
  · rw [valveFollows_sound (by rw [hvalve]; exact hj) fun h => hf ⟨h.1, hcommand ▸ h.2⟩, Event.mod,
      valveEnd_elsewhere (by rw [hvalve]; exact hp) (by rw [hvalve]; exact hs)]

end Sys2Proof.Machine
end

