-- ==== Sys2Proof/Proofs/RateSecond.lean ====
section
/-! The rate second: the bins and the measured rate, the end of RUNDOWN by it, and both detectors (R96, R134, R136, R138). -/

namespace Sys2Proof.Machine

/-- The window after a shift, and the rate of its litres (R134). -/
theorem shiftBins_eq (s : State) : shiftBins s = { s with
    meter.window := #v[s.meter.window[1], s.meter.window[2], s.meter.window[3], s.meter.window[4], s.meter.bin],
    meter.bin := 0,
    meter.rate := min ((s.meter.window[1] + s.meter.window[2] + s.meter.window[3] + s.meter.window[4] + s.meter.bin) *
      18 / 25) 65535,
    meter.rateTimer := 10 } := by
  rfl

/-- The no-flow detector evaluated, whatever delivery does (R136). -/
theorem evalNoFlow_measured (s : State) : evalNoFlow s = { s with
    meter.noFlow :=
      if s.ret.delivery = .pumping ∧ s.meter.rate < s.governor.demand / 4 then
        match s.meter.noFlow with
        | .quiet => .timing (10 * s.ret.settings.noFlow)
        | .timing n => .timing n
      else .quiet } := by
  rw [evalNoFlow_eq, noFlowAfter]
  simp only [noFlowCondition, decide_eq_true_eq]
  rfl

/-- An end of RUNDOWN by the rate leaves nothing for the no-flow detector to change (R96, R136). -/
theorem rateEndsRundown_ended {s : State} (h : s.ret.delivery = .rundown ∧ s.meter.rate < s.ret.settings.rmin) :
    evalNoFlow (rateEndsRundown s) = enterClosing s := by
  obtain ⟨d, c, hc, hd, -⟩ := enterClosing_spec s
  have closed : rateEndsRundown s = enterClosing s := if_pos h
  rw [closed, hc, evalNoFlow_measured]
  have hp : d ≠ .pumping := by rcases hd with rfl | rfl <;> decide
  simp [State.redirect, hp]

theorem rateEndsRundown_goes_on {s : State} (h : ¬(s.ret.delivery = .rundown ∧ s.meter.rate < s.ret.settings.rmin)) :
    rateEndsRundown s = s := if_neg h

/-- Settles O38: the bins by `shiftBins_eq`; a RUNDOWN that the rate ends leaves no PUMPING for the no-flow detector. -/
theorem rateSecondMeasures : Obligations.RateSecondMeasures := by
  intro s hr w rate measured moved
  refine ⟨fun hdue => ?_, fun h => if_neg h⟩
  refine ((if_pos hdue).trans (event_running hr)).trans ?_
  have bins : shiftBins s.begin.s = measured s.begin.s := shiftBins_eq _
  refine congrArg (fun t => Host.Outcome.next ({ s.begin with s := t } : Event).finish) ?_
  show evalOverspeed (evalNoFlow (rateEndsRundown (shiftBins s.begin.s))) = _
  rw [bins]
  dsimp only
  by_cases hend : s.ret.delivery = .rundown ∧ rate < s.ret.settings.rmin
  · have hm : moved s.begin.s = enterClosing (measured s.begin.s) := if_pos hend
    obtain ⟨d, c, hc, -⟩ := enterClosing_spec (measured s.begin.s)
    rw [rateEndsRundown_ended hend, evalOverspeed_eq, hm, hc]
    have quiet : ¬(s.ret.delivery = .pumping ∧ rate < s.governor.demand / 4) := by
      rw [hend.1]
      rintro ⟨h, -⟩
      cases h
    rw [if_neg quiet]
    rfl
  · have hm : moved s.begin.s = measured s.begin.s := if_neg hend
    rw [rateEndsRundown_goes_on hend, evalNoFlow_measured, evalOverspeed_eq, hm]
    rfl

end Sys2Proof.Machine
end

