-- ==== Sys2Proof/Proofs/StartRequest.lean ====
section
/-! START (R85, R86): the order of its checks, and the arming of the candidate. -/

namespace Sys2Proof.Machine

/-! ### The checks (R85) -/

theorem GaugeStatus.not_unusable {g : GaugeStatus} : ¬g.unusable = true ↔ g = .fresh ∨ g = .stale := by
  cases g <;> decide

/-- Check 5: every tank of the candidate has a gauge. -/
theorem gauges_usable_iff {s : State} {r : Step} :
    ¬(r.tanks.any fun t => (s.tank t.tank).status.unusable) = true ↔
      ∀ e ∈ r.tanks, (s.tank e.tank).status = .fresh ∨ (s.tank e.tank).status = .stale := by
  simp only [List.any_eq_true, not_exists, not_and, GaugeStatus.not_unusable]

/-- Check 6: every PERMIT line is active. -/
theorem permits_active_iff {s : State} :
    ¬allLines.any (permitMissing s) = true ↔
      ∀ n : Fin 6, (s.lineConfig n).function = .permit → (s.line n).active = true := by
  have all (n : Fin 6) : n ∈ allLines := by fin_cases n <;> decide
  simp only [List.any_eq_true, not_exists, not_and]
  refine ⟨fun h n hf => ?_, fun h n _ => permitMissing_of_active (h n)⟩
  by_contra ha
  exact h n (all n) (by simp [permitMissing, hf, ha])

section Checks

variable {s : State} {r : Step}

theorem startRefusal_unjoined (h : s.ret.transfer.state ≠ .joined) : startRefusal s = some .wrongState := if_pos h

variable (hj : s.ret.transfer.state = .joined)
include hj

theorem startRefusal_held (h : s.ret.holds ≠ []) : startRefusal s = some .held := by
  rw [startRefusal, if_neg (not_not.2 hj), if_pos h]

variable (hh : s.ret.holds = [])
include hh

theorem startRefusal_busy (hi : s.ret.delivery ≠ .idle) (hd : s.ret.delivery ≠ .held) :
    startRefusal s = some .busy := by
  rw [startRefusal, if_neg (not_not.2 hj), if_neg (not_not.2 hh), if_pos ⟨hi, hd⟩]

variable (hd : s.ret.delivery = .idle ∨ s.ret.delivery = .held)
include hd

theorem startRefusal_noStep (hc : candidate s = none) : startRefusal s = some .noStep := by
  have hb : ¬(s.ret.delivery ≠ .idle ∧ s.ret.delivery ≠ .held) := by tauto
  rw [startRefusal, if_neg (not_not.2 hj), if_neg (not_not.2 hh), if_neg hb, hc]

/-- The checks of the candidate. -/
theorem startRefusal_candidate (hc : candidate s = some r) :
    startRefusal s =
      if r.tanks.any fun t => (s.tank t.tank).status.unusable then some .noGauge
      else if allLines.any (permitMissing s) then some .noPermit
      else if (s.link .ship).state ≠ .up then some .noLink
      else if s.valve ≠ .closed then some .busy
      else none := by
  have hb : ¬(s.ret.delivery ≠ .idle ∧ s.ret.delivery ≠ .held) := by tauto
  rw [startRefusal, if_neg (not_not.2 hj), if_neg (not_not.2 hh), if_neg hb, hc]

end Checks

/-- The candidate by the delivery state (R85). -/
theorem candidate_resting {s : State} (hd : s.ret.delivery = .idle ∨ s.ret.delivery = .held) :
    candidate s = if s.ret.delivery = .idle then s.ret.agreed.head? else s.ret.active := by
  unfold candidate
  rcases hd with h | h <;> simp [h]

/-- A START that a check refuses changes nothing and answers the check's code. -/
theorem exec_startRefused {s : State} {tag : Byte} {res : Result} (ht : s.canTake .barge .startStep)
    (h : startRefusal s = some res) : exec (.startStep .barge tag) s = .next (s.refused .barge .startStep tag res) := by
  have ho : startRefusal (s.opened .barge).begin.s = some res := h
  refine exec_refused rfl ht ?_
  show takeStart _ = _
  rw [takeStart, ho]

/-! ### The arming (R86) -/

/-- The state of an armed step, before P is computed (R20, R86). -/
def State.armedBy (s : State) (number : Nat) (origin : ArmedFrom) : State := { s with
  ret.delivery := .armed, ret.lapsed := s.ret.lapsed.filter fun n => n != number,
  controller.armedFrom := some origin, controller.confirm := some (10 * s.ret.settings.confirm), governor.demand := 0,
  governor.ramp := none, meter.noFlow := .quiet }

/-- From IDLE the step leaves the head of AGREED for the slot. -/
theorem armStep_idle {r : Step} {e : Event} (hd : e.s.ret.delivery = .idle) :
    armStep r e = { e with
      s := ({ e.s with ret.agreed := e.s.ret.agreed.tail, ret.active := some r }.armedBy r.number .idle).rated,
      arming := some (startReqNotice r .idle e.s.ret.settings.confirm) } := by
  unfold armStep
  rw [if_neg (by rw [hd]; decide)]
  dsimp only
  rw [setDelivery_spec _ _ (by decide), recompute_idle _ (by simp [State.redirect])]
  rfl

theorem armStep_held {r : Step} {e : Event} (hd : e.s.ret.delivery = .held) :
    armStep r e = { e with
      s := (e.s.armedBy r.number .held).rated, arming := some (startReqNotice r .held e.s.ret.settings.confirm) } := by
  unfold armStep
  rw [if_pos hd]
  dsimp only
  rw [setDelivery_spec _ _ (by decide), recompute_idle _ (by simp [State.redirect])]
  rfl

/-- A START whose checks all pass arms the candidate (R86). -/
theorem exec_startArmed {s : State} {tag : Byte} {r : Step} (ht : s.canTake .barge .startStep)
    (hn : startRefusal s = none) (hc : candidate s = some r) :
    exec (.startStep .barge tag) s =
      .next ((armStep r (s.opened .barge).begin).s.answered .barge .startStep tag .ok [oct r.number]
        (armStep r (s.opened .barge).begin).notices) := by
  have hno : startRefusal (s.opened .barge).begin.s = none := hn
  have hco : candidate (s.opened .barge).begin.s = some r := hc
  refine exec_answered (a := { result := .ok, data := [oct r.number] }) rfl ht ?_
  show takeStart _ = _
  rw [takeStart, hno, hco]

/-- Settles O23: the first check that fails by the order of `startRefusal`; with none, `armStep` from IDLE and from
HELD. -/
theorem startArmsStep : Obligations.StartArmsStep := by
  refine ⟨?_, ?_⟩
  · intro s tag ht refuses idle named
    have refused {res : Result} (h : startRefusal s = some res) : refuses res := exec_startRefused ht h
    refine ⟨fun h => refused (startRefusal_unjoined h), fun hj h => refused (startRefusal_held hj h),
      fun hj hh hi hd => refused (startRefusal_busy hj hh hi hd), fun hj hh hi ha => refused ?_, ?_⟩
    · refine startRefusal_noStep hj hh (.inl hi) ?_
      rw [candidate_resting (.inl hi), if_pos hi, ha]
      rfl
    · intro r hj hh hd hnamed gauged permits
      have checks := startRefusal_candidate hj hh hd ((candidate_resting hd).trans hnamed)
      refine ⟨fun hg => refused ?_, fun hg hp => refused ?_, fun hg hp hl => refused ?_,
        fun hg hp hl hv => refused ?_⟩
      · rw [checks, if_pos (not_not.1 (mt gauges_usable_iff.1 hg))]
      · rw [checks, if_neg (gauges_usable_iff.2 hg), if_pos (not_not.1 (mt permits_active_iff.1 hp))]
      · rw [checks, if_neg (gauges_usable_iff.2 hg), if_neg (permits_active_iff.2 hp), if_pos hl]
      · rw [checks, if_neg (gauges_usable_iff.2 hg), if_neg (permits_active_iff.2 hp), if_neg (not_not.2 hl), if_pos hv]
  · intro s tag r ht hj hh hl hv hp hg confirm armed notices
    have passes (hd : s.ret.delivery = .idle ∨ s.ret.delivery = .held) (hc : candidate s = some r) :
        startRefusal s = none := by
      rw [startRefusal_candidate hj hh hd hc, if_neg (gauges_usable_iff.2 hg), if_neg (permits_active_iff.2 hp),
        if_neg (not_not.2 hl), if_neg (not_not.2 hv)]
    refine ⟨fun rest hd ha => ?_, fun hd ha => ?_⟩
    · have hc : candidate s = some r := by rw [candidate_resting (.inl hd), if_pos hd, ha]; rfl
      have hb : (s.opened .barge).begin.began = .idle := hd
      have htail : (s.opened .barge).begin.s.ret.agreed.tail = rest := congrArg List.tail ha
      rw [exec_startArmed ht (passes (.inl hd) hc) hc, armStep_idle (e := (s.opened .barge).begin) hd, htail,
        Event.notices, Event.stepState, hb]
      rfl
    · have hc : candidate s = some r := by rw [candidate_resting (.inr hd), if_neg (by rw [hd]; decide), ha]
      have hb : (s.opened .barge).begin.began = .held := hd
      have hactive : ((s.opened .barge).begin.s.armedBy r.number .held).rated.ret.active = some r := ha
      rw [exec_startArmed ht (passes (.inr hd) hc) hc, armStep_held (e := (s.opened .barge).begin) hd,
        Event.notices, Event.stepState, hb, Event.concerned]
      dsimp only
      rw [hactive]
      rfl

end Sys2Proof.Machine
end

