-- ==== Sys2Proof/Proofs/Notices.lean ====
section
/-! Notices: how they join the links' queues at the end of an event, in which order, and the octets of each (R80, R190, R191,
R194, R199). -/

namespace Sys2Proof.Machine

/-! ### The notices of an event on one link (R190, R191) -/

/-- The frames that an outbound queue still takes; a link that is not UP takes none. -/
def Link.room (l : Link) : Nat := if l.state = .up then Config.queueCapacity - l.queue.length else 0

theorem Link.offer_of_room {l : Link} {n : Nat} (h : l.room = n + 1) (f : Frame) :
    l.offer f = { l with queue := l.queue ++ [f] } ∧ (l.offer f).room = n := by
  have hu : l.state = .up := by
    by_contra hne
    simp [Link.room, hne] at h
  rw [Link.room, if_pos hu] at h
  have hoffer : l.offer f = { l with queue := l.queue ++ [f] } := if_pos ⟨hu, by simp [Link.full]; omega⟩
  refine ⟨hoffer, ?_⟩
  rw [hoffer, Link.room, if_pos (by exact hu), List.length_append, List.length_singleton]
  omega

theorem Link.offer_of_no_room {l : Link} (h : l.room = 0) (f : Frame) :
    l.offer f = { l with noticesLost := true } := by
  refine if_neg ?_
  rintro ⟨hu, hf⟩
  rw [Link.room, if_pos hu] at h
  simp [Link.full] at hf
  omega

/-- Offered frames join the queue in order while it has room; what does not fit is lost (R191). -/
theorem Link.offerAll_eq (l : Link) (fs : List Frame) : l.offerAll fs = { l with
    queue := l.queue ++ fs.take l.room, noticesLost := l.noticesLost || decide (l.room < fs.length) } := by
  induction fs generalizing l with
  | nil => simp [Link.offerAll]
  | cons f rest ih =>
    show (l.offer f).offerAll rest = _
    rw [ih]
    cases hr : l.room with
    | zero =>
      have hroom : (l.offer f).room = 0 := by rw [Link.offer_of_no_room hr]; exact hr
      rw [hroom, Link.offer_of_no_room hr]
      simp
    | succ n =>
      obtain ⟨hoffer, hroom⟩ := Link.offer_of_room hr f
      rw [hroom, hoffer]
      simp

/-- With no station named twice, a link is offered the frame of each notice that names it. -/
theorem framesFor_eq {ns : List Notice} (link : Station) (h : ∀ n ∈ ns, n.stations.Nodup) :
    framesFor link ns = (ns.filter fun n => n.stations.contains link).map Notice.frame := by
  induction ns with
  | nil => rfl
  | cons n rest ih =>
    have hn : n.stations.Nodup := h n List.mem_cons_self
    have hone : (n.stations.filter fun k => k == link).map (fun _ => n.frame) =
        if n.stations.contains link then [n.frame] else [] := by
      rw [List.filter_beq, hn.count]
      by_cases hm : link ∈ n.stations <;> simp [hm]
    have hrest := ih fun m hm => h m (List.mem_cons_of_mem n hm)
    unfold framesFor at hrest ⊢
    rw [List.flatMap_cons, hrest, hone, List.filter_cons]
    split <;> rfl

/-! ### The order of an event's notices (R80, R107, R153, R163) -/

theorem Event.concerned_eq (e : Event) :
    e.concerned = if e.s.ret.active = none then e.moved else e.s.ret.active := by
  unfold Event.concerned
  cases e.s.ret.active <;> rfl

theorem DeliveryState.stopping_iff {d : DeliveryState} :
    d.stopping = true ↔ d = .rundown ∨ d = .closing ∨ d = .settling := by
  cases d <;> decide

/-- The one STEPSTATE of an event (R80). -/
theorem Event.stepState_eq (e : Event) (step : Option Step) (h : e.concerned = step) : e.stepState =
    if e.s.ret.delivery = e.began then []
    else
      [stepStateNotice ((step.map Step.number).getD 0) e.began e.s.ret.delivery
        (if e.s.ret.delivery = .rundown ∨ e.s.ret.delivery = .closing ∨ e.s.ret.delivery = .settling then
          e.s.controller.stopCause else none)
        (if e.s.ret.delivery = .idle then step.bind Step.endCause else none)
        (if e.s.ret.delivery = .held then step.bind Step.lastStop else none) ((step.map Step.delivered).getD 0)] := by
  subst h
  unfold Event.stepState
  simp only [DeliveryState.stopping_iff]
  exact if_congr eq_comm rfl rfl

/-! ### Octets (R194, R199) -/

theorem replyFrame_eq (type : RequestType) (tag : Byte) (res : Result) (data : List Byte) :
    replyFrame type tag res data = { type := oct (type.code.toNat + 0x80), tag := tag, data := res.code :: data } := by
  cases type <;> rfl

/-- Settles O5: what joins by `Link.offerAll_eq`, the order by `Event.stepState_eq`, and the octets by the definitions. -/
theorem noticesJoinOrAreLost : Obligations.NoticesJoinOrAreLost := by
  refine ⟨fun s ns h => ?_, fun e => ?_, replyFrame_eq, rfl, rfl, ?_⟩
  · obtain ⟨ls, hs, hl⟩ := s.postAll_spec ns
    refine ⟨ls, hs, fun link => ?_⟩
    intro frames old room
    rw [hl, Link.offerAll_eq, framesFor_eq link h]
    rfl
  · intro now step stepState notices
    have hnotices : e.notices = notices := by
      rw [Event.notices, e.stepState_eq step e.concerned_eq]
    refine ⟨?_, fun link f => ?_⟩
    · rw [Event.finish, hnotices]
    · rw [Event.reply, hnotices]
      rfl
  · intro both all sent firstOut
    refine ⟨?_, fun _ _ _ _ _ _ _ => rfl, fun _ _ _ => rfl, ?_, ?_, ?_, ?_, fun _ _ _ _ => rfl, ?_, fun _ _ => rfl,
      fun _ _ _ _ _ => rfl⟩
    · intro tr kind
      cases kind <;> rfl
    · intro n how held
      cases how <;> rfl
    · intro h kind list out
      rw [holdRaisedNotice, firstOutCode_eq]
      cases kind <;> rfl
    · intro src st list out
      rw [holdClearedNotice, firstOutCode_eq]
      rfl
    · intro i kind est fill status
      cases kind <;> rfl
    · intro i prev new role record
      cases record <;> rfl

end Sys2Proof.Machine
end

