-- ==== Sys2Proof/Proofs/StopLoop.lean ====
section
/-! Raises and where they come from (chapter 05): what a raise leaves on the list (R104, R105, R119, R121), the station holds
(R108, R109), loop IN (R111, R112), and a link that falls silent (R110, R188, R189). -/

namespace Sys2Proof.Machine

/-! ### Where a source has its entry (R104) -/

theorem findHold_eq_none {l : List HoldEntry} {src : HoldSource} :
    findHold l src = none ↔ ∀ h ∈ l, h.source ≠ src := by
  simp [findHold]

theorem findHold_middle {before after : List HoldEntry} {h : HoldEntry} {src : HoldSource} (hs : h.source = src)
    (hb : ∀ k ∈ before, k.source ≠ src) : findHold (before ++ h :: after) src = some h := by
  have hbefore : before.find? (fun k => decide (k.source = src)) = none := findHold_eq_none.2 hb
  rw [findHold, List.find?_append, hbefore, Option.none_or]
  exact List.find?_cons_of_pos (decide_eq_true hs)

/-! ### The list after a raise (R104, R105, R121) -/

/-- A repeated raise counts, takes the reason, and escalates by TRIP alone (R105). -/
theorem HoldEntry.again_eq (h : HoldEntry) (cls : HoldClass) (reason : HoldReason) :
    h.again cls reason = { h with
      repeats := min (h.repeats + 1) 255, reason := reason, cls := if h.cls = .trip then .trip else cls } := by
  have hcls : escalate h.cls cls = if h.cls = .trip then .trip else cls := by cases h.cls <;> rfl
  rw [HoldEntry.again, hcls]
  rfl

section Lists

variable {s : State} {src : HoldSource} (cls : HoldClass) (reason : HoldReason)

/-- A source without an entry appends one at the tail, and its HOLDRAISED is of kind NEW (R104, R121). -/
theorem raised_new (hn : ∀ h ∈ s.ret.holds, h.source ≠ src) :
    let entry : HoldEntry := { source := src, cls := cls, reason := reason, time := s.ret.transfer.clock, repeats := 0 }
    raisedList s src cls reason = s.ret.holds ++ [entry] ∧
      s.raisedNotice src cls reason =
        holdRaisedNotice entry .new (raisedList s src cls reason) (loopOutOf (raisedList s src cls reason)) := by
  have hf := findHold_eq_none.2 hn
  have hentry : raisedEntry s src cls reason =
      { source := src, cls := cls, reason := reason, time := s.ret.transfer.clock, repeats := 0 } := by
    rw [raisedEntry, hf]
  refine ⟨?_, ?_⟩
  · rw [raisedList, hf, hentry]
  · rw [State.raisedNotice, hf, hentry]
    rfl

/-- A source's own entry changes in its place, the others keep theirs, and its HOLDRAISED tells AGAIN from ESCALATED (R105,
R121). -/
theorem raised_again {before after : List HoldEntry} {h : HoldEntry} (hl : s.ret.holds = before ++ h :: after)
    (hs : h.source = src) (hother : ∀ k ∈ before ++ after, k.source ≠ src) :
    raisedList s src cls reason = before ++ h.again cls reason :: after ∧
      s.raisedNotice src cls reason =
        holdRaisedNotice (h.again cls reason) (if h.cls = (h.again cls reason).cls then .again else .escalated)
          (raisedList s src cls reason) (loopOutOf (raisedList s src cls reason)) := by
  have hf : findHold s.ret.holds src = some h := by
    rw [hl]
    exact findHold_middle hs fun k hk => hother k (List.mem_append_left _ hk)
  have kept (l : List HoldEntry) (hsub : ∀ k ∈ l, k ∈ before ++ after) :
      l.map (fun k => if k.source = src then k.again cls reason else k) = l :=
    (List.map_congr_left fun k hk => if_neg (hother k (hsub k hk))).trans (List.map_id l)
  have hentry : raisedEntry s src cls reason = h.again cls reason := by rw [raisedEntry, hf]
  refine ⟨?_, ?_⟩
  · rw [raisedList, hf, hl, List.map_append, List.map_cons, if_pos hs,
      kept before fun _ => List.mem_append_left _, kept after fun _ => List.mem_append_right _]
  · rw [State.raisedNotice, hf, hentry]
    rfl

end Lists

/-! ### A raise and the loop (R119) -/

/-- A raise re-derives loop OUT, and leaves loop IN and its debounce alone. -/
@[simp] theorem raiseHold_loop (src : HoldSource) (cls : HoldClass) (reason : HoldReason) (e : Event) :
    (raiseHold src cls reason e).s.loop =
      { e.s.loop with loopOut := loopOutOf (raisedList e.s src cls reason) } := by
  obtain ⟨_, _, _, _, _, _, _, _, _, h⟩ := raiseHold_spec src cls reason e
  rw [h]
  rfl

/-- Settles O30: the list and the notice by `raised_new` and `raised_again`, loop OUT by `loopOutOf_eq_opened`. -/
theorem raiseChangesList : Obligations.RaiseChangesList := by
  intro src cls reason e new raised
  have hholds : new.ret.holds = raisedList e.s src cls reason := raiseHold_holds src cls reason e
  have hloop : new.loop.loopOut = loopOutOf (raisedList e.s src cls reason) :=
    congrArg StopLoop.loopOut (raiseHold_loop src cls reason e)
  have hraised (entry : HoldEntry) (kind : RaiseKind) (h : e.s.raisedNotice src cls reason =
      holdRaisedNotice entry kind (raisedList e.s src cls reason) (loopOutOf (raisedList e.s src cls reason))) :
      raised entry kind := by
    show (raiseHold src cls reason e).notes = _
    rw [raiseHold_notes, h, hholds, hloop]
  refine ⟨?_, fun hn => ?_, fun before after h hl hs hother => ?_⟩
  · rw [hloop, hholds]
    exact loopOutOf_eq_opened
  · obtain ⟨hlist, hnotice⟩ := raised_new cls reason hn
    exact ⟨hholds.trans hlist, hraised _ _ hnotice⟩
  · obtain ⟨hlist, hnotice⟩ := raised_again cls reason hl hs hother
    rw [HoldEntry.again_eq] at hlist hnotice
    exact ⟨hholds.trans hlist, hraised _ _ hnotice⟩

/-! ### The station holds (R108, R109, R187) -/

theorem classOfCode_classCode (cls : HoldClass) : classOfCode (classCode cls) = some cls := by
  cases cls <;> rfl

/-- A code that is neither PAUSE's nor TRIP's names no class (R108). -/
theorem classOfCode_other {code : Byte} (hp : code ≠ 0#8) (ht : code ≠ 1#8) : classOfCode code = none := by
  rw [classOfCode, if_neg hp, if_neg ht]

/-- Settles O32: the owner of HOLD by the class its code names, and the halt's event. -/
theorem stationHoldsRaise : Obligations.StationHoldsRaise := by
  intro link s
  refine ⟨fun tag reason cls ht => ?_, fun tag cls reason ht hp htrip => ?_, event_running⟩
  · have ho : takeHold link (classCode cls) reason (s.opened link).begin =
        (raiseHold (stationSource link) cls (.operator reason) (s.opened link).begin, answer .ok) := by
      rw [takeHold, classOfCode_classCode]
    exact exec_replied (c := .hold link tag (classCode cls) reason) rfl ht ho
  · have ho : takeHold link cls reason (s.opened link).begin = refuse (s.opened link).begin .range := by
      rw [takeHold, classOfCode_other hp htrip]
    exact exec_refused (c := .hold link tag cls reason) rfl ht ho

/-! ### Loop IN (R111, R112) -/

theorem Event.finish_loop (e : Event) : e.finish.loop = e.s.loop := by
  obtain ⟨_, h, -⟩ := e.s.postAll_spec e.notices
  rw [Event.finish, h]

/-- Once loop IN has followed, its debounced state is its raw one (R111). -/
theorem loopFollows_settled (e : Event) : (loopFollows e).s.loop.loopIn = (loopFollows e).s.loop.rawIn := by
  unfold loopFollows
  dsimp only
  split
  · rw [raiseHold_loop]
    rfl
  · rfl

theorem loopDebounced_iff {s : State} :
    loopDebounced s = true ↔ s.loop.rawIn ≠ s.loop.loopIn ∧ 2 ≤ s.loop.count := decide_eq_true_iff

/-- A complete debounce of loop IN is an event of its own (R111). -/
theorem settleLoop_due {s : State} (h : loopDebounced s = true) : settleLoop s = (loopFollows s.begin).finish := if_pos h

/-- A debounce of loop IN is taken once: what it leaves is none that is complete (R111). -/
theorem settleLoop_settled (s : State) : loopDebounced (settleLoop s) = false := by
  cases h : loopDebounced s with
  | false => rwa [settleLoop_idle h]
  | true =>
    rw [settleLoop_due h, Bool.eq_false_iff]
    intro hd
    obtain ⟨hne, -⟩ := loopDebounced_iff.1 hd
    rw [Event.finish_loop] at hne
    exact hne (loopFollows_settled s.begin).symm

/-- A raw change of loop IN comes behind a debounce already complete (R111). -/
theorem exec_loopInRawChange {s : State} (hr : s.running = true) (current : Nat) :
    exec (.loopInRawChange current) s = .next (loopSensed current (settleLoop s).noted) :=
  (if_pos hr).trans (quietEvent_running ((settleLoop_reach s hr).running hr))

theorem exec_loopInDebounceComplete {s : State} (hr : s.running = true) :
    exec .loopInDebounceComplete s = .next (settleLoop s) := if_pos hr

/-- Settles O34: a due debounce is taken by `settleLoop`, which a second time takes nothing (`settleLoop_settled`). -/
theorem loopInIsDebounced : Obligations.LoopInIsDebounced := by
  intro s hr due followed settled
  have idle (h : ¬due) : settleLoop s = s := settleLoop_idle (Bool.eq_false_iff.2 (mt loopDebounced_iff.1 h))
  have taken (h : due) : settleLoop s = settled := by
    rw [settleLoop_due (loopDebounced_iff.2 h)]
    exact apply_ite Event.finish _ _ _
  refine ⟨fun current => ⟨fun h => ?_, fun h => ?_⟩, fun h => ?_, fun h => ?_⟩
  · rw [exec_loopInRawChange hr, idle h]
    rfl
  · have hsettled : settled.running = true := taken h ▸ (settleLoop_reach s hr).running hr
    have once : settleLoop settled = settled := taken h ▸ settleLoop_idle (settleLoop_settled s)
    rw [exec_loopInRawChange hr, exec_loopInRawChange hsettled, taken h, once]
  · rw [exec_loopInDebounceComplete hr, taken h]
  · rw [exec_loopInDebounceComplete hr, idle h]

/-! ### A link that falls silent (R110, R188, R189) -/

/-- The queue of a lost link is emptied, and notices-lost tells whether a frame was removed (R189). -/
theorem loseLink_eq (link : Station) (s : State) : loseLink link s = s.setLink link
    { s.link link with
      state := .lost, silence := none, queue := [],
      noticesLost := (s.link link).noticesLost || !(s.link link).queue.isEmpty } := by
  have hq : decide ((s.link link).queue ≠ []) = !(s.link link).queue.isEmpty := by
    cases (s.link link).queue <;> rfl
  rw [loseLink, hq]

/-- Settles O35: the delivery state decides whether the lost link raises, and the link what it raises. -/
theorem silenceLosesLink : Obligations.SilenceLosesLink := by
  intro s link hr lost
  refine ⟨fun hup hdue => ?_, fun h => if_neg fun hboth => ?_⟩
  · have hlost : s.begin.mod (loseLink link) = lost := by
      rw [Event.mod, loseLink_eq]
      rfl
    have expires : exec (.silenceExpiry link) s = .next (lostHold link lost).finish := by
      rw [← hlost]
      exact (if_pos ⟨hup, hdue⟩).trans (event_running hr)
    have hdelivery : lost.s.ret.delivery = s.ret.delivery := rfl
    rw [expires]
    unfold lostHold
    rw [hdelivery]
    cases s.ret.delivery with
    | armed | opening | pumping | rundown => cases link <;> rfl
    | idle | closing | settling | held => rfl
  · obtain ⟨hup, hdue⟩ := hboth
    exact h.elim (absurd hup) (absurd hdue)

end Sys2Proof.Machine
end

