-- ==== Sys2Proof/Proofs/Poll.lean ====
section
/-! The poll of the agents (R146 to R149): the octets of a reply, what a transaction leaves of its agent, and the round. -/

namespace Sys2Proof.Machine

/-! ### The octets of a reply (R147) -/

/-- Whether octets begin with a complete reply of one value: the agent's address, the value and a check octet that
brings the sum to 0 modulo 256. -/
def repliesOne (i : Fin 4) (c : AgentConfig) (reply : List Byte) : Prop := c.channels = 1 ∧ ∃ lo hi check rest,
  reply = oct (i.val + 1) :: lo :: hi :: check :: rest ∧
    ([oct (i.val + 1), lo, hi, check].foldl (fun n b => n + b.toNat) 0) % 256 = 0

/-- The same for a reply of two values. -/
def repliesTwo (i : Fin 4) (c : AgentConfig) (reply : List Byte) : Prop := c.channels = 2 ∧ ∃ lo hi lo' hi' check rest,
  reply = oct (i.val + 1) :: lo :: hi :: lo' :: hi' :: check :: rest ∧
    ([oct (i.val + 1), lo, hi, lo', hi', check].foldl (fun n b => n + b.toNat) 0) % 256 = 0

theorem word2_toNat (lo hi : Byte) : (word2 lo hi).toNat = lo.toNat + 256 * hi.toNat := by
  rw [word2, BitVec.toNat_append, ← Nat.shiftLeft_add_eq_or_of_lt lo.isLt, Nat.shiftLeft_eq]
  omega

theorem octetSum_mod (l : List Byte) : octetSum l % 256 = (l.foldl (fun n b => n + b.toNat) 0) % 256 :=
  Nat.mod_mod_of_dvd _ (by decide)

section Replies

variable {i : Fin 4} {c : AgentConfig}

/-- A complete reply of one value, whatever octets follow it. -/
theorem replyValues_one {lo hi check : Byte} (rest : List Byte) (hc : c.channels = 1)
    (hs : ([oct (i.val + 1), lo, hi, check].foldl (fun n b => n + b.toNat) 0) % 256 = 0) :
    replyValues i c (oct (i.val + 1) :: lo :: hi :: check :: rest) =
      some (lo.toNat + 256 * hi.toNat, lo.toNat + 256 * hi.toNat) := by
  have ht : (oct (i.val + 1) :: lo :: hi :: check :: rest).take (replyLength c.channels) =
      [oct (i.val + 1), lo, hi, check] := by rw [hc]; rfl
  unfold replyValues completeValues
  rw [ht, octetSum_mod, if_neg (not_not.2 hs), hc, ← word2_toNat]
  exact if_pos rfl

/-- A complete reply of two values, whatever octets follow it. -/
theorem replyValues_two {lo hi lo' hi' check : Byte} (rest : List Byte) (hc : c.channels = 2)
    (hs : ([oct (i.val + 1), lo, hi, lo', hi', check].foldl (fun n b => n + b.toNat) 0) % 256 = 0) :
    replyValues i c (oct (i.val + 1) :: lo :: hi :: lo' :: hi' :: check :: rest) =
      some (lo.toNat + 256 * hi.toNat, lo'.toNat + 256 * hi'.toNat) := by
  have ht : (oct (i.val + 1) :: lo :: hi :: lo' :: hi' :: check :: rest).take (replyLength c.channels) =
      [oct (i.val + 1), lo, hi, lo', hi', check] := by rw [hc]; rfl
  unfold replyValues completeValues
  rw [ht, octetSum_mod, if_neg (not_not.2 hs), hc, ← word2_toNat, ← word2_toNat]
  exact if_pos rfl

/-- Octets that begin with no complete reply give no values. -/
theorem replyValues_none {reply : List Byte} (hone : ¬repliesOne i c reply) (htwo : ¬repliesTwo i c reply) :
    replyValues i c reply = none := by
  have cut (l : List Byte) (h : reply.take (replyLength c.channels) = l) :
      reply = l ++ reply.drop (replyLength c.channels) := h ▸ (List.take_append_drop ..).symm
  unfold replyValues completeValues
  rw [octetSum_mod]
  split
  · rfl
  · next hsum =>
    split
    · next a lo hi check hreply hc =>
      refine if_neg fun ha => hone ⟨hc, lo, hi, check, reply.drop (replyLength c.channels), ?_, ?_⟩
      · rw [← ha]
        exact cut _ hreply
      · rw [← ha, ← hreply]
        exact not_not.1 hsum
    · next a lo hi lo' hi' check hreply hc =>
      refine if_neg fun ha => htwo ⟨hc, lo, hi, lo', hi', check, reply.drop (replyLength c.channels), ?_, ?_⟩
      · rw [← ha]
        exact cut _ hreply
      · rw [← ha, ← hreply]
        exact not_not.1 hsum
    · rfl

end Replies

/-! ### An agent after a transaction (R147 to R149) -/

/-- An agent's service with an outcome added to its history, its state derived anew. -/
def AgentService.took (a : AgentService) (o : PollOutcome) (value : Option Nat) (age : Nat) : AgentService :=
  { history := (o :: a.history).take 3, state := agentStateOf ((o :: a.history).take 3), value := value, age := age }

theorem agentStateOf_eq (h : List PollOutcome) : agentStateOf h =
    if h.length < 3 then .unknown
    else if ∀ o ∈ h, o = .good then .present
    else if ∀ o ∈ h, o = .noReply then .absent
    else .suspect := by
  simp only [agentStateOf, List.all_eq_true, decide_eq_true_eq]

/-- The value taken is the one its channel use names, up to the top of its role's range (R149). -/
theorem takenValue_eq (c : AgentConfig) (first second : Nat) : takenValue c first second =
    let value := match c.use with
      | .first => first
      | .second => second
      | .higher => max first second
    match c.role with
    | none => value
    | some .tension => min value 2000
    | some .hosePressure | some .manifoldPressure => min value 4000 := by
  unfold takenValue
  cases c.role with
  | none => rfl
  | some r => cases r <;> rfl

/-- With one value in the reply, every channel use names it. -/
theorem takenValue_one (c : AgentConfig) (v : Nat) : takenValue c v v =
    match c.role with
    | none => v
    | some .tension => min v 2000
    | some .hosePressure | some .manifoldPressure => min v 4000 := by
  rw [takenValue_eq]
  cases c.use with
  | first | second => rfl
  | higher => rw [Nat.max_self]

section After

variable {i : Fin 4} {c : AgentConfig} {reply : List Byte} (a : AgentService)

theorem AgentService.after_good {v w : Nat} (hr : reply ≠ []) (hv : replyValues i c reply = some (v, w)) :
    a.after i c reply = a.took .good (some (takenValue c v w)) 0 := by
  have ho : outcomeOf i c reply = .good := by simp [outcomeOf, hr, hv]
  rw [AgentService.after, ho, hv]
  rfl

theorem AgentService.after_badCheck (hr : reply ≠ []) (hv : replyValues i c reply = none) :
    a.after i c reply = a.took .badCheck a.value a.age := by
  have ho : outcomeOf i c reply = .badCheck := by simp [outcomeOf, hr, hv]
  rw [AgentService.after, ho, hv]
  rfl

theorem AgentService.after_noReply : a.after i c [] = a.took .noReply a.value a.age := by
  have hv : replyValues i c [] = none := by
    refine replyValues_none ?_ ?_
    · rintro ⟨-, _, _, _, _, h, -⟩
      cases h
    · rintro ⟨-, _, _, _, _, _, _, h, -⟩
      cases h
  rw [AgentService.after, hv]
  rfl

end After

/-! ### The round (R146) -/

theorem raiseRoles_settings (l : List Role) (e : Event) :
    (l.foldl raiseRole e).s.ret.settings = e.s.ret.settings := by
  induction l generalizing e with
  | nil => rfl
  | cons r rest ih => exact (ih _).trans (raiseHold_settings ..)

theorem handOnRoles_settings (i : Fin 4) (prev : AgentState) (was : Option Role) (e : Event) :
    (handOnRoles i prev was e).s.ret.settings = e.s.ret.settings := by
  rw [handOnRoles_eq]
  exact (recompute_settings _).trans (raiseRoles_settings _ (e.mod deriveRoles))

/-- Which agent is next depends on the settings alone. -/
theorem pollFrom_eq {s t : State} (h : t.ret.settings = s.ret.settings) (start : Nat) : pollFrom start t =
    { t with instruments.polling := nextAgent s start, instruments.discard := false } := by
  have hnext : nextAgent t start = nextAgent s start := by
    unfold nextAgent State.agentConfig
    rw [h]
  rw [pollFrom, hnext]

theorem startPollTimer_eq (s : State) : startPollTimer s = { s with
    instruments.pollTimer :=
      match s.ret.settings.poll with
      | .quarter => if s.instruments.shortNext then 2 else 3
      | .half => 5
      | .one => 10
      | .two => 20
      | .four => 40,
    instruments.shortNext := decide (s.ret.settings.poll = .quarter) && !s.instruments.shortNext } := by
  unfold startPollTimer
  cases s.ret.settings.poll with
  | quarter => cases s.instruments.shortNext <;> rfl
  | half | one | two | four => rfl

section Ends

variable {s : State} {i : Fin 4}

/-- A transaction ends as an event, which the round's going on closes. -/
theorem exec_transactionEnd (hr : s.running = true) (hp : s.instruments.polling = some i) (reply : List Byte) :
    exec (.transactionEnd reply) s = .next
      ((if s.instruments.discard then s.begin
        else handOnRoles i (s.agent i).state (s.agentConfig i).role
          (s.begin.mod fun u => u.setAgent i ((s.agent i).after i (s.agentConfig i) reply))).mod
        (pollFrom (i.val + 1))).finish := by
  show execTransactionEnd reply s = _
  rw [execTransactionEnd, hp]
  exact event_running hr

theorem exec_transactionEnd_discarded (hr : s.running = true) (hp : s.instruments.polling = some i)
    (hd : s.instruments.discard = true) (reply : List Byte) : exec (.transactionEnd reply) s = .next { s.noted with
      instruments.polling := nextAgent s (i.val + 1), instruments.discard := false } := by
  rw [exec_transactionEnd hr hp, if_pos hd, Event.finish, Event.notices_eq_notes rfl rfl rfl]
  rfl

/-- An outcome that counts: the agent takes it, the roles are handed on, and the round goes on. -/
theorem exec_transactionEnd_counted (hr : s.running = true) (hp : s.instruments.polling = some i)
    (hd : s.instruments.discard = false) {reply : List Byte} {a : AgentService}
    (ha : (s.agent i).after i (s.agentConfig i) reply = a) : exec (.transactionEnd reply) s = .next
      ((handOnRoles i (s.agent i).state (s.agentConfig i).role (s.begin.mod fun u => u.setAgent i a)).mod fun u => { u with
        instruments.polling := nextAgent s (i.val + 1), instruments.discard := false }).finish := by
  rw [exec_transactionEnd hr hp, if_neg (Bool.eq_false_iff.1 hd), ha, Event.mod,
    pollFrom_eq (handOnRoles_settings ..)]
  rfl

end Ends

/-- Settles O39: the round by `pollFrom_eq`, the outcomes by the values of the reply (`replyValues_one`, `replyValues_two`,
`replyValues_none`). -/
theorem pollTakesTransactions : Obligations.PollTakesTransactions := by
  intro s hr next
  refine ⟨fun h => if_neg h, fun h => ?_, fun hp reply => ?_, fun i hp => ⟨fun hd reply => ?_, fun hd => ?_⟩⟩
  · have hdue : exec .pollCycleExpiry s = .next (pollFrom 0 (startPollTimer s.noted)) :=
      (if_pos h).trans (quietEvent_running hr)
    rw [hdue, startPollTimer_eq]
    rfl
  · show execTransactionEnd reply s = _
    rw [execTransactionEnd, hp]
  · exact exec_transactionEnd_discarded hr hp hd reply
  · intro a c ends good address sums one two
    have counted {reply : List Byte} {o : PollOutcome} {value : Option Nat} {age : Nat}
        (ha : a.after i c reply = a.took o value age) : exec (.transactionEnd reply) s = ends o value age := by
      rw [AgentService.took, agentStateOf_eq] at ha
      exact exec_transactionEnd_counted hr hp hd ha
    refine ⟨counted a.after_noReply, fun hc lo hi check rest hs => ?_, fun hc lo hi lo' hi' check rest hs => ?_,
      fun reply hreply hone htwo => counted (a.after_badCheck hreply (replyValues_none hone htwo))⟩
    · exact (counted (a.after_good (by simp) (replyValues_one rest hc hs))).trans
        (congrArg (fun v => ends .good (some v) 0) (takenValue_one c _))
    · exact (counted (a.after_good (by simp) (replyValues_two rest hc hs))).trans
        (congrArg (fun v => ends .good (some v) 0) (takenValue_eq c _ _))

end Sys2Proof.Machine
end

