-- ==== Sys2Proof/Proofs/SetAgent.lean ====
section
/-! SET of an agent's configuration (R144, R145): its checks, the change and the restart it brings, and the AGENT notice of a
role it blinds (R154). -/

namespace Sys2Proof.Machine

/-! ### Codes (R195) -/

theorem roleOfCode_roleCode (role : Option Role) : roleOfCode (roleCode role) = some role := by
  cases role with
  | none => rfl
  | some r => cases r <;> rfl

theorem useOfCode_useCode (use : ChannelUse) : useOfCode (useCode use) = some use := by
  cases use <;> rfl

theorem roleOfCode_above {b : Byte} (h : 3 < b.toNat) : roleOfCode b = none := by
  refine List.find?_eq_none.2 fun role _ hb => ?_
  have hle : (roleCode role).toNat ≤ 3 := by
    cases role with
    | none => decide
    | some r => cases r <;> decide
  rw [eq_of_beq hb] at hle
  omega

theorem useOfCode_above {b : Byte} (h : 2 < b.toNat) : useOfCode b = none := by
  refine List.find?_eq_none.2 fun use _ hb => ?_
  have hle : (useCode use).toNat ≤ 2 := by cases use <;> decide
  rw [eq_of_beq hb] at hle
  omega

/-- A code that counts from 1 names no place when it is 0 or past the last. -/
theorem code?_outside {n k : Nat} (h : k = 0 ∨ n < k) : code? n k = none := by
  refine Option.eq_none_iff_forall_ne_some.2 fun i hi => ?_
  have := code?_eq_some.1 hi
  omega

/-! ### The owner of the SET (R144, R171) -/

theorem takeSetAgent_range {address : Byte} {c : AgentContent} {e : Event}
    (h : address.toNat = 0 ∨ 4 < address.toNat ∨ 3 < c.role.toNat ∨ 2 < c.use.toNat) :
    takeSetAgent .barge address c e = refuse e .range := by
  unfold takeSetAgent
  rw [if_neg (not_not.2 rfl)]
  rcases or_assoc.2 h with h | h | h
  · rw [code?_outside h]
  · rw [roleOfCode_above h]
    cases code? 4 address.toNat <;> rfl
  · rw [useOfCode_above h]
    cases code? 4 address.toNat <;> cases roleOfCode c.role <;> rfl

/-- What a new configuration of an agent leaves before the roles are handed on (R145). -/
def reconfigured (i : Fin 4) (d : AgentConfig) (s : State) : State := { s with
  ret.settings.agents := put s.ret.settings.agents i d,
  instruments.agents :=
    if restarts (s.agentConfig i) d then put s.instruments.agents i startAgent else s.instruments.agents,
  instruments.discard :=
    (restarts (s.agentConfig i) d && decide (s.instruments.polling = some i)) || s.instruments.discard }

theorem applyAgent_eq (i : Fin 4) (d : AgentConfig) (e : Event) : applyAgent i d e =
    handOnRoles i (e.s.agent i).state (e.s.agentConfig i).role (e.mod (reconfigured i d)) := by
  unfold applyAgent
  congr 2
  funext s
  unfold reconfigured restartAgent
  cases restarts (s.agentConfig i) d with
  | false => rfl
  | true =>
    by_cases hp : s.instruments.polling = some i <;> simp [hp, State.setAgent]

/-- The reply to a SET of an agent's configuration (R196). -/
def agentFrame (tag : Byte) (i : Fin 4) (d : AgentConfig) (res : Result) : Frame :=
  replyFrame .set tag res (setReply 0x0F#8 (oct (i.val + 1)) (agentConfigOctets d) [])

/-- SET of an agent's configuration with an address and codes in range: the configuration that stands is left alone, any
other is taken (R144, R171). -/
theorem exec_setAgent {s : State} {tag : Byte} {i : Fin 4} {role : Option Role} {use : ChannelUse} {c : AgentContent}
    {d : AgentConfig} (ht : s.canTake .barge .set) (hrole : c.role = roleCode role) (huse : c.use = useCode use)
    (hd : clampAgent c role use = d) : exec (.setAgentConfiguration .barge tag (oct (i.val + 1)) c) s = .next
      (if s.agentConfig i = d then
        (s.opened .barge).queueReply .barge (agentFrame tag i d (if agentClamped c use d then .clamped else .unchanged))
      else (applyAgent i d (s.opened .barge).begin).reply .barge
        (agentFrame tag i d (if agentClamped c use d then .clamped else .ok))) := by
  have hi : code? 4 (oct (i.val + 1)).toNat = some i := by
    rw [code?_eq_some, oct_toNat]
    omega
  have ho : ownerOf (.setAgentConfiguration .barge tag (oct (i.val + 1)) c) (s.opened .barge).begin =
      (if decide (s.agentConfig i = d) then (s.opened .barge).begin else applyAgent i d (s.opened .barge).begin,
        { result := if agentClamped c use d then .clamped else if decide (s.agentConfig i = d) then .unchanged else .ok,
          data := setReply 0x0F#8 (oct (i.val + 1)) (agentConfigOctets d) [] }) := by
    show takeSetAgent .barge (oct (i.val + 1)) c (s.opened .barge).begin = _
    unfold takeSetAgent
    rw [if_neg (not_not.2 rfl), hi, hrole, huse, roleOfCode_roleCode, useOfCode_useCode, ← hd]
    rfl
  rw [exec_replied rfl ht ho]
  by_cases hsame : s.agentConfig i = d
  · rw [if_pos hsame, decide_eq_true hsame, if_pos rfl, Event.reply, State.begin_notices]
    rfl
  · rw [if_neg hsame, decide_eq_false hsame]
    rfl

/-! ### What an agent gives its role (R150) -/

/-- Whether an agent keeps a role from being blind (R150). -/
def State.sights (s : State) (r : Role) (a : Fin 4) : Prop := s.assigned r a ∧ (s.agent a).state = .present

theorem derived_blind_iff_sights {s : State} {r : Role} :
    (deriveRole s r).blind = true ↔ ∀ a, ¬s.sights r a := by
  simp only [derived_blind, State.sights, not_and, ne_eq]

section Reconfigured

variable {s : State} {i : Fin 4} {d : AgentConfig}

theorem reconfigured_agentConfig (a : Fin 4) :
    (reconfigured i d s).agentConfig a = if a = i then d else s.agentConfig a := at'_put ..

theorem reconfigured_agent (a : Fin 4) : (reconfigured i d s).agent a =
    if restarts (s.agentConfig i) d = true ∧ a = i then startAgent else s.agent a := by
  show at' (if restarts (s.agentConfig i) d then put s.instruments.agents i startAgent else s.instruments.agents) a = _
  cases restarts (s.agentConfig i) d with
  | false => rfl
  | true =>
    simp only [if_true, at'_put, true_and]
    rfl

/-- Without a restart, an enabled agent's role stands (R145). -/
theorem restarts_eq_false {old new : AgentConfig} (h : restarts old new = false) :
    new.enabled = old.enabled ∧ (new.enabled = true → new.role = old.role) := by
  simp only [restarts, Bool.or_eq_false_iff, Bool.and_eq_false_iff, decide_eq_false_iff_not, not_or, not_not] at h
  obtain ⟨henabled, hfields⟩ := h
  refine ⟨henabled.symm, fun hon => ?_⟩
  rcases hfields with hoff | ⟨hrole, -⟩
  · rw [hon] at hoff
    cases hoff
  · exact hrole.symm

/-- Under a new configuration the agents sight a role as before, but for the one that restarts (R145). -/
theorem reconfigured_sights {r : Role} {a : Fin 4} : (reconfigured i d s).sights r a ↔
    s.sights r a ∧ ¬(restarts (s.agentConfig i) d = true ∧ a = i) := by
  unfold State.sights State.assigned
  rw [reconfigured_agentConfig, reconfigured_agent]
  by_cases ha : a = i
  · subst ha
    cases hr : restarts (s.agentConfig a) d with
    | true => simp [startAgent]
    | false =>
      obtain ⟨henabled, hrole⟩ := restarts_eq_false hr
      have hassigned : d.enabled = true ∧ d.role = some r ↔
          (s.agentConfig a).enabled = true ∧ (s.agentConfig a).role = some r := by
        rw [← henabled]
        exact and_congr_right fun hon => by rw [hrole hon]
      simp [hassigned]
  · simp [ha]

/-- A role whose blindness a new configuration changes was sighted by the agent, which restarts (R145, R150). -/
theorem restarted_of_blind_ne {r : Role} (h : (deriveRole (reconfigured i d s) r).blind ≠ (deriveRole s r).blind) :
    s.sights r i ∧ restarts (s.agentConfig i) d = true := by
  by_contra hn
  refine h (Bool.eq_iff_iff.2 ?_)
  rw [derived_blind_iff_sights, derived_blind_iff_sights]
  refine forall_congr' fun a => not_congr (reconfigured_sights.trans (and_iff_left_of_imp fun hs => ?_))
  rintro ⟨hr, rfl⟩
  exact hn ⟨hs, hr⟩

end Reconfigured

/-! ### The AGENT notice (R154) -/

section HandedOn

variable (i : Fin 4) (prev : AgentState) (was : Option Role) (e : Event)

theorem handOnRoles_role (r : Role) : (handOnRoles i prev was e).s.instruments.role r = deriveRole e.s r := by
  rw [handOnRoles_eq]
  exact handOn_role e r

/-- An agent whose state changed is reported with the record of the role it had (R154, log 33). -/
theorem agentNotice_mem_late (h : prev ≠ (e.s.agent i).state) :
    agentNotice i prev (e.s.agent i).state was (was.map (handOnRoles i prev was e).s.instruments.role) ∈
      (handOnRoles i prev was e).late := by
  rw [handOnRoles_eq]
  have hn : agentNotices i prev was (recompute (rolesStaged e)) = [agentNotice i prev (e.s.agent i).state was
      (was.map (recompute (rolesStaged e)).instruments.role)] := by
    rw [agentNotices, handOn_agent, if_neg h]
  simp [hn]

end HandedOn

/-- A role whose blindness a new configuration changes is the one the agent had, and the AGENT notice of the
agent's restart reports it (R145, R154). -/
theorem applyAgent_reports {i : Fin 4} {d : AgentConfig} {e : Event} {r : Role}
    (hderived : (e.s.instruments.role r).blind = (deriveRole e.s r).blind)
    (h : ((applyAgent i d e).s.instruments.role r).blind ≠ (e.s.instruments.role r).blind) :
    (e.s.agentConfig i).role = some r ∧
      agentNotice i (e.s.agent i).state .unknown (some r) (some ((applyAgent i d e).s.instruments.role r)) ∈
        (applyAgent i d e).late := by
  rw [applyAgent_eq] at h ⊢
  rw [handOnRoles_role, hderived] at h
  obtain ⟨⟨⟨-, hrole⟩, hpresent⟩, hrestart⟩ := restarted_of_blind_ne h
  have hunknown : ((e.mod (reconfigured i d)).s.agent i).state = .unknown := by
    rw [Event.mod_s, reconfigured_agent, if_pos ⟨hrestart, rfl⟩]
    rfl
  have hmem := agentNotice_mem_late i (e.s.agent i).state (e.s.agentConfig i).role (e.mod (reconfigured i d))
    (by rw [hunknown, hpresent]; decide)
  rw [hunknown, hrole] at hmem
  rw [hrole]
  exact ⟨rfl, hmem⟩

/-- Settles O41: the checks and the change by `exec_setAgent` and `applyAgent_eq`; the role blinded is the one that the
restarted agent sighted (`restarted_of_blind_ne`). -/
theorem setAgentConfigures : Obligations.SetAgentConfigures := by
  refine ⟨fun s link tag address c ht => ⟨fun hl => exec_refused rfl ht (if_pos hl), fun hl h => ?_⟩,
    fun s tag i role use enabled channels warn trip ht => ?_⟩
  · subst hl
    exact exec_refused rfl ht (takeSetAgent_range h)
  · intro top channels' warn' d old clamped restart reply handed
    have htop : roleTop role = top := by
      cases role with
      | none => rfl
      | some r => cases r <;> rfl
    have hd : clampAgent ⟨enabled, roleCode role, channels, useCode use, warn, trip⟩ role use = d := by
      rw [clampAgent, htop]
      rfl
    have hrestart : restarts ((s.opened .barge).begin.s.agentConfig i) d = restart := by
      simp only [restarts, restart, Bool.decide_or, Bool.decide_and, Bool.decide_eq_true]
      rfl
    have hhanded : applyAgent i d (s.opened .barge).begin = handed := by
      rw [applyAgent_eq, Event.mod, reconfigured, hrestart]
      rfl
    refine ⟨?_, fun hblind r hr => ?_⟩
    · rw [exec_setAgent ht rfl rfl hd, hhanded]
      rfl
    · have hderived : (s.instruments.role r).blind = (deriveRole s r).blind := by
        rw [Bool.eq_iff_iff, hblind r, derived_blind]
        simp only [State.assigned, and_imp]
      rw [← hhanded] at hr ⊢
      exact applyAgent_reports (e := (s.opened .barge).begin) hderived hr

end Sys2Proof.Machine
end

