-- ==== Sys2Proof/Proofs/LineInputs.lean ====
section
/-! A line's raw input and its debounce (R161 to R166): what a change of the debounced state leaves of the lines, and the
completed debounces that are taken first. -/

namespace Sys2Proof.Machine

/-! ### One line's record -/

@[simp] theorem State.setLine_setLine (s : State) (n : Fin 6) (l k : LineService) :
    (s.setLine n l).setLine n k = s.setLine n k := by
  simp only [State.setLine, put, Vector.set_set]

@[simp] theorem State.setLine_line_self (s : State) (n : Fin 6) : s.setLine n (s.line n) = s := by
  simp only [State.setLine, State.line, at', put, Vector.set_getElem_self]

/-! ### What a raise and the end of an event leave of the lines -/

@[simp] theorem raiseHold_lines (src : HoldSource) (cls : HoldClass) (reason : HoldReason) (e : Event) :
    (raiseHold src cls reason e).s.lines = e.s.lines := by
  obtain ⟨_, _, _, _, _, _, _, _, _, h⟩ := raiseHold_spec src cls reason e
  rw [h]
  rfl

theorem Event.finish_lines (e : Event) : e.finish.lines = e.s.lines := by
  obtain ⟨_, h, -⟩ := e.s.postAll_spec e.notices
  rw [Event.finish, h]

theorem Event.finish_ret (e : Event) : e.finish.ret = e.s.ret := by
  obtain ⟨_, h, -⟩ := e.s.postAll_spec e.notices
  rw [Event.finish, h]

/-! ### A change of the debounced state (R161, R163, R164) -/

/-- A line once its debounced state has followed: the count returns to 0, and ACTIVE sets the latch (R161, R163). -/
def LineService.followed (l : LineService) (active : Bool) : LineService :=
  { l with active := active, count := 0, latch := active || l.latch }

theorem lineActive_lines (n : Fin 6) (e : Event) :
    (lineActive n e).s.lines = put e.s.lines n ((e.s.line n).followed true) := by
  unfold lineActive
  dsimp only [Event.lateNote]
  split
  · exact raiseHold_lines ..
  · rfl

theorem lineInactive_lines (n : Fin 6) (e : Event) :
    (lineInactive n e).s.lines = put e.s.lines n ((e.s.line n).followed false) := by
  unfold lineInactive
  dsimp only
  split
  · exact raiseHold_lines ..
  · rfl

theorem lineFollows_lines (n : Fin 6) (e : Event) :
    (lineFollows n e).s.lines = put e.s.lines n ((e.s.line n).followed (e.s.effective n)) := by
  unfold lineFollows
  cases e.s.effective n with
  | true => exact lineActive_lines n e
  | false => exact lineInactive_lines n e

theorem lineFollows_settings (n : Fin 6) (e : Event) :
    (lineFollows n e).s.ret.settings = e.s.ret.settings := by
  unfold lineFollows lineActive lineInactive
  dsimp only [Event.lateNote]
  split <;> split
  · exact raiseHold_settings ..
  · rfl
  · exact raiseHold_settings ..
  · rfl

section LineEvent

variable (s : State) (n m : Fin 6)

theorem lineEvent_lineConfig : (lineEvent s n).lineConfig m = s.lineConfig m := by
  have hret : (lineEvent s n).ret.settings = s.ret.settings := by
    rw [lineEvent, Event.finish_ret]
    exact lineFollows_settings n s.begin
  rw [State.lineConfig, hret]
  rfl

theorem lineEvent_line :
    (lineEvent s n).line m = if m = n then (s.line n).followed (s.effective n) else s.line m := by
  rw [State.line, lineEvent, Event.finish_lines, lineFollows_lines]
  exact at'_put ..

/-- A change of a debounced state is none of a raw input. -/
theorem lineEvent_raw : ((lineEvent s n).line m).raw = (s.line m).raw := by
  rw [lineEvent_line]
  split
  · next h => rw [h]; rfl
  · rfl

theorem lineEvent_effective : (lineEvent s n).effective m = s.effective m := by
  rw [State.effective, lineEvent_lineConfig, lineEvent_raw]
  rfl

/-- A line is settled once it has followed, and stays so while others follow (R161). -/
theorem lineEvent_settled (h : m = n ∨ s.effective m = (s.line m).active) :
    (lineEvent s n).effective m = ((lineEvent s n).line m).active := by
  rw [lineEvent_effective, lineEvent_line]
  split
  · next hm => rw [hm]; rfl
  · next hm => exact h.resolve_left hm

end LineEvent

/-! ### Completed debounces (R161) -/

theorem foldl_lineEvent_settled {n : Fin 6} (l : List (Fin 6)) {s : State}
    (h : n ∈ l ∨ s.effective n = (s.line n).active) :
    (l.foldl lineEvent s).effective n = ((l.foldl lineEvent s).line n).active := by
  induction l generalizing s with
  | nil => exact h.resolve_left List.not_mem_nil
  | cons m rest ih =>
    rw [List.mem_cons, or_right_comm] at h
    exact ih (h.symm.imp_right (lineEvent_settled s m n))

theorem mem_allLines (n : Fin 6) : n ∈ allLines := by revert n; decide

theorem settleLine_due {n : Fin 6} {s : State} (h : lineDebounced s n = true) :
    settleLine n s = (debouncedUpTo s n).foldl lineEvent s := if_pos h

/-- A debounce is taken once: what it leaves of the line is none that is complete (R161). -/
theorem settleLine_settled (n : Fin 6) (s : State) : lineDebounced (settleLine n s) n = false := by
  cases h : lineDebounced s n with
  | false => rwa [settleLine_idle h]
  | true =>
    have hn : n ∈ debouncedUpTo s n := List.mem_filter.2 ⟨mem_allLines n, by simp [h]⟩
    refine decide_eq_false fun hd => hd.1 ?_
    rw [settleLine_due h]
    exact foldl_lineEvent_settled _ (.inl hn)

/-! ### A raw input that a line follows -/

/-- The event in which a line's raw input is taken. -/
def State.rawTaken (s : State) (n : Fin 6) (raw : Bool) : Event :=
  s.begin.mod fun u => u.setLine n { s.line n with raw := raw }

/-- A line's debounced state follows a raw input, as an event of its own (R161). -/
def State.lineTakes (s : State) (n : Fin 6) (raw : Bool) : State := (lineFollows n (s.rawTaken n raw)).finish

/-- A line that follows the raw input it already has. -/
theorem lineTakes_own (s : State) (n : Fin 6) : s.lineTakes n (s.line n).raw = lineEvent s n := by
  have hown : s.rawTaken n (s.line n).raw = s.begin :=
    congrArg (fun u => { s.begin with s := u }) (s.noted.setLine_line_self n)
  rw [State.lineTakes, hown]
  rfl

theorem foldl_lineTakes {s : State} (l : List (Fin 6)) {u : State} (h : ∀ m, (u.line m).raw = (s.line m).raw) :
    l.foldl (fun u m => u.lineTakes m (s.line m).raw) u = l.foldl lineEvent u := by
  induction l generalizing u with
  | nil => rfl
  | cons m rest ih =>
    rw [List.foldl_cons, List.foldl_cons, ← h m, lineTakes_own]
    exact ih fun k => (lineEvent_raw u m k).trans (h k)

theorem rawTaken_effective (s : State) (n : Fin 6) (raw : Bool) :
    (s.rawTaken n raw).s.effective n = (raw != (s.lineConfig n).inverted) := by
  simp only [State.rawTaken, State.effective, Event.mod_s, State.setLine_line_same]
  rfl

/-- A line that takes an ACTIVE input: latch, hold and LINEEVENT (R163, R166). -/
theorem lineTakes_active {s : State} {n : Fin 6} {raw : Bool} (h : (raw != (s.lineConfig n).inverted) = true) :
    let c := s.lineConfig n
    let set := s.begin.mod fun u => u.setLine n { raw := raw, active := true, count := 0, latch := true }
    s.lineTakes n raw = ((match c.function.activeClass with
      | some cls => raiseHold (.line n) cls (.line c.function c.trigger) set
      | none => set).lateNote (lineEventNotice n c c.function.activeClass.isSome s.ret.transfer.clock)).finish := by
  intro c set
  have hset : ((s.rawTaken n raw).mod fun u => u.setLine n { u.line n with active := true, count := 0, latch := true }) =
      set := by
    simp only [State.rawTaken, Event.mod, State.setLine_line_same, State.setLine_setLine]
    rfl
  rw [State.lineTakes, lineFollows, if_pos ((rawTaken_effective s n raw).trans h), lineActive, hset]
  rfl

/-- A line that takes an INACTIVE input: a PERMIT line raises in delivery (R164, R165). -/
theorem lineTakes_inactive {s : State} {n : Fin 6} {raw : Bool} (h : (raw != (s.lineConfig n).inverted) = false) :
    let cleared := s.begin.mod fun u => u.setLine n { s.line n with raw := raw, active := false, count := 0 }
    s.lineTakes n raw = (if (s.lineConfig n).function = .permit ∧ s.ret.delivery.flowing = true then
      raisePermit n cleared else cleared).finish := by
  intro cleared
  have hcleared : ((s.rawTaken n raw).mod fun u => u.setLine n { u.line n with active := false, count := 0 }) =
      cleared := by
    simp only [State.rawTaken, Event.mod, State.setLine_line_same, State.setLine_setLine]
    rfl
  rw [State.lineTakes, lineFollows, if_neg (by simp [rawTaken_effective, h]), lineInactive, hcleared]
  rfl

/-! ### The commands -/

/-- A raw change without a completed debounce (R161). -/
theorem exec_rawLineChange_idle {s : State} {n : Fin 6} {current : Nat} {raw : Bool} (hr : s.running = true)
    (hd : lineDebounced s n = false) (hraw : senseContact (s.line n).raw current = raw) :
    exec (.rawLineChange n current) s = .next
      (if (raw != (s.lineConfig n).inverted) = (s.line n).active then
        s.noted.setLine n { s.line n with raw := raw, count := 0 }
      else if (s.lineConfig n).debounce = 0 then s.lineTakes n raw
      else s.noted.setLine n { s.line n with raw := raw }) := by
  have hsensed : exec (.rawLineChange n current) s = .next (senseLine n current s.begin).finish := by
    refine (if_pos hr).trans ?_
    rw [settleLine_idle hd]
    exact event_running hr
  have htaken : (s.begin.mod fun u => u.setLine n { u.line n with raw := senseContact (u.line n).raw current }) =
      s.rawTaken n raw := hraw ▸ rfl
  have hactive : ((s.rawTaken n raw).s.line n).active = (s.line n).active := by
    simp [State.rawTaken]
  have hconfig : (s.rawTaken n raw).s.lineConfig n = s.lineConfig n := rfl
  rw [hsensed, senseLine, htaken, rawTaken_effective, hactive, hconfig]
  split_ifs
  · rw [Event.finish, Event.notices_eq_notes rfl rfl rfl]
    simp only [State.rawTaken, Event.mod, State.setLine_line_same, State.setLine_setLine]
    rfl
  · rfl
  · rw [Event.finish, Event.notices_eq_notes rfl rfl rfl]
    rfl

/-- A raw change comes behind a debounce already complete (R161). -/
theorem exec_rawLineChange_settled {s : State} (hr : s.running = true) (n : Fin 6) (current : Nat) :
    exec (.rawLineChange n current) s = exec (.rawLineChange n current) (settleLine n s) := by
  have hsettled := (settleLine_reach n s hr).running hr
  have once := settleLine_idle (settleLine_settled n s)
  refine (if_pos hr).trans (.trans ?_ (if_pos hsettled).symm)
  rw [once]

theorem exec_lineDebounceComplete {s : State} (hr : s.running = true) (n : Fin 6) :
    exec (.lineDebounceComplete n) s = .next (settleLine n s) := if_pos hr

/-- Settles O42: what a line follows is `lineTakes`, the completed debounces are taken by `settleLine`, which a second time
takes nothing (`settleLine_settled`). -/
theorem lineFollowsItsInput : Obligations.LineFollowsItsInput := by
  intro s n hr c l follow due settled
  have hfollow : follow = State.lineTakes := by
    funext u m raw
    simp only [follow]
    split
    · next h =>
      rw [lineTakes_active h]
      cases (u.lineConfig m).function <;> rfl
    · next h =>
      rw [lineTakes_inactive (Bool.eq_false_iff.2 h), apply_ite Event.finish]
      exact if_congr (and_congr_right' flowing_iff.symm) rfl rfl
  have hdue (m : Fin 6) : lineDebounced s m = due m := by
    simp only [lineDebounced, due, Bool.decide_and]
    rfl
  have taken (h : due n = true) : settleLine n s = settled := by
    rw [settleLine_due ((hdue n).trans h), debouncedUpTo, funext hdue]
    simp only [settled, hfollow]
    exact (foldl_lineTakes _ fun _ => rfl).symm
  refine ⟨fun current => ⟨fun h => ?_, fun h => ?_⟩, fun h => ?_, fun h => ?_⟩
  · rw [exec_rawLineChange_idle hr ((hdue n).trans h) rfl, hfollow]
    rfl
  · rw [exec_rawLineChange_settled hr, taken h]
  · rw [exec_lineDebounceComplete hr, taken h]
  · rw [exec_lineDebounceComplete hr, settleLine_idle ((hdue n).trans h)]

end Sys2Proof.Machine
end

