-- ==== Sys2Proof/Proofs/SetLine.lean ====
section
/-! SET of a line's configuration (R159, R160): its checks, the re-sampling, and the raise of what it finds. -/

namespace Sys2Proof.Machine

/-! ### Codes (R195) -/

theorem functionOfCode_functionCode (f : LineFunction) : functionOfCode (functionCode f) = some f := by
  cases f <;> rfl

theorem triggerOfCode_triggerCode (tr : Trigger) : triggerOfCode (triggerCode tr) = some tr := by
  cases tr <;> rfl

theorem functionOfCode_above {b : Byte} (h : 5 < b.toNat) : functionOfCode b = none := by
  refine List.find?_eq_none.2 fun f _ hb => ?_
  have hle : (functionCode f).toNat ≤ 5 := by cases f <;> decide
  rw [eq_of_beq hb] at hle
  omega

theorem triggerOfCode_above {b : Byte} (h : 1 < b.toNat) : triggerOfCode b = none := by
  refine List.find?_eq_none.2 fun tr _ hb => ?_
  have hle : (triggerCode tr).toNat ≤ 1 := by cases tr <;> decide
  rw [eq_of_beq hb] at hle
  omega

/-! ### The owner of the SET (R159, R171) -/

theorem takeSetLine_range {line : Byte} {c : LineContent} {e : Event}
    (h : line.toNat = 0 ∨ 6 < line.toNat ∨ 5 < c.function.toNat ∨ 1 < c.trigger.toNat) :
    takeSetLine .barge line c e = refuse e .range := by
  unfold takeSetLine
  rw [if_neg (not_not.2 rfl)]
  rcases or_assoc.2 h with h | h | h
  · rw [code?_outside h]
  · rw [functionOfCode_above h]
    cases code? 6 line.toNat <;> rfl
  · rw [triggerOfCode_above h]
    cases code? 6 line.toNat <;> cases functionOfCode c.function <;> rfl

/-- The reply to a SET of a line's configuration (R196). -/
def lineFrame (tag : Byte) (n : Fin 6) (d : LineConfig) (res : Result) : Frame :=
  replyFrame .set tag res (setReply 0x10#8 (oct (n.val + 1)) (lineConfigOctets d) [])

/-- SET of a line's configuration with a line and codes in range: the configuration that stands is left alone, any other
is applied (R159, R171). -/
theorem exec_setLine {s : State} {tag : Byte} {n : Fin 6} {f : LineFunction} {tr : Trigger} {c : LineContent}
    {d : LineConfig} (ht : s.canTake .barge .set) (hf : c.function = functionCode f) (htr : c.trigger = triggerCode tr)
    (hd : clampLine c f tr = d) : exec (.setLineConfiguration .barge tag (oct (n.val + 1)) c) s = .next
      (if s.lineConfig n = d then
        (s.opened .barge).queueReply .barge
          (lineFrame tag n d (if d.debounce ≠ c.debounce.toNat then .clamped else .unchanged))
      else (applyLine n d (s.opened .barge).begin).reply .barge
        (lineFrame tag n d (if d.debounce ≠ c.debounce.toNat then .clamped else .ok))) := by
  have hn : code? 6 (oct (n.val + 1)).toNat = some n := by
    rw [code?_eq_some, oct_toNat]
    omega
  have ho : ownerOf (.setLineConfiguration .barge tag (oct (n.val + 1)) c) (s.opened .barge).begin =
      (if decide (s.lineConfig n = d) then (s.opened .barge).begin else applyLine n d (s.opened .barge).begin,
        { result := if d.debounce ≠ c.debounce.toNat then .clamped
            else if decide (s.lineConfig n = d) then .unchanged else .ok,
          data := setReply 0x10#8 (oct (n.val + 1)) (lineConfigOctets d) [] }) := by
    show takeSetLine .barge (oct (n.val + 1)) c (s.opened .barge).begin = _
    unfold takeSetLine
    rw [if_neg (not_not.2 rfl), hn, hf, htr, functionOfCode_functionCode, triggerOfCode_triggerCode, ← hd]
    rfl
  rw [exec_replied rfl ht ho]
  by_cases hsame : s.lineConfig n = d
  · rw [if_pos hsame, decide_eq_true hsame, if_pos rfl, Event.reply, State.begin_notices]
    rfl
  · rw [if_neg hsame, decide_eq_false hsame]
    rfl

/-! ### A new configuration (R160) -/

/-- What a new configuration of a line leaves before anything is raised: the debounced state is sampled afresh, and the latch
stands (R160). -/
def relined (n : Fin 6) (d : LineConfig) (s : State) : State :=
  { s with ret.settings.lines := put s.ret.settings.lines n d }.setLine n
    { s.line n with count := 0, active := effectiveInput d (s.line n).raw }

theorem relined_lineConfig (n : Fin 6) (d : LineConfig) (s : State) : (relined n d s).lineConfig n = d :=
  at'_put_same ..

theorem relined_active (n : Fin 6) (d : LineConfig) (s : State) :
    ((relined n d s).line n).active = effectiveInput d (s.line n).raw := by
  rw [relined, State.setLine_line_same]

/-- The raise of a new configuration: a TRIP function found ACTIVE, or a PERMIT found INACTIVE in delivery (R160). -/
theorem applyLine_eq (n : Fin 6) (d : LineConfig) (e : Event) : applyLine n d e =
    if d.function.trips && effectiveInput d (e.s.line n).raw then
      raiseHold (.line n) .trip (.line d.function d.trigger) (e.mod (relined n d))
    else if decide (d.function = .permit) && !effectiveInput d (e.s.line n).raw && e.s.ret.delivery.flowing then
      raiseHold (.line n) .pause (.line .permit .edge) (e.mod (relined n d))
    else e.mod (relined n d) := by
  have hraise : raiseLine n .trip (e.mod (relined n d)) =
      raiseHold (.line n) .trip (.line d.function d.trigger) (e.mod (relined n d)) := by
    rw [raiseLine, Event.mod_s, relined_lineConfig]
  have hmissing : permitMissing (e.mod (relined n d)).s n =
      (decide (d.function = .permit) && !effectiveInput d (e.s.line n).raw) := by
    rw [permitMissing, Event.mod_s, relined_lineConfig, relined_active]
  rw [← hraise, ← hmissing, ← relined_active n d e.s]
  rfl

/-- Settles O43: the checks and the answer by `exec_setLine`, the change by `applyLine_eq`. -/
theorem setLineConfigures : Obligations.SetLineConfigures := by
  refine ⟨fun s link tag line c ht => ⟨fun hl => exec_refused rfl ht (if_pos hl), fun hl h => ?_⟩,
    fun s tag n f tr inversion debounce notify ht => ?_⟩
  · subst hl
    exact exec_refused rfl ht (takeSetLine_range h)
  · intro d clamped reply active sampled delivering
    have hclamped : (d.debounce ≠ debounce.toNat) = (clamped = true) := by
      simp only [d, clamped, decide_eq_true_eq]
      exact propext (by omega)
    rw [exec_setLine (d := d) ht rfl rfl rfl, applyLine_eq, trips_eq, flowing_eq]
    simp only [hclamped]
    rfl

end Sys2Proof.Machine
end

