-- ==== Sys2Proof/Proofs/SetStopTimes.lean ====
section
/-! SET of a stop time (R171, R173, R174). -/

namespace Sys2Proof.Machine

section Listed

variable {c : Instr} {link : Station} {tag code index : Byte} {s : State} {asked taken standing : Nat}
  {changes : List (Byte × Nat)} {e' : Event}

/-- A SET whose reply lists the other settings it changed (R171): the value that stands is UNCHANGED and lists none. -/
theorem exec_setListed (h : requestOf c = some (link, .set, tag, true)) (ht : s.canTake link .set)
    (ho : ownerOf c (s.opened link).begin =
      (if setResult asked taken standing = .unchanged then (s.opened link).begin else e',
        { result := setResult asked taken standing, data := setReply code index (le2 taken)
            (if setResult asked taken standing = .unchanged then [] else changes) })) :
    exec c s = .next
      (if taken = asked ∧ taken = standing then
        (s.opened link).queueReply link (replyFrame .set tag .unchanged (setReply code index (le2 taken) []))
      else e'.reply link (replyFrame .set tag (if taken = asked then .ok else .clamped)
        (setReply code index (le2 taken) changes))) := by
  rw [exec_replied h ht ho]
  by_cases hu : taken = asked ∧ taken = standing
  · rw [if_pos hu, setResult_unchanged.2 hu, if_pos rfl, if_pos rfl, Event.reply, State.begin_notices]
    rfl
  · have hres := mt setResult_unchanged.1 hu
    rw [if_neg hu, if_neg hres, if_neg hres, setResult_changed hu]

end Listed

/-- The change of Tstop that a SET of another stop time lists (R173). -/
def stopTimeChanges (old new : Settings) (which : StopTime) : List (Byte × Nat) :=
  if which ≠ .tstop ∧ new.tstop ≠ old.tstop then [(stopTimeCode .tstop, new.tstop)] else []

/-- The reply to a SET of a stop time (R196). -/
def stopTimeFrame (tag index : Byte) (which : StopTime) (v : Nat) (res : Result) (changes : List (Byte × Nat)) : Frame :=
  replyFrame .set tag res (setReply (stopTimeCode which) index (le2 v) changes)

/-- SET of a stop time by its owner: the clamped value stands, and Tstop is listed where it was raised (R171, R173). -/
theorem exec_setStopTime {which : StopTime} {tag index : Byte} {value : Word16} {s : State} (ht : s.canTake .barge .set)
    {v : Nat} (hv : v = clampStopTime s.ret.settings which value.toNat) :
    let new := setStopTime s.ret.settings which v
    exec (.setStopTimes .barge tag which index value) s = .next
      (if v = value.toNat ∧ v = s.ret.settings.stopTime which then
        (s.opened .barge).queueReply .barge (stopTimeFrame tag index which v .unchanged [])
      else
        ((s.opened .barge).begin.mod fun u => recompute { u with ret.settings := new }).reply .barge
          (stopTimeFrame tag index which v (if v = value.toNat then .ok else .clamped)
            (stopTimeChanges s.ret.settings new which))) := by
  subst hv
  intro new
  refine exec_setListed rfl ht ?_
  have hlist (res : Result) : (if res = .unchanged then [] else stopTimeChanges s.ret.settings new which) =
      if res ≠ .unchanged ∧ which ≠ .tstop ∧ new.tstop ≠ s.ret.settings.tstop then
        [(stopTimeCode .tstop, new.tstop)] else [] := by
    rw [stopTimeChanges, ← ite_not, ← ite_and]
  rw [hlist]
  rfl

/-- Settles O45: the clamped value and the settings it leaves, stop time by stop time; a value that stands leaves the sum
within Tstop, and so lists nothing. -/
theorem setStopTimesKeepsSum : Obligations.SetStopTimesKeepsSum := by
  intro s link tag which index value ht hsum
  refine ⟨fun hl => exec_refused rfl ht (if_pos hl), fun hl => ?_⟩
  subst hl
  intro t v rundown tclose tstop code standing raised reply
  have hv : v = clampStopTime t which value.toNat := by
    cases which
    · rfl
    · exact (congrArg (min · 30) (Nat.max_zero _)).symm
    · rfl
  have hstanding : t.stopTime which = standing := by cases which <;> rfl
  have hsettings : setStopTime t which v = { t with tstop := tstop, rundown := rundown, tclose := tclose } := by
    cases which <;> rfl
  have hchanges : stopTimeChanges t (setStopTime t which v) which = if raised then [(0x04#8, tstop)] else [] := by
    have hraised : (which ≠ .tstop ∧ tstop ≠ t.tstop) ↔ raised = true := by
      cases which <;> simp [raised, tstop]
    rw [hsettings]
    exact if_congr hraised rfl rfl
  have hreply (res : Result) :
      stopTimeFrame tag index which v res (if raised then [(0x04#8, tstop)] else []) = reply res := by
    have hcode : stopTimeCode which = code := by cases which <;> rfl
    rw [stopTimeFrame, hcode]
    simp only [reply]
    cases raised <;> rfl
  have hstands (h : v = standing) : raised = false := by
    have hsame : rundown + tclose = t.rundown + t.tclose := by
      cases which with
      | tstop => rfl
      | rundown => exact congrArg (· + t.tclose) h
      | tclose => exact congrArg (t.rundown + ·) h
    exact decide_eq_false fun hr => Nat.not_lt.2 hsum (hsame ▸ hr.2)
  rw [exec_setStopTime ht hv, hstanding]
  by_cases hu : v = value.toNat ∧ v = standing
  · rw [if_pos hu, if_pos hu, ← hreply, hstands hu.2]
    rfl
  · rw [if_neg hu, if_neg hu, ← hreply, hchanges, hsettings]
    rfl

end Sys2Proof.Machine
end

