-- ==== Sys2Proof/Proofs/Completion.lean ====
section
/-! Every command completes (R171, R192), a stopped part takes nothing but a start, and what a stop leaves (R177, R179,
R182). -/

namespace Sys2Proof.Machine

/-! ### Completion -/

/-- An outcome that is a next state, and no change of a stopped part (R179). -/
def State.completes (s : State) (out : Host.Outcome State Fault Refusal) : Prop :=
  ∃ t, out = .next t ∧ (s.running = false → t = s)

theorem State.completes_unchanged (s : State) : s.completes (.next s) := ⟨s, rfl, fun _ => rfl⟩

/-- A running part may change. -/
theorem completes_running {s : State} (hr : s.running = true) (t : State) : s.completes (.next t) :=
  ⟨t, rfl, fun h => absurd (hr.symm.trans h) (by decide)⟩

theorem event_completes (s : State) (f : Event → Event) : s.completes (event s f) := by
  unfold event
  split
  · next hr => exact completes_running hr _
  · exact s.completes_unchanged

theorem quietEvent_completes (s : State) (f : State → State) : s.completes (quietEvent s f) := by
  unfold quietEvent
  split
  · next hr => exact completes_running hr _
  · exact s.completes_unchanged

theorem request_completes (link : Station) (type : RequestType) (tag : Byte) (formed : Bool)
    (owner : Event → Event × Answer) (s : State) : s.completes (request link type tag formed owner s) := by
  unfold request
  split
  · next hr =>
    dsimp only
    split
    · exact completes_running hr _
    · split
      · exact completes_running hr _
      · split
        · exact completes_running hr _
        · exact completes_running hr _
  · exact s.completes_unchanged

theorem exec_request_completes {c : Instr} {q : Station × RequestType × Byte × Bool} (hc : requestOf c = some q)
    (s : State) : s.completes (exec c s) := by
  obtain ⟨link, type, tag, formed⟩ := q
  rw [exec_eq_request hc]
  exact request_completes ..

/-- An event that is taken only when it is due (log 3). -/
theorem due_completes {s : State} {p : Prop} [Decidable p] {out : Host.Outcome State Fault Refusal}
    (h : s.completes out) : s.completes (if p then out else .next s) := by
  split
  · exact h
  · exact s.completes_unchanged

/-- What a running part alone looks at. -/
theorem running_completes {s t : State} {out : Host.Outcome State Fault Refusal} (h : t.completes out) :
    s.completes (if s.running then out else .next s) := by
  obtain ⟨u, rfl, -⟩ := h
  split
  · next hr => exact completes_running hr u
  · exact s.completes_unchanged

/-! ### The receiver (R185 to R193) -/

theorem State.spells.completes {s : State} {out : Host.Outcome State Fault Refusal} (h : s.spells out) :
    s.completes out := by
  rcases h with ⟨c, q, hc, rfl⟩ | ⟨link, type, tag, formed, owner, -, rfl⟩
  · exact exec_request_completes hc s
  · exact request_completes ..

theorem execUnknownRequest_completes (link : Station) (tag type : Byte) (s : State) :
    s.completes (execUnknownRequest link tag type s) := by
  unfold execUnknownRequest
  split
  · exact s.completes_unchanged
  · exact quietEvent_completes ..

theorem takeFrame_completes (link : Station) (type tag : Byte) (data : List Byte) (s : State) :
    s.completes (takeFrame link type tag data s) := by
  unfold takeFrame
  split
  · exact (takeTypedFrame_spells ..).completes
  · exact execUnknownRequest_completes ..

theorem takeOctet_completes (link : Station) (v : Byte) (s : State) : s.completes (takeOctet link v s) := by
  unfold takeOctet
  dsimp only
  split
  · exact quietEvent_completes ..
  · split <;> exact quietEvent_completes ..
  · exact quietEvent_completes ..
  · exact quietEvent_completes ..
  · split
    · unfold takeCorrect
      split
      · exact takeFrame_completes ..
      · exact quietEvent_completes ..
    · exact quietEvent_completes ..

theorem takeGoodOctet_completes (link : Station) (octet : Byte) (s : State) :
    s.completes (takeGoodOctet link octet s) := by
  unfold takeGoodOctet
  dsimp only
  split
  · split <;> exact quietEvent_completes ..
  · split
    · split
      · exact takeOctet_completes ..
      · exact quietEvent_completes ..
    · split
      · exact quietEvent_completes ..
      · split
        · exact quietEvent_completes ..
        · exact takeOctet_completes ..

theorem execReceiverOctet_completes (link : Station) (octet : Byte) (good : Bool) (s : State) :
    s.completes (execReceiverOctet link octet good s) := by
  unfold execReceiverOctet
  split
  · exact s.completes_unchanged
  · split
    · split <;> exact quietEvent_completes ..
    · split
      · exact event_completes ..
      · exact takeGoodOctet_completes ..

/-! ### Every command -/

theorem execTransactionEnd_completes (reply : List Byte) (s : State) : s.completes (execTransactionEnd reply s) := by
  unfold execTransactionEnd
  split
  · exact s.completes_unchanged
  · exact event_completes ..

theorem execLimitSwitchChange_completes (w : LimitSwitch) (current : Nat) (s : State) :
    s.completes (execLimitSwitchChange w current s) := by
  unfold execLimitSwitchChange
  dsimp only
  split
  · exact s.completes_unchanged
  · exact event_completes ..

theorem execPartStops_completes (stop : PartStop) (s : State) : s.completes (execPartStops stop s) := by
  unfold execPartStops
  split
  · next h => exact completes_running (Bool.and_eq_true_iff.1 h).1 _
  · exact s.completes_unchanged

/-- Every command but a start completes, and leaves a stopped part as it is (R171, R179, R192). -/
theorem exec_completes {c : Instr} (h : isStart c = false) (s : State) : s.completes (exec c s) := by
  cases hc : requestOf c with
  | some q => exact exec_request_completes hc s
  | none =>
    cases c with
    | unknownRequest => exact execUnknownRequest_completes ..
    | overrun => exact due_completes (quietEvent_completes ..)
    | frameDiscard => exact quietEvent_completes ..
    | halt => exact event_completes ..
    | transmissionEnd => exact due_completes (quietEvent_completes ..)
    | silenceExpiry => exact due_completes (event_completes ..)
    | confirmExpiry => exact due_completes (event_completes ..)
    | strokeTimerExpiry => exact due_completes (event_completes ..)
    | rundownExpiry => exact due_completes (event_completes ..)
    | settleExpiry => exact due_completes (event_completes ..)
    | rampSecond => exact due_completes (quietEvent_completes ..)
    | rateSecond => exact due_completes (event_completes ..)
    | noFlowExpiry => exact due_completes (event_completes ..)
    | overspeedExpiry => exact due_completes (event_completes ..)
    | pollCycleExpiry => exact due_completes (quietEvent_completes ..)
    | transactionEnd => exact execTransactionEnd_completes ..
    | tick => exact quietEvent_completes ..
    | transferClockSecond => exact due_completes (quietEvent_completes ..)
    | reportStale => exact due_completes (event_completes ..)
    | reportLost => exact due_completes (event_completes ..)
    | limitSwitchChange => exact execLimitSwitchChange_completes ..
    | meterPulse =>
      unfold exec execMeterPulse
      exact event_completes ..
    | rawLineChange => exact running_completes (event_completes ..)
    | lineDebounceComplete => exact running_completes (State.completes_unchanged _)
    | loopInRawChange => exact running_completes (quietEvent_completes ..)
    | loopInDebounceComplete => exact running_completes (State.completes_unchanged _)
    | receiverOctet => exact execReceiverOctet_completes ..
    | partStops => exact execPartStops_completes ..
    | coldStart | warmStart => cases h
    | _ => cases hc

/-- The raises, P and the step's place leave the queue of waiting commands (log 6). -/
theorem startFrom_pending (memory prior : Retained) (reason : HoldReason) (sample : InputSample)
    (schedule : List RaisingBlock) (s : State) :
    (startFrom memory prior reason sample schedule s).pending = s.pending := by
  have raises (rs : List Raise) (u : State) : (rs.foldl startRaise u).pending = u.pending := by
    obtain ⟨_, _, h⟩ := foldl_startRaise_eq rs u
    rw [h]
  rw [startFrom_of rfl rfl rfl, raises, (alike_recompute _).2]
  show ((ownRaises reason _).foldl startRaise _).pending = _
  rw [raises, placeStep_eq]
  rfl

theorem startPart_pending (memory : Retained) (sample : InputSample) (schedule : List RaisingBlock) (s : State) :
    (startPart memory sample schedule s).pending = s.pending := by
  unfold startPart
  split <;> exact startFrom_pending ..

/-- A start that begins or not (R179). -/
theorem ite_next_eq (p : Prop) [Decidable p] (t u : State) :
    ∃ v, (if p then .next t else .next u : Host.Outcome State Fault Refusal) = .next v := by
  split <;> exact ⟨_, rfl⟩

/-- Settles O2: `exec_completes` for the commands that are no start; the queue by what each command does. -/
theorem everyCommandCompletes : Obligations.EveryCommandCompletes := by
  intro c s
  have hnext : ∃ t, exec c s = .next t := by
    cases hc : isStart c with
    | false => exact (exec_completes hc s).imp fun _ h => h.1
    | true =>
      cases c with
      | coldStart => exact ite_next_eq ..
      | warmStart => exact ite_next_eq ..
      | _ => cases hc
  obtain ⟨t, h⟩ := hnext
  refine ⟨t, h, ?_⟩
  rcases exec_proceeds h with ⟨hr, -⟩ | ⟨m, rfl⟩ | ⟨m, sample, schedule, rfl⟩
  · exact hr.alike.2
  · rfl
  · exact startPart_pending ..

/-! ### Stops (R177, R179, R182) -/

theorem stopsPart_iff (p : PowerSample) : stopsPart p = true ↔ p.supply < 16000 ∨ p.resetAsserted = true := by
  rw [stopsPart, Bool.or_eq_true, decide_eq_true_iff]
  rfl

/-- A supply or a reset line that stops a running part (R179, R182). -/
theorem exec_partStops {power : PowerSample} {done : Bool} {s : State} (hr : s.running = true)
    (hp : power.supply < 16000 ∨ power.resetAsserted = true) :
    exec (.partStops ⟨power, done⟩) s = .next (stopped (if done then s.ret else s.prior) s) :=
  if_pos (Bool.and_eq_true_iff.2 ⟨hr, (stopsPart_iff power).2 hp⟩)

/-- Another supply leaves the part as it is (log 8). -/
theorem exec_partStops_other {power : PowerSample} {done : Bool} {s : State}
    (hp : ¬(power.supply < 16000 ∨ power.resetAsserted = true)) : exec (.partStops ⟨power, done⟩) s = .next s :=
  if_neg fun h => hp ((stopsPart_iff power).1 (Bool.and_eq_true_iff.1 h).2)

/-- Settles O3: a stop leaves `stopped`, a stopped part is left by `exec_completes`, and the outputs are as defined. -/
theorem partStopsAndStaysStopped : Obligations.PartStopsAndStaysStopped := by
  refine ⟨fun power done s hr => ⟨fun hp => ?_, fun hs hl => ?_⟩, fun c s hr hc => ?_, fun s => ⟨fun hr => ?_, ?_⟩⟩
  · refine ⟨_, exec_partStops hr hp, rfl, rfl, rfl, rfl, rfl, rfl, fun link => ?_, rfl, rfl⟩
    cases link <;> rfl
  · exact exec_partStops_other (by simp [hl, hs])
  · obtain ⟨t, h, hsame⟩ := exec_completes hc s
    rw [h, hsame hr]
  · exact ⟨if_pos hr, by simp [State.valveOpenOutput, hr]⟩
  · unfold State.loopOutOutput
    cases s.loop.loopOut <;> rfl

end Sys2Proof.Machine
end

