-- ==== Sys2Proof/Proofs/ResetInvariants.lean ====
section
/-! The state after reset meets every invariant (R180): cold-start values meet those of retention memory, and the rest is
empty, at rest or stopped. -/

namespace Sys2Proof.Machine

/-! ### Retention memory at its cold-start values -/

theorem coldRetained_poolWhole : coldRetained.poolWhole := ⟨rfl, fun _ => rfl, fun _ => rfl⟩

theorem coldRetained_records : coldRetained.records = [] := rfl

/-- The next number is the first, and there is no record (R1, R9). -/
theorem coldRetained_planSound : coldRetained.planSound := by
  refine ⟨List.nodup_nil, fun r hr => ?_, fun n hn => ?_, fun _ => rfl, fun _ => ⟨rfl, rfl, rfl⟩⟩
  · rw [coldRetained_records] at hr
    cases hr
  · cases hn
    decide

theorem coldRetained_recordsSound : coldRetained.recordsSound := by
  unfold Retained.recordsSound
  rw [coldRetained_records]
  refine ⟨fun r hr => ?_, fun r hr => ?_, fun r hr => ?_, fun r hr => ?_⟩ <;> cases hr

theorem coldRetained_tallySound : coldRetained.tallySound := ⟨rfl, Nat.zero_le _⟩

theorem coldSettings_ordered : coldSettings.ordered := by
  unfold Settings.ordered
  decide

/-! ### The reset state -/

/-- Only POWER stands on the list, at TRIP (R124). -/
theorem reset_holdsSound : State.reset.holdsSound := by
  refine ⟨List.nodup_singleton _, List.nodup_nil, fun _ => ?_, fun h => (by cases h), fun _ h => ?_⟩
  · exact ⟨fun _ => ⟨_, List.mem_singleton_self _, rfl, by decide⟩, fun _ => rfl⟩
  · rcases h with h | h | h <;> cases h

/-- Delivery is IDLE with the valve commanded closed (R77, R101, R102). -/
theorem reset_deliverySound : State.reset.deliverySound := by
  unfold State.deliverySound
  decide

theorem reset_timersSound : State.reset.timersSound := by
  unfold State.timersSound
  decide

/-- With no step in the slot P is 0 and no term limits (R65). -/
theorem reset_rateCurrent : State.reset.rateCurrent := fun _ => ⟨rfl, rfl⟩

theorem startLink_sound : startLink.sound := linkAtStart_sound (false, false)

/-- Settles O53: retention memory by its cold-start values, the rest of each invariant by the lemmas above. -/
theorem resetMeetsInvariants : Obligations.ResetMeetsInvariants := by
  refine ⟨⟨coldRetained_poolWhole, coldRetained_poolWhole⟩, ⟨coldRetained_planSound, coldRetained_planSound⟩,
    ⟨coldRetained_recordsSound, coldRetained_recordsSound, fun h => (by cases h), fun h => absurd rfl h⟩,
    ⟨coldRetained_tallySound, coldRetained_tallySound⟩, ⟨coldSettings_ordered, coldSettings_ordered⟩, reset_holdsSound,
    reset_deliverySound, reset_timersSound, reset_rateCurrent, fun link => ?_⟩
  cases link <;> exact startLink_sound

end Sys2Proof.Machine
end

