-- ==== Sys2Proof/Proofs/ReceiverOctets.lean ====
section
/-! The receiver octet by octet, discarded frames, and the end of a transmission (R185, R186, R190). -/

namespace Sys2Proof.Machine

/-! ### Discards and transmissions (R186, R190) -/

section Links

variable {s : State} {link : Station}

/-- A discard counts, and leaves the receiver in HUNT, or in LENGTH at a start octet (R186). -/
theorem exec_frameDiscard (hr : s.running = true) (cause : DiscardCause) :
    exec (.frameDiscard link cause) s = .next (s.noted.setLink link
      { s.link link with
        receiver := if cause = .startOctet then .length else .hunt, escape := false, frameLength := 0,
        frameOctets := [], checkLow := 0#8, errors := min ((s.link link).errors + 1) 255 }) := by
  refine (quietEvent_running hr).trans ?_
  have hleaves : discardLeaves cause = if cause = .startOctet then .length else .hunt := by cases cause <;> rfl
  rw [discardFrame, hleaves]
  rfl

theorem exec_transmissionEnd {head : Frame} {rest : List Frame} (hr : s.running = true)
    (hu : (s.link link).state = .up) (hq : (s.link link).queue = head :: rest) :
    exec (.transmissionEnd link) s = .next (s.noted.setLink link { s.link link with queue := rest }) := by
  have htail : (s.link link).queue.tail = rest := by rw [hq]; rfl
  rw [← htail]
  exact (if_pos ⟨hu, by rw [hq]; exact List.cons_ne_nil _ _⟩).trans (quietEvent_running hr)

theorem exec_transmissionEnd_idle (h : (s.link link).state ≠ .up ∨ (s.link link).queue = []) :
    exec (.transmissionEnd link) s = .next s :=
  if_neg fun ⟨hu, hq⟩ => h.elim (fun hn => hn hu) hq

/-! ### Octets (R185, R187) -/

variable {octet v : Byte}

/-- A faulty octet is ignored in HUNT and discards a frame elsewhere (R185). -/
theorem exec_receiverOctet_faulty (hr : s.running = true) : exec (.receiverOctet link octet false) s =
    if (s.link link).receiver = .hunt then .next s.noted else exec (.frameDiscard link .faultyStop) s := by
  refine (if_neg (by simp [hr])).trans ((if_pos rfl).trans ?_)
  rw [quietEvent_running hr]
  rfl

/-- The halt octet acts in every receiver state (R187). -/
theorem exec_receiverOctet_halt (hr : s.running = true) :
    exec (.receiverOctet link 0x18#8 true) s = exec (.halt link) s :=
  (if_neg (by simp [hr])).trans ((if_neg (by decide)).trans (if_pos rfl))

/-- Any other octet is taken by the receiver state (R185). -/
theorem exec_receiverOctet_good (hr : s.running = true) (h : octet ≠ 0x18#8) :
    exec (.receiverOctet link octet true) s = takeGoodOctet link octet s :=
  (if_neg (by simp [hr])).trans ((if_neg (by decide)).trans (if_neg h))

/-- In HUNT only a start octet counts (R185). -/
theorem takeGoodOctet_hunt (hr : s.running = true) (h : (s.link link).receiver = .hunt) :
    takeGoodOctet link octet s = .next
      (if octet = 0xA5#8 then s.noted.setLink link ((s.link link).resetReceiver .length) else s.noted) := by
  refine (if_pos h).trans ?_
  rw [quietEvent_running hr, quietEvent_running hr, ← apply_ite Host.Outcome.next]
  rfl

section Inside

variable (h : (s.link link).receiver ≠ .hunt)
include h

theorem takeGoodOctet_escaped (he : (s.link link).escape = true) : takeGoodOctet link octet s =
    match unescape octet with
    | some v => takeOctet link v s
    | none => exec (.frameDiscard link .badEscape) s :=
  (if_neg h).trans ((if_pos he).trans rfl)

theorem takeGoodOctet_unescaped (he : (s.link link).escape = false) : takeGoodOctet link octet s =
    if octet = 0xA5#8 then exec (.frameDiscard link .startOctet) s
    else if octet = 0x1B#8 then quietEvent s fun u => u.setLink link { s.link link with escape := true }
    else takeOctet link octet s :=
  (if_neg h).trans (if_neg (by simp [he]))

/-- An octet as escaped, or as it stands, is taken by its value (R184, R185). -/
theorem takeGoodOctet_valued (hv : (s.link link).escape = false ∧ octet = v ∧ v ≠ 0xA5#8 ∧ v ≠ 0x1B#8 ∨
      (s.link link).escape = true ∧
        (octet = 0x85#8 ∧ v = 0xA5#8 ∨ octet = 0x38#8 ∧ v = 0x18#8 ∨ octet = 0x3B#8 ∧ v = 0x1B#8)) :
    takeGoodOctet link octet s = takeOctet link v s := by
  rcases hv with ⟨he, rfl, hs, hx⟩ | ⟨he, ⟨rfl, rfl⟩ | ⟨rfl, rfl⟩ | ⟨rfl, rfl⟩⟩
  · rw [takeGoodOctet_unescaped h he, if_neg hs, if_neg hx]
  all_goals exact takeGoodOctet_escaped h he

end Inside

theorem unescape_wrong (h1 : octet ≠ 0x85#8) (h2 : octet ≠ 0x38#8) (h3 : octet ≠ 0x3B#8) : unescape octet = none :=
  (if_neg h1).trans ((if_neg h2).trans (if_neg h3))

/-! ### The octets of a frame by their place (R185) -/

section Taken

variable (hr : s.running = true)
include hr

theorem takeOctet_length (h : (s.link link).receiver = .length) : takeOctet link v s =
    if 2 ≤ v.toNat ∧ v.toNat ≤ 200 then
      .next (s.noted.setLink link
        { s.link link with escape := false, frameLength := v.toNat, frameOctets := [], receiver := .body })
    else exec (.frameDiscard link .badLength) s := by
  have hdiscard : exec (.frameDiscard link .badLength) s = .next (discardFrame link .badLength s.noted) :=
    quietEvent_running hr
  rw [hdiscard]
  unfold takeOctet
  simp only [h, quietEvent_running hr]
  rfl

theorem takeOctet_body (h : (s.link link).receiver = .body) : takeOctet link v s =
    .next (s.noted.setLink link
      { s.link link with
        escape := false, frameOctets := (s.link link).frameOctets ++ [v],
        receiver :=
          if (s.link link).frameLength ≤ (s.link link).frameOctets.length + 1 then .checkLow else .body }) := by
  unfold takeOctet
  simp only [h, quietEvent_running hr, List.length_append, List.length_singleton]

theorem takeOctet_checkLow (h : (s.link link).receiver = .checkLow) : takeOctet link v s =
    .next (s.noted.setLink link { s.link link with escape := false, checkLow := v, receiver := .checkHigh }) := by
  unfold takeOctet
  simp only [h, quietEvent_running hr]

end Taken

/-- The last check octet of a frame that does not sum to 0 discards it (R184, R185). -/
theorem takeOctet_checkHigh_bad (h : (s.link link).receiver = .checkHigh)
    (hsum : ¬(octetSum (oct (s.link link).frameLength :: (s.link link).frameOctets) + (s.link link).checkLow.toNat +
      256 * v.toNat) % 65536 = 0) : takeOctet link v s = exec (.frameDiscard link .badCheck) s := by
  unfold takeOctet
  simp only [h]
  exact if_neg (by simpa [frameCorrect] using hsum)

end Links

/-- Settles O48: the discard, the transmitter, and each octet by the receiver state and its place. -/
theorem linkReceivesAndSends : Obligations.LinkReceivesAndSends := by
  refine ⟨fun s link hr => ⟨exec_frameDiscard hr, fun _ _ => exec_transmissionEnd hr, exec_transmissionEnd_idle⟩,
    fun s link octet hr => ?_⟩
  intro l takes discards inside takenAs
  have outside (h : ¬inside) : (s.link link).receiver = .hunt := not_not.1 h
  refine ⟨?_, fun h => ?_, fun h => ?_, fun h h18 hA5 => ?_, fun h hA5 => ?_, fun h he hA5 => ?_, fun h he h1B => ?_,
    fun h he h18 h1 h2 h3 => ?_, fun v hv => ?_⟩
  · rintro rfl
    exact exec_receiverOctet_halt hr
  · exact (exec_receiverOctet_faulty hr).trans (if_pos (outside h))
  · exact (exec_receiverOctet_faulty hr).trans (if_neg h)
  · rw [exec_receiverOctet_good hr h18, takeGoodOctet_hunt hr (outside h), if_neg hA5]
  · subst hA5
    exact (exec_receiverOctet_good hr (by decide)).trans (takeGoodOctet_hunt hr (outside h))
  · subst hA5
    exact (exec_receiverOctet_good hr (by decide)).trans (takeGoodOctet_unescaped h he)
  · subst h1B
    exact (exec_receiverOctet_good hr (by decide)).trans ((takeGoodOctet_unescaped h he).trans
      ((if_neg (by decide)).trans ((if_pos rfl).trans (quietEvent_running hr))))
  · refine (exec_receiverOctet_good hr h18).trans ((takeGoodOctet_escaped h he).trans ?_)
    rw [unescape_wrong h1 h2 h3]
  · obtain ⟨h18, hin, hvalue⟩ := hv
    have htaken : exec (.receiverOctet link octet true) s = takeOctet link v s :=
      (exec_receiverOctet_good hr h18).trans (takeGoodOctet_valued hin hvalue)
    simp only [takes, discards, htaken]
    refine ⟨fun hp hlo hhi => ?_, fun hp hlen => ?_, takeOctet_body hr, takeOctet_checkLow hr, takeOctet_checkHigh_bad⟩
    · exact (takeOctet_length hr hp).trans (if_pos ⟨hlo, hhi⟩)
    · exact (takeOctet_length hr hp).trans (if_neg (by omega))

end Sys2Proof.Machine
end

