-- ==== Sys2Proof/Proofs/ColdStart.lean ====
section
/-! A cold start (R170, R178, R180): retention memory found invalid, what is sampled over the cold-start values, and the
raises. -/

namespace Sys2Proof.Machine

/-! ### Which start follows (R178, R179) -/

theorem startsPart_iff (p : PowerSample) :
    startsPart p = true ↔ 18000 ≤ p.supply ∧ p.supply ≤ 32000 ∧ p.resetAsserted = false := by
  rw [startsPart, Bool.and_eq_true, decide_eq_true_iff, Bool.not_eq_true', and_assoc]
  rfl

/-- Retention memory as a cold start writes it, the hold list still empty (R180). -/
def coldMemory : Retained := { coldRetained with marker := true, checkCorrect := true }

/-- Without the marker, or with a wrong check, the start is cold (R178). -/
theorem startPart_invalid {memory : Retained} (h : memory.marker = false ∨ memory.checkCorrect = false)
    (sample : InputSample) (schedule : List RaisingBlock) (s : State) :
    startPart memory sample schedule s = startFrom coldMemory memory .cold sample schedule s := by
  refine if_neg ?_
  rw [Retained.valid]
  rcases h with h | h <;> simp [h]

theorem lostMemory_invalid (loss : RetentionLoss) (m : Retained) :
    (lostMemory loss m).marker = false ∨ (lostMemory loss m).checkCorrect = false := by
  cases loss
  · exact .inl rfl
  · exact .inr rfl

section Begins

variable {sample : InputSample} {schedule : List RaisingBlock} {s : State}

theorem exec_coldStart {loss : RetentionLoss}
    (h : 18000 ≤ sample.power.supply ∧ sample.power.supply ≤ 32000 ∧ sample.power.resetAsserted = false) :
    exec (.coldStart loss sample schedule) s =
      .next (startFrom coldMemory (lostMemory loss s.ret) .cold sample schedule s) :=
  (if_pos ((startsPart_iff _).2 h)).trans (congrArg _ (startPart_invalid (lostMemory_invalid loss s.ret) ..))

theorem exec_warmStart_invalid (hm : s.ret.marker = false ∨ s.ret.checkCorrect = false)
    (h : 18000 ≤ sample.power.supply ∧ sample.power.supply ≤ 32000 ∧ sample.power.resetAsserted = false) :
    exec (.warmStart sample schedule) s = .next (startFrom coldMemory s.ret .cold sample schedule s) :=
  (if_pos ((startsPart_iff _).2 h)).trans (congrArg _ (startPart_invalid hm ..))

/-- A start begins only within the operating range and with reset released (R179). -/
theorem exec_start_unpowered {loss : RetentionLoss}
    (h : ¬(18000 ≤ sample.power.supply ∧ sample.power.supply ≤ 32000 ∧ sample.power.resetAsserted = false)) :
    exec (.coldStart loss sample schedule) s = .next s ∧ exec (.warmStart sample schedule) s = .next s :=
  ⟨if_neg (mt (startsPart_iff _).1 h), if_neg (mt (startsPart_iff _).1 h)⟩

end Begins

/-! ### The raises of a cold start (R124) -/

/-- An entry of the hold list after a cold start: TRIP, raised at clock 0 for the first time (R103). -/
def coldHold (source : HoldSource) (reason : HoldReason) : HoldEntry :=
  { source := source, cls := .trip, reason := reason, time := 0, repeats := 0 }

/-- POWER, LOOP where loop IN is sampled OPEN, and VALVE where both limits are sampled (R124, R101). -/
def coldHolds (loopIn : LoopState) (jammed : Bool) : List HoldEntry :=
  coldHold .power .cold :: ((if loopIn = .opened then [coldHold .loop .opened] else []) ++
    if jammed then [coldHold .valve .bothLimits] else [])

section Raised

variable (prior : Retained) (sample : InputSample) (s : State)

/-- The state a cold start samples, with holds on the list. -/
def coldSampled (holds : List HoldEntry) : State :=
  { sampled coldMemory prior sample s with ret.holds := holds }

/-- POWER, then LOOP, are raised on the empty list (R124). -/
theorem ownRaises_cold : (ownRaises .cold (coldSampled prior sample s [])).foldl startRaise (coldSampled prior sample s []) =
    coldSampled prior sample s (coldHolds (coldSampled prior sample s []).loop.loopIn false) := by
  obtain ⟨hown, -⟩ := foldl_startRaise_own .cold (coldSampled prior sample s []) rfl
  have hholds : raisedHolds (ownRaises .cold (coldSampled prior sample s [])) (coldSampled prior sample s []) =
      coldHolds (coldSampled prior sample s []).loop.loopIn false := by
    unfold ownRaises coldHolds
    split <;> rfl
  rw [hown, hholds]
  rfl

/-- Undefined tanks and stages on tank fill leave the Watch nothing to do, and no step leaves the Governor none (R54, R65). -/
theorem recompute_cold (holds : List HoldEntry) :
    recompute (watchStarts (coldSampled prior sample s holds)) = coldSampled prior sample s holds := by
  have hwatch : watchStarts (coldSampled prior sample s holds) = coldSampled prior sample s holds := rfl
  rw [hwatch, recompute_idle _ (fun h => by cases h)]
  rfl

/-- Of the three blocks only the Valve Drive can raise: no tank is defined and no line has a function (R55, R101, R168). -/
theorem laterRaises_cold (schedule : List RaisingBlock) (holds : List HoldEntry) :
    laterRaises schedule (coldSampled prior sample s holds).ret.tanks (coldSampled prior sample s holds) =
      if decide (5000 ≤ sample.openLimit) && decide (5000 ≤ sample.closedLimit) then
        [{ source := .valve, cls := .trip, reason := .bothLimits }]
      else [] := by
  have hjam : (coldSampled prior sample s holds).valve = .jammed ↔
      (decide (5000 ≤ sample.openLimit) && decide (5000 ≤ sample.closedLimit)) = true := by
    show valveOf (controllerAtStart coldSettings sample).command (controllerAtStart coldSettings sample).closedLimit
      (controllerAtStart coldSettings sample).openLimit = .jammed ↔ _
    rw [controllerAtStart_eq]
    exact valveOf_closed_jammed _ _
  have hvalve : valveRaises (coldSampled prior sample s holds) =
      if decide (5000 ≤ sample.openLimit) && decide (5000 ≤ sample.closedLimit) then
        [{ source := .valve, cls := .trip, reason := .bothLimits }]
      else [] := if_congr hjam rfl rfl
  have hperm : (laterRaises schedule (coldSampled prior sample s holds).ret.tanks (coldSampled prior sample s holds)).Perm
      ([] ++ valveRaises (coldSampled prior sample s holds) ++ []) := interleave_perm schedule [] _ []
  rw [List.nil_append, List.append_nil, hvalve] at hperm
  split at hperm
  · next h => exact (List.perm_singleton.1 hperm).trans (if_pos h).symm
  · next h => exact (List.perm_nil.1 hperm).trans (if_neg h).symm

/-- The state a cold start leaves (R180). -/
theorem startFrom_cold (schedule : List RaisingBlock) : startFrom coldMemory prior .cold sample schedule s =
    coldSampled prior sample s (coldHolds (if 12000 ≤ sample.loopIn then .closed else .opened)
      (decide (5000 ≤ sample.openLimit) && decide (5000 ≤ sample.closedLimit))) := by
  have hin : (coldSampled prior sample s []).loop.loopIn = if 12000 ≤ sample.loopIn then .closed else .opened :=
    congrArg StopLoop.loopIn (loopAtStart_eq sample)
  rw [startFrom_of (u := coldSampled prior sample s []) rfl (ownRaises_cold ..) (recompute_cold ..), laterRaises_cold, hin]
  generalize (if 12000 ≤ sample.loopIn then LoopState.closed else .opened) = loopIn
  split
  · next hjam =>
    rw [hjam]
    cases loopIn <;> rfl
  · next hjam =>
    rw [Bool.not_eq_true] at hjam
    rw [hjam]
    rfl

end Raised

/-! ### The state a cold start leaves (R29, R77, R101, R140, R156, R168, R180, R183) -/

/-- Lines without a function are as sampled (R168, R169). -/
theorem linesAtStart_cold (lines : Vector Nat 6) : zipTable lineAtStart coldSettings.lines lines =
    mapTable (fun current =>
      { raw := decide (5000 ≤ current), active := decide (5000 ≤ current), count := 0, latch := false }) lines := by
  have hline (n : Fin 6) (current : Nat) : lineAtStart (at' coldSettings.lines n) current =
      { raw := decide (5000 ≤ current), active := decide (5000 ≤ current), count := 0, latch := false } := by
    have hcold : at' coldSettings.lines n = coldLine := by fin_cases n <;> rfl
    rw [hcold, lineAtStart_eq, coldLine, Bool.bne_false]
  ext i hi
  show at' (zipTable ..) ⟨i, hi⟩ = at' (mapTable _ lines) ⟨i, hi⟩
  rw [at'_zipTable, at'_mapTable, hline]

theorem linkAtStart_eq (straps : Bool × Bool) : linkAtStart straps =
    { startLink with rate := match straps with
      | (false, false) => .b9600
      | (true, false) => .b19200
      | (false, true) => .b38400
      | (true, true) => .b57600 } :=
  congrArg (fun r => { startLink with rate := r }) (strappedRate_eq straps)

/-- Settles O51: which start follows by `exec_coldStart` and `exec_warmStart_invalid`, what it leaves by `startFrom_cold`. -/
theorem coldStartRestoresDefaults : Obligations.ColdStartRestoresDefaults := by
  intro loss sample schedule s begins loopIn openLimit closedLimit hold agent line role link cold
  have hcold (memory : Retained) : startFrom coldMemory memory .cold sample schedule s = cold memory := by
    rw [startFrom_cold]
    unfold coldSampled sampled startPollTimer
    rw [controllerAtStart_eq, loopAtStart_eq, linkAtStart_eq, linkAtStart_eq, linkAtStart_eq]
    simp only [cold]
    rw [← linesAtStart_cold]
    rfl
  refine ⟨fun hb => ?_, ⟨rfl, rfl⟩, fun memory power hp => ⟨_, exec_partStops rfl hp, rfl, rfl⟩, fun hb hm => ?_,
    exec_start_unpowered⟩
  · rw [exec_coldStart hb, hcold]
  · rw [exec_warmStart_invalid hm hb, hcold]

end Sys2Proof.Machine
end

