-- ==== Sys2Proof/Proofs/LinkRefusals.lean ====
section
/-! What a link answers before a request reaches its owner: the overrun, the station's permission, the form (R191 to R193). -/

namespace Sys2Proof.Machine

/-! ### Refusals by the link (R191, R192, R193) -/

section Refusals

variable {link : Station} {type : RequestType} {tag : Byte} {formed : Bool} {owner : Event → Event × Answer} {s : State}

/-- A request that finds the queue full is lost (R191). -/
theorem request_full (hr : s.running = true) (hq : Config.queueCapacity ≤ (s.link link).queue.length) :
    request link type tag formed owner s = .next ((s.opened link).overrun link) := by
  have hfull : ((s.opened link).link link).full = true := by rw [State.opened_full, decide_eq_true hq]
  exact (if_pos hr).trans (if_pos hfull)

/-- A request that finds room is checked for its station, and then for its form (R192, R193). -/
theorem request_room (hr : s.running = true) (hq : (s.link link).queue.length < Config.queueCapacity) :
    request link type tag formed owner s =
      if type.permits link = false then .next (s.refused link type tag .notPermitted)
      else if formed = false then .next (s.refused link type tag .malformed)
      else .next ((owner (s.opened link).begin).1.reply link
        (replyFrame type tag (owner (s.opened link).begin).2.result (owner (s.opened link).begin).2.data)) := by
  have hroom : ((s.opened link).link link).full = false := by
    rw [State.opened_full]
    exact decide_eq_false (Nat.not_le.2 hq)
  exact (if_pos hr).trans (if_neg (Bool.eq_false_iff.1 hroom))

theorem request_malformed (ht : s.canTake link type) :
    request link type tag false owner s = .next (s.refused link type tag .malformed) := by
  obtain ⟨hr, hq, hp⟩ := ht
  rw [request_room hr hq, if_neg (by simp [hp]), if_pos rfl]

/-- A request that its owner declines changes nothing but its link, and is answered (R12, R171). -/
theorem request_refused {r : Result} (ht : s.canTake link type)
    (ho : owner (s.opened link).begin = refuse (s.opened link).begin r) :
    request link type tag true owner s = .next (s.refused link type tag r) := by
  rw [request_taken ht rfl, ho, Event.reply, refuse, State.begin_notices]
  rfl

theorem exec_unknownRequest {type : Byte} (hr : s.running = true) (ht : isRequestType type = false) :
    exec (.unknownRequest link tag type) s = .next
      (if Config.queueCapacity ≤ (s.link link).queue.length then (s.opened link).overrun link
      else (s.opened link).queueReply link (unknownReply tag type)) := by
  refine (if_neg (by simp [ht])).trans ((quietEvent_running hr).trans (congrArg _ ?_))
  have hfull := State.opened_full s link
  refine if_congr ?_ rfl rfl
  rw [← decide_eq_true_iff (p := Config.queueCapacity ≤ _), ← hfull]
  rfl

end Refusals

end Sys2Proof.Machine
end

