-- ==== Sys2Proof/Proofs/FrameOctets.lean ====
section
/-! The octets of a frame's data as numbers, counted lists and step contents, taken apart and put together (R195, R196). -/

namespace Sys2Proof.Machine

/-! ### Octets and numbers (R195) -/

/-- An octet of a frame's data as a number, 0 beyond its end. -/
def octetAt (data : List Byte) (k : Nat) : Nat := (data[k]?.map BitVec.toNat).getD 0

theorem le2_word2 (lo hi : Byte) : le2 (word2 lo hi).toNat = [lo, hi] := by
  have hlo : oct (lo.toNat + 256 * hi.toNat) = lo := by
    rw [BitVec.toNat_eq, oct_toNat]; omega
  have hhi : oct ((lo.toNat + 256 * hi.toNat) / 256) = hi := by
    rw [BitVec.toNat_eq, oct_toNat]; omega
  rw [word2_toNat, le2, hlo, hhi]

theorem word4_toNat (a b c d : Byte) :
    (word4 a b c d).toNat = a.toNat + 256 * b.toNat + 65536 * c.toNat + 16777216 * d.toNat := by
  have hword : word4 a b c d = word2 c d ++ word2 a b := rfl
  rw [hword, BitVec.toNat_append, ← Nat.shiftLeft_add_eq_or_of_lt (word2 a b).isLt, Nat.shiftLeft_eq, word2_toNat,
    word2_toNat]
  omega

theorem le4_word4 (a b c d : Byte) : le4 (word4 a b c d).toNat = [a, b, c, d] := by
  have ha := a.isLt
  have hb := b.isLt
  have hc := c.isLt
  have hd := d.isLt
  rw [word4_toNat, le4]
  simp only [List.cons.injEq, and_true, BitVec.toNat_eq, oct_toNat]
  omega

/-! ### Counted lists (R196) -/

/-- Octet pairs are the entries that they spell. -/
theorem pairsOf_spells {k : Nat} {l : List Byte} (h : l.length = 2 * k) :
    (pairsOf l).length = k ∧ ((pairsOf l).flatMap fun t => [t.tank, t.share]) = l := by
  induction k generalizing l with
  | zero =>
    rw [List.eq_nil_of_length_eq_zero h]
    exact ⟨rfl, rfl⟩
  | succ k ih =>
    obtain _ | ⟨a, _ | ⟨b, rest⟩⟩ := l
    · cases h
    · simp at h; omega
    · obtain ⟨hlen, hspell⟩ := ih (l := rest) (by simp at h; omega)
      refine ⟨congrArg (· + 1) hlen, ?_⟩
      show a :: b :: (pairsOf rest).flatMap _ = _
      rw [hspell]

/-- Groups of five octets are the entries that they spell. -/
theorem gaugesOf_spells {k : Nat} {l : List Byte} (h : l.length = 5 * k) :
    (gaugesOf l).length = k ∧ ((gaugesOf l).flatMap fun e => e.tank :: le4 e.contents.toNat) = l := by
  induction k generalizing l with
  | zero =>
    rw [List.eq_nil_of_length_eq_zero h]
    exact ⟨rfl, rfl⟩
  | succ k ih =>
    obtain _ | ⟨t, _ | ⟨a, _ | ⟨b, _ | ⟨c, _ | ⟨d, rest⟩⟩⟩⟩⟩ := l
    case cons.cons.cons.cons.cons =>
      obtain ⟨hlen, hspell⟩ := ih (l := rest) (by simp at h; omega)
      refine ⟨congrArg (· + 1) hlen, ?_⟩
      show t :: (le4 (word4 a b c d).toNat ++ (gaugesOf rest).flatMap _) = _
      rw [hspell, le4_word4]
      rfl
    all_goals simp at h
    all_goals omega

/-- A step content's octets: the length that its tank count gives (R196). -/
theorem contentOf_some {data : List Byte} {c : StepContent} (h : contentOf data = some c) :
    contentOctets c = data ∧ octetAt data 1 = c.tanks.length ∧ data.length = 8 + 2 * octetAt data 1 := by
  obtain _ | ⟨grade, _ | ⟨n, rest⟩⟩ := data
  · cases h
  · cases h
  · have hdata : contentOf (grade :: n :: rest) = if rest.length = 2 * n.toNat + 6 then
        match rest.drop (2 * n.toNat) with
        | [a, b, c, d, l, h] =>
          some { grade := grade, tanks := pairsOf (rest.take (2 * n.toNat)), quantity := word4 a b c d,
                 rateCap := word2 l h }
        | _ => none
      else none := rfl
    rw [hdata] at h
    split at h
    · next hlen =>
      split at h
      · next q0 q1 q2 q3 l0 l1 htail =>
        obtain ⟨htanks, hspell⟩ := pairsOf_spells (k := n.toNat) (l := rest.take (2 * n.toNat)) (by simp; omega)
        cases h
        refine ⟨?_, htanks.symm, ?_⟩
        · have hrest : rest = rest.take (2 * n.toNat) ++ [q0, q1, q2, q3, l0, l1] := by
            rw [← htail, List.take_append_drop]
          have hn : oct n.toNat = n := by rw [BitVec.toNat_eq, oct_toNat]; omega
          simp only [contentOctets, htanks, hspell, hn, le4_word4, le2_word2]
          rw [List.append_assoc, List.append_assoc]
          exact congrArg (fun l => grade :: n :: l) hrest.symm
        · simp only [List.length_cons, hlen]
          show _ = 8 + 2 * n.toNat
          omega
      · cases h
    · cases h

theorem contentOf_none {data : List Byte} (h : contentOf data = none) : data.length ≠ 8 + 2 * octetAt data 1 := by
  obtain _ | ⟨grade, _ | ⟨n, rest⟩⟩ := data
  · decide
  · show 1 ≠ 8 + 2 * 0
    decide
  · intro hlen
    have hoct : octetAt (grade :: n :: rest) 1 = n.toNat := rfl
    have hrest : rest.length = 2 * n.toNat + 6 := by
      rw [hoct, List.length_cons, List.length_cons] at hlen
      omega
    have htail : (rest.drop (2 * n.toNat)).length = 6 := by rw [List.length_drop]; omega
    obtain ⟨q0, q1, q2, q3, l0, l1, hq⟩ : ∃ a b c d l h, rest.drop (2 * n.toNat) = [a, b, c, d, l, h] := by
      match hd : rest.drop (2 * n.toNat), htail with
      | [a, b, c, d, l, h], _ => exact ⟨a, b, c, d, l, h, rfl⟩
    unfold contentOf at h
    simp only [hrest, if_true, hq] at h
    cases h

end Sys2Proof.Machine
end

