-- ==== Sys2Proof/Proofs/FrameRequests.lean ====
section
/-! The request that the octets of a frame spell, type by type, and what the link refuses (R171, R191 to R193, R196). -/

namespace Sys2Proof.Machine

/-! ### The request that a frame spells (R193, R196) -/

/-- What a frame of a known type leads to: the command that its octets spell where they fit, else MALFORMED. -/
def State.reads (s : State) (link : Station) (type : RequestType) (tag : Byte) (data : List Byte) (fits : Prop) : Prop :=
  (¬fits → takeTypedFrame link tag type data s = .next (s.refused link type tag .malformed)) ∧
    (fits → ∃ c : Instr, requestOf c = some (link, type, tag, true) ∧ requestData c = some (type, data) ∧
      takeTypedFrame link tag type data s = exec c s)

section Reads

variable {s : State} {link : Station} {type : RequestType} {tag : Byte} {data : List Byte} {fits : Prop}

theorem reads_malformed (ht : s.canTake link type) (hfits : ¬fits)
    (h : takeTypedFrame link tag type data s = malformed link type tag s) : s.reads link type tag data fits :=
  ⟨fun _ => h.trans (request_malformed ht), fun hf => absurd hf hfits⟩

/-- Octets that spell a command fit exactly where its counts do (R193). -/
theorem reads_counted {formed : Bool} (ht : s.canTake link type) (c : Instr)
    (hc : requestOf c = some (link, type, tag, formed)) (hd : requestData c = some (type, data))
    (h : takeTypedFrame link tag type data s = exec c s) (hfits : fits ↔ formed = true) :
    s.reads link type tag data fits := by
  refine ⟨fun hn => ?_, fun hf => ⟨c, by rw [hc, hfits.1 hf], hd, h⟩⟩
  have hformed : formed = false := Bool.eq_false_iff.2 (mt hfits.2 hn)
  rw [h, exec_eq_request hc, hformed]
  exact request_malformed ht

/-- Octets that spell a command without counts. -/
theorem reads_spelled (ht : s.canTake link type) (c : Instr) (hc : requestOf c = some (link, type, tag, true))
    (hd : requestData c = some (type, data)) (h : takeTypedFrame link tag type data s = exec c s) (hfits : fits) :
    s.reads link type tag data fits :=
  reads_counted ht c hc hd h (iff_of_true hfits rfl)

/-- A type whose requests have no data. -/
theorem reads_bare (ht : s.canTake link type) (c : Instr) (hc : requestOf c = some (link, type, tag, true))
    (hd : requestData c = some (type, [])) (h : takeTypedFrame link tag type [] s = exec c s)
    (hbad : ∀ x rest, takeTypedFrame link tag type (x :: rest) s = malformed link type tag s) :
    s.reads link type tag data (data.length = 0) := by
  cases data with
  | nil => exact reads_spelled ht c hc hd h rfl
  | cons x rest => exact reads_malformed ht (by simp) (hbad x rest)

/-- A type whose requests have one octet. -/
theorem reads_octet (ht : s.canTake link type) (c : Byte → Instr) (hc : ∀ x, requestOf (c x) = some (link, type, tag, true))
    (hd : ∀ x, requestData (c x) = some (type, [x])) (h : ∀ x, takeTypedFrame link tag type [x] s = exec (c x) s)
    (hnil : takeTypedFrame link tag type [] s = malformed link type tag s)
    (hbad : ∀ x y rest, takeTypedFrame link tag type (x :: y :: rest) s = malformed link type tag s) :
    s.reads link type tag data (data.length = 1) := by
  obtain _ | ⟨x, _ | ⟨y, rest⟩⟩ := data
  · exact reads_malformed ht (by simp) hnil
  · exact reads_spelled ht (c x) (hc x) (hd x) (h x) rfl
  · exact reads_malformed ht (by simp) (hbad x y rest)

/-- A type whose requests have two octets. -/
theorem reads_octets (ht : s.canTake link type) (c : Byte → Byte → Instr)
    (hc : ∀ x y, requestOf (c x y) = some (link, type, tag, true)) (hd : ∀ x y, requestData (c x y) = some (type, [x, y]))
    (h : ∀ x y, takeTypedFrame link tag type [x, y] s = exec (c x y) s)
    (hnil : takeTypedFrame link tag type [] s = malformed link type tag s)
    (hone : ∀ x, takeTypedFrame link tag type [x] s = malformed link type tag s)
    (hbad : ∀ x y z rest, takeTypedFrame link tag type (x :: y :: z :: rest) s = malformed link type tag s) :
    s.reads link type tag data (data.length = 2) := by
  obtain _ | ⟨x, _ | ⟨y, _ | ⟨z, rest⟩⟩⟩ := data
  · exact reads_malformed ht (by simp) hnil
  · exact reads_malformed ht (by simp) (hone x)
  · exact reads_spelled ht (c x y) (hc x y) (hd x y) (h x y) rfl
  · exact reads_malformed ht (by simp) (hbad x y z rest)

/-- A count octet within its bounds, and the length that it gives. -/
def counted (data : List Byte) (k most fixed each : Nat) : Prop :=
  1 ≤ octetAt data k ∧ octetAt data k ≤ most ∧ data.length = fixed + each * octetAt data k

theorem reads_open (ht : s.canTake link .openTransfer) :
    s.reads link .openTransfer tag data (counted data 2 4 3 1) := by
  obtain _ | ⟨a, _ | ⟨b, _ | ⟨n, grades⟩⟩⟩ := data
  case cons.cons.cons =>
    have htake : takeTypedFrame link tag .openTransfer (a :: b :: n :: grades) s =
        if grades.length = n.toNat then execOpen link tag (word2 a b) grades s
        else malformed link .openTransfer tag s := rfl
    have hcount : counted (a :: b :: n :: grades) 2 4 3 1 ↔
        1 ≤ n.toNat ∧ n.toNat ≤ 4 ∧ grades.length + 3 = 3 + 1 * n.toNat := .rfl
    by_cases hlen : grades.length = n.toNat
    · have hn : oct grades.length = n := by rw [BitVec.toNat_eq, oct_toNat]; omega
      refine reads_counted ht (.openTransfer link tag (word2 a b) grades) rfl ?_ (htake.trans (if_pos hlen)) ?_
      · rw [requestData, le2_word2, hn]
        rfl
      · rw [hcount, decide_eq_true_iff]
        omega
    · exact reads_malformed ht (by rw [hcount]; omega) (htake.trans (if_neg hlen))
  all_goals exact reads_malformed ht (fun ⟨h, _⟩ => Nat.not_succ_le_zero 0 h) rfl

theorem reads_propose (ht : s.canTake link .propose) : s.reads link .propose tag data (counted data 1 3 8 2) := by
  have htake : takeTypedFrame link tag .propose data s = match contentOf data with
    | some c => execPropose link tag c s
    | none => malformed link .propose tag s := rfl
  cases hc : contentOf data with
  | none =>
    rw [hc] at htake
    exact reads_malformed ht (fun ⟨_, _, h⟩ => contentOf_none hc h) htake
  | some c =>
    rw [hc] at htake
    obtain ⟨hspell, hcount, hlen⟩ := contentOf_some hc
    refine reads_counted ht (.propose link tag c) rfl (by rw [requestData, hspell]) htake ?_
    rw [counted, hcount, decide_eq_true_iff]
    exact ⟨fun ⟨h1, h3, _⟩ => ⟨h1, h3⟩, fun ⟨h1, h3⟩ => ⟨h1, h3, hcount ▸ hlen⟩⟩

theorem reads_amend (ht : s.canTake link .amend) : s.reads link .amend tag data (counted data 2 3 9 2) := by
  obtain _ | ⟨n, rest⟩ := data
  · exact reads_malformed ht (fun ⟨h, _⟩ => Nat.not_succ_le_zero 0 h) rfl
  · have htake : takeTypedFrame link tag .amend (n :: rest) s = match contentOf rest with
      | some c => execAmend link tag n c s
      | none => malformed link .amend tag s := rfl
    have hcounted : counted (n :: rest) 2 3 9 2 ↔
        1 ≤ octetAt rest 1 ∧ octetAt rest 1 ≤ 3 ∧ rest.length + 1 = 9 + 2 * octetAt rest 1 := .rfl
    cases hc : contentOf rest with
    | none =>
      rw [hc] at htake
      have hlen := contentOf_none hc
      exact reads_malformed ht (by rw [hcounted]; omega) htake
    | some c =>
      rw [hc] at htake
      obtain ⟨hspell, hcount, hlen⟩ := contentOf_some hc
      refine reads_counted ht (.amend link tag n c) rfl (by rw [requestData, hspell]) htake ?_
      rw [hcounted, decide_eq_true_iff]
      omega

theorem reads_gauge (ht : s.canTake link .gauge) : s.reads link .gauge tag data (counted data 0 8 1 5) := by
  obtain _ | ⟨n, rest⟩ := data
  · exact reads_malformed ht (fun ⟨h, _⟩ => Nat.not_succ_le_zero 0 h) rfl
  · have htake : takeTypedFrame link tag .gauge (n :: rest) s =
        if rest.length = 5 * n.toNat then execGauge link tag (gaugesOf rest) s else malformed link .gauge tag s := rfl
    have hcounted : counted (n :: rest) 0 8 1 5 ↔
        1 ≤ n.toNat ∧ n.toNat ≤ 8 ∧ rest.length + 1 = 1 + 5 * n.toNat := .rfl
    by_cases hlen : rest.length = 5 * n.toNat
    · obtain ⟨hcount, hspell⟩ := gaugesOf_spells hlen
      have hn : oct n.toNat = n := by rw [BitVec.toNat_eq, oct_toNat]; omega
      refine reads_counted ht (.gauge link tag (gaugesOf rest)) rfl ?_ (htake.trans (if_pos hlen)) ?_
      · rw [requestData, hspell, hcount, hn]
      · rw [hcounted, decide_eq_true_iff]
        omega
    · exact reads_malformed ht (by rw [hcounted]; omega) (htake.trans (if_neg hlen))

theorem reads_tankdef (ht : s.canTake link .tankdef) : s.reads link .tankdef tag data (data.length = 10) := by
  rcases data with
    _ | ⟨i, _ | ⟨f, _ | ⟨a, _ | ⟨b, _ | ⟨c, _ | ⟨d, _ | ⟨hl, _ | ⟨hh, _ | ⟨tl, _ | ⟨th, _ | ⟨x, rest⟩⟩⟩⟩⟩⟩⟩⟩⟩⟩⟩
  iterate 10 exact reads_malformed ht (by simp) rfl
  · refine reads_spelled ht (.tankdef link tag i
      { flag := f, capacity := word4 a b c d, high := word2 hl hh, trip := word2 tl th }) rfl ?_ rfl rfl
    rw [requestData, le4_word4, le2_word2, le2_word2]
    rfl
  · exact reads_malformed ht (by simp) rfl

theorem reads_stagedef (ht : s.canTake link .stagedef) : s.reads link .stagedef tag data (data.length = 9) := by
  rcases data with
    _ | ⟨i, _ | ⟨en, _ | ⟨inp, _ | ⟨el, _ | ⟨eh, _ | ⟨ll, _ | ⟨lh, _ | ⟨m, _ | ⟨k, _ | ⟨x, rest⟩⟩⟩⟩⟩⟩⟩⟩⟩⟩
  iterate 9 exact reads_malformed ht (by simp) rfl
  · refine reads_spelled ht (.stagedef link tag i
      { enabled := en, input := inp, enter := word2 el eh, leave := word2 ll lh, mode := m, k := k }) rfl ?_ rfl rfl
    rw [requestData, le2_word2, le2_word2]
    rfl
  · exact reads_malformed ht (by simp) rfl

end Reads

section Reads

variable {s : State} {link : Station} {tag : Byte} {data : List Byte}

/-! ### READ (R196, R198) -/

/-- A selector with its length: 1 and 5 name a record or a group besides (R198). -/
def readFits (data : List Byte) : Prop :=
  (octetAt data 0 = 1 ∨ octetAt data 0 = 5) ∧ data.length = 2 ∨
    (octetAt data 0 = 2 ∨ octetAt data 0 = 3 ∨ octetAt data 0 = 4 ∨ octetAt data 0 = 6 ∨ octetAt data 0 = 7 ∨
      octetAt data 0 = 8) ∧ data.length = 1

theorem readFits_one (sel : Byte) : readFits [sel] ↔
    sel.toNat = 2 ∨ sel.toNat = 3 ∨ sel.toNat = 4 ∨ sel.toNat = 6 ∨ sel.toNat = 7 ∨ sel.toNat = 8 :=
  ⟨fun h => h.elim (fun h => by cases h.2) And.left, fun h => .inr ⟨h, rfl⟩⟩

theorem readFits_two (sel x : Byte) : readFits [sel, x] ↔ sel.toNat = 1 ∨ sel.toNat = 5 :=
  ⟨fun h => h.elim And.left (fun h => by cases h.2), fun h => .inl ⟨h, rfl⟩⟩

/-- A selector that names what is read spells its command. -/
theorem reads_selected {sel k : Byte} {rest : List Byte} (ht : s.canTake link .read) (hfits : readFits (sel :: rest))
    (hk : sel.toNat = k.toNat) (c : Instr) (hc : requestOf c = some (link, .read, tag, true))
    (hd : requestData c = some (.read, k :: rest)) (h : takeReadFrame link tag (k :: rest) s = exec c s) :
    s.reads link .read tag (sel :: rest) (readFits (sel :: rest)) := by
  obtain rfl := BitVec.eq_of_toNat_eq hk
  exact reads_spelled ht c hc hd h hfits

theorem reads_read (ht : s.canTake link .read) : s.reads link .read tag data (readFits data) := by
  obtain _ | ⟨sel, _ | ⟨x, _ | ⟨y, rest⟩⟩⟩ := data
  · exact reads_malformed ht (by simp [readFits]) rfl
  · by_cases hfits : readFits [sel]
    · have spelled {k : Byte} (hk : sel.toNat = k.toNat) := reads_selected (tag := tag) ht hfits hk
      rcases (readFits_one sel).1 hfits with hk | hk | hk | hk | hk | hk
      · exact spelled (k := 2#8) hk (.readLists link tag) rfl rfl rfl
      · exact spelled (k := 3#8) hk (.readTotals link tag) rfl rfl rfl
      · exact spelled (k := 4#8) hk (.readHolds link tag) rfl rfl rfl
      · exact spelled (k := 6#8) hk (.readLines link tag) rfl rfl rfl
      · exact spelled (k := 7#8) hk (.readInstruments link tag) rfl rfl rfl
      · exact spelled (k := 8#8) hk (.readCounters link tag) rfl rfl rfl
    · refine reads_malformed ht hfits ?_
      rw [readFits_one] at hfits
      show takeReadFrame link tag [sel] s = _
      simp only [takeReadFrame]
      split
      iterate 6 omega
      rfl
  · by_cases hfits : readFits [sel, x]
    · have spelled {k : Byte} (hk : sel.toNat = k.toNat) := reads_selected (tag := tag) ht hfits hk
      rcases (readFits_two sel x).1 hfits with hk | hk
      · exact spelled (k := 1#8) hk (.readStep link tag x) rfl rfl rfl
      · exact spelled (k := 5#8) hk (.readTanks link tag x) rfl rfl rfl
    · refine reads_malformed ht hfits ?_
      rw [readFits_two] at hfits
      show takeReadFrame link tag [sel, x] s = _
      simp only [takeReadFrame]
      split
      iterate 2 omega
      rfl
  · exact reads_malformed ht (by simp [readFits]) rfl

/-! ### SET (R171, R196) -/

/-- The codes of R196's table. -/
abbrev listedCode (code : Nat) : Prop := 1 ≤ code ∧ code ≤ 0x16 ∨ code = 0x20 ∨ code = 0x21

theorem unlistedCode_iff (code : Byte) : unlistedCode code = true ↔ ¬listedCode code.toNat := by
  rw [unlistedCode, decide_eq_true_iff, listedCode]
  omega

/-- The length that a SET's code gives; an unlisted code has any of the three (R196). -/
def setFits (data : List Byte) : Prop :=
  if octetAt data 0 = 0x0F then data.length = 10
  else if octetAt data 0 = 0x10 then data.length = 7
  else if listedCode (octetAt data 0) then data.length = 4
  else data.length = 4 ∨ data.length = 7 ∨ data.length = 10

/-- A code that names a setting (R170, R196). -/
def settable (data : List Byte) : Prop := 1 ≤ octetAt data 0 ∧ octetAt data 0 ≤ 0x13

/-- A SET's frame: MALFORMED, the owner's refusal of what is no setting, or the command that it spells. -/
def State.readsSet (s : State) (link : Station) (tag : Byte) (data : List Byte) : Prop :=
  (¬setFits data → takeSetFrame link tag data s = .next (s.refused link .set tag .malformed)) ∧
    (setFits data → ¬settable data → takeSetFrame link tag data s = .next (s.refused link .set tag
      (if 0x14 ≤ octetAt data 0 ∧ octetAt data 0 ≤ 0x16 then .notOwner else .range))) ∧
    (setFits data → settable data → ∃ c : Instr, requestOf c = some (link, .set, tag, true) ∧
      requestData c = some (.set, data) ∧ takeSetFrame link tag data s = exec c s)

theorem readsSet_malformed (ht : s.canTake link .set) (hfits : ¬setFits data)
    (h : takeSetFrame link tag data s = malformed link .set tag s) : s.readsSet link tag data :=
  ⟨fun _ => h.trans (request_malformed ht), fun hf => absurd hf hfits, fun hf => absurd hf hfits⟩

theorem readsSet_spelled (c : Instr) (hc : requestOf c = some (link, .set, tag, true))
    (hd : requestData c = some (.set, data)) (h : takeSetFrame link tag data s = exec c s) (hfits : setFits data)
    (hset : settable data) : s.readsSet link tag data :=
  ⟨fun hn => absurd hfits hn, fun _ hn => absurd hset hn, fun _ _ => ⟨c, hc, hd, h⟩⟩

/-- A SET of what is no setting is refused: NOT-OWNER for a read-only item, else RANGE (R171). -/
theorem readsSet_other {code : Byte} {rest : List Byte} (ht : s.canTake link .set)
    (h : takeSetFrame link tag (code :: rest) s = request link .set tag true (takeSetOther code) s)
    (hfits : setFits (code :: rest)) (hset : ¬settable (code :: rest)) : s.readsSet link tag (code :: rest) := by
  refine ⟨fun hn => absurd hfits hn, fun _ _ => h.trans (request_refused ht ?_), fun _ hs => absurd hs hset⟩
  have hreadOnly : (code = 0x14#8 ∨ code = 0x15#8 ∨ code = 0x16#8) ↔ 0x14 ≤ code.toNat ∧ code.toNat ≤ 0x16 := by
    simp only [BitVec.toNat_eq, BitVec.toNat_ofNat]
    omega
  show takeSetOther code _ = refuse _ (if 0x14 ≤ code.toNat ∧ code.toNat ≤ 0x16 then .notOwner else .range)
  rw [takeSetOther, ← apply_ite (refuse _)]
  exact congrArg _ (if_congr hreadOnly rfl rfl)

/-- A SET of one number spells the command that its code names. -/
theorem takeSetNumber_spelled {code index : Byte} {v : Word16} (hlo : 1 ≤ code.toNat) (hhi : code.toNat ≤ 0x13)
    (hagent : code.toNat ≠ 0x0F) (hline : code.toNat ≠ 0x10) : ∃ c : Instr, requestOf c = some (link, .set, tag, true) ∧
      requestData c = some (.set, [code, index] ++ le2 v.toNat) ∧ takeSetNumber link tag code index v s = exec c s := by
  have spelled (c : Instr) (k : Byte) (hk : code.toNat = k.toNat) (hc : requestOf c = some (link, .set, tag, true))
      (hd : requestData c = some (.set, [k, index] ++ le2 v.toNat)) : ∃ c' : Instr,
      requestOf c' = some (link, .set, tag, true) ∧ requestData c' = some (.set, [code, index] ++ le2 v.toNat) ∧
        exec c s = exec c' s := by
    rw [BitVec.eq_of_toNat_eq hk]
    exact ⟨c, hc, hd, rfl⟩
  have limit (w : RateLimit) (h : code.toNat = (limitCode w).toNat) :=
    spelled (.setRateLimits link tag w index v) _ h rfl rfl
  have stopTime (w : StopTime) (h : code.toNat = (stopTimeCode w).toNat) :=
    spelled (.setStopTimes link tag w index v) _ h rfl rfl
  have timer (w : TimerSetting) (h : code.toNat = (timerCode w).toNat) :=
    spelled (.setTimerSetting link tag w index v) _ h rfl rfl
  unfold takeSetNumber
  split
  · next h => exact limit .rmax h
  · next h => exact limit .rmin h
  · next h => exact timer .u h
  · next h => exact stopTime .tstop h
  · next h => exact limit .cb h
  · next h => exact stopTime .rundown h
  · next h => exact timer .topen h
  · next h => exact stopTime .tclose h
  · next h => exact timer .confirm h
  · next h => exact timer .settle h
  · next h => exact timer (.silence .barge) h
  · next h => exact timer (.silence .ship) h
  · next h => exact timer (.silence .survey) h
  · next h => exact timer .poll h
  · next h => exact spelled (.setS link tag index v) 0x11#8 h rfl rfl
  · next h => exact spelled (.setW link tag index v) 0x12#8 h rfl rfl
  · next h => exact spelled (.setNoFlow link tag index v) 0x13#8 h rfl rfl
  · grind

/-- A listed code that is no setting (R196). -/
theorem takeSetNumber_other {code index : Byte} {v : Word16} (h : 0x13 < code.toNat) :
    takeSetNumber link tag code index v s = request link .set tag true (takeSetOther code) s := by
  unfold takeSetNumber
  split
  iterate 17 omega
  rfl

section Codes

variable {code index : Byte} {rest value : List Byte}

theorem settable_cons : settable (code :: rest) ↔ 1 ≤ code.toNat ∧ code.toNat ≤ 0x13 := .rfl

theorem setFits_agent : setFits (0x0F#8 :: rest) ↔ rest.length = 9 :=
  (iff_of_eq (if_pos rfl)).trans Nat.succ_inj

theorem setFits_line : setFits (0x10#8 :: rest) ↔ rest.length = 6 :=
  (iff_of_eq ((if_neg fun h => absurd (a := (0x10#8 : Byte).toNat = 0x0F) h (by decide)).trans (if_pos rfl))).trans
    Nat.succ_inj

theorem setFits_number (hagent : code.toNat ≠ 0x0F) (hline : code.toNat ≠ 0x10) (h : listedCode code.toNat) :
    setFits (code :: rest) ↔ rest.length = 3 :=
  (iff_of_eq ((if_neg hagent).trans ((if_neg hline).trans (if_pos h)))).trans Nat.succ_inj

theorem setFits_unlisted (h : ¬listedCode code.toNat) :
    setFits (code :: rest) ↔ rest.length = 3 ∨ rest.length = 6 ∨ rest.length = 9 := by
  have hagent : code.toNat ≠ 0x0F := fun hc => h (by rw [hc]; decide)
  have hline : code.toNat ≠ 0x10 := fun hc => h (by rw [hc]; decide)
  refine (iff_of_eq ((if_neg hagent).trans ((if_neg hline).trans (if_neg h)))).trans ?_
  rw [List.length_cons]
  omega

theorem readsSet_unlisted (ht : s.canTake link .set) (h : ¬listedCode code.toNat) :
    s.readsSet link tag (code :: index :: value) := by
  have htake : takeSetFrame link tag (code :: index :: value) s =
      if value.length = 2 ∨ value.length = 5 ∨ value.length = 8 then request link .set tag true (takeSetOther code) s
      else malformed link .set tag s := if_pos ((unlistedCode_iff code).2 h)
  have hfits : setFits (code :: index :: value) ↔ value.length = 2 ∨ value.length = 5 ∨ value.length = 8 := by
    rw [setFits_unlisted h, List.length_cons]
    omega
  have hset : ¬settable (code :: index :: value) := by
    show ¬(1 ≤ code.toNat ∧ code.toNat ≤ 0x13)
    unfold listedCode at h
    omega
  by_cases hlen : value.length = 2 ∨ value.length = 5 ∨ value.length = 8
  · exact readsSet_other ht (htake.trans (if_pos hlen)) (hfits.2 hlen) hset
  · exact readsSet_malformed ht (mt hfits.1 hlen) (htake.trans (if_neg hlen))

theorem readsSet_agent (ht : s.canTake link .set) : s.readsSet link tag (0x0F#8 :: index :: value) := by
  rcases value with
    _ | ⟨en, _ | ⟨role, _ | ⟨ch, _ | ⟨use, _ | ⟨wl, _ | ⟨wh, _ | ⟨tl, _ | ⟨th, _ | ⟨x, rest⟩⟩⟩⟩⟩⟩⟩⟩⟩
  iterate 8 exact readsSet_malformed ht (by simp [setFits_agent]) rfl
  · refine readsSet_spelled (.setAgentConfiguration link tag index
      { enabled := en, role := role, channels := ch, use := use, warn := word2 wl wh, trip := word2 tl th })
      rfl ?_ rfl (setFits_agent.2 rfl) (settable_cons.2 (by decide))
    rw [requestData, le2_word2, le2_word2]
    rfl
  · exact readsSet_malformed ht (by simp [setFits_agent]) rfl

theorem readsSet_line (ht : s.canTake link .set) : s.readsSet link tag (0x10#8 :: index :: value) := by
  rcases value with _ | ⟨f, _ | ⟨inv, _ | ⟨d, _ | ⟨t, _ | ⟨n, _ | ⟨x, rest⟩⟩⟩⟩⟩⟩
  iterate 5 exact readsSet_malformed ht (by simp [setFits_line]) rfl
  · exact readsSet_spelled (.setLineConfiguration link tag index
      { function := f, inversion := inv, debounce := d, trigger := t, notify := n })
      rfl rfl rfl (setFits_line.2 rfl) (settable_cons.2 (by decide))
  · exact readsSet_malformed ht (by simp [setFits_line]) rfl

theorem readsSet_number (ht : s.canTake link .set) (hagent : code.toNat ≠ 0x0F) (hline : code.toNat ≠ 0x10)
    (h : listedCode code.toNat) : s.readsSet link tag (code :: index :: value) := by
  have hlisted : ¬unlistedCode code = true := fun hu => (unlistedCode_iff code).1 hu h
  have htake : takeSetFrame link tag (code :: index :: value) s = match value with
      | [l, h] => takeSetNumber link tag code index (word2 l h) s
      | _ => malformed link .set tag s :=
    (if_neg hlisted).trans ((if_neg fun hc => hagent (by rw [hc]; rfl)).trans (if_neg fun hc => hline (by rw [hc]; rfl)))
  have hfits : setFits (code :: index :: value) ↔ value.length + 1 = 3 := setFits_number hagent hline h
  obtain _ | ⟨lo, _ | ⟨hi, _ | ⟨x, rest⟩⟩⟩ := value
  · exact readsSet_malformed ht (by simp [hfits]) htake
  · exact readsSet_malformed ht (by simp [hfits]) htake
  · by_cases hset : code.toNat ≤ 0x13
    · have hlo : 1 ≤ code.toNat := by unfold listedCode at h; omega
      obtain ⟨c, hc, hd, hexec⟩ := takeSetNumber_spelled (s := s) (link := link) (tag := tag) (index := index)
        (v := word2 lo hi) hlo hset hagent hline
      rw [le2_word2] at hd
      exact readsSet_spelled c hc hd (htake.trans hexec) (hfits.2 rfl) ⟨hlo, hset⟩
    · exact readsSet_other ht (htake.trans (takeSetNumber_other (Nat.lt_of_not_le hset))) (hfits.2 rfl) fun hs => hset hs.2
  · exact readsSet_malformed ht (by simp [hfits]) htake

end Codes

theorem readsSet_frame (ht : s.canTake link .set) : s.readsSet link tag data := by
  obtain _ | ⟨code, _ | ⟨index, value⟩⟩ := data
  · exact readsSet_malformed ht (by simp [setFits, octetAt]) rfl
  · refine readsSet_malformed ht ?_ rfl
    unfold setFits
    split_ifs <;> simp
  · by_cases hlisted : listedCode code.toNat
    · by_cases hagent : code.toNat = 0x0F
      · obtain rfl : code = 0x0F#8 := BitVec.eq_of_toNat_eq hagent
        exact readsSet_agent ht
      · by_cases hline : code.toNat = 0x10
        · obtain rfl : code = 0x10#8 := BitVec.eq_of_toNat_eq hline
          exact readsSet_line ht
        · exact readsSet_number ht hagent hline hlisted
    · exact readsSet_unlisted ht hlisted

end Reads
/-! ### Frames of a known type (R193) -/

theorem typeOfCode_code (type : RequestType) : typeOfCode type.code = some type := by cases type <;> rfl

theorem takeFrame_code (link : Station) (type : RequestType) (tag : Byte) (data : List Byte) (s : State) :
    takeFrame link type.code tag data s = takeTypedFrame link tag type data s := by
  rw [takeFrame, typeOfCode_code]

/-- Settles O4: the queue, the station and the form by `request_full` and `request_room`; a frame's octets type by type. -/
theorem linkRefusesRequest : Obligations.LinkRefusesRequest := by
  refine ⟨fun link s hr hq => ⟨?_, fun tag type ht => ?_, fun c type tag formed hc => ?_⟩,
    fun link s hr hq => ⟨fun tag type ht => ?_, fun c type tag formed hc => ⟨fun hp => ?_, fun hp hf => ?_⟩⟩,
    fun type link => ?_, fun link type tag data s ht => ?_, fun link s => ⟨rfl, rfl⟩⟩
  · exact (if_pos (decide_eq_true hq)).trans (quietEvent_running hr)
  · rw [exec_unknownRequest hr ht, if_pos hq]
  · rw [exec_eq_request hc, request_full hr hq]
  · rw [exec_unknownRequest hr ht, if_neg (Nat.not_le.2 hq)]
    rfl
  · rw [exec_eq_request hc, request_room hr hq, if_pos hp]
  · rw [exec_eq_request hc, hf, request_malformed ⟨hr, hq, hp⟩]
  · cases type <;> rfl
  · intro octet counted listed fits settable
    rw [takeFrame_code]
    have reads {fits : Prop} (hne : type ≠ .set) (h : s.reads link type tag data fits) :
        (¬fits → takeTypedFrame link tag type data s = .next (s.refused link type tag .malformed)) ∧
        (fits → type = .set → ¬settable → takeTypedFrame link tag type data s = .next (s.refused link .set tag
          (if 0x14 ≤ octet 0 ∧ octet 0 ≤ 0x16 then .notOwner else .range))) ∧
        (fits → (type = .set → settable) → ∃ c : Instr, requestOf c = some (link, type, tag, true) ∧
          requestData c = some (type, data) ∧ takeTypedFrame link tag type data s = exec c s) :=
      ⟨h.1, fun _ he => absurd he hne, fun hf _ => h.2 hf⟩
    cases type with
    | openTransfer => exact reads (by decide) (reads_open ht)
    | joinTransfer => exact reads (by decide) (reads_bare ht (.joinTransfer link tag) rfl rfl rfl fun _ _ => rfl)
    | closeTransfer => exact reads (by decide) (reads_bare ht (.closeTransfer link tag) rfl rfl rfl fun _ _ => rfl)
    | propose => exact reads (by decide) (reads_propose ht)
    | amend => exact reads (by decide) (reads_amend ht)
    | agree =>
      exact reads (by decide) (reads_octet ht (.agree link tag) (fun _ => rfl) (fun _ => rfl) (fun _ => rfl) rfl
        fun _ _ _ => rfl)
    | revise =>
      exact reads (by decide) (reads_octets ht (.revise link tag) (fun _ _ => rfl) (fun _ _ => rfl) (fun _ _ => rfl) rfl
        (fun _ => rfl) fun _ _ _ _ => rfl)
    | withdraw =>
      exact reads (by decide) (reads_octet ht (.withdraw link tag) (fun _ => rfl) (fun _ => rfl) (fun _ => rfl) rfl
        fun _ _ _ => rfl)
    | startStep => exact reads (by decide) (reads_bare ht (.startStep link tag) rfl rfl rfl fun _ _ => rfl)
    | lined =>
      exact reads (by decide) (reads_octet ht (.lined link tag) (fun _ => rfl) (fun _ => rfl) (fun _ => rfl) rfl
        fun _ _ _ => rfl)
    | stopStep => exact reads (by decide) (reads_bare ht (.stopStep link tag) rfl rfl rfl fun _ _ => rfl)
    | hold =>
      exact reads (by decide) (reads_octets ht (.hold link tag) (fun _ _ => rfl) (fun _ _ => rfl) (fun _ _ => rfl) rfl
        (fun _ => rfl) fun _ _ _ _ => rfl)
    | release =>
      exact reads (by decide) (reads_octet ht (.release link tag) (fun _ => rfl) (fun _ => rfl) (fun _ => rfl) rfl
        fun _ _ _ => rfl)
    | clear =>
      exact reads (by decide) (reads_octet ht (.clear link tag) (fun _ => rfl) (fun _ => rfl) (fun _ => rfl) rfl
        fun _ _ _ => rfl)
    | gauge => exact reads (by decide) (reads_gauge ht)
    | tankdef => exact reads (by decide) (reads_tankdef ht)
    | stagedef => exact reads (by decide) (reads_stagedef ht)
    | set =>
      obtain ⟨hbad, hother, hset⟩ := readsSet_frame (tag := tag) (data := data) ht
      exact ⟨hbad, fun hf _ => hother hf, fun hf hs => hset hf (hs rfl)⟩
    | get =>
      exact reads (by decide) (reads_octets ht (.getSetting link tag) (fun _ _ => rfl) (fun _ _ => rfl) (fun _ _ => rfl) rfl
        (fun _ => rfl) fun _ _ _ _ => rfl)
    | read => exact reads (by decide) (reads_read ht)
    | take => exact reads (by decide) (reads_bare ht (.take link tag) rfl rfl rfl fun _ _ => rfl)
    | status => exact reads (by decide) (reads_bare ht (.status link tag) rfl rfl rfl fun _ _ => rfl)

end Sys2Proof.Machine
end

