-- ==== Sys2Proof/Proofs/RequestOctets.lean ====
section
/-! The request that a station sends, taken apart again: the octets of every command spell that command (R193 to R196). -/

namespace Sys2Proof.Machine

/-! ### Octets and numbers (R195) -/

theorem word2_le2 (v : Word16) : word2 (oct v.toNat) (oct (v.toNat / 256)) = v := by
  have hv := v.isLt
  rw [BitVec.toNat_eq, word2_toNat, oct_toNat, oct_toNat]
  omega

theorem word4_le4 (v : Word32) :
    word4 (oct v.toNat) (oct (v.toNat / 256)) (oct (v.toNat / 65536)) (oct (v.toNat / 16777216)) = v := by
  have hv := v.isLt
  rw [BitVec.toNat_eq, word4_toNat]
  simp only [oct_toNat]
  omega

/-! ### Counted lists (R196) -/

theorem pairsOf_octets (l : List TankShare) : pairsOf (l.flatMap fun t => [t.tank, t.share]) = l := by
  induction l with
  | nil => rfl
  | cons t rest ih => exact congrArg (t :: ·) ih

theorem gaugesOf_octets (l : List GaugeEntry) : gaugesOf (l.flatMap fun e => e.tank :: le4 e.contents.toNat) = l := by
  induction l with
  | nil => rfl
  | cons e rest ih =>
    have hfirst : gaugesOf ((e :: rest).flatMap fun e => e.tank :: le4 e.contents.toNat) =
        { tank := e.tank, contents := word4 (oct e.contents.toNat) (oct (e.contents.toNat / 256))
            (oct (e.contents.toNat / 65536)) (oct (e.contents.toNat / 16777216)) } ::
          gaugesOf (rest.flatMap fun e => e.tank :: le4 e.contents.toNat) := rfl
    rw [hfirst, word4_le4, ih]

/-- A step content is read from its own octets, where its tank count fits an octet (R196). -/
theorem contentOf_octets {c : StepContent} (h : c.tanks.length < 256) : contentOf (contentOctets c) = some c := by
  obtain ⟨grade, tanks, quantity, rateCap⟩ := c
  dsimp only at h
  have hcount : (oct tanks.length).toNat = tanks.length := by rw [oct_toNat, Nat.mod_eq_of_lt h]
  have hlen : (tanks.flatMap fun t => [t.tank, t.share]).length = 2 * tanks.length := by simp [Nat.mul_comm]
  have htake := List.take_left' (l₂ := le4 quantity.toNat ++ le2 rateCap.toNat) hlen
  have hdrop := List.drop_left' (l₂ := le4 quantity.toNat ++ le2 rateCap.toNat) hlen
  simp only [contentOf, contentOctets, List.cons_append, List.nil_append, List.append_assoc, hcount, htake, hdrop]
  rw [if_pos (by simp only [List.length_append, hlen, le4, le2, List.length_cons, List.length_nil])]
  simp only [le4, le2, List.cons_append, List.nil_append, pairsOf_octets, word4_le4, word2_le2]

/-! ### The command that its own octets spell (R193, R196) -/

section Requests

variable {link : Station} {tag : Byte} {s : State}

/-- A count that fits a frame fits an octet. -/
theorem oct_count {α : Type} {l : List α} {fixed each : Nat} (h : fixed + each * l.length ≤ maxFrameLength)
    (heach : 1 ≤ each) : (oct l.length).toNat = l.length := by
  have hle : l.length ≤ each * l.length := Nat.le_mul_of_pos_left _ heach
  unfold maxFrameLength at h
  rw [oct_toNat, Nat.mod_eq_of_lt (by omega)]

theorem takeOpenFrame_octets {id : Word16} {grades : List Byte} (h : 5 + grades.length ≤ maxFrameLength) :
    takeTypedFrame link tag .openTransfer (le2 id.toNat ++ [oct grades.length] ++ grades) s =
      execOpen link tag id grades s := by
  have hcount : grades.length = (oct grades.length).toNat :=
    (oct_count (fixed := 5) (each := 1) (by omega) le_rfl).symm
  exact (if_pos hcount).trans (congrArg (execOpen link tag · grades s) (word2_le2 id))

theorem takeGaugeFrame_octets {entries : List GaugeEntry} (h : 3 + 5 * entries.length ≤ maxFrameLength) :
    takeTypedFrame link tag .gauge (oct entries.length :: entries.flatMap fun e => e.tank :: le4 e.contents.toNat) s =
      execGauge link tag entries s := by
  have hlen : (entries.flatMap fun e => e.tank :: le4 e.contents.toNat).length = 5 * (oct entries.length).toNat := by
    simp [oct_count h, le4, Nat.mul_comm]
  exact (if_pos hlen).trans (congrArg (execGauge link tag · s) (gaugesOf_octets entries))

theorem takeProposeFrame_octets {c : StepContent} (h : c.tanks.length < 256) :
    takeTypedFrame link tag .propose (contentOctets c) s = execPropose link tag c s := by
  have htake : takeTypedFrame link tag .propose (contentOctets c) s = match contentOf (contentOctets c) with
    | some c => execPropose link tag c s
    | none => malformed link .propose tag s := rfl
  rw [htake, contentOf_octets h]

theorem takeAmendFrame_octets {number : Byte} {c : StepContent} (h : c.tanks.length < 256) :
    takeTypedFrame link tag .amend (number :: contentOctets c) s = execAmend link tag number c s := by
  have htake : takeTypedFrame link tag .amend (number :: contentOctets c) s = match contentOf (contentOctets c) with
    | some c => execAmend link tag number c s
    | none => malformed link .amend tag s := rfl
  rw [htake, contentOf_octets h]

theorem takeTankdefFrame_octets {index : Byte} {c : TankContent} :
    takeTypedFrame link tag .tankdef ([index, c.flag] ++ le4 c.capacity.toNat ++ le2 c.high.toNat ++ le2 c.trip.toNat) s =
      execTankdef link tag index c s := by
  obtain ⟨flag, capacity, high, trip⟩ := c
  have htake : takeTypedFrame link tag .tankdef
      ([index, flag] ++ le4 capacity.toNat ++ le2 high.toNat ++ le2 trip.toNat) s =
      execTankdef link tag index
        { flag := flag,
          capacity := word4 (oct capacity.toNat) (oct (capacity.toNat / 256)) (oct (capacity.toNat / 65536))
            (oct (capacity.toNat / 16777216)),
          high := word2 (oct high.toNat) (oct (high.toNat / 256)),
          trip := word2 (oct trip.toNat) (oct (trip.toNat / 256)) } s := rfl
  rw [htake, word4_le4, word2_le2, word2_le2]

theorem takeStagedefFrame_octets {index : Byte} {c : StageContent} :
    takeTypedFrame link tag .stagedef
      ([index, c.enabled, c.input] ++ le2 c.enter.toNat ++ le2 c.leave.toNat ++ [c.mode, c.k]) s =
      execStagedef link tag index c s := by
  obtain ⟨enabled, input, enter, leave, mode, k⟩ := c
  have htake : takeTypedFrame link tag .stagedef
      ([index, enabled, input] ++ le2 enter.toNat ++ le2 leave.toNat ++ [mode, k]) s =
      execStagedef link tag index
        { enabled := enabled, input := input, enter := word2 (oct enter.toNat) (oct (enter.toNat / 256)),
          leave := word2 (oct leave.toNat) (oct (leave.toNat / 256)), mode := mode, k := k } s := rfl
  rw [htake, word2_le2, word2_le2]

theorem takeAgentFrame_octets {address : Byte} {c : AgentContent} :
    takeTypedFrame link tag .set
      ([0x0F#8, address, c.enabled, c.role, c.channels, c.use] ++ le2 c.warn.toNat ++ le2 c.trip.toNat) s =
      execSetAgentConfiguration link tag address c s := by
  obtain ⟨enabled, role, channels, use, warn, trip⟩ := c
  have htake : takeTypedFrame link tag .set
      ([0x0F#8, address, enabled, role, channels, use] ++ le2 warn.toNat ++ le2 trip.toNat) s =
      execSetAgentConfiguration link tag address
        { enabled := enabled, role := role, channels := channels, use := use,
          warn := word2 (oct warn.toNat) (oct (warn.toNat / 256)),
          trip := word2 (oct trip.toNat) (oct (trip.toNat / 256)) } s := rfl
  rw [htake, word2_le2, word2_le2]

/-- A SET of one number is read by its code (R196). -/
theorem takeNumberFrame_octets {code index : Byte} {v : Word16} (hlisted : unlistedCode code = false)
    (hagent : code ≠ 0x0F#8) (hline : code ≠ 0x10#8) :
    takeTypedFrame link tag .set ([code, index] ++ le2 v.toNat) s = takeSetNumber link tag code index v s := by
  refine (if_neg (by simp [hlisted])).trans ((if_neg hagent).trans ((if_neg hline).trans ?_))
  show takeSetNumber link tag code index (word2 (oct v.toNat) (oct (v.toNat / 256))) s = _
  rw [word2_le2]

theorem takeRateLimitFrame_octets {which : RateLimit} {index : Byte} {v : Word16} :
    takeTypedFrame link tag .set ([limitCode which, index] ++ le2 v.toNat) s =
      execSetRateLimits link tag which index v s := by
  cases which <;> exact takeNumberFrame_octets rfl (by decide) (by decide)

theorem takeStopTimeFrame_octets {which : StopTime} {index : Byte} {v : Word16} :
    takeTypedFrame link tag .set ([stopTimeCode which, index] ++ le2 v.toNat) s =
      execSetStopTimes link tag which index v s := by
  cases which <;> exact takeNumberFrame_octets rfl (by decide) (by decide)

theorem takeTimerFrame_octets {which : TimerSetting} {index : Byte} {v : Word16} :
    takeTypedFrame link tag .set ([timerCode which, index] ++ le2 v.toNat) s =
      execSetTimerSetting link tag which index v s := by
  cases which with
  | silence station => cases station <;> exact takeNumberFrame_octets rfl (by decide) (by decide)
  | _ => exact takeNumberFrame_octets rfl (by decide) (by decide)

/-- The octets with which a request command is sent spell that command: counted lists and numbers are read back, and
every other operand is an octet of its own (R196). -/
theorem takeTypedFrame_requestData {c : Instr} {type : RequestType} {formed : Bool} {data : List Byte}
    (hw : WellFormed c = true) (hc : requestOf c = some (link, type, tag, formed))
    (hd : requestData c = some (type, data)) : takeTypedFrame link tag type data s = exec c s := by
  cases c <;> cases hc <;> cases hd
  case openTransfer => exact takeOpenFrame_octets (of_decide_eq_true hw)
  case propose =>
    have hlen := of_decide_eq_true hw
    exact takeProposeFrame_octets (by unfold maxFrameLength at hlen; omega)
  case amend =>
    have hlen := of_decide_eq_true hw
    exact takeAmendFrame_octets (by unfold maxFrameLength at hlen; omega)
  case gauge => exact takeGaugeFrame_octets (of_decide_eq_true hw)
  case tankdef => exact takeTankdefFrame_octets
  case stagedef => exact takeStagedefFrame_octets
  case setRateLimits => exact takeRateLimitFrame_octets
  case setStopTimes => exact takeStopTimeFrame_octets
  case setTimerSetting => exact takeTimerFrame_octets
  case setS => exact takeNumberFrame_octets rfl (by decide) (by decide)
  case setW => exact takeNumberFrame_octets rfl (by decide) (by decide)
  case setNoFlow => exact takeNumberFrame_octets rfl (by decide) (by decide)
  case setAgentConfiguration => exact takeAgentFrame_octets
  all_goals rfl

end Requests

/-- Settles O50: the type octet by `takeFrame_code`, the data type by type by `takeTypedFrame_requestData`. -/
theorem requestFrameIsItsCommand : Obligations.RequestFrameIsItsCommand := by
  intro c s link type tag formed data hw hc hd
  rw [takeFrame_code]
  exact takeTypedFrame_requestData hw hc hd

end Sys2Proof.Machine
end

