-- ==== Sys2Proof/Proofs/LineFrames.lean ====
section
/-! A frame's octets on the line, received one by one, are taken as that frame (R184, R185, R192). -/

namespace Sys2Proof.Machine

/-! ### What a frame's taking reads of its link (R188, R192)

A request's owner finds its link as the frame leaves it: what the receiver held of the frame does not matter. -/

section Opened

variable {link : Station} {s t : State} (hr : s.running = true) (ho : t.opened link = s.opened link)

include ho in
theorem running_of_opened : t.running = s.running := by
  simpa using congrArg State.running ho

include ho in
theorem queue_of_opened : (t.link link).queue = (s.link link).queue := by
  have h := congrArg (fun u : State => (u.link link).queue) ho
  simpa [State.opened_link, Link.resetReceiver] using h

include hr ho

theorem request_opened {type : RequestType} {tag : Byte} {formed : Bool} {owner : Event → Event × Answer} :
    request link type tag formed owner t = request link type tag formed owner s := by
  have hrt : t.running = true := (running_of_opened ho).trans hr
  have hqueue := queue_of_opened ho
  by_cases hfull : Config.queueCapacity ≤ (s.link link).queue.length
  · rw [request_full hr hfull, request_full hrt (hqueue ▸ hfull), ho]
  · have hroom := Nat.lt_of_not_le hfull
    simp only [request_room hr hroom, request_room hrt (hqueue ▸ hroom), State.refused, ho]

theorem takeSetNumber_opened (tag code index : Byte) (v : Word16) :
    takeSetNumber link tag code index v t = takeSetNumber link tag code index v s := by
  unfold takeSetNumber
  split <;> exact request_opened hr ho

theorem takeSetFrame_opened (tag : Byte) (data : List Byte) :
    takeSetFrame link tag data t = takeSetFrame link tag data s := by
  unfold takeSetFrame
  split
  · split
    · split <;> exact request_opened hr ho
    · split
      · split <;> exact request_opened hr ho
      · split
        · split <;> exact request_opened hr ho
        · split
          · exact takeSetNumber_opened hr ho ..
          · exact request_opened hr ho
  · exact request_opened hr ho

theorem takeReadFrame_opened (tag : Byte) (data : List Byte) :
    takeReadFrame link tag data t = takeReadFrame link tag data s := by
  unfold takeReadFrame
  split
  · split <;> exact request_opened hr ho
  · split <;> exact request_opened hr ho
  · exact request_opened hr ho

/-- Every row of R196 is one request, whatever its data. -/
theorem takeTypedFrame_opened (tag : Byte) (type : RequestType) (data : List Byte) :
    takeTypedFrame link tag type data t = takeTypedFrame link tag type data s := by
  unfold takeTypedFrame
  congr 1
  -- OPEN, PROPOSE, AMEND and GAUGE, whose counts may not give their lengths
  case e_h_1 | e_h_4 | e_h_5 | e_h_15 =>
    funext
    split <;> exact request_opened hr ho
  -- SET and READ, whose first octet names what follows
  case e_h_18 => exact funext fun data => takeSetFrame_opened hr ho tag data
  case e_h_20 => exact funext fun data => takeReadFrame_opened hr ho tag data
  all_goals
    funext
    exact request_opened hr ho

end Opened

/-- An octet that names no request type is none of 01h to 16h (R194). -/
theorem isRequestType_of_typeOfCode {type : Byte} (h : typeOfCode type = none) : isRequestType type = false := by
  have hnamed : ∀ k : Fin 22, typeOfCode (oct (k.val + 1)) ≠ none := by decide
  refine decide_eq_false fun ⟨hlo, hhi⟩ => hnamed ⟨type.toNat - 1, by omega⟩ ?_
  have htype : oct (type.toNat - 1 + 1) = type := by
    rw [BitVec.toNat_eq, oct_toNat]
    omega
  rw [← h, htype]

/-- A valid frame is taken alike from two states that differ in what the receiver of its link holds (R192). -/
theorem takeFrame_opened {link : Station} {s t : State} (hr : s.running = true) (ho : t.opened link = s.opened link)
    (type tag : Byte) (data : List Byte) : takeFrame link type tag data t = takeFrame link type tag data s := by
  unfold takeFrame
  split
  · exact takeTypedFrame_opened hr ho ..
  · next hnone =>
    have hno := isRequestType_of_typeOfCode hnone
    have hrt : t.running = true := (running_of_opened ho).trans hr
    show exec (.unknownRequest link tag type) t = exec (.unknownRequest link tag type) s
    rw [exec_unknownRequest hrt hno, exec_unknownRequest hr hno, queue_of_opened ho, ho]

/-! ### One octet of a frame, escaped or as it stands (R184, R185) -/

/-- What is written to a link replaces what was written to it before. -/
theorem noted_setLink_setLink (s : State) (link : Station) (l l' : Link) :
    (s.noted.setLink link l).noted.setLink link l' = s.noted.setLink link l' := by
  cases link <;> rfl

/-- An escape octet has arrived. -/
def State.escaping (s : State) (link : Station) : State := s.noted.setLink link { s.link link with escape := true }

section Octet

variable {s t : State} {link : Station} {v octet : Byte} {rest : List Byte}

theorem State.escaping_link : (s.escaping link).link link = { s.link link with escape := true } :=
  State.setLink_link_same ..

theorem escaping_setLink (l : Link) : (s.escaping link).noted.setLink link l = s.noted.setLink link l :=
  noted_setLink_setLink ..

theorem escaping_opened : (s.escaping link).opened link = s.opened link := by
  cases link <;> rfl

/-- A discard leaves no trace of the escape (R186). -/
theorem frameDiscard_escaping (hr : s.running = true) (cause : DiscardCause) :
    exec (.frameDiscard link cause) (s.escaping link) = exec (.frameDiscard link cause) s := by
  rw [exec_frameDiscard hr, exec_frameDiscard (by exact hr), escaping_setLink, State.escaping_link]

theorem takeCorrect_escaping (hr : s.running = true) (octets : List Byte) :
    takeCorrect link octets (s.escaping link) = takeCorrect link octets s := by
  unfold takeCorrect
  split
  · exact takeFrame_opened hr escaping_opened ..
  · have hre : (s.escaping link).running = true := hr
    rw [quietEvent_running hr, quietEvent_running hre]
    cases link <;> rfl

theorem takeOctet_checkHigh (h : (s.link link).receiver = .checkHigh) : takeOctet link v s =
    if frameCorrect (s.link link) v then takeCorrect link (s.link link).frameOctets s
    else exec (.frameDiscard link .badCheck) s := by
  unfold takeOctet
  simp only [h]
  rfl

/-- A value is taken alike from the octet itself and from its escape (R185). -/
theorem takeOctet_escaping (hr : s.running = true) (hin : (s.link link).receiver ≠ .hunt) :
    takeOctet link v (s.escaping link) = takeOctet link v s := by
  have hre : (s.escaping link).running = true := hr
  have hplace : ((s.escaping link).link link).receiver = (s.link link).receiver := by rw [State.escaping_link]
  cases hp : (s.link link).receiver <;> rw [hp] at hplace
  case hunt => exact absurd hp hin
  case length =>
    rw [takeOctet_length hr hp, takeOctet_length hre hplace, frameDiscard_escaping hr, escaping_setLink, State.escaping_link]
  case body => rw [takeOctet_body hr hp, takeOctet_body hre hplace, escaping_setLink, State.escaping_link]
  case checkLow => rw [takeOctet_checkLow hr hp, takeOctet_checkLow hre hplace, escaping_setLink, State.escaping_link]
  case checkHigh =>
    rw [takeOctet_checkHigh hp, takeOctet_checkHigh hplace, frameDiscard_escaping hr, takeCorrect_escaping hr,
      State.escaping_link]
    rfl

theorem receive_cons (h : exec (.receiverOctet link octet true) s = .next t) :
    receive link (octet :: rest) s = receive link rest t := by
  rw [receive, h]

/-- Inside a frame the octets that a value is sent as are taken as that value (R184, R185). -/
theorem receive_escapeOctet (hr : s.running = true) (hin : (s.link link).receiver ≠ .hunt)
    (he : (s.link link).escape = false) (h : takeOctet link v s = .next t) :
    receive link (escapeOctet v ++ rest) s = receive link rest t := by
  by_cases hspecial : v = 0xA5#8 ∨ v = 0x18#8 ∨ v = 0x1B#8
  · have hescape : exec (.receiverOctet link 0x1B#8 true) s = .next (s.escaping link) :=
      (exec_receiverOctet_good hr (by decide)).trans ((takeGoodOctet_unescaped hin he).trans
        ((if_neg (by decide)).trans ((if_pos rfl).trans (quietEvent_running hr))))
    have hin' : ((s.escaping link).link link).receiver ≠ .hunt := by rwa [State.escaping_link]
    have he' : ((s.escaping link).link link).escape = true := by rw [State.escaping_link]
    have hvalue : exec (.receiverOctet link (v ^^^ 0x20#8) true) (s.escaping link) = .next t := by
      rw [← h, ← takeOctet_escaping hr hin]
      rcases hspecial with rfl | rfl | rfl
      all_goals
        exact (exec_receiverOctet_good (by exact hr) (by decide)).trans
          (takeGoodOctet_valued hin' (.inr ⟨he', by decide⟩))
    rw [escapeOctet, if_pos hspecial]
    exact (receive_cons hescape).trans (receive_cons hvalue)
  · obtain ⟨hstart, hhalt, hesc⟩ : v ≠ 0xA5#8 ∧ v ≠ 0x18#8 ∧ v ≠ 0x1B#8 := by
      simpa only [not_or] using hspecial
    rw [escapeOctet, if_neg hspecial]
    exact receive_cons ((exec_receiverOctet_good hr hhalt).trans
      ((takeGoodOctet_valued hin (.inl ⟨he, rfl, hstart, hesc⟩)).trans h))

end Octet

/-! ### A frame, octet by octet (R185) -/

/-- A link whose receiver waits inside a frame, with what it holds of it. -/
def Link.hearing (l : Link) (place : Receiver) (length : Nat) (octets : List Byte) (low : Byte) : Link :=
  { l with receiver := place, escape := false, frameLength := length, frameOctets := octets, checkLow := low }

/-- The state in which a link has received so much of a frame. -/
def State.hears (s : State) (link : Station) (place : Receiver) (length : Nat) (octets : List Byte) (low : Byte) : State :=
  s.noted.setLink link ((s.link link).hearing place length octets low)

/-- So many octets of a frame's length are in; after the last its check word is awaited. -/
def State.collects (s : State) (link : Station) (length : Nat) (octets : List Byte) : State :=
  s.hears link (if length ≤ octets.length then .checkLow else .body) length octets 0#8

section Hearing

variable {s t : State} {link : Station} {place : Receiver} {length : Nat} {octets rest : List Byte} {low v : Byte}

theorem State.hears_link :
    (s.hears link place length octets low).link link = (s.link link).hearing place length octets low :=
  State.setLink_link_same ..

theorem hears_setLink (l : Link) :
    (s.hears link place length octets low).noted.setLink link l = s.noted.setLink link l :=
  noted_setLink_setLink ..

theorem hears_opened : (s.hears link place length octets low).opened link = s.opened link := by
  cases link <;> rfl

variable (hr : s.running = true)
include hr

/-- A start octet begins a frame. -/
theorem receive_start (h : (s.link link).receiver = .hunt) :
    receive link (0xA5#8 :: rest) s = receive link rest (s.hears link .length 0 [] 0#8) :=
  receive_cons ((exec_receiverOctet_good hr (by decide)).trans (takeGoodOctet_hunt hr h))

theorem receive_hears (hp : place ≠ .hunt) (h : takeOctet link v (s.hears link place length octets low) = .next t) :
    receive link (escapeOctet v ++ rest) (s.hears link place length octets low) = receive link rest t := by
  refine receive_escapeOctet (by exact hr) ?_ ?_ h
  · rwa [State.hears_link]
  · rw [State.hears_link]
    rfl

theorem hears_length (hlo : 2 ≤ v.toNat) (hhi : v.toNat ≤ 200) :
    takeOctet link v (s.hears link .length 0 [] 0#8) = .next (s.collects link v.toNat []) := by
  have hbody : ¬v.toNat ≤ ([] : List Byte).length := Nat.not_le.2 (Nat.lt_of_lt_of_le Nat.zero_lt_two hlo)
  rw [takeOctet_length (by exact hr) (by rw [State.hears_link]; rfl), if_pos ⟨hlo, hhi⟩, hears_setLink, State.hears_link,
    State.collects, if_neg hbody]
  rfl

theorem hears_body : takeOctet link v (s.hears link .body length octets 0#8) =
    .next (s.collects link length (octets ++ [v])) := by
  rw [takeOctet_body (by exact hr) (by rw [State.hears_link]; rfl), hears_setLink, State.hears_link, State.collects,
    List.length_append, List.length_singleton]
  rfl

theorem hears_checkLow : takeOctet link v (s.hears link .checkLow length octets low) =
    .next (s.hears link .checkHigh length octets v) := by
  rw [takeOctet_checkLow (by exact hr) (by rw [State.hears_link]; rfl), hears_setLink, State.hears_link]
  rfl

/-- The last check octet of a frame that sums to 0 completes it (R184, R192). -/
theorem hears_checkHigh {type tag : Byte} {data : List Byte}
    (hsum : (octetSum (oct length :: type :: tag :: data) + low.toNat + 256 * v.toNat) % 65536 = 0) :
    takeOctet link v (s.hears link .checkHigh length (type :: tag :: data) low) = takeFrame link type tag data s := by
  rw [takeOctet_checkHigh (by rw [State.hears_link]; rfl), State.hears_link]
  exact (if_pos (decide_eq_true hsum)).trans (takeFrame_opened hr hears_opened type tag data)

/-- The octets of a frame are collected, one after another, up to its length. -/
theorem receive_collects (before octets : List Byte) (h : length = before.length + octets.length) :
    receive link (octets.flatMap escapeOctet ++ rest) (s.collects link length before) =
      receive link rest (s.hears link .checkLow length (before ++ octets) 0#8) := by
  induction octets generalizing before with
  | nil => rw [State.collects, if_pos (by simp [h]), List.append_nil]; rfl
  | cons v octets ih =>
    have hmore : ¬length ≤ before.length := by simp [h]
    have hnext : length = (before ++ [v]).length + octets.length := by simp [h]; omega
    rw [List.flatMap_cons, List.append_assoc, State.collects, if_neg hmore, receive_hears hr (by decide) (hears_body hr),
      ih _ hnext, List.append_assoc]
    rfl

end Hearing

/-- The octets that the check word covers and the check word sum to 0 (R184). -/
theorem covered_sums (l : List Byte) :
    (octetSum l + (oct (checkWord l)).toNat + 256 * (oct (checkWord l / 256)).toNat) % 65536 = 0 := by
  have hlt : octetSum l < 65536 := Nat.mod_lt _ (by decide)
  rw [oct_toNat, oct_toNat, checkWord]
  omega

theorem onLine_eq (f : Frame) : f.onLine =
    0xA5#8 :: (escapeOctet (oct (f.data.length + 2)) ++ ((f.type :: f.tag :: f.data).flatMap escapeOctet ++
      (escapeOctet (oct (checkWord f.covered)) ++ (escapeOctet (oct (checkWord f.covered / 256)) ++ [])))) := by
  simp only [Frame.onLine, Frame.covered, le2, List.flatMap_append, List.flatMap_cons, List.flatMap_nil, List.append_assoc]

/-- Settles O49: the start octet, the length, the octets of the frame and its check word, each taken by its place. -/
theorem lineOctetsSpellFrame : Obligations.LineOctetsSpellFrame := by
  intro s link f hr hh hdata
  have hlength : (oct (f.data.length + 2)).toNat = f.data.length + 2 := by
    rw [oct_toNat, Nat.mod_eq_of_lt (by omega)]
  obtain ⟨t, ht, -⟩ := takeFrame_completes link f.type f.tag f.data s
  have hlast := hears_checkHigh (link := link) hr (covered_sums f.covered)
  rw [onLine_eq, receive_start hr hh, receive_hears hr (by decide) (hears_length hr (by omega) (by omega)), hlength,
    receive_collects hr [] _ (by simp), receive_hears hr (by decide) (hears_checkLow hr), ht]
  exact receive_hears hr (by decide) (hlast.trans ht)

end Sys2Proof.Machine
end

