-- ==== Sys2Proof/Proofs/StepCommand.lean ====
section
/-! What a step does with the queue of waiting commands (log 6). -/

namespace Sys2Proof.Machine

section Queue
variable {s : State} {c : Instr} {rest : List Instr}

theorem step_of_pending_cons (h : s.pending = c :: rest) : step s = exec c { s with pending := rest } := by
  rw [step, h]

theorem step_of_pending_nil (h : s.pending = []) : step s = .next s := by
  rw [step, h]

end Queue

/-- Settles O1: the two forms of the queue, a command in front and none. -/
theorem stepRunsFrontCommand : Obligations.StepRunsFrontCommand :=
  ⟨fun _ _ _ => step_of_pending_cons, fun _ => step_of_pending_nil⟩

end Sys2Proof.Machine
end
